-- ==== Sys2Proof/Word.lean ====
section
/-! DEFINITION. The word types of the ZJ-240 and the plain numbers its rules name. -/

namespace Sys2Proof

/-- A 32-bit register, an epoch number, a generation, a journal identity, a timebase value. -/
abbrev W32 := BitVec 32

/-- A word of memory: 8 bytes (scope 0.7). -/
abbrev W64 := BitVec 64

/-- A 36-bit byte address (scope 0.7). -/
abbrev Addr := BitVec 36

/-- A cell index, 0 to 0x3FFF_FFFF (R1). -/
abbrev CellIx := BitVec 30

/-- The 64 bytes of a cell or slot; byte j is bits 8j to 8j + 7 (scope 0.7, little-endian). -/
abbrev CellData := BitVec 512

/-- 64 byte enables of a cell; bit j is byte j (R16). -/
abbrev Strobes := BitVec 64

/-- A host tag, 0 to 15 (R16). -/
abbrev Tag := Fin 16

/-- A watch rule number, 0 to 7 (R109). -/
abbrev RuleNo := Fin 8

/-- A link slot number of the M-port, 0 to 31 (R163). -/
abbrev LinkNo := Fin 32

end Sys2Proof
end

