-- ==== Sys2Proof/Config.lean ====
section
/-! DEFINITION. The numbers the manual fixes for every part: sizes of the tables and queues, magic
constants, reset values that are not zero; and the one free value, the outcome of a choice that the
manual leaves open. -/

namespace Sys2Proof.Config

/-- DESIGN CHOICE (assumption 4): how the k-th choice that the manual leaves open falls. Nothing
constrains it. -/
opaque openChoice : Nat → Nat

/-- Entries of the transaction table (R18). -/
def tableSize : Nat := 16

/-- Places of the record queue, claims counted (R43). -/
def recordPlaces : Nat := 8

/-- Ways of one filter set (R51). -/
def filterWays : Nat := 4

/-- Sets of the preservation filter (R51). -/
def filterSets : Nat := 512

/-- Records the notice queue holds (R180). -/
def noticePlaces : Nat := 16

/-- Smallest and largest JSLOTS in range (R2). -/
def minSlots : Nat := 4
def maxSlots : Nat := 1048576

/-- Number of cells of the address space (R1). -/
def cellCount : Nat := 1073741824

/-- JMAGIC (R69) and RMAGIC (R72). -/
def jmagic : W32 := 0x5A4A4844#32
def rmagic : W32 := 0x5A4A5243#32

/-- The ID register (R184). -/
def partId : W32 := 0x5A4A0240#32

/-- RESP_LIMIT after a cold reset (R168), and the limit used while it holds 0 (R168). -/
def coldRespLimit : BitVec 16 := 1000#16
def zeroRespLimit : BitVec 16 := 65535#16

/-- The last epoch number of a journal life (R84). -/
def lastEpoch : W32 := 0xFFFFFFFF#32

/-- The saturation value of HITS (R110). -/
def maxHits : BitVec 16 := 65535#16

end Sys2Proof.Config
end

