-- ==== Sys2Proof/Syntax.lean ====
section
/-! DEFINITION. The commands of the part: one constructor of Instr per row of spec/opcode_table.json,
with the row's operands. -/

namespace Sys2Proof

/-- The kind of a host request (R16). -/
inductive ReqKind where
  | read
  | write
deriving DecidableEq, Repr

/-- One host request as the link carries it (R16). Carried word i has its eight byte enables in bits
8i to 8i + 7 of `enables` and its data in bits 64i to 64i + 63 of `data`; a read carries neither. -/
structure HostRequest where
  tag : Tag
  kind : ReqKind
  addr : Addr
  count : Nat
  enables : Strobes
  data : CellData
deriving DecidableEq, Repr

/-- What memory answers for a link slot (R165). The data of an OK answer to a read stands from bit 0
up: 64 bytes for a whole cell or slot, COUNT words from FIRST for a FORWARD_READ. -/
inductive Answer where
  | ok (data : CellData)
  | error
deriving DecidableEq, Repr

/-- The four COMMAND codes that name no command (R186). -/
inductive UndefCode where
  | code0
  | code13
  | code14
  | code15
deriving DecidableEq, Repr

/-- The three geometry registers (R188). -/
inductive GeoReg where
  | jbaseLo
  | jbaseHi
  | jslots
deriving DecidableEq, Repr

/-- The two registers of a rule's WADDR (R184). -/
inductive WaddrHalf where
  | lo
  | hi
deriving DecidableEq, Repr

/-- The two edges of a cold reset (R193): RSTn asserted or the supply coming up, and RSTn deasserted with
the supply valid. -/
inductive ResetEdge where
  | assert
  | release
deriving DecidableEq, Repr

/-- What a REGISTER_WRITE names: one of the three registers that only store a value, or an offset the
port ignores (a read-only register or no register, R185). -/
inductive PlainTarget where
  | arg
  | deadline
  | nh0
  | ignored (offset : BitVec 10)
deriving DecidableEq, Repr

/-- The commands, events and requests the part takes, one constructor per row of the table. -/
inductive Instr where
  | hostRequest (r : HostRequest)
  | pfwAssert
  | pfwDeassert
  | coldReset (edge : ResetEdge)
  | holdExpiry (tag : Tag)
  | deadlineExpiry
  | mportAnswer (slot : LinkNo) (a : Answer)
  | responseTimeout (slot : LinkNo)
  | staleLateAnswer (slot : LinkNo) (a : Answer)
  | quarantineEnd (slot : LinkNo)
  | mportGrant
  | drainComplete
  | headerAccessIssue
  | recordSlotWritesRequest (index : Nat)
  | restoreWriteIssue
  | watchActionDelivery (tag : Tag)
  | openCmd
  | commitCmd
  | commitOpenCmd
  | abortCmd
  | extendCmd
  | recoverCmd
  | formatCmd
  | discardCmd
  | resumeCmd
  | rearmCmd
  | noticePopCmd
  | softResetCmd
  | undefinedCmd (code : UndefCode)
  | config0Write (v : W32)
  | holdLimitWrite (v : W32)
  | respLimitWrite (v : W32)
  | geometryWrite (reg : GeoReg) (v : W32)
  | configErrorClear (v : W32)
  | eventPendingClear (v : W32)
  | eventLevelWrite (v : W32)
  | guardAWrite (n : Fin 16) (v : W32)
  | guardBWrite (n : Fin 16) (v : W32)
  | waddrWrite (r : RuleNo) (half : WaddrHalf) (v : W32)
  | condWrite (r : RuleNo) (k : Fin 6) (v : W32)
  | wctlWrite (r : RuleNo) (v : W32)
  | registerWrite (target : PlainTarget) (v : W32)
  | answerToFreeLinkSlot (slot : LinkNo) (a : Answer)
deriving DecidableEq, Repr

end Sys2Proof
end

