-- ==== Sys2Proof/Decode.lean ====
section
/-! DEFINITION. From bits to commands. No row of spec/opcode_table.json gives bits, so decodeTableWord
reads no command from a word. What the part does decode is a write on the management port: an offset
of the register window and a 32-bit value (R184, R186, R189). -/

namespace Sys2Proof

/-- The command a word spells by the table's bits: none, since no row of the table gives bits. -/
def decodeTableWord (_nbits _w : Nat) : Option Instr := none

/-- The command a COMMAND write gives: bits 3:0 name it, bits 31:4 are ignored (R186). -/
def decodeCommand (v : W32) : Instr :=
  match (v.extractLsb' 0 4).toNat with
  | 1 => .openCmd
  | 2 => .commitCmd
  | 3 => .commitOpenCmd
  | 4 => .abortCmd
  | 5 => .extendCmd
  | 6 => .recoverCmd
  | 7 => .formatCmd
  | 8 => .discardCmd
  | 9 => .resumeCmd
  | 10 => .rearmCmd
  | 11 => .noticePopCmd
  | 12 => .softResetCmd
  | 13 => .undefinedCmd .code13
  | 14 => .undefinedCmd .code14
  | 15 => .undefinedCmd .code15
  | _ => .undefinedCmd .code0

/-- A write in the watch registers of rule r at offset k of its 64 bytes (R184). -/
def decodeWatchWrite (r : RuleNo) (k : Nat) (offset : BitVec 10) (v : W32) : Instr :=
  match k with
  | 0x00 => .waddrWrite r .lo v
  | 0x04 => .waddrWrite r .hi v
  | 0x08 => .condWrite r 0 v
  | 0x0C => .condWrite r 1 v
  | 0x10 => .condWrite r 2 v
  | 0x14 => .condWrite r 3 v
  | 0x18 => .condWrite r 4 v
  | 0x1C => .condWrite r 5 v
  | 0x20 => .wctlWrite r v
  | _ => .registerWrite (.ignored offset) v

/-- The command a management write gives by its offset (R184). A write to a read-only register, or to
an offset that names no register, is the REGISTER_WRITE the port ignores (R185). -/
def decodePortWrite (offset : BitVec 10) (v : W32) : Instr :=
  let off := offset.toNat
  match off with
  | 0x004 => .config0Write v
  | 0x008 => .respLimitWrite v
  | 0x00C => .holdLimitWrite v
  | 0x010 => .registerWrite .deadline v
  | 0x014 => .geometryWrite .jbaseLo v
  | 0x018 => .geometryWrite .jbaseHi v
  | 0x01C => .geometryWrite .jslots v
  | 0x020 => .configErrorClear v
  | 0x02C => decodeCommand v
  | 0x030 => .registerWrite .arg v
  | 0x054 => .eventLevelWrite v
  | 0x058 => .eventPendingClear v
  | 0x070 => .registerWrite .nh0 v
  | _ =>
    if 0x200 ≤ off then
      decodeWatchWrite (Fin.ofNat 8 ((off - 0x200) / 0x40)) ((off - 0x200) % 0x40) offset v
    else if 0x100 ≤ off ∧ off < 0x180 ∧ off % 8 = 0 then
      .guardAWrite (Fin.ofNat 16 ((off - 0x100) / 8)) v
    else if 0x100 ≤ off ∧ off < 0x180 ∧ off % 8 = 4 then
      .guardBWrite (Fin.ofNat 16 ((off - 0x100) / 8)) v
    else
      .registerWrite (.ignored offset) v

end Sys2Proof
end

