-- ==== Sys2Proof/Machine/State.lean ====
section
/-! DEFINITION. The state of the part as plain data, block by block (scope 0.3), the outcomes a step
may name, and the state a cold reset leaves. -/

namespace Sys2Proof.Machine

/-! ### Guard table (chapter 1) -/

/-- The five classes of a cell (R6). -/
inductive CellClass where
  | journal
  | readonly
  | exempt
  | unguarded
  | journalArea
deriving DecidableEq, Repr

/-- One guard entry as stored (R3, R189). MODE 0 is JOURNAL, 1 READONLY, 2 EXEMPT, 3 names none. -/
structure GuardEntry where
  valid : Bool
  mode : BitVec 2
  base : CellIx
  count : BitVec 31
deriving DecidableEq, Repr

/-! ### Host-side port and transaction table (chapter 2) -/

/-- The result of an answered request (R19). -/
inductive HostResult where
  | okRead (words : List W64)
  | okWrite
  | denied
  | failed
  | aborted
deriving DecidableEq, Repr

/-- One response as it leaves the H-port (R19). -/
structure HostResponse where
  tag : Tag
  result : HostResult
deriving DecidableEq, Repr

/-- The hold causes (R23). -/
inductive HoldCause where
  | power
  | walk
  | transition
  | journalFull
deriving DecidableEq, Repr

/-- The stages of an entry (R21). HOLD_CAUSE and HELD_SINCE are present only while HELD (R20). -/
inductive Stage where
  | waiting
  | held (cause : HoldCause) (since : W32)
  | atTurn
  | fetchingOld
  | recording
  | issued
  | finishing
deriving DecidableEq, Repr

/-- The decisions an entry can carry on with (R31); a REFUSED write is answered at its decision. -/
inductive Decision where
  | bare
  | filterHit
  | preserve
deriving DecidableEq, Repr

/-- The epoch actions of the watch unit (R125). -/
inductive EpochAction where
  | commit
  | commitOpen
  | abort
deriving DecidableEq, Repr

/-- One entry of the transaction table (R20). -/
structure Entry where
  tag : Tag
  kind : ReqKind
  cell : CellIx
  first : Nat
  count : Nat
  strobes : Strobes
  data : CellData
  cls : CellClass
  watched : List RuleNo
  stage : Stage
  decision : Option Decision
  epoch : Option W32
  record : Option Nat
  old : Option CellData
  action : Option (EpochAction × RuleNo)
deriving DecidableEq, Repr

/-- The H-port and the two input pins: requests waiting on the link while the table is full, oldest first
(R18), the level of PFW (R24), whether RSTn or the supply holds the part in cold reset (R193), and the
responses that have left the port, oldest first (R19). -/
structure HostPort where
  link : List HostRequest
  pfw : Bool
  resetHeld : Bool
  out : List HostResponse
deriving DecidableEq, Repr

/-! ### Preservation unit (chapter 3) -/

/-- The two slots of a record (R46). -/
inductive RecHalf where
  | header
  | data
deriving DecidableEq, Repr

/-- A record in flight (section 3.1), with the EPOCH and JOURNAL_ID it was built with (R46). -/
structure RecElem where
  index : Nat
  cell : CellIx
  data : CellData
  tag : Tag
  epoch : W32
  journalId : W32
  requested : Bool
  headerAck : Bool
  dataAck : Bool
deriving DecidableEq, Repr

/-- One entry of the preservation filter (R51). -/
structure FilterEntry where
  cell : CellIx
  index : Nat
deriving DecidableEq, Repr

/-- The preservation unit. The filter is one list, oldest insertion first; a set is its entries of
one residue modulo 512, in that order (R51). Orphans are journal slot numbers (R61). -/
structure Preservation where
  queue : List RecElem
  claims : Nat
  filter : List FilterEntry
  orphans : List Nat
  fullReported : Bool
deriving DecidableEq, Repr

/-! ### Epoch engine (chapters 5, 7, 8) -/

/-- The nine engine states (R82). -/
inductive EngState where
  | unrecovered
  | idle
  | opening
  | opened
  | closing
  | faulted
  | rolling
  | recovering
  | stalled
deriving DecidableEq, Repr

/-- The header copies (R67). -/
inductive Copy where
  | a
  | b
deriving DecidableEq, Repr

/-- CLOSE_KIND (R83). -/
inductive CloseKind where
  | commit
  | commitOpen
deriving DecidableEq, Repr

inductive WalkKind where
  | rollback
  | recovery
deriving DecidableEq, Repr

inductive WalkPhase where
  | scan
  | restore
  | final
deriving DecidableEq, Repr

/-- STALL_CAUSE (R142). -/
inductive StallCause where
  | readFault
  | recordInvalid
  | writeFault
  | headerFault
deriving DecidableEq, Repr

/-- The walk values (R83, R151); each is absent outside a walk. -/
structure Walk where
  kind : Option WalkKind
  phase : Option WalkPhase
  index : Option Nat
  stall : Option StallCause
  scanCount : Option Nat
  discardCount : Option Nat
deriving DecidableEq, Repr

/-- Why the engine writes a header (R76). -/
inductive HdrPurpose where
  | opening
  | closeCommit
  | closeCommitOpen
  | reassert
  | walkFinal
  | discard
  | formatFirst
  | formatSecond
deriving DecidableEq, Repr

/-- Which command reads the headers (R149, R158). -/
inductive HdrReader where
  | recover
  | discard
deriving DecidableEq, Repr

/-- One of the two header reads: waiting under R78, requested of the M-port, or read OK. -/
inductive HdrRead where
  | waiting
  | requested
  | got (bytes : CellData)
deriving DecidableEq, Repr

/-- The operation the engine has in progress within its state: the step the rules of chapters 5, 7 and
8 have it wait at. -/
inductive EngineOp where
  | none
  | draining
  | headerWrite (why : HdrPurpose) (requested : Bool)
  | headerReads (why : HdrReader) (a b : HdrRead)
  | recordReads (header data : Option CellData)
  | restoreWait (cell : CellIx) (bytes : CellData)
  | restoreIssued (cell : CellIx)
deriving DecidableEq, Repr

/-- The epoch engine (R83), the counts of its header and restoration writes still outstanding at the
M-port (R78, R139), and its operation in progress. -/
structure Engine where
  state : EngState
  epoch : W32
  nextEpoch : Option W32
  generation : W32
  nextCopy : Copy
  journalId : W32
  nextIndex : Nat
  durableCount : Nat
  closeKind : Option CloseKind
  openNumber : Option W32
  deadlineLeft : BitVec 24
  deadlineRunning : Bool
  walk : Walk
  hdrOutA : Nat
  hdrOutB : Nat
  restoreOut : Nat
  op : EngineOp
deriving DecidableEq, Repr

/-! ### Watch unit (chapter 6) -/

/-- The state of a rule (R110). -/
inductive RuleState where
  | disarmed
  | armed
  | fired
deriving DecidableEq, Repr

/-- A watch rule (R109, R110). `waddr` is WADDR / 8; `conds` holds COND[b] in bits 3b to 3b + 2
(R189); `rearmAuto` is REARM_MODE AUTO. -/
structure WatchRule where
  enable : Bool
  waddr : BitVec 33
  conds : BitVec 192
  mode : BitVec 2
  action : BitVec 3
  rearmAuto : Bool
  state : RuleState
  overrun : Bool
  hits : BitVec 16
deriving DecidableEq, Repr

/-! ### Memory-side port (chapter 9) -/

/-- The nine kinds of memory transaction with what each carries (R162). -/
inductive MemOp where
  | forwardRead (tag : Tag) (cell : CellIx) (first count : Nat)
  | forwardWrite (tag : Tag) (cell : CellIx) (strobes : Strobes) (bytes : CellData)
  | oldRead (tag : Tag) (cell : CellIx)
  | slotWrite (index : Nat) (half : RecHalf) (bytes : CellData)
  | headerRead (copy : Copy)
  | headerWrite (copy : Copy) (bytes : CellData)
  | scanRead (index : Nat) (half : RecHalf)
  | restoreRead (index : Nat) (half : RecHalf)
  | restoreWrite (cell : CellIx) (bytes : CellData)
deriving DecidableEq, Repr

/-- A request waiting for a link slot (R164). `fresh` marks a request made at the event in progress,
which requests of the same event may still pass. -/
structure MemRequest where
  op : MemOp
  addr : Addr
  fresh : Bool
deriving DecidableEq, Repr

/-- The record of an outstanding transaction (R163). `wanted` is false once its requester no longer
wants the result (R165). -/
structure LinkRec where
  op : MemOp
  addr : Addr
  issued : W32
  limit : BitVec 16
  wanted : Bool
deriving DecidableEq, Repr

/-- A link slot (R163). -/
inductive LinkSlot where
  | free
  | busy (r : LinkRec)
  | stale (r : LinkRec)
deriving DecidableEq, Repr

/-- One transaction as it was issued on the memory link. -/
structure MemIssue where
  slot : LinkNo
  op : MemOp
  addr : Addr
deriving DecidableEq, Repr

/-- The M-port: 32 link slots, the request queue oldest first, and the transactions issued on the
memory link, oldest first. -/
structure MPort where
  slots : Vector LinkSlot 32
  queue : List MemRequest
  out : List MemIssue
deriving DecidableEq, Repr

/-! ### Event unit (chapter 10) -/

inductive DenyReason where
  | journalArea
  | readonly
  | unrecovered
  | bare
  | journalFull
  | watch
deriving DecidableEq, Repr

inductive ForwardFault where
  | forwardRead
  | forwardWrite
  | oldRead
deriving DecidableEq, Repr

inductive HeaderFaultReason where
  | openHeader
  | commit
  | commitOpen
  | reassert
  | discard
  | format
deriving DecidableEq, Repr

/-- The REASON of ACTION_DROPPED: the engine state at the drop, or EXHAUSTED (R104). -/
inductive DropReason where
  | inState (s : EngState)
  | exhausted
deriving DecidableEq, Repr

inductive DeadlineReason where
  | event
  | commit
  | abort
deriving DecidableEq, Repr

/-- The outcomes of a recovery or DISCARD with what each carries (R161). -/
inductive RecoveryReport where
  | headerReadFault (addr : Addr)
  | noValidHeader
  | clean
  | rolledBack (count : Nat)
  | discarded (count : Nat)
deriving DecidableEq, Repr

/-- The EPOCH_EVENT reasons with the INDEX each carries (R179). -/
inductive EpochReport where
  | opened
  | commitOpened (count : Nat)
  | committed (count : Nat)
  | rolledBack (count : Nat)
  | discarded (count : Nat)
  | formatted
deriving DecidableEq, Repr

inductive ProtocolReason where
  | tagInUse
  | boundary
deriving DecidableEq, Repr

/-- The sixteen notice kinds in the order of R179, each with the fields it carries. -/
inductive NoticeBody where
  | watchFired (rule : RuleNo) (addr : Addr) (tag : Tag) (old new : W64) (bit : Option (Fin 64))
  | watchOverrun (rule : RuleNo) (addr : Addr) (tag : Tag)
  | actionDropped (rule : RuleNo) (addr : Addr) (tag : Tag) (why : DropReason)
  | denied (addr : Addr) (tag : Tag) (why : DenyReason)
  | bareWrite (addr : Addr) (tag : Tag)
  | holdExpired (addr : Addr) (tag : Tag) (why : HoldCause)
  | forwardFault (addr : Addr) (tag : Tag) (why : ForwardFault)
  | journalFull (addr : Addr) (tag : Tag) (capacity : Nat)
  | journalFault (addr : Addr) (tag : Tag) (index : Nat) (why : RecHalf)
  | headerFault (addr : Addr) (why : HeaderFaultReason)
  | walkStall (addr : Addr) (index : Option Nat) (kind : WalkKind) (phase : WalkPhase) (cause : StallCause)
  | deadlineExpired (why : DeadlineReason)
  | recoveryResult (why : RecoveryReport)
  | epochEvent (why : EpochReport)
  | protocol (addr : Addr) (tag : Tag) (why : ProtocolReason)
  | powerChange (asserted : Bool)
deriving DecidableEq, Repr

/-- A notice record (R179): TIME and EPOCH at posting, and what its kind carries. -/
structure Notice where
  time : W32
  epoch : W32
  body : NoticeBody
deriving DecidableEq, Repr

/-- The event unit: PENDING flag of class i in bit i − 1, LEVEL of class i in bits 2i − 1 and 2i − 2
(R191), and the notice queue, head first (R180). -/
structure EventUnit where
  flags : BitVec 11
  levels : BitVec 22
  notices : List Notice
deriving DecidableEq, Repr

/-- The timebase (R172) and the reference periods counted since its last advance. -/
structure Clock where
  timebase : W32
  prescale : BitVec 8
deriving DecidableEq, Repr

/-! ### Management port (chapter 11) -/

inductive BarePolicy where
  | pass
  | deny
deriving DecidableEq, Repr

inductive FullPolicy where
  | hold
  | deny
deriving DecidableEq, Repr

/-- The configuration values of R187 and the geometry of R2. `jbaseCell` is JBASE / 64, whose low six
bits are always zero. -/
structure Settings where
  tickdiv : BitVec 8
  barePolicy : BarePolicy
  fullPolicy : FullPolicy
  deadlineAction : BitVec 2
  eventEnable : Bool
  respLimit : BitVec 16
  holdLimit : BitVec 16
  deadline : BitVec 24
  jbaseCell : CellIx
  jslots : W32
deriving DecidableEq, Repr

/-- Why a command is refused (R85). -/
inductive RefuseReason where
  | busy
  | state
  | unconfigured
deriving DecidableEq, Repr

inductive CmdOutcome where
  | noneTaken
  | accepted
  | refused (why : RefuseReason)
  | empty
deriving DecidableEq, Repr

/-- CMD_RESULT (R186). -/
structure CmdResult where
  code : BitVec 4
  outcome : CmdOutcome
deriving DecidableEq, Repr

/-- The management port's own registers: ARG, CMD_RESULT (R186), DSEL (R192), CONFIG_ERROR (R190). -/
structure MgmtPort where
  arg : W32
  cmdResult : CmdResult
  dsel : BitVec 2
  configError : Bool
deriving DecidableEq, Repr

/-! ### The whole part -/

/-- The model's own (assumption 4): how the choices that the manual leaves open fall. The choices given are
used up first, the free values of Config after them; `drawn` counts the free values used. -/
structure Choices where
  given : List Nat
  drawn : Nat
deriving DecidableEq, Repr

/-- The state of the part, and two fields of the model's own: the queue of commands that wait, and
`choices`, from which every order and pick that the manual leaves open is drawn. -/
structure State where
  pending : List Instr
  choices : Choices
  host : HostPort
  guards : Vector GuardEntry 16
  table : List Entry
  pres : Preservation
  eng : Engine
  rules : Vector WatchRule 8
  mport : MPort
  ev : EventUnit
  clock : Clock
  cfg : Settings
  port : MgmtPort
deriving DecidableEq, Repr

/-- No step of this part faults: every command has an effect the manual gives, errors of the outside
included, which it reports by answers, notices and flags. The type has no constructor. -/
inductive Fault where
deriving DecidableEq, Repr

/-- Why a step is refused. -/
inductive Refusal where
  /-- Raised by an arm of exec whose command has no meaning yet. Safe: nothing can be proved of it. -/
  | notModelled (mnemonic : String)
deriving DecidableEq, Repr

/-! ### Cold-reset values -/

/-- R12. -/
def GuardEntry.reset : GuardEntry := { valid := false, mode := 0, base := 0, count := 0 }

/-- R131. -/
def WatchRule.reset : WatchRule :=
  { enable := false, waddr := 0, conds := 0, mode := 0, action := 0, rearmAuto := false,
    state := .disarmed, overrun := false, hits := 0 }

/-- R64. -/
def Preservation.reset : Preservation :=
  { queue := [], claims := 0, filter := [], orphans := [], fullReported := false }

/-- Every walk value absent (R83). -/
def Walk.absent : Walk :=
  { kind := none, phase := none, index := none, stall := none, scanCount := none,
    discardCount := none }

/-- R107, R77, R78. -/
def Engine.reset : Engine :=
  { state := .unrecovered, epoch := 0, nextEpoch := some 1, generation := 0, nextCopy := .a,
    journalId := 0, nextIndex := 0, durableCount := 0, closeKind := none, openNumber := none,
    deadlineLeft := 0, deadlineRunning := false, walk := Walk.absent, hdrOutA := 0, hdrOutB := 0,
    restoreOut := 0, op := .none }

/-- R171. The issue trace is the model's own and starts empty. -/
def MPort.reset : MPort := { slots := Vector.replicate 32 LinkSlot.free, queue := [], out := [] }

/-- R182. -/
def EventUnit.reset : EventUnit := { flags := 0, levels := 0, notices := [] }

/-- R182; the prescaler's value is the model's own. -/
def Clock.reset : Clock := { timebase := 0, prescale := 0 }

/-- R40, R100, R168, R172, R187, R188. -/
def Settings.reset : Settings :=
  { tickdiv := 0, barePolicy := .pass, fullPolicy := .hold, deadlineAction := 0, eventEnable := false,
    respLimit := Config.coldRespLimit, holdLimit := 0, deadline := 0, jbaseCell := 0, jslots := 0 }

/-- R186, R190, R192. -/
def MgmtPort.reset : MgmtPort :=
  { arg := 0, cmdResult := { code := 0, outcome := .noneTaken }, dsel := 0, configError := false }

/-- The model's own: no choice given, none drawn. -/
def Choices.reset : Choices := { given := [], drawn := 0 }

/-- The part right after a cold reset (R193): RSTn deasserted, with PFW deasserted, nothing waiting, and the model's
own fields empty (assumptions 4, 5 and 11). -/
def State.reset : State :=
  { pending := [], choices := Choices.reset, host := { link := [], pfw := false, resetHeld := false, out := [] },
    guards := Vector.replicate 16 GuardEntry.reset, table := [], pres := Preservation.reset,
    eng := Engine.reset, rules := Vector.replicate 8 WatchRule.reset, mport := MPort.reset,
    ev := EventUnit.reset, clock := Clock.reset, cfg := Settings.reset, port := MgmtPort.reset }

end Sys2Proof.Machine
end

