-- ==== Sys2Proof/Machine/Operands.lean ====
section
/-! DEFINITION. The operand forms: the fields a host request derives (R16), the bytes and words of a
cell (R1, R115), and the fields of the registers a write carries (R187, R189). -/

namespace Sys2Proof.Machine

/-! ### Cells, words and bytes -/

/-- Word w of a cell (R1). -/
def wordOf (d : CellData) (w : Nat) : W64 := d.extractLsb' (64 * w) 64

/-- Byte j of a cell. -/
def byteOf (d : CellData) (j : Nat) : BitVec 8 := d.extractLsb' (8 * j) 8

/-- The bits of the enabled bytes. -/
def strobeMask (st : Strobes) : CellData :=
  (List.range 64).foldl (fun m j => if st.getLsbD j then m ||| (0xFF#512 <<< (8 * j)) else m) 0#512

/-- R115: the old content with each enabled byte replaced by the write's byte. -/
def mergeCell (old new : CellData) (st : Strobes) : CellData :=
  (old &&& ~~~(strobeMask st)) ||| (new &&& strobeMask st)

/-- The first n words of what a read delivers. -/
def wordsFrom (d : CellData) (n : Nat) : List W64 := (List.range n).map (wordOf d)

/-- The byte address of a cell (R1). -/
def cellAddr (c : CellIx) : Addr := c ++ 0#6

/-- The byte address of word w of a cell (R1). -/
def wordAddr (c : CellIx) (w : Nat) : Addr := c ++ (BitVec.ofNat 3 w ++ 0#3 : BitVec 6)

/-! ### Host requests (R16) -/

/-- CELL of a request. -/
def requestCell (r : HostRequest) : CellIx := r.addr.extractLsb' 6 30

/-- FIRST of a request. -/
def requestFirst (r : HostRequest) : Nat := (r.addr.extractLsb' 3 3).toNat

/-- The request lies within one cell. -/
def requestFits (r : HostRequest) : Bool := decide (requestFirst r + r.count ≤ 8)

/-- The 64 byte enables of the cell: the carried enables in their place, all others clear. -/
def requestStrobes (r : HostRequest) : Strobes :=
  (r.enables &&& (BitVec.allOnes 64 >>> (64 - 8 * r.count))) <<< (8 * requestFirst r)

/-- The carried data in its place in the cell. -/
def requestData (r : HostRequest) : CellData := r.data <<< (64 * requestFirst r)

/-- The byte address of an entry's first word. -/
def Entry.addr (e : Entry) : Addr := wordAddr e.cell e.first

/-! ### Register fields -/

/-- CONFIG0 (R187). -/
def config0Tickdiv (v : W32) : BitVec 8 := v.extractLsb' 0 8
def config0Bare (v : W32) : BarePolicy := if v.getLsbD 8 then .deny else .pass
def config0Full (v : W32) : FullPolicy := if v.getLsbD 9 then .deny else .hold
def config0Action (v : W32) : BitVec 2 := v.extractLsb' 10 2
def config0Enable (v : W32) : Bool := v.getLsbD 12

/-- GUARD_A and GUARD_B (R189). -/
def guardBase (v : W32) : CellIx := v.extractLsb' 0 30
def guardMode (v : W32) : BitVec 2 := v.extractLsb' 30 2
def guardCount (v : W32) : BitVec 31 := v.extractLsb' 0 31
def guardValid (v : W32) : Bool := v.getLsbD 31

/-- WCTL (R189). -/
def wctlEnable (v : W32) : Bool := v.getLsbD 0
def wctlMode (v : W32) : BitVec 2 := v.extractLsb' 1 2
def wctlAction (v : W32) : BitVec 3 := v.extractLsb' 3 3
def wctlRearmAuto (v : W32) : Bool := v.getLsbD 6

/-- WADDR / 8 after a write of one half, the other half as stored (R189); bits 2:0 of WADDR_LO are
cleared by the type (R113). -/
def waddrWith (half : WaddrHalf) (v : W32) (stored : BitVec 33) : BitVec 33 :=
  match half with
  | .lo => stored.extractLsb' 29 4 ++ v.extractLsb' 3 29
  | .hi => v.extractLsb' 0 4 ++ stored.extractLsb' 0 29

/-- The 192 condition bits with register k replaced (R189). -/
def condsWith (k : Fin 6) (v : W32) (stored : BitVec 192) : BitVec 192 :=
  (stored &&& ~~~(0xFFFFFFFF#192 <<< (32 * k.val))) ||| (v.setWidth 192 <<< (32 * k.val))

/-- COND[b] (R189). -/
def condCode (conds : BitVec 192) (b : Nat) : BitVec 3 := conds.extractLsb' (3 * b) 3

/-- A condition with a bit in register k holds code 6 or 7 (R189). -/
def undefinedCondIn (k : Fin 6) (conds : BitVec 192) : Bool :=
  (List.range 64).any (fun b =>
    decide (3 * b < 32 * k.val + 32) && decide (32 * k.val < 3 * b + 3) &&
      decide (6 ≤ (condCode conds b).toNat))

end Sys2Proof.Machine
end

