-- ==== Sys2Proof/Machine/Formats.lean ====
section
/-! DEFINITION. The formats in memory: the check value (R74, R75), header copies (R69 to R71, R195,
R196) and records (R72, R73, R195). -/

namespace Sys2Proof.Machine

/-! ### The check value (R74) -/

/-- One bit taken by the register, which is divided through by 0x04C11DB7 (R74 c). -/
def crcBit (r : W32) (b : Bool) : W32 :=
  (r <<< 1) ^^^ (if r.msb != b then 0x04C11DB7#32 else 0#32)

/-- One byte, least significant bit first (R74 b). -/
def crcByte (r : W32) (b : BitVec 8) : W32 :=
  (List.range 8).foldl (fun r i => crcBit r (b.getLsbD i)) r

/-- The check value of a run of bytes (R74). -/
def checkValue (bytes : List (BitVec 8)) : W32 :=
  (bytes.foldl crcByte 0xFFFFFFFF#32).reverse ^^^ 0xFFFFFFFF#32

/-- The first n bytes of a slot, in ascending address order. -/
def firstBytes (d : CellData) (n : Nat) : List (BitVec 8) := (List.range n).map (byteOf d)

/-! ### Four-byte fields of a slot (R75, R195) -/

/-- Field i, at bytes 4i to 4i + 3, little-endian. -/
def fieldOf (d : CellData) (i : Nat) : W32 := d.extractLsb' (32 * i) 32

/-- A slot with these fields from byte 0 on and zero bytes after them. -/
def packFields (fs : List W32) : CellData :=
  fs.foldr (fun f acc => (acc <<< 32) ||| f.setWidth 512) 0#512

/-- Six fields and the check value over their 24 bytes (R75). -/
def packChecked (fs : List W32) : CellData :=
  packFields (fs ++ [checkValue (firstBytes (packFields fs) 24)])

/-- Field 6 equals the check value of bytes 0 to 23 as read (R75). -/
def checkHolds (d : CellData) : Bool := fieldOf d 6 == checkValue (firstBytes d 24)

/-! ### Header copies -/

/-- The STATE of a header (R69). -/
inductive HdrState where
  | clean
  | active
deriving DecidableEq, Repr

/-- The STATE encoding the part writes (R195). -/
def HdrState.code : HdrState → W32
  | .clean => 1
  | .active => 2

/-- A STATE field holding 1 is CLEAN, any other value ACTIVE (R196). -/
def readHdrState (d : CellData) : HdrState := if fieldOf d 3 = 1 then .clean else .active

/-- A header copy as the part lays it out (R76, R195). -/
def headerBytes (journalId generation : W32) (st : HdrState) (epoch slots : W32) : CellData :=
  packChecked [Config.jmagic, journalId, generation, st.code, epoch, slots]

def hdrJournalId (d : CellData) : W32 := fieldOf d 1
def hdrGeneration (d : CellData) : W32 := fieldOf d 2
def hdrEpoch (d : CellData) : W32 := fieldOf d 4

/-- The validity of a header copy (R70). -/
def headerValid (jslots : W32) (d : CellData) : Bool :=
  fieldOf d 0 == Config.jmagic && checkHolds d && fieldOf d 5 == jslots

/-- The copy with the higher generation (R71): B when B − A is 1 to 0x7FFF_FFFF, else A. -/
def higherCopy (genA genB : W32) : Copy :=
  let d := (genB - genA).toNat
  if 1 ≤ d ∧ d ≤ 0x7FFFFFFF then .b else .a

/-- The current header of the two copies as read (R71). -/
def currentHeader (jslots : W32) (a b : CellData) : Option Copy :=
  match headerValid jslots a, headerValid jslots b with
  | true, true => some (higherCopy (hdrGeneration a) (hdrGeneration b))
  | true, false => some .a
  | false, true => some .b
  | false, false => none

/-! ### Records -/

/-- A record header as the part lays it out (R46, R195). -/
def recordHeaderBytes (journalId epoch seq : W32) (cell : CellIx) (data : CellData) : CellData :=
  packChecked
    [Config.rmagic, journalId, epoch, seq, cell.setWidth 32, checkValue (firstBytes data 64)]

/-- The cell a record header names: bits 29:0 of CELL (R72, R196). -/
def recordCell (h : CellData) : CellIx := (fieldOf h 4).extractLsb' 0 30

/-- The validity of the record at index k for an epoch (R73). -/
def recordValid (journalId epoch : W32) (k : Nat) (h d : CellData) : Bool :=
  fieldOf h 0 == Config.rmagic && fieldOf h 1 == journalId && fieldOf h 2 == epoch &&
    fieldOf h 3 == BitVec.ofNat 32 k && checkHolds h && fieldOf h 5 == checkValue (firstBytes d 64)

end Sys2Proof.Machine
end

