-- ==== Sys2Proof/Machine/Flags.lean ====
section
/-! DEFINITION. The hold of a cold reset (R193), and the event classes: setting and reading a PENDING flag, LEVEL, the EVT line and
CURRENT_CLASS (R174 to R177), and the sticky CONFIG_ERROR (R190). -/

namespace Sys2Proof.Machine

/-- R193: while the part is held in cold reset it takes no command: no host request, no answer, no write
of the management port, no event of its own. What is given then is lost (assumption 11). -/
def unlessHeld (s : State) (o : Host.Outcome State Fault Refusal) : Host.Outcome State Fault Refusal :=
  if s.host.resetHeld then .next s else o

/-- The eleven event classes in the order of R174. -/
inductive EvClass where
  | fault
  | stall
  | power
  | deadline
  | journalFull
  | holdExpired
  | noticeLost
  | watch
  | protect
  | bare
  | epochDone
deriving DecidableEq, Repr

/-- The flag of class i stands in bit i − 1 of EVENT_PENDING (R191). -/
def EvClass.bit : EvClass → Nat
  | .fault => 0
  | .stall => 1
  | .power => 2
  | .deadline => 3
  | .journalFull => 4
  | .holdExpired => 5
  | .noticeLost => 6
  | .watch => 7
  | .protect => 8
  | .bare => 9
  | .epochDone => 10

/-- R175: an occurrence of the class's cause sets its flag, whatever its level. -/
def setClass (c : EvClass) (s : State) : State :=
  { s with ev := { s.ev with flags := s.ev.flags ||| (1#11 <<< c.bit) } }

/-- The PENDING flag of a class (R175). -/
def classPending (c : EvClass) (ev : EventUnit) : Bool := ev.flags.getLsbD c.bit

/-- LEVEL of the class in bit position i (R176, R191). -/
def levelAt (ev : EventUnit) (i : Nat) : BitVec 2 := ev.levels.extractLsb' (2 * i) 2

/-- R176: EVT is asserted while EVENT_ENABLE is 1 and a pending class has a LEVEL from 1 to 3. -/
def evtLine (s : State) : Bool :=
  s.cfg.eventEnable && (List.range 11).any (fun i => s.ev.flags.getLsbD i && levelAt s.ev i != 0#2)

/-- The first class in the order of R174 that is pending at this level. -/
def firstPendingAt (ev : EventUnit) (level : BitVec 2) : Option Nat :=
  (List.range 11).find? (fun i => ev.flags.getLsbD i && levelAt ev i == level)

/-- R177: the pending class of the highest LEVEL from 1 to 3, first in order; 0 for NONE (R191). -/
def currentClass (ev : EventUnit) : Nat :=
  match firstPendingAt ev 3 with
  | some i => i + 1
  | none =>
    match firstPendingAt ev 2 with
    | some i => i + 1
    | none =>
      match firstPendingAt ev 1 with
      | some i => i + 1
      | none => 0

/-- R190: CONFIG_ERROR is sticky; it becomes 1 when the condition holds and is kept otherwise. -/
def raiseConfigError (cond : Bool) (s : State) : State :=
  { s with port := { s.port with configError := s.port.configError || cond } }

end Sys2Proof.Machine
end

