-- ==== Sys2Proof/Machine/Ops.lean ====
section
/-! DEFINITION. The named operations over the part's stores that every command shares: the journal's
geometry, drawing a choice the manual leaves open, posting a notice, answering the host, the entries
of the transaction table, and requests of the M-port. -/

namespace Sys2Proof.Machine

/-! ### Geometry of the journal (R2, R55, R67) -/

/-- The geometry is in range (R2). -/
def geometryOk (c : Settings) : Bool :=
  decide (Config.minSlots ≤ c.jslots.toNat) && decide (c.jslots.toNat ≤ Config.maxSlots) &&
    decide (c.jbaseCell.toNat + c.jslots.toNat ≤ Config.cellCount)

/-- The cell lies in the journal area, which is empty while the geometry is not in range (R2). -/
def inJournalArea (c : Settings) (cell : CellIx) : Bool :=
  geometryOk c && decide (c.jbaseCell.toNat ≤ cell.toNat) &&
    decide (cell.toNat < c.jbaseCell.toNat + c.jslots.toNat)

/-- The capacity C of the journal in records (R55). -/
def capacity (c : Settings) : Nat := (c.jslots.toNat - 2) / 2

/-- The byte address of a slot of the journal (R67). -/
def slotAddr (c : Settings) (slot : Nat) : Addr :=
  BitVec.ofNat 36 (64 * (c.jbaseCell.toNat + slot))

/-- The slot of one half of record k (R46, R67). -/
def recordSlot (k : Nat) : RecHalf → Nat
  | .header => 2 + 2 * k
  | .data => 3 + 2 * k

/-- The slot of a header copy (R67). -/
def copySlot : Copy → Nat
  | .a => 0
  | .b => 1

def Copy.other : Copy → Copy
  | .a => .b
  | .b => .a

/-! ### Choices the manual leaves open -/

/-- One of n alternatives, when there are two or more: the next choice given, or the next free value.
DESIGN CHOICE (assumption 4): no statement rests on how a choice falls. -/
def pick (n : Nat) (s : State) : Nat × State :=
  if n ≤ 1 then (0, s)
  else
    match s.choices.given with
    | [] => (Config.openChoice s.choices.drawn % n,
        { s with choices := { s.choices with drawn := s.choices.drawn + 1 } })
    | c :: cs => (c % n, { s with choices := { s.choices with given := cs } })

/-! ### Notices (R179, R180) -/

/-- R180: the notice joins the tail, dated with TIME and EPOCH as they stand (R179); at a full queue it
is dropped and class NOTICE_LOST is set. -/
def post (body : NoticeBody) (s : State) : State :=
  if s.ev.notices.length < Config.noticePlaces then
    { s with ev := { s.ev with
        notices := s.ev.notices ++
          [{ time := s.clock.timebase, epoch := s.eng.epoch, body := body }] } }
  else setClass .noticeLost s

/-- A posting rule that also sets a class (R175: the class is set whatever becomes of the notice). -/
def report (c : EvClass) (body : NoticeBody) (s : State) : State := setClass c (post body s)

/-! ### Host responses and table entries (R19, R20) -/

/-- A response leaves the H-port (R19). -/
def respond (tag : Tag) (r : HostResult) (s : State) : State :=
  { s with host := { s.host with out := s.host.out ++ [{ tag := tag, result := r }] } }

/-- The entry that holds a tag. -/
def entryOf (s : State) (tag : Tag) : Option Entry := s.table.find? (fun e => e.tag == tag)

/-- The entry of its tag is replaced. -/
def putEntry (e : Entry) (s : State) : State :=
  { s with table := s.table.map (fun x => if x.tag = e.tag then e else x) }

/-- The entry of a tag is freed. -/
def freeEntry (tag : Tag) (s : State) : State :=
  { s with table := s.table.filter (fun x => x.tag != tag) }

/-- An entry is answered and freed (R19). -/
def endEntry (e : Entry) (r : HostResult) (s : State) : State := freeEntry e.tag (respond e.tag r s)

/-- R35: the write is answered DENIED and freed, notice DENIED is posted, class PROTECT is set. -/
def denyEntry (e : Entry) (why : DenyReason) (s : State) : State :=
  report .protect (.denied e.addr e.tag why) (endEntry e .denied s)

/-- R30, R36, R38: the transaction is answered FAILED and freed, FORWARD_FAULT is posted, class FAULT is
set. -/
def failEntry (e : Entry) (why : ForwardFault) (s : State) : State :=
  report .fault (.forwardFault e.addr e.tag why) (endEntry e .failed s)

/-! ### Requests of the M-port (R164) -/

/-- A request joins the tail of the request queue. Two requests of one event may enter in either order, so its place
among the requests of its own event is drawn (R164, assumption 4). -/
def enqueue (op : MemOp) (addr : Addr) (s : State) : State :=
  let slack := (s.mport.queue.reverse.takeWhile (fun x => x.fresh)).length
  let drawn := pick (slack + 1) s
  let place := s.mport.queue.length - drawn.1
  { drawn.2 with mport := { s.mport with
      queue := s.mport.queue.take place ++ { op := op, addr := addr, fresh := true } ::
        s.mport.queue.drop place } }

/-- A request joins the tail of the request queue, behind the requests of its own event too. -/
def enqueueLast (op : MemOp) (addr : Addr) (s : State) : State :=
  { s with mport := { s.mport with
      queue := s.mport.queue ++ [{ op := op, addr := addr, fresh := true }] } }

/-- The record of an outstanding transaction, BUSY or STALE (R163). -/
def LinkSlot.record? : LinkSlot → Option LinkRec
  | .free => none
  | .busy r => some r
  | .stale r => some r

/-- The link slot is FREE (R163). -/
def LinkSlot.isFree : LinkSlot → Bool
  | .free => true
  | _ => false

/-- The transaction is a FORWARD_WRITE to the cell. -/
def MemOp.isForwardWriteTo (cell : CellIx) : MemOp → Bool
  | .forwardWrite _ c _ _ => c == cell
  | _ => false

/-- The transaction is a FORWARD_WRITE or a RESTORE_WRITE to the cell (R22). -/
def MemOp.isWriteTo (cell : CellIx) : MemOp → Bool
  | .forwardWrite _ c _ _ => c == cell
  | .restoreWrite c _ => c == cell
  | _ => false

/-- The link slot is STALE and holds such a transaction. -/
def LinkSlot.isStaleWith (p : MemOp → Bool) : LinkSlot → Bool
  | .stale r => p r.op
  | _ => false

/-- A FORWARD_WRITE or RESTORE_WRITE to the cell stands in a stale link slot (R22). -/
def staleWriteTo (m : MPort) (cell : CellIx) : Bool :=
  m.slots.toList.any (LinkSlot.isStaleWith (MemOp.isWriteTo cell))

/-- A FORWARD_WRITE to the cell stands in a stale link slot (R139). -/
def staleForwardTo (m : MPort) (cell : CellIx) : Bool :=
  m.slots.toList.any (LinkSlot.isStaleWith (MemOp.isForwardWriteTo cell))

/-- Every link slot rewritten by f. -/
def mapSlots (f : LinkSlot → LinkSlot) (v : Vector LinkSlot 32) : Vector LinkSlot 32 :=
  ⟨⟨v.toList.map f⟩, by simp⟩

/-- A requester gives up the results of these transactions: a request still queued is withdrawn (R164),
an outstanding one goes on, its result unwanted (R165). -/
def disown (p : MemOp → Bool) (s : State) : State :=
  let drop (l : LinkSlot) : LinkSlot :=
    match l with
    | .free => .free
    | .busy r => .busy (if p r.op then { r with wanted := false } else r)
    | .stale r => .stale (if p r.op then { r with wanted := false } else r)
  { s with mport := { s.mport with
      slots := mapSlots drop s.mport.slots
      queue := s.mport.queue.filter (fun x => !p x.op) } }

end Sys2Proof.Machine
end

