-- ==== Sys2Proof/Machine/Guard.lean ====
section
/-! DEFINITION. The guard table: well-formedness of an entry, classification of a cell at admission, and
the two guard-table writes (chapter 1). -/

namespace Sys2Proof.Machine

/-- The class a MODE gives; MODE 3 names none (R3, R189). -/
def modeClass (mode : BitVec 2) : Option CellClass :=
  match mode.toNat with
  | 0 => some .journal
  | 1 => some .readonly
  | 2 => some .exempt
  | _ => none

/-- An entry is well-formed (R3). -/
def GuardEntry.formed (g : GuardEntry) : Bool :=
  decide (1 ≤ g.count.toNat) && decide (g.base.toNat + g.count.toNat ≤ Config.cellCount) &&
    (modeClass g.mode).isSome

/-- The entry takes part in classification (R3); one with VALID 1 that is not well-formed is inert. -/
def GuardEntry.takesPart (g : GuardEntry) : Bool := g.valid && g.formed

/-- The entry's range holds the cell (R3). -/
def GuardEntry.covers (g : GuardEntry) (cell : CellIx) : Bool :=
  decide (g.base.toNat ≤ cell.toNat) && decide (cell.toNat < g.base.toNat + g.count.toNat)

/-- The class of a cell (R6): the journal area first, then the lowest-numbered entry that takes part and
covers it, else UNGUARDED. -/
def classify (c : Settings) (guards : Vector GuardEntry 16) (cell : CellIx) : CellClass :=
  if inJournalArea c cell then .journalArea
  else
    match guards.toList.find? (fun g => g.takesPart && g.covers cell) with
    | some g => (modeClass g.mode).getD .unguarded
    | none => .unguarded

/-- A guard entry after a write carrying BASE and MODE (R5). -/
def guardAfterA (g : GuardEntry) (v : W32) : GuardEntry :=
  if g.valid then g else { g with base := guardBase v, mode := guardMode v }

/-- R5: on a valid entry a carried BASE or MODE that differs from the stored one. -/
def guardAError (g : GuardEntry) (v : W32) : Bool :=
  g.valid && (guardBase v != g.base || guardMode v != g.mode)

/-- A guard entry after a write carrying COUNT and VALID (R4, R5). -/
def guardAfterB (g : GuardEntry) (v : W32) : GuardEntry :=
  if g.valid then { g with valid := guardValid v }
  else { g with count := guardCount v, valid := guardValid v }

/-- R5: a changed COUNT on a valid entry. R4: VALID set from 0 to 1 on an entry not well-formed with the
values it holds once the write has been taken. -/
def guardBError (g : GuardEntry) (v : W32) : Bool :=
  if g.valid then guardCount v != g.count else guardValid v && !(guardAfterB g v).formed

/-- One guard entry replaced. -/
def putGuard (n : Fin 16) (g : GuardEntry) (s : State) : State :=
  { s with guards := s.guards.set n g }

/-- GUARD_A_WRITE (R5, R15, R189). -/
def execGuardAWrite (n : Fin 16) (v : W32) (s : State) : Host.Outcome State Fault Refusal :=
  unlessHeld s <|
    .next (raiseConfigError (guardAError s.guards[n] v) (putGuard n (guardAfterA s.guards[n] v) s))

/-- GUARD_B_WRITE (R4, R5, R15, R189). -/
def execGuardBWrite (n : Fin 16) (v : W32) (s : State) : Host.Outcome State Fault Refusal :=
  unlessHeld s <|
    .next (raiseConfigError (guardBError s.guards[n] v) (putGuard n (guardAfterB s.guards[n] v) s))

end Sys2Proof.Machine
end

