-- ==== Sys2Proof/Machine/Watch.lean ====
section
/-! DEFINITION. The watch unit: which writes a rule sees, conditions and modes, evaluation, firing,
overrun and the action merge (chapter 6), and the three writes of a rule's registers. -/

namespace Sys2Proof.Machine

/-! ### Configuration and state of a rule -/

/-- The byte address of the watched word (R109). -/
def WatchRule.addr (r : WatchRule) : Addr := r.waddr ++ 0#3

/-- The cell and the word number of the watched word (R109). -/
def WatchRule.cell (r : WatchRule) : CellIx := r.waddr.extractLsb' 3 30
def WatchRule.word (r : WatchRule) : Nat := (r.waddr.extractLsb' 0 3).toNat

/-- A write to this cell with these enables touches the rule's word (R114). -/
def WatchRule.touchedBy (r : WatchRule) (cell : CellIx) (st : Strobes) : Bool :=
  r.cell == cell && st.extractLsb' (8 * r.word) 8 != 0#8

/-- The WATCHED set of a write at admission, in ascending rule number (R114). -/
def watchedSet (rules : Vector WatchRule 8) (cell : CellIx) (st : Strobes) : List RuleNo :=
  (List.finRange 8).filter (fun r => rules[r].enable && rules[r].touchedBy cell st)

/-! ### Conditions and modes -/

/-- The bit is a considered bit: its code names a condition other than IGNORE (R117, R113). -/
def considered (code : BitVec 3) : Bool := decide (1 ≤ code.toNat) && decide (code.toNat ≤ 5)

/-- The bit satisfies its condition (R117). -/
def satisfied (code : BitVec 3) (old new : Bool) : Bool :=
  match code.toNat with
  | 1 => old != new
  | 2 => !new
  | 3 => new
  | 4 => old && !new
  | 5 => !old && new
  | _ => false

/-- Bit b of the rule's word satisfies COND[b]. -/
def WatchRule.bitSatisfied (r : WatchRule) (old new : W64) (b : Nat) : Bool :=
  satisfied (condCode r.conds b) (old.getLsbD b) (new.getLsbD b)

/-- The result of comparing a rule with a write (R118). -/
inductive Match where
  | noMatch
  | matched (bit : Option (Fin 64))
deriving DecidableEq, Repr

/-- R118: MODE combines the bits; FIRST also reports the lowest satisfying bit, and the code that names
no mode never matches. -/
def WatchRule.compare (r : WatchRule) (old new : W64) : Match :=
  match r.mode.toNat with
  | 0 =>
    if (List.range 64).any (fun b => considered (condCode r.conds b)) &&
        (List.range 64).all (fun b => !considered (condCode r.conds b) || r.bitSatisfied old new b)
    then .matched none else .noMatch
  | 1 => if (List.range 64).any (r.bitSatisfied old new) then .matched none else .noMatch
  | 2 =>
    match (List.finRange 64).find? (fun b => r.bitSatisfied old new b.val) with
    | some b => .matched (some b)
    | none => .noMatch
  | _ => .noMatch

/-! ### Evaluation -/

/-- One rule replaced. -/
def putRule (n : RuleNo) (r : WatchRule) (s : State) : State :=
  { s with rules := s.rules.set n r }

/-- HITS increases by one and stops at 65535 (R110). -/
def countHit (h : BitVec 16) : BitVec 16 := if h = Config.maxHits then h else h + 1

/-- R120: an ARMED rule that matches fires; under REARM_MODE MANUAL it becomes FIRED. -/
def fireRule (n : RuleNo) (tag : Tag) (old new : W64) (bit : Option (Fin 64)) (s : State) : State :=
  let r := s.rules[n]
  report .watch (.watchFired n r.addr tag old new bit)
    (putRule n { r with hits := countHit r.hits, state := if r.rearmAuto then .armed else .fired } s)

/-- R121: a FIRED rule that matches counts the match and reports the first overrun. -/
def overrunRule (n : RuleNo) (tag : Tag) (s : State) : State :=
  let r := s.rules[n]
  let s1 := putRule n { r with hits := countHit r.hits, overrun := true } s
  if r.overrun then s1 else report .watch (.watchOverrun n r.addr tag) s1

/-- An action asked for by a fired rule, as its code, with the rule's number. -/
abbrev Asked := BitVec 3 × RuleNo

/-- R119: one rule named in the write's WATCHED set. A rule that is disabled, or whose word the write
does not touch now, is passed over. -/
def evalRule (e : Entry) (oldContent : CellData) (acc : State × List Asked) (n : RuleNo) :
    State × List Asked :=
  let s := acc.1
  let r := s.rules[n]
  if r.enable && r.touchedBy e.cell e.strobes then
    let old := wordOf oldContent r.word
    let new := wordOf (mergeCell oldContent e.data e.strobes) r.word
    match r.compare old new with
    | .noMatch => acc
    | .matched bit =>
      match r.state with
      | .armed => (fireRule n e.tag old new bit s, acc.2 ++ [(r.action, n)])
      | .fired => (overrunRule n e.tag s, acc.2)
      | .disarmed => acc
  else acc

/-- R119: all the rules of one write, in ascending rule number. -/
def evaluate (e : Entry) (oldContent : CellData) (s : State) : State × List Asked :=
  e.watched.foldl (evalRule e oldContent) (s, [])

/-- The outcome of the merge for the write (R125). -/
inductive Merge where
  | refuse
  | act (a : EpochAction) (rule : RuleNo)
  | pass
deriving DecidableEq, Repr

/-- The lowest-numbered rule that asked for this code. -/
def askedFor (code : BitVec 3) (asked : List Asked) : Option RuleNo :=
  (asked.find? (fun a => a.1 == code)).map (·.2)

/-- R125: the strongest of REFUSE, ABORT, COMMIT_OPEN, COMMIT; EVENT and the codes that name no action
(R113) ask for nothing. -/
def merge (asked : List Asked) : Merge :=
  match askedFor 1 asked with
  | some _ => .refuse
  | none =>
    match askedFor 4 asked with
    | some r => .act .abort r
    | none =>
      match askedFor 3 asked with
      | some r => .act .commitOpen r
      | none =>
        match askedFor 2 asked with
        | some r => .act .commit r
        | none => .pass

/-! ### Writing the configuration -/

/-- WADDR_WRITE (R111, R113, R189). The low bits of WADDR_LO raise CONFIG_ERROR on a disabled rule; on an
enabled rule the carried bits 31:3 are compared with the stored ones (assumption 13). -/
def execWaddrWrite (n : RuleNo) (half : WaddrHalf) (v : W32) (s : State) :
    Host.Outcome State Fault Refusal :=
  unlessHeld s <|
    let r := s.rules[n]
    let w := waddrWith half v r.waddr
    if r.enable then .next (raiseConfigError (w != r.waddr) s)
    else
      .next (raiseConfigError (half == .lo && v.extractLsb' 0 3 != 0#3)
        (putRule n { r with waddr := w } s))

/-- COND_WRITE (R111, R113, R189). -/
def execCondWrite (n : RuleNo) (k : Fin 6) (v : W32) (s : State) :
    Host.Outcome State Fault Refusal :=
  unlessHeld s <|
    let r := s.rules[n]
    let cs := condsWith k v r.conds
    if r.enable then .next (raiseConfigError (cs != r.conds) s)
    else .next (raiseConfigError (undefinedCondIn k cs) (putRule n { r with conds := cs } s))

/-- R111, R113: the rule after a WCTL write carrying MODE, ACTION and REARM_MODE, ENABLE apart. -/
def wctlStore (r : WatchRule) (v : W32) : WatchRule :=
  if r.enable then r
  else { r with mode := wctlMode v, action := wctlAction v, rearmAuto := wctlRearmAuto v }

/-- R112: ENABLE as carried; enabling arms the rule and clears HITS, disabling disarms it. -/
def wctlEnableStore (r : WatchRule) (en : Bool) : WatchRule :=
  match r.enable, en with
  | false, true => { r with enable := true, state := .armed, overrun := false, hits := 0 }
  | true, false => { r with enable := false, state := .disarmed, overrun := false }
  | _, _ => r

/-- R111: a changed field on an enabled rule. R113: a code that names no mode or no action stored in a
disabled rule. -/
def wctlError (r : WatchRule) (v : W32) : Bool :=
  if r.enable then
    wctlMode v != r.mode || wctlAction v != r.action || wctlRearmAuto v != r.rearmAuto
  else wctlMode v == 3#2 || decide (5 ≤ (wctlAction v).toNat)

/-- WCTL_WRITE (R111, R112, R113). -/
def execWctlWrite (n : RuleNo) (v : W32) (s : State) : Host.Outcome State Fault Refusal :=
  unlessHeld s <|
    let r := s.rules[n]
    .next (raiseConfigError (wctlError r v) (putRule n (wctlEnableStore (wctlStore r v) (wctlEnable v)) s))

/-- R123: the rule after REARM. -/
def rearmed (r : WatchRule) : WatchRule :=
  if r.enable then { r with state := .armed, overrun := false } else r

/-- R132: a rule after a soft reset. -/
def softResetRule (r : WatchRule) : WatchRule :=
  if r.enable then { r with state := .armed, overrun := false }
  else { r with state := .disarmed, overrun := false }

end Sys2Proof.Machine
end

