-- ==== Sys2Proof/Machine/Table.lean ====
section
/-! DEFINITION. The transaction table: hold causes, the verdict at a turn or a re-examination, turns in
per-cell order, and re-examination in admission order (chapter 2, and R43, R51, R56 of chapter 3).
The table is one list in admission order. -/

namespace Sys2Proof.Machine

/-! ### Conditions the verdict looks at -/

/-- The states that hold with cause WALK (R23). -/
def walkState : EngState → Bool
  | .rolling => true
  | .recovering => true
  | .stalled => true
  | _ => false

/-- The states that hold with cause TRANSITION (R23). -/
def transitionState : EngState → Bool
  | .opening => true
  | .closing => true
  | .faulted => true
  | _ => false

/-- The filter holds the cell (R51). -/
def filterHolds (p : Preservation) (cell : CellIx) : Bool := p.filter.any (fun f => f.cell == cell)

/-- A place in the record queue is free, claims counted (R43). -/
def placeFree (p : Preservation) : Bool := decide (p.queue.length + p.claims < Config.recordPlaces)

/-- The journal cannot take one more record, claims counted (R43, R55). -/
def journalFull (s : State) : Bool :=
  !decide (s.eng.nextIndex + s.pres.claims < capacity s.cfg)

/-- The write would need a record the journal cannot take (R31). -/
def meetsFull (s : State) (e : Entry) : Bool :=
  decide (s.eng.state = .opened) && !filterHolds s.pres e.cell && journalFull s

/-- The first hold cause that applies, in the order POWER, WALK, TRANSITION, JOURNAL_FULL (R23). -/
def holdCause (s : State) (e : Entry) : Option HoldCause :=
  match e.kind with
  | .read => if e.cls = .journal ∧ walkState s.eng.state then some .walk else none
  | .write =>
    if s.host.pfw then some .power
    else if e.cls ≠ .journal then none
    else if walkState s.eng.state then some .walk
    else if transitionState s.eng.state then some .transition
    else if meetsFull s e ∧ s.cfg.fullPolicy = .hold then some .journalFull
    else none

/-! ### The verdict -/

/-- What the checks of R23 and the decision of R31 give an entry. -/
inductive Verdict where
  | hold (cause : HoldCause)
  | issueRead
  | refuse (why : DenyReason)
  | bare
  | filterHit
  | preserve
  | atTurn
deriving DecidableEq, Repr

/-- The write decision (R31, R32, R33). The engine states in which a JOURNAL-class write is always held
(R23) give no decision and leave it at its turn. -/
def decision (s : State) (e : Entry) : Verdict :=
  match e.cls with
  | .journalArea => .refuse .journalArea
  | .readonly => .refuse .readonly
  | .exempt => .bare
  | .unguarded => .bare
  | .journal =>
    match s.eng.state with
    | .unrecovered => .refuse .unrecovered
    | .idle =>
      match s.cfg.barePolicy with
      | .pass => .bare
      | .deny => .refuse .bare
    | .opened =>
      if filterHolds s.pres e.cell then .filterHit
      else if journalFull s then .refuse .journalFull
      else if placeFree s.pres then .preserve
      else .atTurn
    | _ => .atTurn

/-- The verdict at the turn and at each re-examination (R23, R27, R30, R31). -/
def verdict (s : State) (e : Entry) : Verdict :=
  match holdCause s e with
  | some c => .hold c
  | none =>
    match e.kind with
    | .read => .issueRead
    | .write => decision s e

/-! ### Carrying the verdict out -/

/-- HELD_SINCE: kept by an entry that is already held, else the timebase (R23). -/
def heldSince (s : State) (e : Entry) : W32 :=
  match e.stage with
  | .held _ since => since
  | _ => s.clock.timebase

/-- R56: the first write of an epoch to meet the full condition. -/
def reportFull (e : Entry) (s : State) : State :=
  if s.pres.fullReported then s
  else
    report .journalFull (.journalFull e.addr e.tag (capacity s.cfg))
      { s with pres := { s.pres with fullReported := true } }

/-- R32: class BARE is set; BARE_WRITE is posted when it was not pending. -/
def noteBare (e : Entry) (s : State) : State :=
  if e.cls = .journal then
    let s1 := setClass .bare s
    if classPending .bare s.ev then s1 else post (.bareWrite e.addr e.tag) s1
  else s

/-- The write enters ISSUED and asks for its FORWARD_WRITE (R38). -/
def forward (e : Entry) (s : State) : State :=
  enqueue (.forwardWrite e.tag e.cell e.strobes e.data) (cellAddr e.cell)
    (putEntry { e with stage := .issued } s)

/-- The write enters FETCHING_OLD and asks for its OLD_READ (R36). -/
def fetchOld (e : Entry) (s : State) : State :=
  enqueue (.oldRead e.tag e.cell) (cellAddr e.cell) (putEntry { e with stage := .fetchingOld } s)

/-- R36: a BARE or FILTER_HIT write makes a watch read when its WATCHED set is not empty. -/
def startWrite (e : Entry) (s : State) : State :=
  if e.watched = [] then forward e s else fetchOld e s

/-- An entry that is at its turn meets its verdict. -/
def applyVerdict (e : Entry) (v : Verdict) (s : State) : State :=
  match v with
  | .hold c =>
    putEntry { e with stage := .held c (heldSince s e) }
      (if c = .journalFull then reportFull e s else s)
  | .issueRead =>
    enqueue (.forwardRead e.tag e.cell e.first e.count) e.addr (putEntry { e with stage := .issued } s)
  | .refuse why => denyEntry e why (if why = .journalFull then reportFull e s else s)
  | .bare => startWrite { e with decision := some .bare } (noteBare e s)
  | .filterHit => startWrite { e with decision := some .filterHit, epoch := some s.eng.epoch } s
  | .preserve =>
    fetchOld { e with decision := some .preserve, epoch := some s.eng.epoch }
      { s with pres := { s.pres with claims := s.pres.claims + 1 } }
  | .atTurn => putEntry { e with stage := .atTurn } s

/-- The entry is checked for holds and issued or decided (R22, R27). -/
def examine (e : Entry) (s : State) : State := applyVerdict e (verdict s e) s

/-! ### Turns (R22) -/

/-- The entry is past the WAITING stage. -/
def Entry.pastWaiting (e : Entry) : Bool := e.stage != .waiting

/-- The entry whose turn comes in a cell: the oldest of the cell, when none of the cell is past WAITING
and no write to the cell stands in a stale link slot (R22). -/
def turnOf (s : State) (cell : CellIx) : Option Entry :=
  if s.table.any (fun e => e.cell == cell && e.pastWaiting) || staleWriteTo s.mport cell then none
  else s.table.find? (fun e => e.cell == cell)

/-- Turns of a cell, one after another while each is refused at its decision (R22, R35). -/
def turns : Nat → CellIx → State → State
  | 0, _, s => s
  | n + 1, cell, s =>
    match turnOf s cell with
    | none => s
    | some e => turns n cell (examine e s)

/-- The next turn of a cell, if it has one. -/
def giveTurn (cell : CellIx) (s : State) : State := turns s.table.length cell s

/-- R27: a held or AT_TURN entry is tested again; if it ends, its cell's next entry takes its turn. -/
def reexamine (e : Entry) (s : State) : State := giveTurn e.cell (examine e s)

/-! ### Several entries at one event, in admission order -/

/-- One entry of a visit: it is looked up as it now stands, and when chosen a WAITING entry takes its
turn and any other is re-examined. -/
def visitOne (chosen : State → Entry → Bool) (s : State) (tag : Tag) : State :=
  match entryOf s tag with
  | none => s
  | some e =>
    if chosen s e then
      if e.pastWaiting then reexamine e s else giveTurn e.cell s
    else s

/-- The entries of the table in admission order, each seeing the state the ones before it left (R27). -/
def visit (chosen : State → Entry → Bool) (s : State) : State :=
  (s.table.map (·.tag)).foldl (visitOne chosen) s

/-- The entry is held with this cause. -/
def Entry.heldWith (e : Entry) (c : HoldCause) : Bool :=
  match e.stage with
  | .held c' _ => c' == c
  | _ => false

/-- What an event that frees entries, places or capacity re-examines (R34, R44, R57, R58): entries of the
freed cells, entries in AT_TURN while a place is free, entries held JOURNAL_FULL when room returned. -/
def freedChoice (cells : List CellIx) (place room : Bool) (s : State) (e : Entry) : Bool :=
  match e.stage with
  | .waiting => cells.contains e.cell
  | .atTurn => place && placeFree s.pres
  | .held c _ => c == .journalFull && room
  | _ => false

def afterFree (cells : List CellIx) (place room : Bool) (s : State) : State :=
  visit (freedChoice cells place room) s

/-- What a change of engine state re-examines (R25, R26, R34). -/
def stateChoice (old new : EngState) (e : Entry) : Bool :=
  match e.stage with
  | .atTurn => true
  | .held .transition _ => !transitionState new
  | .held .walk _ => !walkState new
  | .held .journalFull _ => old == .opened && new != .opened
  | _ => false

/-- The engine enters a state, and the change reaches the table (R25, R82). -/
def enterState (new : EngState) (s : State) : State :=
  let old := s.eng.state
  visit (fun _ e => stateChoice old new e) { s with eng := { s.eng with state := new } }

/-! ### Admission (R17, R20) -/

/-- The entry of an admitted request (R20). -/
def newEntry (r : HostRequest) (s : State) : Entry :=
  let cell := requestCell r
  let st := if r.kind = .write then requestStrobes r else 0
  { tag := r.tag, kind := r.kind, cell := cell, first := requestFirst r, count := r.count,
    strobes := st, data := if r.kind = .write then requestData r else 0,
    cls := classify s.cfg s.guards cell,
    watched := if r.kind = .write then watchedSet s.rules cell st else [],
    stage := .waiting, decision := none, epoch := none, record := none, old := none, action := none }

/-- A request refused at once (R17). -/
def refuseRequest (r : HostRequest) (why : ProtocolReason) (s : State) : State :=
  report .protect (.protocol r.addr r.tag why) (respond r.tag .denied s)

/-- The H-port takes one request whole: the tag, then the shape, then admission (R17, R20, R22). -/
def takeRequest (r : HostRequest) (s : State) : State :=
  if (entryOf s r.tag).isSome then refuseRequest r .tagInUse s
  else if !requestFits r then refuseRequest r .boundary s
  else giveTurn (requestCell r) { s with table := s.table ++ [newEntry r s] }

/-! ### Hold expiry (R28) -/

/-- The timebase has advanced by n since t, counting modulo 2^32 (R173). -/
def elapsed (s : State) (t : W32) (n : Nat) : Bool := decide (n ≤ (s.clock.timebase - t).toNat)

/-- While TICKDIV is 0 no timer expires (R173). -/
def timersRun (s : State) : Bool := s.cfg.tickdiv != 0

/-- The hold of an entry that has reached HOLD_LIMIT, with its cause; none while the timebase is stopped
(R28, R173). -/
def expiredHold (s : State) (e : Entry) : Option HoldCause :=
  match e.stage with
  | .held c since =>
    if timersRun s ∧ s.cfg.holdLimit ≠ 0 ∧ elapsed s since s.cfg.holdLimit.toNat then some c else none
  | _ => none

/-- R28: the entry is answered FAILED and freed, HOLD_EXPIRED is posted and its class set, and the
oldest WAITING entry of its cell takes its turn. -/
def expireHold (e : Entry) (c : HoldCause) (s : State) : State :=
  giveTurn e.cell
    (report .holdExpired (.holdExpired e.addr e.tag c) (endEntry e .failed s))

/-- The entry of a tag whose hold has reached HOLD_LIMIT, with its cause. -/
def dueHold (s : State) (tag : Tag) : Option (Entry × HoldCause) :=
  match entryOf s tag with
  | none => none
  | some e =>
    match expiredHold s e with
    | none => none
    | some c => some (e, c)

/-- One tag of a sweep over the held entries. -/
def expireIfDue (s : State) (tag : Tag) : State :=
  match dueHold s tag with
  | none => s
  | some (e, c) => expireHold e c s

end Sys2Proof.Machine
end

