-- ==== Sys2Proof/Machine/Preserve.lean ====
section
/-! DEFINITION. The preservation unit: claims, allocation, slot writes, durability, the filter, record
faults and orphans (chapter 3), and the arrival of a write's old content (R36, R37). -/

namespace Sys2Proof.Machine

/-! ### The filter (R51, R52) -/

/-- The set of a cell (R51). -/
def filterSet (cell : CellIx) : Nat := cell.toNat % Config.filterSets

/-- R52: the cell joins its set as the newest; a full set first loses its oldest entry. -/
def filterInsert (cell : CellIx) (k : Nat) (f : List FilterEntry) : List FilterEntry :=
  let sameSet (x : FilterEntry) : Bool := filterSet x.cell == filterSet cell
  (if (f.filter sameSet).length < Config.filterWays then f else f.eraseP sameSet) ++
    [{ cell := cell, index := k }]

/-! ### Claims (R44) -/

/-- A claim is released: the claim count falls by one (R44). -/
def releaseClaim (s : State) : State :=
  { s with pres := { s.pres with claims := s.pres.claims - 1 } }

/-- A write that ends after its decision and before its record: a PRESERVE write releases its claim, and
the entries that meet the freed place, the returned capacity and the freed cell are taken together in
one admission order (R44); another write only gives its turn on. `s` is the state before, `ended` the
state once the write has been answered. -/
def afterEnd (e : Entry) (s ended : State) : State :=
  if e.decision = some .preserve then
    afterFree [e.cell] true (journalFull s) (releaseClaim ended)
  else giveTurn e.cell ended

/-- R36, R60: the old-content read failed. -/
def failOldRead (e : Entry) (s : State) : State := afterEnd e s (failEntry e .oldRead s)

/-! ### Allocation and slot writes (R45, R46, R47) -/

/-- R45: the claim becomes the record with index NEXT_INDEX, and the write enters RECORDING. -/
def allocate (e : Entry) (old : CellData) (s : State) : State :=
  let k := s.eng.nextIndex
  putEntry { e with stage := .recording, record := some k }
    { s with
      eng := { s.eng with nextIndex := k + 1 }
      pres := { s.pres with
        claims := s.pres.claims - 1
        queue := s.pres.queue ++
          [{ index := k, cell := e.cell, data := old, tag := e.tag,
             epoch := e.epoch.getD s.eng.epoch, journalId := s.eng.journalId,
             requested := false, headerAck := false, dataAck := false }] } }

/-- R37, R119: the old content arrives, the watch rules are evaluated, and the write is refused or moves
on: a PRESERVE write to its record, another to its forward. -/
def oldArrives (e : Entry) (old : CellData) (s : State) : State :=
  let e1 := { e with old := some old }
  let judged := evaluate e1 old (putEntry e1 s)
  match merge judged.2 with
  | .refuse => afterEnd e1 judged.1 (denyEntry e1 .watch judged.1)
  | .act a r =>
    let e2 := { e1 with action := some (a, r) }
    if e.decision = some .preserve then allocate e2 old judged.1 else forward e2 judged.1
  | .pass => if e.decision = some .preserve then allocate e1 old judged.1 else forward e1 judged.1

/-- The bytes of one slot of a record (R46, R195). -/
def recordBytes (r : RecElem) : RecHalf → CellData
  | .header => recordHeaderBytes r.journalId r.epoch (BitVec.ofNat 32 r.index) r.cell r.data
  | .data => r.data

/-- Neither slot number of the record appears in the orphan list (R47). -/
def slotsClear (p : Preservation) (k : Nat) : Bool :=
  !p.orphans.contains (recordSlot k .header) && !p.orphans.contains (recordSlot k .data)

/-- The record's slot writes have not been requested and may be (R47). -/
def mayRequest (p : Preservation) (r : RecElem) : Bool := !r.requested && slotsClear p r.index

/-- The queue with REQUESTED set for the record (R47). -/
def markRequested (k : Nat) (q : List RecElem) : List RecElem :=
  q.map (fun r => if r.index = k then { r with requested := true } else r)

/-- R47: the two slot writes of a record are requested together. -/
def requestSlots (r : RecElem) (s : State) : State :=
  let s1 := { s with pres := { s.pres with queue := markRequested r.index s.pres.queue } }
  enqueue (.slotWrite r.index .data (recordBytes r .data))
    (slotAddr s.cfg (recordSlot r.index .data))
    (enqueue (.slotWrite r.index .header (recordBytes r .header))
      (slotAddr s.cfg (recordSlot r.index .header)) s1)

/-- R47 for one record of the queue, if it may be requested. -/
def requestIfClear (s : State) (r : RecElem) : State :=
  if mayRequest s.pres r then requestSlots r s else s

/-- R47 for every record of the queue, in index order. -/
def recordStep (s : State) : State := s.pres.queue.foldl requestIfClear s

/-! ### Durability (R48, R49) -/

/-- Both slot writes of the record have been answered OK (R48). -/
def RecElem.ready (r : RecElem) : Bool := r.headerAck && r.dataAck

/-- R49: the owning write of a durable record enters ISSUED and asks for its FORWARD_WRITE. Records made durable at one
event do so in index order and so must their forwards leave: each joins the tail behind the one before it. -/
def forwardInOrder (e : Entry) (s : State) : State :=
  enqueueLast (.forwardWrite e.tag e.cell e.strobes e.data) (cellAddr e.cell)
    (putEntry { e with stage := .issued } s)

/-- R49: the head record leaves the queue durable, its cell enters the filter, and its owning write
enters ISSUED. -/
def makeDurable (r : RecElem) (rest : List RecElem) (s : State) : State :=
  let s1 := { s with
    eng := { s.eng with durableCount := s.eng.durableCount + 1 }
    pres := { s.pres with queue := rest, filter := filterInsert r.cell r.index s.pres.filter } }
  match entryOf s1 r.tag with
  | some e => if e.stage = .recording then forwardInOrder e s1 else s1
  | none => s1

/-- R49: ready heads become durable one after another. -/
def durables : Nat → State → State
  | 0, s => s
  | n + 1, s =>
    match s.pres.queue with
    | [] => s
    | r :: rest => if r.ready then durables n (makeDurable r rest s) else s

/-- The record with one slot acknowledged (R48). -/
def RecElem.ack (half : RecHalf) (r : RecElem) : RecElem :=
  match half with
  | .header => { r with headerAck := true }
  | .data => { r with dataAck := true }

/-- R48, R49: a slot write of a queued record is answered OK; places that become free go to AT_TURN
entries (R34). -/
def slotAcked (k : Nat) (half : RecHalf) (s : State) : State :=
  let s1 := { s with pres := { s.pres with
    queue := s.pres.queue.map (fun r => if r.index = k then r.ack half else r) } }
  afterFree [] true false (durables s1.pres.queue.length s1)

/-! ### Record faults (R58, R61) -/

/-- The transaction is a slot write of a record from index k up. -/
def MemOp.isSlotWriteFrom (k : Nat) : MemOp → Bool
  | .slotWrite i _ _ => decide (k ≤ i)
  | _ => false

/-- The journal slot a slot write goes to. -/
def MemOp.journalSlot : MemOp → Option Nat
  | .slotWrite i half _ => some (recordSlot i half)
  | _ => none

/-- The slot numbers of the outstanding slot writes, from index k up, whose result is still wanted. -/
def outstandingSlots (k : Nat) (m : MPort) : List Nat :=
  m.slots.toList.filterMap (fun l =>
    match l.record? with
    | some r => if r.wanted && r.op.isSlotWriteFrom k then r.op.journalSlot else none
    | none => none)

/-- R58 b: the owner of a removed record is answered FAILED and freed. -/
def failOwner (s : State) (r : RecElem) : State :=
  match entryOf s r.tag with
  | some e => if e.stage = .recording then endEntry e .failed s else s
  | none => s

/-- R58: record r and every younger one are removed, their writes answered FAILED, NEXT_INDEX set back,
JOURNAL_FAULT posted, and the slot writes still outstanding entered in the orphan list. -/
def removeFrom (r : RecElem) (half : RecHalf) (s : State) : State :=
  let k := r.index
  let gone := s.pres.queue.filter (fun x => decide (k ≤ x.index))
  let s1 := { s with pres := { s.pres with
    queue := s.pres.queue.filter (fun x => !decide (k ≤ x.index)) } }
  let s2 := gone.foldl failOwner s1
  let s3 := report .fault (.journalFault (cellAddr r.cell) r.tag k half)
    { s2 with eng := { s2.eng with nextIndex := k } }
  let s4 := { s3 with pres := { s3.pres with
    orphans := s3.pres.orphans ++ outstandingSlots k s3.mport } }
  disown (MemOp.isSlotWriteFrom k) s4

/-- R58: a record fault, with the turns and re-examinations that follow it in one admission order. -/
def recordFault (r : RecElem) (half : RecHalf) (s : State) : State :=
  let cells := (s.pres.queue.filter (fun x => decide (r.index ≤ x.index))).map (·.cell)
  afterFree cells true (journalFull s) (removeFrom r half s)

/-- R48, R58: the result of a slot write whose record is queued. -/
def slotAnswered (k : Nat) (half : RecHalf) (ok : Bool) (s : State) : State :=
  match s.pres.queue.find? (fun r => r.index == k) with
  | none => s
  | some r => if ok then slotAcked k half s else recordFault r half s

end Sys2Proof.Machine
end

