-- ==== Sys2Proof/Machine/Engine.lean ====
section
/-! DEFINITION. The epoch engine: openings, commits, aborts, header writes and their outcomes, walks and
stalls, recovery, DISCARD and FORMAT, and the actions it takes (chapters 4, 5, 7 and 8). -/

namespace Sys2Proof.Machine

/-- The engine's values rewritten. -/
def setEng (f : Engine → Engine) (s : State) : State := { s with eng := f s.eng }

/-- The outstanding header writes to a copy (R78). -/
def Engine.hdrOut (g : Engine) : Copy → Nat
  | .a => g.hdrOutA
  | .b => g.hdrOutB

/-- R78: the count of a copy changed. -/
def Engine.mapHdrOut (f : Nat → Nat) (c : Copy) (g : Engine) : Engine :=
  match c with
  | .a => { g with hdrOutA := f g.hdrOutA }
  | .b => { g with hdrOutB := f g.hdrOutB }

/-! ### The deadline timer (R100) -/

/-- R100: loaded from DEADLINE, running unless DEADLINE is 0. -/
def loadDeadline (s : State) : State :=
  setEng (fun g => { g with deadlineLeft := s.cfg.deadline, deadlineRunning := s.cfg.deadline != 0 }) s

/-- The timer is stopped with DEADLINE_LEFT 0. -/
def stopDeadline (s : State) : State :=
  setEng (fun g => { g with deadlineLeft := 0, deadlineRunning := false }) s

/-! ### Header writes (R76, R77, R78) -/

/-- The engine needs a header write; it is issued once R78 allows (headerStep). -/
def needHeader (why : HdrPurpose) (s : State) : State :=
  setEng (fun g => { g with op := .headerWrite why false }) s

/-- STATE and EPOCH of the header each operation writes (R87, R92, R93, R98, R141, R153, R158, R159). -/
def headerContent (why : HdrPurpose) (g : Engine) : HdrState × W32 :=
  match why with
  | .opening => (.active, g.openNumber.getD g.epoch)
  | .closeCommit => (.clean, g.epoch)
  | .closeCommitOpen => (.active, g.openNumber.getD g.epoch)
  | .reassert => (.active, g.epoch)
  | .walkFinal => (.clean, g.epoch)
  | .discard => (.clean, g.epoch)
  | .formatFirst => (.clean, g.epoch)
  | .formatSecond => (.clean, g.epoch)

/-- The 64 bytes of the next header write (R76, R195). -/
def nextHeader (why : HdrPurpose) (s : State) : CellData :=
  headerBytes s.eng.journalId (s.eng.generation + 1) (headerContent why s.eng).1
    (headerContent why s.eng).2 s.cfg.jslots

/-- One header read that waits is requested when no header write to its copy is outstanding (R78). -/
def requestHeaderRead (c : Copy) (s : State) : State :=
  enqueue (.headerRead c) (slotAddr s.cfg (copySlot c)) s

/-- R78: the header write or the header reads that may now be issued are requested. -/
def headerStep (s : State) : State :=
  match s.eng.op with
  | .headerWrite why false =>
    if s.eng.hdrOut s.eng.nextCopy = 0 then
      enqueue (.headerWrite s.eng.nextCopy (nextHeader why s))
        (slotAddr s.cfg (copySlot s.eng.nextCopy))
        (setEng (fun g => { g with op := .headerWrite why true }) s)
    else s
  | .headerReads why a b =>
    let goA := a = .waiting ∧ s.eng.hdrOutA = 0
    let goB := b = .waiting ∧ s.eng.hdrOutB = 0
    let s1 := setEng (fun g => { g with
      op := .headerReads why (if goA then .requested else a) (if goB then .requested else b) }) s
    let s2 := if goA then requestHeaderRead .a s1 else s1
    if goB then requestHeaderRead .b s2 else s2
  | _ => s

/-- R77: an acknowledged header write advances GENERATION and NEXT_COPY. -/
def headerLanded (s : State) : State :=
  setEng (fun g => { g with generation := g.generation + 1, nextCopy := g.nextCopy.other }) s

/-! ### Entering IDLE and OPEN (R88, R94) -/

/-- The values of R94 at an entry into IDLE. -/
def idleValues (s : State) : State :=
  { s with
    eng := { s.eng with
      nextIndex := 0, durableCount := 0, deadlineLeft := 0, deadlineRunning := false,
      closeKind := none, openNumber := none, walk := Walk.absent, op := .none }
    pres := { s.pres with filter := [] } }

/-- R94: the engine enters IDLE, having reported. -/
def enterIdle (s : State) : State := enterState .idle (idleValues s)

/-- R88 a to c. -/
def openValues (s : State) : State :=
  loadDeadline
    { s with
      eng := { s.eng with
        epoch := s.eng.openNumber.getD s.eng.epoch, openNumber := none, closeKind := none,
        nextIndex := 0, durableCount := 0, op := .none }
      pres := { s.pres with filter := [], fullReported := false } }

/-- R88: the engine enters OPEN, then the state change reaches the table. -/
def enterOpen (why : EpochReport) (s : State) : State :=
  enterState .opened (report .epochDone (.epochEvent why) (openValues s))

/-- The engine returns to UNRECOVERED with the walk values absent (R149). -/
def enterUnrecovered (s : State) : State :=
  enterState .unrecovered (setEng (fun g => { g with walk := Walk.absent, op := .none }) s)

/-! ### Openings and closings (R84, R87, R89, R97) -/

/-- R84: OPEN_NUMBER is taken from NEXT_EPOCH, which advances. -/
def fixOpenNumber (s : State) : State :=
  setEng (fun g => { g with
    openNumber := g.nextEpoch
    nextEpoch := match g.nextEpoch with
      | none => none
      | some n => if n = Config.lastEpoch then none else some (n + 1) }) s

/-- R87: an opening taken in IDLE. -/
def takeOpen (s : State) : State := enterState .opening (needHeader .opening (fixOpenNumber s))

/-- OPEN_NUMBER is fixed for a COMMIT_OPEN only (R89). -/
def closingNumber (k : CloseKind) (s : State) : State :=
  match k with
  | .commit => s
  | .commitOpen => fixOpenNumber s

/-- The header that ends an epoch (R92, R93). -/
def closePurpose : CloseKind → HdrPurpose
  | .commit => .closeCommit
  | .commitOpen => .closeCommitOpen

/-- R89: a commit taken in OPEN drains first. -/
def takeClose (k : CloseKind) (s : State) : State :=
  enterState .closing
    (setEng (fun g => { g with closeKind := some k, op := .draining })
      (stopDeadline (closingNumber k s)))

/-- R97: a commit taken in FAULTED writes its header without a drain. -/
def retryClose (k : CloseKind) (s : State) : State :=
  enterState .closing
    (setEng (fun g => { g with closeKind := some k, op := .headerWrite (closePurpose k) false })
      (closingNumber k s))

/-! ### Walks (R135, R138 to R142, R151, R153) -/

/-- The walk values at an entry into ROLLING (R133). -/
def rollbackWalk : Walk :=
  { kind := some .rollback, phase := some .restore, index := none, stall := none, scanCount := none,
    discardCount := none }

/-- R99: ABORT taken in OPEN drains first. -/
def takeAbort (s : State) : State :=
  enterState .rolling
    (setEng (fun g => { g with walk := rollbackWalk, op := .draining }) (stopDeadline s))

/-- R98: ABORT taken in FAULTED writes the re-assert first. -/
def abortFaulted (s : State) : State :=
  enterState .rolling
    (setEng (fun g => { g with walk := rollbackWalk, op := .headerWrite .reassert false }) s)

/-- The number of records the walk restores: K of a recovery, D of a rollback (R135, R153). -/
def walkTotal (g : Engine) : Nat :=
  match g.walk.kind with
  | some .recovery => g.walk.scanCount.getD 0
  | _ => g.durableCount

/-- R138: the two restoration reads of an index are requested together. -/
def beginRestore (k : Nat) (s : State) : State :=
  let s1 := setEng (fun g => { g with
    walk := { g.walk with phase := some .restore, index := some k }, op := .recordReads none none }) s
  enqueue (.restoreRead k .data) (slotAddr s.cfg (recordSlot k .data))
    (enqueue (.restoreRead k .header) (slotAddr s.cfg (recordSlot k .header)) s1)

/-- R151: the two scan reads of an index are requested together. -/
def beginScan (k : Nat) (s : State) : State :=
  let s1 := setEng (fun g => { g with
    walk := { g.walk with phase := some .scan, index := some k }, op := .recordReads none none }) s
  enqueue (.scanRead k .data) (slotAddr s.cfg (recordSlot k .data))
    (enqueue (.scanRead k .header) (slotAddr s.cfg (recordSlot k .header)) s1)

/-- WALK_PHASE becomes FINAL, WALK_INDEX absent, and the final header follows (R140, R141, R153). -/
def beginFinal (s : State) : State :=
  needHeader .walkFinal
    (setEng (fun g => { g with walk := { g.walk with phase := some .final, index := none } }) s)

/-- The walk below index n: the restoration of n − 1, or the final header when none is left (R135, R140). -/
def walkBelow (n : Nat) (s : State) : State :=
  match n with
  | 0 => beginFinal s
  | k + 1 => beginRestore k s

/-- R135, R136, R153: the restore walk begins at its highest index. -/
def beginWalk (s : State) : State := walkBelow (walkTotal s.eng) s

/-- R142, R155: the walk stalls where it stands. -/
def stallWalk (cause : StallCause) (addr : Addr) (s : State) : State :=
  let w := s.eng.walk
  enterState .stalled
    (report .stall
      (.walkStall addr w.index (w.kind.getD .rollback) (w.phase.getD .restore) cause)
      (setEng (fun g => { g with walk := { g.walk with stall := some cause }, op := .none }) s))

/-- The state a walk of this kind runs in (R144, R156). -/
def walkRunState : Option WalkKind → EngState
  | some .recovery => .recovering
  | _ => .rolling

/-- R140: the restoration of WALK_INDEX is complete. -/
def restored (s : State) : State := walkBelow (s.eng.walk.index.getD 0) s

/-- R151: the scan ends with K records found, and SCAN_COUNT is set (R153 follows). -/
def endScan (k : Nat) (s : State) : State :=
  beginWalk (setEng (fun g => { g with walk := { g.walk with scanCount := some k } }) s)

/-- R138, R139, R151: both slots of index k have been read, and the record is tested under R73. -/
def recordRead (k : Nat) (h d : CellData) (s : State) : State :=
  let valid := recordValid s.eng.journalId s.eng.epoch k h d
  match s.eng.walk.phase with
  | some .scan =>
    if valid then
      if k + 1 < capacity s.cfg then beginScan (k + 1) s else endScan (k + 1) s
    else endScan k s
  | _ =>
    if valid then setEng (fun g => { g with op := .restoreWait (recordCell h) d }) s
    else stallWalk .recordInvalid (slotAddr s.cfg (recordSlot k .header)) s

/-- R139, R153: a valid restoration requests its write once no earlier restoration write is outstanding and no
stale forward to its cell remains. Both waits are tested again at the grant (`waitsAtGrant`). -/
def restoreStep (s : State) : State :=
  match s.eng.op with
  | .restoreWait cell bytes =>
    if s.eng.restoreOut = 0 ∧ staleForwardTo s.mport cell = false then
      enqueue (.restoreWrite cell bytes) (cellAddr cell)
        (setEng (fun g => { g with op := .restoreIssued cell }) s)
    else s
  | _ => s

/-! ### The drain (R90) -/

/-- The entry is a write the drain of this epoch waits for (R90). -/
def Entry.inDrain (e : Entry) (epoch : W32) : Bool :=
  (e.decision == some .filterHit || e.decision == some .preserve) && e.epoch == some epoch &&
    (e.stage == .fetchingOld || e.stage == .recording || e.stage == .issued)

/-- The drain is complete (R90). -/
def drainDone (s : State) : Bool := !s.table.any (fun e => e.inDrain s.eng.epoch)

/-- R90, R92, R93, R135: at the drain's completion the engine writes the ending header or begins the
restore walk. -/
def drainStep (s : State) : State :=
  match s.eng.op with
  | .draining =>
    if drainDone s then
      if s.eng.state = .closing then needHeader (closePurpose (s.eng.closeKind.getD .commit)) s
      else beginWalk s
    else s
  | _ => s

/-! ### Outcomes of a header write -/

/-- HEADER_FAULT is posted with the byte address of the slot written, and class FAULT is set (R87). -/
def reportHeaderFault (why : HeaderFaultReason) (s : State) : State :=
  report .fault (.headerFault (slotAddr s.cfg (copySlot s.eng.nextCopy)) why) s

/-- R96: an ending header or a re-assert failed. -/
def enterFaulted (why : HeaderFaultReason) (s : State) : State :=
  enterState .faulted
    (reportHeaderFault why
      (setEng (fun g => { g with
        closeKind := none, openNumber := none, walk := Walk.absent, op := .none }) s))

/-- R87: a failed opening burns its number and returns to IDLE. -/
def failOpening (s : State) : State :=
  enterIdle
    (reportHeaderFault .openHeader
      (setEng (fun g => { g with epoch := g.openNumber.getD g.epoch, openNumber := none }) s))

/-- What a completed walk reports (R141, R145, R153, R157). -/
def walkReport (g : Engine) : NoticeBody :=
  match g.walk.kind, g.walk.discardCount with
  | some .recovery, none => .recoveryResult (.rolledBack (walkTotal g))
  | some .recovery, some n => .recoveryResult (.discarded n)
  | _, none => .epochEvent (.rolledBack (walkTotal g))
  | _, some n => .epochEvent (.discarded n)

/-- A header write is answered OK (R87, R88, R92, R93, R98, R141, R153, R158, R159). The report is posted ahead of the
re-examinations of the state change (R92, R158, R159: assumption 7). -/
def headerOk (why : HdrPurpose) (s : State) : State :=
  let s1 := headerLanded s
  match why with
  | .opening => enterOpen .opened s1
  | .closeCommit =>
    enterIdle (report .epochDone (.epochEvent (.committed s1.eng.durableCount)) s1)
  | .closeCommitOpen => enterOpen (.commitOpened s1.eng.durableCount) s1
  | .reassert => beginWalk s1
  | .walkFinal => enterIdle (report .epochDone (walkReport s1.eng) s1)
  | .discard => enterIdle (report .epochDone (.recoveryResult (.discarded 0)) s1)
  | .formatFirst => needHeader .formatSecond s1
  | .formatSecond => enterIdle (report .epochDone (.epochEvent .formatted) s1)

/-- A header write is answered ERROR, a timeout included (R87, R92, R93, R98, R142, R155, R158, R159). The fault is
posted ahead of the re-examinations of the state change (R87, R158, R159: assumption 7). -/
def headerFailed (why : HdrPurpose) (s : State) : State :=
  match why with
  | .opening => failOpening s
  | .closeCommit => enterFaulted .commit s
  | .closeCommitOpen => enterFaulted .commitOpen s
  | .reassert => enterFaulted .reassert s
  | .walkFinal => stallWalk .headerFault (slotAddr s.cfg (copySlot s.eng.nextCopy)) s
  | .discard => enterUnrecovered (reportHeaderFault .discard s)
  | .formatFirst => enterUnrecovered (reportHeaderFault .format s)
  | .formatSecond => enterUnrecovered (reportHeaderFault .format s)

/-- The result of the engine's header write. -/
def headerAnswered (ok : Bool) (s : State) : State :=
  match s.eng.op with
  | .headerWrite why true => if ok then headerOk why s else headerFailed why s
  | _ => s

/-! ### Header reads: RECOVER and DISCARD (R149, R150, R158) -/

/-- The walk values at RECOVER (R149). -/
def recoveryWalk : Walk :=
  { kind := some .recovery, phase := some .scan, index := none, stall := none, scanCount := none,
    discardCount := none }

/-- RECOVERING with the two header reads in progress (R149, R158). -/
def beginHeaderReads (why : HdrReader) (w : Walk) (s : State) : State :=
  enterState .recovering
    (setEng (fun g => { g with walk := w, op := .headerReads why .waiting .waiting }) s)

/-- The transaction is a header read. -/
def MemOp.isHeaderRead : MemOp → Bool
  | .headerRead _ => true
  | _ => false

/-- R149: a header read failed, and the recovery or DISCARD ends; the other read is given up. The notice is posted ahead
of the re-examinations of the state change (assumption 7). -/
def headerReadFailed (c : Copy) (s : State) : State :=
  enterState .unrecovered
    (report .fault (.recoveryResult (.headerReadFault (slotAddr s.cfg (copySlot c))))
      (setEng (fun g => { g with walk := Walk.absent, op := .none }) (disown MemOp.isHeaderRead s)))

/-- R150: what is adopted from the current header. -/
def adopt (c : Copy) (h : CellData) (s : State) : State :=
  setEng (fun g => { g with
    journalId := hdrJournalId h, epoch := hdrEpoch h, generation := hdrGeneration h,
    nextCopy := c.other
    nextEpoch := if hdrEpoch h = Config.lastEpoch then none else some (hdrEpoch h + 1) }) s

/-- R150, R158: with both copies read, the current header is selected and adopted. The notice is posted ahead of the
re-examinations of the state change (assumption 7). -/
def selectHeader (why : HdrReader) (a b : CellData) (s : State) : State :=
  match currentHeader s.cfg.jslots a b with
  | none =>
    enterState .unrecovered
      (report .fault (.recoveryResult .noValidHeader)
        (setEng (fun g => { g with walk := Walk.absent, op := .none }) s))
  | some c =>
    let h := match c with
      | .a => a
      | .b => b
    let s1 := adopt c h s
    match why with
    | .discard => needHeader .discard s1
    | .recover =>
      match readHdrState h with
      | .clean => enterIdle (report .epochDone (.recoveryResult .clean) s1)
      | .active => beginScan 0 s1

/-- A header read is answered OK. -/
def headerReadOk (c : Copy) (bytes : CellData) (s : State) : State :=
  match s.eng.op with
  | .headerReads why a b =>
    let a1 := match c with
      | .a => HdrRead.got bytes
      | .b => a
    let b1 := match c with
      | .a => b
      | .b => HdrRead.got bytes
    match a1, b1 with
    | .got x, .got y => selectHeader why x y s
    | _, _ => setEng (fun g => { g with op := .headerReads why a1 b1 }) s
  | _ => s

/-- The engine has the two header reads in progress. -/
def Engine.readsHeaders (g : Engine) : Bool :=
  match g.op with
  | .headerReads _ _ _ => true
  | _ => false

/-- The result of one of the engine's header reads. -/
def headerReadAnswered (c : Copy) (r : Answer) (s : State) : State :=
  match r with
  | .ok bytes => headerReadOk c bytes s
  | .error => if s.eng.readsHeaders then headerReadFailed c s else s

/-! ### Record reads and restoration writes -/

/-- The transaction is a scan read or a restoration read. -/
def MemOp.isRecordRead : MemOp → Bool
  | .scanRead _ _ => true
  | .restoreRead _ _ => true
  | _ => false

/-- One read of a record's pair is answered OK. -/
def recordReadOk (k : Nat) (half : RecHalf) (bytes : CellData) (s : State) : State :=
  match s.eng.op with
  | .recordReads h d =>
    let h1 := match half with
      | .header => some bytes
      | .data => h
    let d1 := match half with
      | .header => d
      | .data => some bytes
    match h1, d1 with
    | some x, some y => recordRead k x y s
    | _, _ => setEng (fun g => { g with op := .recordReads h1 d1 }) s
  | _ => s

/-- The engine has a record's two reads in progress. -/
def Engine.readsRecord (g : Engine) : Bool :=
  match g.op with
  | .recordReads _ _ => true
  | _ => false

/-- R138, R151: the result of a scan read or a restoration read; an ERROR stalls the walk and gives the
other read up. -/
def recordReadAnswered (k : Nat) (half : RecHalf) (r : Answer) (s : State) : State :=
  match r with
  | .ok bytes => recordReadOk k half bytes s
  | .error =>
    if s.eng.readsRecord then
      stallWalk .readFault (slotAddr s.cfg (recordSlot k .header)) (disown MemOp.isRecordRead s)
    else s

/-- R140: the result of the restoration write. -/
def restoreAnswered (cell : CellIx) (ok : Bool) (s : State) : State :=
  match s.eng.op with
  | .restoreIssued _ => if ok then restored s else stallWalk .writeFault (cellAddr cell) s
  | _ => s

/-! ### RESUME, DISCARD and FORMAT -/

/-- R144, R156: the step at which the walk stopped is taken again. -/
def resumeWalk (s : State) : State :=
  let s1 := enterState (walkRunState s.eng.walk.kind)
    (setEng (fun g => { g with walk := { g.walk with stall := none } }) s)
  match s.eng.walk.phase with
  | some .scan => beginScan (s.eng.walk.index.getD 0) s1
  | some .restore => beginRestore (s.eng.walk.index.getD 0) s1
  | _ => needHeader .walkFinal s1

/-- The records restored before a DISCARD (R145, R157). -/
def restoredSoFar (g : Engine) : Nat :=
  match g.walk.phase with
  | some .scan => 0
  | some .restore => walkTotal g - 1 - g.walk.index.getD 0
  | _ => walkTotal g

/-- R145, R157: DISCARD of a stalled walk goes straight to the final header. -/
def discardWalk (s : State) : State :=
  let n := s.eng.walk.discardCount.getD (restoredSoFar s.eng)
  enterState (walkRunState s.eng.walk.kind)
    (beginFinal
      (setEng (fun g => { g with walk := { g.walk with stall := none, discardCount := some n } }) s))

/-- R159: FORMAT sets the values of the new journal life and writes copy A first. -/
def takeFormat (s : State) : State :=
  enterState .recovering
    (setEng (fun g => { g with
      journalId := s.port.arg, generation := 0, nextCopy := .a, epoch := 0, nextEpoch := some 1,
      walk := Walk.absent, op := .headerWrite .formatFirst false }) s)

/-! ### Watch actions and the deadline (R102, R104) -/

/-- The action is dropped with a notice (R104). -/
def dropAction (e : Entry) (rule : RuleNo) (why : DropReason) (s : State) : State :=
  post (.actionDropped rule e.addr e.tag why) s

/-- R104: a delivered action is taken by the engine's state. -/
def takeAction (e : Entry) (a : EpochAction) (rule : RuleNo) (s : State) : State :=
  match s.eng.state, a with
  | .opened, .commit => takeClose .commit s
  | .opened, .commitOpen =>
    if s.eng.nextEpoch.isSome then takeClose .commitOpen s else dropAction e rule .exhausted s
  | .opened, .abort => takeAbort s
  | .idle, .commit => s
  | .idle, .commitOpen =>
    if s.eng.nextEpoch.isSome then takeOpen s else dropAction e rule .exhausted s
  | .idle, .abort => s
  | st, _ => dropAction e rule (.inState st) s

/-- The action DEADLINE_ACTION names; the encoding that names none acts as EVENT (R100). -/
def deadlineReason (code : BitVec 2) : DeadlineReason :=
  match code.toNat with
  | 1 => .commit
  | 2 => .abort
  | _ => .event

/-- R102: the deadline timer expires in OPEN. -/
def deadlineExpires (s : State) : State :=
  let act := deadlineReason s.cfg.deadlineAction
  let s1 := stopDeadline (report .deadline (.deadlineExpired act) s)
  match act with
  | .event => s1
  | .commit => takeClose .commit s1
  | .abort => takeAbort s1

end Sys2Proof.Machine
end

