-- ==== Sys2Proof/Machine/Mport.lean ====
section
/-! DEFINITION. The memory-side port: grants, delivery of results, leave reports, and the settling of
an event: everything the rules have happen at once within it (chapter 9, and R18, R47, R78, R90, R139). -/

namespace Sys2Proof.Machine

/-- One link slot replaced. -/
def putSlot (i : LinkNo) (l : LinkSlot) (s : State) : State :=
  { s with mport := { s.mport with slots := s.mport.slots.set i l } }

/-! ### Grants (R164) -/

/-- The FREE link slots, lowest number first. -/
def freeSlots (m : MPort) : List LinkNo :=
  (List.finRange 32).filter (fun i => m.slots[i].isFree)

/-- L at a grant: RESP_LIMIT, or 65535 while it holds 0 (R168). -/
def grantLimit (c : Settings) : BitVec 16 :=
  if c.respLimit = 0 then Config.zeroRespLimit else c.respLimit

/-- A header write or restoration write that is issued joins its count (R78, R139). -/
def countIssued (op : MemOp) (s : State) : State :=
  match op with
  | .headerWrite c _ => setEng (Engine.mapHdrOut (· + 1) c) s
  | .restoreWrite _ _ => setEng (fun g => { g with restoreOut := g.restoreOut + 1 }) s
  | _ => s

/-- The transaction is issued in a link slot (R163, R164). -/
def issueIn (i : LinkNo) (r : MemRequest) (s : State) : State :=
  let lr : LinkRec :=
    { op := r.op, addr := r.addr, issued := s.clock.timebase, limit := grantLimit s.cfg,
      wanted := true }
  let s1 := putSlot i (.busy lr) s
  countIssued r.op { s1 with mport := { s1.mport with
    out := s1.mport.out ++ [{ slot := i, op := r.op, addr := r.addr }] } }

/-- R9: the cell of a FORWARD_WRITE at its grant lies in the journal area as it then stands; the tag of
the write so denied. -/
def deniedAtGrant (c : Settings) (op : MemOp) : Option Tag :=
  match op with
  | .forwardWrite tag cell _ _ => if inJournalArea c cell then some tag else none
  | _ => none

/-- R9: the write is answered DENIED, and its cell's next entry takes its turn. -/
def denyAtGrant (tag : Tag) (s : State) : State :=
  match entryOf s tag with
  | some e =>
    if e.stage = .issued then giveTurn e.cell (denyEntry e .journalArea s) else s
  | none => s

/-- R139: a restoration whose RESTORE_WRITE comes to its grant while an earlier restoration write is outstanding, or
while a forward to its cell has gone stale since the request, is not issued; the engine's operation is then the wait
for them to leave. -/
def waitsAtGrant (s : State) (op : MemOp) : Option EngineOp :=
  match op, s.eng.op with
  | .restoreWrite cell bytes, .restoreIssued _ =>
    if s.eng.restoreOut = 0 ∧ staleForwardTo s.mport cell = false then none else some (.restoreWait cell bytes)
  | _, _ => none

/-- R164: the oldest request is granted a FREE link slot, if there are both; which of several FREE link slots is
drawn (assumption 4). A restoration that has to wait (R139) leaves the queue, asks again when it may, and the link
slot goes to the next request (DESIGN CHOICE, assumption 26). -/
def grantOne (s : State) : State :=
  match s.mport.queue, freeSlots s.mport with
  | r :: rest, f :: fs =>
    let s1 := { s with mport := { s.mport with queue := rest } }
    match deniedAtGrant s.cfg r.op, waitsAtGrant s r.op with
    | some tag, _ => denyAtGrant tag s1
    | none, some op => setEng (fun g => { g with op := op }) s1
    | none, none =>
      let drawn := pick (f :: fs).length s1
      issueIn ((f :: fs).getD drawn.1 f) r drawn.2
  | _, _ => s

/-- Grants one after another, oldest request first. -/
def grants : Nat → State → State
  | 0, s => s
  | n + 1, s => grants n (grantOne s)

/-! ### Settling an event -/

/-- The event is over: the requests it made keep their places from here on (R164). -/
def closeEvent (s : State) : State :=
  { s with mport := { s.mport with
      queue := s.mport.queue.map (fun r => { r with fresh := false }) } }

/-- R18: a request waiting on the link is taken once an entry is free. The admission is an event of its own (scope 0.8):
what it asks of the M-port joins behind all that was asked before (R164). -/
def intakeStep (s : State) : State :=
  match s.host.link with
  | [] => s
  | r :: rest =>
    if s.table.length < Config.tableSize then
      takeRequest r (closeEvent { s with host := { s.host with link := rest } })
    else s

/-- The engine and the record queue have nothing left to do at once (R47, R78, R90, R139). -/
def engineSettled (s : State) : Bool :=
  !(s.eng.op == .draining && drainDone s) &&
  (match s.eng.op with
   | .headerWrite _ false => s.eng.hdrOut s.eng.nextCopy != 0
   | .headerReads _ a b =>
     !(a == .waiting && s.eng.hdrOutA == 0) && !(b == .waiting && s.eng.hdrOutB == 0)
   | .restoreWait cell _ => s.eng.restoreOut != 0 || staleForwardTo s.mport cell
   | _ => true) &&
  !s.pres.queue.any (mayRequest s.pres)

/-- The event has had all its effects: nothing is left but a request on the link. -/
def eventDone (s : State) : Bool :=
  engineSettled s && (s.mport.queue.isEmpty || (freeSlots s.mport).isEmpty)

/-- One round of what the rules have happen at once: a drain that is complete (R90), a header access that
may be issued (R78), slot writes that may be requested (R47), a restoration write that may be issued
(R139), grants (R164), and, once the event is over, a request taken from the link (R18). -/
def settleRound (s : State) : State :=
  let s1 := restoreStep (recordStep (headerStep (drainStep s)))
  let s2 := grants s1.mport.queue.length s1
  if eventDone s2 then intakeStep s2 else s2

/-- Nothing is left for a round to do. -/
def settled (s : State) : Bool :=
  eventDone s && (s.host.link.isEmpty || !decide (s.table.length < Config.tableSize))

/-- Rounds until nothing is left. -/
def settleRounds : Nat → State → State
  | 0, s => s
  | n + 1, s => if settled s then s else settleRounds n (settleRound s)

/-- A round takes a request from the link, or ends an entry and leaves the event undone, or is the last; an admission
brings one entry more, so these are enough. -/
def settleBound (s : State) : Nat :=
  2 * s.host.link.length + s.table.length + s.mport.queue.length + 8

/-- Everything that happens at once within the event, then its end. -/
def settle (s : State) : State := closeEvent (settleRounds (settleBound s) s)

/-! ### Delivery of results (R165) -/

/-- The result of a FORWARD_READ (R30). -/
def readAnswered (tag : Tag) (r : Answer) (s : State) : State :=
  match entryOf s tag with
  | none => s
  | some e =>
    if e.stage = .issued then
      match r with
      | .ok data => giveTurn e.cell (endEntry e (.okRead (wordsFrom data e.count)) s)
      | .error => giveTurn e.cell (failEntry e .forwardRead s)
    else s

/-- The result of a FORWARD_WRITE (R38, R39). -/
def writeAnswered (tag : Tag) (ok : Bool) (s : State) : State :=
  match entryOf s tag with
  | none => s
  | some e =>
    if e.stage = .issued then
      if ok then
        if e.action.isSome then putEntry { e with stage := .finishing } s
        else giveTurn e.cell (endEntry e .okWrite s)
      else giveTurn e.cell (failEntry e .forwardWrite s)
    else s

/-- The result of an OLD_READ (R36, R37). -/
def oldReadAnswered (tag : Tag) (r : Answer) (s : State) : State :=
  match entryOf s tag with
  | none => s
  | some e =>
    if e.stage = .fetchingOld then
      match r with
      | .ok data => oldArrives e data s
      | .error => failOldRead e s
    else s

/-- The answer is OK. -/
def answerOk : Answer → Bool
  | .ok _ => true
  | .error => false

/-- The result reaches the requester, which acts on it by its own rule (R165 b). -/
def deliver (op : MemOp) (r : Answer) (s : State) : State :=
  match op with
  | .forwardRead tag _ _ _ => readAnswered tag r s
  | .forwardWrite tag _ _ _ => writeAnswered tag (answerOk r) s
  | .oldRead tag _ => oldReadAnswered tag r s
  | .slotWrite k half _ => slotAnswered k half (answerOk r) s
  | .headerRead c => headerReadAnswered c r s
  | .headerWrite _ _ => headerAnswered (answerOk r) s
  | .scanRead k half => recordReadAnswered k half r s
  | .restoreRead k half => recordReadAnswered k half r s
  | .restoreWrite cell _ => restoreAnswered cell (answerOk r) s

/-- A result no longer wanted is discarded (R165). -/
def deliverWanted (lr : LinkRec) (r : Answer) (s : State) : State :=
  if lr.wanted then deliver lr.op r s else s

/-- R165 c, R167: the requester is told that the transaction has left the outstanding set. -/
def leave (op : MemOp) (s : State) : State :=
  match op with
  | .slotWrite k half _ =>
    { s with pres := { s.pres with orphans := s.pres.orphans.erase (recordSlot k half) } }
  | .headerWrite c _ => setEng (Engine.mapHdrOut (· - 1) c) s
  | .restoreWrite _ _ => setEng (fun g => { g with restoreOut := g.restoreOut - 1 }) s
  | _ => s

/-- R22, R167: the cell of a stale write that has left may now give its turn. -/
def wakeCell (op : MemOp) (s : State) : State :=
  match op with
  | .forwardWrite _ cell _ _ => giveTurn cell s
  | .restoreWrite cell _ => giveTurn cell s
  | _ => s

/-- R165: an answer to a BUSY link slot frees it, delivers the result, and reports the leave. -/
def answerBusy (i : LinkNo) (lr : LinkRec) (r : Answer) (s : State) : State :=
  leave lr.op (deliverWanted lr r (putSlot i .free s))

/-- R166: the link slot becomes STALE and ERROR with cause TIMEOUT is delivered. -/
def timeoutBusy (i : LinkNo) (lr : LinkRec) (s : State) : State :=
  deliverWanted lr .error (putSlot i (.stale lr) s)

/-- R167: a STALE link slot is released with its leave report. -/
def releaseStale (i : LinkNo) (lr : LinkRec) (s : State) : State :=
  wakeCell lr.op (leave lr.op (putSlot i .free s))

/-- An answer from memory is handled by the state of the link slot it names (R165, R167). -/
def memoryAnswer (i : LinkNo) (r : Answer) (s : State) : State :=
  match s.mport.slots[i] with
  | .free => s
  | .busy lr => settle (answerBusy i lr r s)
  | .stale lr => settle (releaseStale i lr s)

/-- The response timer of a BUSY link slot has reached L (R166). -/
def responseDue (s : State) : LinkSlot → Option LinkRec
  | .busy r => if timersRun s && elapsed s r.issued r.limit.toNat then some r else none
  | _ => none

/-- The quarantine of a STALE link slot has reached 2L (R167). -/
def quarantineDue (s : State) : LinkSlot → Option LinkRec
  | .stale r => if timersRun s && elapsed s r.issued (2 * r.limit.toNat) then some r else none
  | _ => none

/-! ### Meanings -/

/-- MPORT_ANSWER (R165). -/
def execMportAnswer (i : LinkNo) (r : Answer) (s : State) : Host.Outcome State Fault Refusal :=
  unlessHeld s (.next (memoryAnswer i r s))

/-- STALE_LATE_ANSWER (R167): the answer is discarded and the link slot released. -/
def execStaleLateAnswer (i : LinkNo) (r : Answer) (s : State) : Host.Outcome State Fault Refusal :=
  unlessHeld s (.next (memoryAnswer i r s))

/-- ANSWER_TO_FREE_LINK_SLOT (R165): discarded, nothing delivered. -/
def execAnswerToFreeLinkSlot (i : LinkNo) (r : Answer) (s : State) :
    Host.Outcome State Fault Refusal :=
  unlessHeld s (.next (memoryAnswer i r s))

/-- RESPONSE_TIMEOUT (R166). -/
def execResponseTimeout (i : LinkNo) (s : State) : Host.Outcome State Fault Refusal :=
  unlessHeld s <|
    match responseDue s s.mport.slots[i] with
    | some lr => .next (settle (timeoutBusy i lr s))
    | none => .next s

/-- QUARANTINE_END (R167). -/
def execQuarantineEnd (i : LinkNo) (s : State) : Host.Outcome State Fault Refusal :=
  unlessHeld s <|
    match quarantineDue s s.mport.slots[i] with
    | some lr => .next (settle (releaseStale i lr s))
    | none => .next s

/-- MPORT_GRANT (R164). -/
def execMportGrant (s : State) : Host.Outcome State Fault Refusal :=
  unlessHeld s (.next (settle (grantOne s)))

/-- RECORD_SLOT_WRITES_REQUEST (R47). -/
def execRecordSlotWritesRequest (k : Nat) (s : State) : Host.Outcome State Fault Refusal :=
  unlessHeld s <|
    match s.pres.queue.find? (fun r => r.index == k) with
    | some r => .next (settle (requestIfClear s r))
    | none => .next s

/-- RESTORE_WRITE_ISSUE (R139). -/
def execRestoreWriteIssue (s : State) : Host.Outcome State Fault Refusal :=
  unlessHeld s (.next (settle (restoreStep s)))

/-- HEADER_ACCESS_ISSUE (R78). -/
def execHeaderAccessIssue (s : State) : Host.Outcome State Fault Refusal :=
  unlessHeld s (.next (settle (headerStep s)))

/-- DRAIN_COMPLETE (R90). -/
def execDrainComplete (s : State) : Host.Outcome State Fault Refusal :=
  unlessHeld s (.next (settle (drainStep s)))

end Sys2Proof.Machine
end

