-- ==== Sys2Proof/Machine/HostSide.lean ====
section
/-! DEFINITION. The commands of the host side, the pins and the timers: HOST_REQUEST, PFW_ASSERT,
PFW_DEASSERT, COLD_RESET, HOLD_EXPIRY, DEADLINE_EXPIRY, WATCH_ACTION_DELIVERY. -/

namespace Sys2Proof.Machine

/-- HOST_REQUEST (R17, R18): taken at once when an entry is free and none waits before it, else it waits
on the link. -/
def execHostRequest (r : HostRequest) (s : State) : Host.Outcome State Fault Refusal :=
  unlessHeld s <|
    if s.table.length < Config.tableSize ∧ s.host.link = [] then .next (settle (takeRequest r s))
    else .next (settle { s with host := { s.host with link := s.host.link ++ [r] } })

/-- The level of the PFW input. -/
def setPfw (level : Bool) (s : State) : State := { s with host := { s.host with pfw := level } }

/-- PFW_ASSERT (R24, R178): AT_TURN entries are re-examined. A level that is already asserted does not
change (assumption 12). While a cold reset is held only the pin's level moves: it is sampled at the end (R42). -/
def execPfwAssert (s : State) : Host.Outcome State Fault Refusal :=
  if s.host.pfw then .next s
  else if s.host.resetHeld then .next (setPfw true s)
  else
    .next (settle (visit (fun _ e => e.stage == .atTurn)
      (report .power (.powerChange true) (setPfw true s))))

/-- PFW_DEASSERT (R24, R178): entries held POWER are re-examined in admission order. While a cold reset is
held only the pin's level moves (R42). -/
def execPfwDeassert (s : State) : Host.Outcome State Fault Refusal :=
  if !s.host.pfw then .next s
  else if s.host.resetHeld then .next (setPfw false s)
  else
    .next (settle (visit (fun _ e => e.heldWith .power)
      (report .power (.powerChange false) (setPfw false s))))

/-- R193: every block at its cold-reset values, held there or not. The level of PFW is the pin's (R42). The
commands that wait, the choices and the two traces are the model's and stay (assumptions 4, 5 and 11). -/
def coldReset (held : Bool) (s : State) : State :=
  { State.reset with
    pending := s.pending, choices := s.choices,
    host := { link := [], pfw := s.host.pfw, resetHeld := held, out := s.host.out },
    mport := { MPort.reset with out := s.mport.out } }

/-- COLD_RESET (R193): at its assertion every block takes its cold-reset values and the part is held there;
its release ends the hold, and PFW counts from then on as it stands (R42). A release with no reset held is no
event (assumption 2). -/
def execColdReset (edge : ResetEdge) (s : State) : Host.Outcome State Fault Refusal :=
  match edge with
  | .assert => .next (coldReset true s)
  | .release => if s.host.resetHeld then .next (coldReset false s) else .next s

/-- HOLD_EXPIRY (R28, R29): a held entry that has reached HOLD_LIMIT. -/
def execHoldExpiry (tag : Tag) (s : State) : Host.Outcome State Fault Refusal :=
  unlessHeld s <|
    match dueHold s tag with
    | some (e, c) => .next (settle (expireHold e c s))
    | none => .next s

/-- The deadline timer has reached 0 in OPEN (R100, R102). -/
def deadlineDue (s : State) : Bool :=
  timersRun s && decide (s.eng.state = .opened) && s.eng.deadlineRunning && s.eng.deadlineLeft == 0

/-- DEADLINE_EXPIRY (R102). -/
def execDeadlineExpiry (s : State) : Host.Outcome State Fault Refusal :=
  unlessHeld s <|
    if deadlineDue s then .next (settle (deadlineExpires s)) else .next s

/-- R39: once the engine has taken the action, the write is answered OK and freed. -/
def finishWrite (e : Entry) (s : State) : State := giveTurn e.cell (endEntry e .okWrite s)

/-- WATCH_ACTION_DELIVERY (R39, R104, R127, R128). -/
def execWatchActionDelivery (tag : Tag) (s : State) : Host.Outcome State Fault Refusal :=
  unlessHeld s <|
    match entryOf s tag with
    | none => .next s
    | some e =>
      if e.stage = .finishing then
        match e.action with
        | some (a, rule) => .next (settle (finishWrite e (takeAction e a rule s)))
        | none => .next (settle (finishWrite e s))
      else .next s

end Sys2Proof.Machine
end

