-- ==== Sys2Proof/Machine/Clock.lean ====
section
/-! DEFINITION. The passing of time while no command waits: one period of the reference clock, the
timebase and the deadline timer (R100, R172), and the events that time or the part itself raises
(assumption 1). -/

namespace Sys2Proof.Machine

/-- The timebase advances by one, and a running deadline timer counts down with it (R100, R172). -/
def advance (s : State) : State :=
  let s1 := { s with clock := { timebase := s.clock.timebase + 1, prescale := 0 } }
  if s.eng.deadlineRunning ∧ s.eng.deadlineLeft ≠ 0 then
    setEng (fun g => { g with deadlineLeft := g.deadlineLeft - 1 }) s1
  else s1

/-- The held entries that have reached HOLD_LIMIT, in admission order (R28). -/
def dueHolds (s : State) : List Instr :=
  (s.table.filter (fun e => (expiredHold s e).isSome)).map (fun e => Instr.holdExpiry e.tag)

/-- The deadline expiry, if due (R102). -/
def dueDeadline (s : State) : List Instr := if deadlineDue s then [.deadlineExpiry] else []

/-- The response timers and quarantines that have ended, each an event of its own (R166, R167). -/
def dueLinks (s : State) : List Instr :=
  (List.finRange 32).filterMap (fun i =>
    if (responseDue s s.mport.slots[i]).isSome then some (.responseTimeout i)
    else if (quarantineDue s s.mport.slots[i]).isSome then some (.quarantineEnd i)
    else none)

/-- The lists of events merged into one, each keeping its order; which goes next is drawn, since events
of one moment may be taken in any order (scope 0.7). -/
def interleave : Nat → List (List Instr) → State → List Instr × State
  | 0, _, s => ([], s)
  | n + 1, gs, s =>
    let live := gs.filter (fun g => !g.isEmpty)
    let drawn := pick live.length s
    match live[drawn.1]? with
    | none => ([], s)
    | some [] => ([], s)
    | some (e :: rest) =>
      let more := interleave n (live.set drawn.1 rest) drawn.2
      (e :: more.1, more.2)

/-- The expiries due at an advance of the timebase wait in the queue, in an order drawn. -/
def raiseExpiries (s : State) : State :=
  let groups := [dueHolds s, dueDeadline s] ++ (dueLinks s).map (fun e => [e])
  let out := interleave (groups.map List.length).sum groups s
  { out.2 with pending := s.pending ++ out.1 }

/-- One period of the reference clock (R172); while TICKDIV is 0 the timebase stands. -/
def tick (s : State) : State :=
  if s.cfg.tickdiv = 0 then s
  else if s.clock.prescale.toNat + 1 < s.cfg.tickdiv.toNat then
    { s with clock := { s.clock with prescale := s.clock.prescale + 1 } }
  else raiseExpiries (advance s)

/-- The writes in FINISHING, whose actions wait to be handed to the engine (R39). -/
def deliveries (s : State) : List Instr :=
  (s.table.filter (fun e => e.stage == .finishing)).map (fun e => Instr.watchActionDelivery e.tag)

/-- What the part does when no command waits: it hands over the watch actions that wait, else a period
of the reference clock passes. A part held in cold reset does neither (R193). -/
def idleStep (s : State) : State :=
  if s.host.resetHeld then s
  else if deliveries s = [] then tick s
  else
    let out := interleave (deliveries s).length ((deliveries s).map (fun e => [e])) s
    { out.2 with pending := s.pending ++ out.1 }

end Sys2Proof.Machine
end

