-- ==== Sys2Proof/Machine/Commands.lean ====
section
/-! DEFINITION. The management commands: acceptance by the table of R86, CMD_RESULT (R85, R186), and the
effect of each command. -/

namespace Sys2Proof.Machine

/-! ### Acceptance (R86) -/

/-- The states in which an operation is in progress (R85). -/
def busyState : EngState → Bool
  | .opening => true
  | .closing => true
  | .rolling => true
  | .recovering => true
  | _ => false

/-- The reason of a command that is not taken in this state: BUSY in the four states, else STATE. -/
def busyOrState (st : EngState) : RefuseReason := if busyState st then .busy else .state

/-- CMD_RESULT is set to the code written and its outcome (R186). -/
def recordResult (code : BitVec 4) (o : CmdOutcome) (s : State) : State :=
  { s with port := { s.port with cmdResult := { code := code, outcome := o } } }

/-- A refused command changes nothing but CMD_RESULT (R85). -/
def refuseCmd (code : BitVec 4) (why : RefuseReason) (s : State) : State :=
  recordResult code (.refused why) s

/-- A command taken: its effect and all that follows at once; CMD_RESULT is recorded as it is taken. -/
def takeCmd (code : BitVec 4) (effect : State → State) (s : State) : State :=
  settle (effect (recordResult code .accepted s))

/-- RECOVER, FORMAT and DISCARD in UNRECOVERED with the geometry out of range (R86). -/
def unconfigured (s : State) : Bool :=
  decide (s.eng.state = .unrecovered) && !geometryOk s.cfg

/-- UNRECOVERED with the geometry in range (R86). -/
def configured (s : State) : Bool := decide (s.eng.state = .unrecovered) && geometryOk s.cfg

/-! ### Meanings -/

/-- OPEN (R86, R87). -/
def execOpen (s : State) : Host.Outcome State Fault Refusal :=
  unlessHeld s <|
    if s.eng.state = .idle ∧ s.eng.nextEpoch.isSome then .next (takeCmd 1 takeOpen s)
    else .next (refuseCmd 1 (busyOrState s.eng.state) s)

/-- COMMIT (R86, R89, R97). -/
def execCommit (s : State) : Host.Outcome State Fault Refusal :=
  unlessHeld s <|
    match s.eng.state with
    | .opened => .next (takeCmd 2 (takeClose .commit) s)
    | .faulted => .next (takeCmd 2 (retryClose .commit) s)
    | st => .next (refuseCmd 2 (busyOrState st) s)

/-- COMMIT_OPEN (R86, R89, R97). -/
def execCommitOpen (s : State) : Host.Outcome State Fault Refusal :=
  unlessHeld s <|
    match s.eng.state, s.eng.nextEpoch with
    | .opened, some _ => .next (takeCmd 3 (takeClose .commitOpen) s)
    | .faulted, some _ => .next (takeCmd 3 (retryClose .commitOpen) s)
    | st, _ => .next (refuseCmd 3 (busyOrState st) s)

/-- ABORT (R86, R98, R99). -/
def execAbort (s : State) : Host.Outcome State Fault Refusal :=
  unlessHeld s <|
    match s.eng.state with
    | .opened => .next (takeCmd 4 takeAbort s)
    | .faulted => .next (takeCmd 4 abortFaulted s)
    | st => .next (refuseCmd 4 (busyOrState st) s)

/-- EXTEND (R86, R101). -/
def execExtend (s : State) : Host.Outcome State Fault Refusal :=
  unlessHeld s <|
    if s.eng.state = .opened then .next (loadDeadline (recordResult 5 .accepted s))
    else .next (refuseCmd 5 .state s)

/-- RECOVER (R86, R149). -/
def execRecover (s : State) : Host.Outcome State Fault Refusal :=
  unlessHeld s <|
    if configured s then .next (takeCmd 6 (beginHeaderReads .recover recoveryWalk) s)
    else if unconfigured s then .next (refuseCmd 6 .unconfigured s)
    else .next (refuseCmd 6 (busyOrState s.eng.state) s)

/-- FORMAT (R86, R159). -/
def execFormat (s : State) : Host.Outcome State Fault Refusal :=
  unlessHeld s <|
    if configured s then .next (takeCmd 7 takeFormat s)
    else if unconfigured s then .next (refuseCmd 7 .unconfigured s)
    else .next (refuseCmd 7 (busyOrState s.eng.state) s)

/-- DISCARD (R86, R145, R157, R158). -/
def execDiscard (s : State) : Host.Outcome State Fault Refusal :=
  unlessHeld s <|
    if configured s then .next (takeCmd 8 (beginHeaderReads .discard Walk.absent) s)
    else if unconfigured s then .next (refuseCmd 8 .unconfigured s)
    else if s.eng.state = .stalled then .next (takeCmd 8 discardWalk s)
    else .next (refuseCmd 8 .state s)

/-- RESUME (R86, R144, R156). -/
def execResume (s : State) : Host.Outcome State Fault Refusal :=
  unlessHeld s <|
    if s.eng.state = .stalled then .next (takeCmd 9 resumeWalk s)
    else .next (refuseCmd 9 .state s)

/-- REARM (R86, R123): ARG names the rule. -/
def execRearm (s : State) : Host.Outcome State Fault Refusal :=
  unlessHeld s <|
    if h : s.port.arg.toNat < 8 then
      .next (putRule ⟨s.port.arg.toNat, h⟩ (rearmed s.rules[s.port.arg.toNat])
        (recordResult 10 .accepted s))
    else .next (refuseCmd 10 .state s)

/-- NOTICE_POP (R86, R181). -/
def execNoticePop (s : State) : Host.Outcome State Fault Refusal :=
  unlessHeld s <|
    match s.ev.notices with
    | [] => .next (recordResult 11 .empty s)
    | _ :: rest => .next (recordResult 11 .accepted { s with ev := { s.ev with notices := rest } })

/-- R41: every entry is answered ABORTED, in admission order, and freed. -/
def abortTable (s : State) : State :=
  { s with
    host := { s.host with
      out := s.host.out ++ s.table.map (fun e => { tag := e.tag, result := .aborted }) }
    table := [] }

/-- R63: the preservation unit at a soft reset. -/
def softResetPres (m : MPort) (p : Preservation) : Preservation :=
  { queue := [], claims := 0, filter := [], orphans := p.orphans ++ outstandingSlots 0 m,
    fullReported := false }

/-- R108: the engine at a soft reset. -/
def softResetEng (g : Engine) : Engine :=
  { g with
    state := if g.state = .idle then .idle else .unrecovered
    nextIndex := 0, durableCount := 0, deadlineLeft := 0, deadlineRunning := false,
    closeKind := none, openNumber := none, walk := Walk.absent, op := .none }

/-- R170: a BUSY link slot becomes STALE, its result no longer wanted. -/
def staleSlot : LinkSlot → LinkSlot
  | .free => .free
  | .busy r => .stale { r with wanted := false }
  | .stale r => .stale { r with wanted := false }

/-- R194: the soft reset at that one event in every block. -/
def softReset (s : State) : State :=
  let s1 := abortTable s
  { s1 with
    pres := softResetPres s.mport s.pres
    eng := softResetEng s.eng
    rules := ⟨⟨s.rules.toList.map softResetRule⟩, by simp⟩
    mport := { s.mport with slots := mapSlots staleSlot s.mport.slots, queue := [] }
    ev := { s.ev with flags := 0, notices := [] } }

/-- SOFT_RESET (R86, R194): then the H-port takes the next request from the link (R41). -/
def execSoftReset (s : State) : Host.Outcome State Fault Refusal :=
  unlessHeld s (.next (takeCmd 12 softReset s))

/-- The code of a COMMAND write that names no command (R186). -/
def undefCodeBits : UndefCode → BitVec 4
  | .code0 => 0
  | .code13 => 13
  | .code14 => 14
  | .code15 => 15

/-- UNDEFINED_COMMAND (R85, R186). -/
def execUndefinedCmd (c : UndefCode) (s : State) : Host.Outcome State Fault Refusal :=
  unlessHeld s (.next (refuseCmd (undefCodeBits c) .state s))

end Sys2Proof.Machine
end

