-- ==== Sys2Proof/Machine/PortWrites.lean ====
section
/-! DEFINITION. The configuration writes of the management port: CONFIG0, the limits, the geometry,
CONFIG_ERROR, the event registers, and the registers that only store (R185, R187, R188, R190 to R192). -/

namespace Sys2Proof.Machine

/-- The settings rewritten. -/
def setCfg (f : Settings → Settings) (s : State) : State := { s with cfg := f s.cfg }

/-- The five fields of CONFIG0 stored (R187). -/
def config0Store (v : W32) (c : Settings) : Settings :=
  { c with
    tickdiv := config0Tickdiv v, barePolicy := config0Bare v, fullPolicy := config0Full v,
    deadlineAction := config0Action v, eventEnable := config0Enable v }

/-- R172: the next advance comes TICKDIV reference periods after the write. -/
def restartPrescale (s : State) : State := { s with clock := { s.clock with prescale := 0 } }

/-- CONFIG0_WRITE (R187): a change of the full policy to DENY re-examines the entries held JOURNAL_FULL
(R26, R40). -/
def execConfig0Write (v : W32) (s : State) : Host.Outcome State Fault Refusal :=
  unlessHeld s <|
    let s1 := raiseConfigError (config0Action v == 3#2) (restartPrescale (setCfg (config0Store v) s))
    if s.cfg.fullPolicy = .hold ∧ config0Full v = .deny then
      .next (settle (visit (fun _ e => e.heldWith .journalFull) s1))
    else .next s1

/-- HOLD_LIMIT_WRITE (R28, R187): entries already past the new limit expire at the change, in admission
order; while TICKDIV is 0 none expires (R173). -/
def execHoldLimitWrite (v : W32) (s : State) : Host.Outcome State Fault Refusal :=
  unlessHeld s <|
    let s1 := setCfg (fun c => { c with holdLimit := v.extractLsb' 0 16 }) s
    .next (settle ((s1.table.map (·.tag)).foldl expireIfDue s1))

/-- RESP_LIMIT_WRITE (R168, R187). -/
def execRespLimitWrite (v : W32) (s : State) : Host.Outcome State Fault Refusal :=
  unlessHeld s <|
    .next (raiseConfigError (v.extractLsb' 0 16 == 0#16)
      (setCfg (fun c => { c with respLimit := v.extractLsb' 0 16 }) s))

/-- The transaction is one that blocks a geometry write (R188). -/
def MemOp.blocksGeometry : MemOp → Bool
  | .slotWrite _ _ _ => true
  | .headerWrite _ _ => true
  | .restoreWrite _ _ => true
  | _ => false

/-- A SLOT_WRITE, HEADER_WRITE or RESTORE_WRITE is in the outstanding set, stale ones included (R188). -/
def geometryBlocked (m : MPort) : Bool :=
  m.slots.toList.any (fun l => match l.record? with
    | some r => r.op.blocksGeometry
    | none => false)

/-- The stored geometry after a taken write (R188). -/
def geometryStore (reg : GeoReg) (v : W32) (c : Settings) : Settings :=
  match reg with
  | .jbaseLo => { c with jbaseCell := c.jbaseCell.extractLsb' 26 4 ++ v.extractLsb' 6 26 }
  | .jbaseHi => { c with jbaseCell := v.extractLsb' 0 4 ++ c.jbaseCell.extractLsb' 0 26 }
  | .jslots => { c with jslots := v }

/-- R188: a taken JBASE_LO write with any of bits 5:0 written as 1. -/
def geometryLowBits (reg : GeoReg) (v : W32) : Bool :=
  match reg with
  | .jbaseLo => v.extractLsb' 0 6 != 0#6
  | .jbaseHi => false
  | .jslots => false

/-- GEOMETRY_WRITE (R188). -/
def execGeometryWrite (reg : GeoReg) (v : W32) (s : State) : Host.Outcome State Fault Refusal :=
  unlessHeld s <|
    let taken := raiseConfigError (geometryLowBits reg v) (setCfg (geometryStore reg v) s)
    if geometryBlocked s.mport then .next (raiseConfigError true s)
    else
      match s.eng.state with
      | .unrecovered => .next taken
      | .idle => .next (settle (enterState .unrecovered taken))
      | _ => .next (raiseConfigError true s)

/-- CONFIG_ERROR_CLEAR (R190): a write of STATUS with bit 16 set. -/
def execConfigErrorClear (v : W32) (s : State) : Host.Outcome State Fault Refusal :=
  unlessHeld s <|
    .next { s with port := { s.port with configError := s.port.configError && !v.getLsbD 16 } }

/-- EVENT_PENDING_CLEAR (R175, R191): each class whose bit is written as one is cleared. -/
def execEventPendingClear (v : W32) (s : State) : Host.Outcome State Fault Refusal :=
  unlessHeld s (.next { s with ev := { s.ev with flags := s.ev.flags &&& ~~~(v.extractLsb' 0 11) } })

/-- EVENT_LEVEL_WRITE (R176, R191). -/
def execEventLevelWrite (v : W32) (s : State) : Host.Outcome State Fault Refusal :=
  unlessHeld s (.next { s with ev := { s.ev with levels := v.extractLsb' 0 22 } })

/-- REGISTER_WRITE (R185, R186, R187, R192): ARG, DEADLINE and DSEL are stored; a write to a read-only
register or to no register is ignored. -/
def execRegisterWrite (t : PlainTarget) (v : W32) (s : State) : Host.Outcome State Fault Refusal :=
  unlessHeld s <|
    match t with
    | .arg => .next { s with port := { s.port with arg := v } }
    | .deadline => .next (setCfg (fun c => { c with deadline := v.extractLsb' 0 24 }) s)
    | .nh0 => .next { s with port := { s.port with dsel := v.extractLsb' 25 2 } }
    | .ignored _ => .next s

end Sys2Proof.Machine
end

