-- ==== Sys2Proof/Machine/ReadPort.lean ====
section
/-! DEFINITION. What a read of the register window returns (R184, R185, R187, R189, R191, R192). A read
changes nothing, so it is a function of the state and no command. -/

namespace Sys2Proof.Machine

/-! ### Encodings -/

/-- A truth value as one bit. -/
def bit1 (b : Bool) : W32 := if b then 1#32 else 0#32

/-- n in the w bits from position p up. -/
def field (p w n : Nat) : W32 := (BitVec.ofNat w n).setWidth 32 <<< p

/-- ENGINE_STATE (R191). -/
def EngState.code : EngState → Nat
  | .unrecovered => 0
  | .idle => 1
  | .opening => 2
  | .opened => 3
  | .closing => 4
  | .faulted => 5
  | .rolling => 6
  | .recovering => 7
  | .stalled => 8

/-- WALK_KIND, WALK_PHASE and STALL_CAUSE, 0 while absent (R191). -/
def walkKindCode : Option WalkKind → Nat
  | none => 0
  | some .rollback => 1
  | some .recovery => 2

def WalkPhase.code : WalkPhase → Nat
  | .scan => 1
  | .restore => 2
  | .final => 3

def walkPhaseCode : Option WalkPhase → Nat
  | none => 0
  | some p => p.code

def StallCause.code : StallCause → Nat
  | .readFault => 1
  | .recordInvalid => 2
  | .writeFault => 3
  | .headerFault => 4

def stallCode : Option StallCause → Nat
  | none => 0
  | some c => c.code

/-- A value in bits 19:0 with its presence in bit 31 (R191). -/
def presentCount : Option Nat → W32
  | none => 0
  | some n => bit1 true <<< 31 ||| (BitVec.ofNat 20 n).setWidth 32

/-! ### Registers -/

def readConfig0 (c : Settings) : W32 :=
  c.tickdiv.setWidth 32 ||| bit1 (c.barePolicy == .deny) <<< 8 ||| bit1 (c.fullPolicy == .deny) <<< 9 |||
    c.deadlineAction.setWidth 32 <<< 10 ||| bit1 c.eventEnable <<< 12

def readStatus (s : State) : W32 :=
  field 0 4 s.eng.state.code ||| field 4 2 (walkKindCode s.eng.walk.kind) |||
    field 6 2 (walkPhaseCode s.eng.walk.phase) ||| field 8 3 (stallCode s.eng.walk.stall) |||
    bit1 s.port.configError <<< 16 ||| bit1 s.host.pfw <<< 17 ||| bit1 (geometryOk s.cfg) <<< 18 |||
    bit1 (s.eng.nextCopy == .b) <<< 19

def readCmdResult (r : CmdResult) : W32 :=
  match r.outcome with
  | .noneTaken => 0
  | .accepted => r.code.setWidth 32 ||| field 4 2 1
  | .refused .busy => r.code.setWidth 32 ||| field 4 2 2 ||| field 6 2 1
  | .refused .state => r.code.setWidth 32 ||| field 4 2 2 ||| field 6 2 2
  | .refused .unconfigured => r.code.setWidth 32 ||| field 4 2 2 ||| field 6 2 3
  | .empty => r.code.setWidth 32 ||| field 4 2 3

/-- DEADLINE_LEFT reads 0 while the timer is stopped (R191). -/
def readDeadlineLeft (g : Engine) : W32 := if g.deadlineRunning then g.deadlineLeft.setWidth 32 else 0

def readOccupancy (s : State) : W32 :=
  field 0 12 s.pres.filter.length ||| field 16 5 s.table.length ||| field 24 4 s.pres.queue.length

def readGuardA (g : GuardEntry) : W32 := g.mode ++ g.base
def readGuardB (g : GuardEntry) : W32 := BitVec.ofBool g.valid ++ g.count

def readWaddrLo (r : WatchRule) : W32 := r.waddr.extractLsb' 0 29 ++ 0#3
def readWaddrHi (r : WatchRule) : W32 := (r.waddr.extractLsb' 29 4).setWidth 32

def RuleState.code : RuleState → Nat
  | .disarmed => 0
  | .armed => 1
  | .fired => 2

def readWctl (r : WatchRule) : W32 :=
  bit1 r.enable ||| r.mode.setWidth 32 <<< 1 ||| r.action.setWidth 32 <<< 3 |||
    bit1 r.rearmAuto <<< 6 ||| field 8 2 r.state.code ||| bit1 r.overrun <<< 10 |||
    r.hits.setWidth 32 <<< 16

/-! ### The notice head (R192) -/

/-- KIND, in the order of the kinds table of R179. -/
def NoticeBody.kindCode : NoticeBody → Nat
  | .watchFired .. => 1
  | .watchOverrun .. => 2
  | .actionDropped .. => 3
  | .denied .. => 4
  | .bareWrite .. => 5
  | .holdExpired .. => 6
  | .forwardFault .. => 7
  | .journalFull .. => 8
  | .journalFault .. => 9
  | .headerFault .. => 10
  | .walkStall .. => 11
  | .deadlineExpired .. => 12
  | .recoveryResult .. => 13
  | .epochEvent .. => 14
  | .protocol .. => 15
  | .powerChange .. => 16

/-- ADDRESS, where the kind carries it (R179). -/
def NoticeBody.address? : NoticeBody → Option Addr
  | .watchFired _ a _ _ _ _ => some a
  | .watchOverrun _ a _ => some a
  | .actionDropped _ a _ _ => some a
  | .denied a _ _ => some a
  | .bareWrite a _ => some a
  | .holdExpired a _ _ => some a
  | .forwardFault a _ _ => some a
  | .journalFull a _ _ => some a
  | .journalFault a _ _ _ => some a
  | .headerFault a _ => some a
  | .walkStall a _ _ _ _ => some a
  | .recoveryResult (.headerReadFault a) => some a
  | .protocol a _ _ => some a
  | _ => none

/-- TAG. -/
def NoticeBody.tag? : NoticeBody → Option Tag
  | .watchFired _ _ t _ _ _ => some t
  | .watchOverrun _ _ t => some t
  | .actionDropped _ _ t _ => some t
  | .denied _ t _ => some t
  | .bareWrite _ t => some t
  | .holdExpired _ t _ => some t
  | .forwardFault _ t _ => some t
  | .journalFull _ t _ => some t
  | .journalFault _ t _ _ => some t
  | .protocol _ t _ => some t
  | _ => none

/-- RULE. -/
def NoticeBody.rule? : NoticeBody → Option RuleNo
  | .watchFired r _ _ _ _ _ => some r
  | .watchOverrun r _ _ => some r
  | .actionDropped r _ _ _ => some r
  | _ => none

/-- OLD and NEW. -/
def NoticeBody.values? : NoticeBody → Option (W64 × W64)
  | .watchFired _ _ _ o n _ => some (o, n)
  | _ => none

/-- BIT. -/
def NoticeBody.bit? : NoticeBody → Option (Fin 64)
  | .watchFired _ _ _ _ _ b => b
  | _ => none

/-- INDEX. -/
def NoticeBody.index? : NoticeBody → Option Nat
  | .journalFull _ _ c => some c
  | .journalFault _ _ k _ => some k
  | .walkStall _ k _ _ _ => k
  | .recoveryResult (.rolledBack n) => some n
  | .recoveryResult (.discarded n) => some n
  | .epochEvent (.commitOpened n) => some n
  | .epochEvent (.committed n) => some n
  | .epochEvent (.rolledBack n) => some n
  | .epochEvent (.discarded n) => some n
  | _ => none

def DenyReason.code : DenyReason → Nat
  | .journalArea => 1
  | .readonly => 2
  | .unrecovered => 3
  | .bare => 4
  | .journalFull => 5
  | .watch => 6

def HoldCause.code : HoldCause → Nat
  | .power => 1
  | .walk => 2
  | .transition => 3
  | .journalFull => 4

def ForwardFault.code : ForwardFault → Nat
  | .forwardRead => 1
  | .forwardWrite => 2
  | .oldRead => 3

def RecHalf.code : RecHalf → Nat
  | .header => 1
  | .data => 2

def HeaderFaultReason.code : HeaderFaultReason → Nat
  | .openHeader => 1
  | .commit => 2
  | .commitOpen => 3
  | .reassert => 4
  | .discard => 5
  | .format => 6

def DropReason.code : DropReason → Nat
  | .inState st => st.code
  | .exhausted => 15

def DeadlineReason.code : DeadlineReason → Nat
  | .event => 1
  | .commit => 2
  | .abort => 3

def RecoveryReport.code : RecoveryReport → Nat
  | .headerReadFault _ => 1
  | .noValidHeader => 2
  | .clean => 3
  | .rolledBack _ => 4
  | .discarded _ => 5

def EpochReport.code : EpochReport → Nat
  | .opened => 1
  | .commitOpened _ => 2
  | .committed _ => 3
  | .rolledBack _ => 4
  | .discarded _ => 5
  | .formatted => 6

def ProtocolReason.code : ProtocolReason → Nat
  | .tagInUse => 1
  | .boundary => 2

/-- The REASON of WALK_STALL: kind in bit 5, phase in bits 4:3, cause in bits 2:0 (R192). -/
def walkReasonCode (k : WalkKind) (p : WalkPhase) (c : StallCause) : Nat :=
  (if k = .recovery then 32 else 0) + 8 * p.code + c.code

/-- REASON, encoded per kind (R192). -/
def NoticeBody.reason? : NoticeBody → Option Nat
  | .actionDropped _ _ _ w => some w.code
  | .denied _ _ w => some w.code
  | .holdExpired _ _ w => some w.code
  | .forwardFault _ _ w => some w.code
  | .journalFault _ _ _ w => some w.code
  | .headerFault _ w => some w.code
  | .walkStall _ _ k p c => some (walkReasonCode k p c)
  | .deadlineExpired w => some w.code
  | .recoveryResult w => some w.code
  | .epochEvent w => some w.code
  | .protocol _ _ w => some w.code
  | .powerChange true => some 1
  | .powerChange false => some 2
  | _ => none

/-- NH0 without DSEL. -/
def noticeWord0 (b : NoticeBody) : W32 :=
  field 0 5 b.kindCode ||| bit1 b.address?.isSome <<< 5 ||| bit1 b.tag?.isSome <<< 6 |||
    bit1 b.rule?.isSome <<< 7 ||| bit1 b.values?.isSome <<< 8 ||| bit1 b.bit?.isSome <<< 9 |||
    bit1 b.index?.isSome <<< 10 ||| bit1 b.reason?.isSome <<< 11 |||
    field 12 4 ((b.tag?.map Fin.val).getD 0) ||| field 16 3 ((b.rule?.map Fin.val).getD 0) |||
    field 19 6 ((b.bit?.map Fin.val).getD 0)

/-- NH4. -/
def noticeWord4 (b : NoticeBody) : W32 :=
  ((b.address?.getD 0).extractLsb' 32 4).setWidth 32 ||| field 4 6 (b.reason?.getD 0) |||
    field 10 20 (b.index?.getD 0)

/-- NH5: the quarter of OLD and NEW that DSEL chooses. -/
def noticeWord5 (dsel : BitVec 2) (b : NoticeBody) : W32 :=
  match b.values? with
  | none => 0
  | some (o, n) =>
    match dsel.toNat with
    | 0 => o.extractLsb' 0 32
    | 1 => o.extractLsb' 32 32
    | 2 => n.extractLsb' 0 32
    | _ => n.extractLsb' 32 32

/-- NH0 to NH5. While the queue is empty every field of the notice reads 0; DSEL is a stored register of
its own and is not of the notice. -/
def readNotice (s : State) (k : Nat) : W32 :=
  let dsel := s.port.dsel.setWidth 32 <<< 25
  match s.ev.notices with
  | [] => if k = 0 then dsel else 0
  | n :: _ =>
    match k with
    | 0 => noticeWord0 n.body ||| dsel
    | 1 => n.time
    | 2 => n.epoch
    | 3 => (n.body.address?.getD 0).extractLsb' 0 32
    | 4 => noticeWord4 n.body
    | _ => noticeWord5 s.port.dsel n.body

/-- The registers of a watch rule at offset k of its 64 bytes (R184). -/
def readWatch (r : WatchRule) (k : Nat) : W32 :=
  match k with
  | 0x00 => readWaddrLo r
  | 0x04 => readWaddrHi r
  | 0x08 => r.conds.extractLsb' 0 32
  | 0x0C => r.conds.extractLsb' 32 32
  | 0x10 => r.conds.extractLsb' 64 32
  | 0x14 => r.conds.extractLsb' 96 32
  | 0x18 => r.conds.extractLsb' 128 32
  | 0x1C => r.conds.extractLsb' 160 32
  | 0x20 => readWctl r
  | _ => 0

/-- What the window shows at an offset (R184, R185); an offset that names no register reads 0. -/
def readWindow (s : State) (offset : BitVec 10) : W32 :=
  let off := offset.toNat
  match off with
  | 0x000 => Config.partId
  | 0x004 => readConfig0 s.cfg
  | 0x008 => s.cfg.respLimit.setWidth 32
  | 0x00C => s.cfg.holdLimit.setWidth 32
  | 0x010 => s.cfg.deadline.setWidth 32
  | 0x014 => s.cfg.jbaseCell.extractLsb' 0 26 ++ 0#6
  | 0x018 => (s.cfg.jbaseCell.extractLsb' 26 4).setWidth 32
  | 0x01C => s.cfg.jslots
  | 0x020 => readStatus s
  | 0x024 => presentCount s.eng.walk.index
  | 0x028 => presentCount s.eng.walk.scanCount
  | 0x02C => 0
  | 0x030 => s.port.arg
  | 0x034 => readCmdResult s.port.cmdResult
  | 0x038 => s.eng.epoch
  | 0x03C => s.eng.generation
  | 0x040 => s.eng.journalId
  | 0x044 => (BitVec.ofNat 20 s.eng.durableCount).setWidth 32
  | 0x048 => (BitVec.ofNat 20 s.eng.nextIndex).setWidth 32
  | 0x04C => readDeadlineLeft s.eng
  | 0x050 => readOccupancy s
  | 0x054 => s.ev.levels.setWidth 32
  | 0x058 => s.ev.flags.setWidth 32
  | 0x05C => field 0 4 (currentClass s.ev)
  | 0x060 => field 0 5 s.ev.notices.length
  | 0x064 => s.clock.timebase
  | 0x070 => readNotice s 0
  | 0x074 => readNotice s 1
  | 0x078 => readNotice s 2
  | 0x07C => readNotice s 3
  | 0x080 => readNotice s 4
  | 0x084 => readNotice s 5
  | _ =>
    if 0x200 ≤ off then readWatch s.rules[Fin.ofNat 8 ((off - 0x200) / 0x40)] ((off - 0x200) % 0x40)
    else if 0x100 ≤ off ∧ off < 0x180 ∧ off % 8 = 0 then
      readGuardA s.guards[Fin.ofNat 16 ((off - 0x100) / 8)]
    else if 0x100 ≤ off ∧ off < 0x180 ∧ off % 8 = 4 then
      readGuardB s.guards[Fin.ofNat 16 ((off - 0x100) / 8)]
    else 0

/-- A read of the window at an offset (R184, R185); while a cold reset is held reads return 0 (R193). -/
def readReg (s : State) (offset : BitVec 10) : W32 := if s.host.resetHeld then 0 else readWindow s offset

end Sys2Proof.Machine
end

