-- ==== Sys2Proof/Machine/Dispatch.lean ====
section
/-! DEFINITION. The meaning of each command: one arm per row of the table, each one call. -/

namespace Sys2Proof.Machine

def exec (i : Instr) (s : State) : Host.Outcome State Fault Refusal :=
  match i with
  | .hostRequest r => Sys2Proof.Machine.execHostRequest r s
  | .pfwAssert => Sys2Proof.Machine.execPfwAssert s
  | .pfwDeassert => Sys2Proof.Machine.execPfwDeassert s
  | .coldReset edge => Sys2Proof.Machine.execColdReset edge s
  | .holdExpiry tag => Sys2Proof.Machine.execHoldExpiry tag s
  | .deadlineExpiry => Sys2Proof.Machine.execDeadlineExpiry s
  | .mportAnswer slot a => Sys2Proof.Machine.execMportAnswer slot a s
  | .responseTimeout slot => Sys2Proof.Machine.execResponseTimeout slot s
  | .staleLateAnswer slot a => Sys2Proof.Machine.execStaleLateAnswer slot a s
  | .quarantineEnd slot => Sys2Proof.Machine.execQuarantineEnd slot s
  | .mportGrant => Sys2Proof.Machine.execMportGrant s
  | .drainComplete => Sys2Proof.Machine.execDrainComplete s
  | .headerAccessIssue => Sys2Proof.Machine.execHeaderAccessIssue s
  | .recordSlotWritesRequest index => Sys2Proof.Machine.execRecordSlotWritesRequest index s
  | .restoreWriteIssue => Sys2Proof.Machine.execRestoreWriteIssue s
  | .watchActionDelivery tag => Sys2Proof.Machine.execWatchActionDelivery tag s
  | .openCmd => Sys2Proof.Machine.execOpen s
  | .commitCmd => Sys2Proof.Machine.execCommit s
  | .commitOpenCmd => Sys2Proof.Machine.execCommitOpen s
  | .abortCmd => Sys2Proof.Machine.execAbort s
  | .extendCmd => Sys2Proof.Machine.execExtend s
  | .recoverCmd => Sys2Proof.Machine.execRecover s
  | .formatCmd => Sys2Proof.Machine.execFormat s
  | .discardCmd => Sys2Proof.Machine.execDiscard s
  | .resumeCmd => Sys2Proof.Machine.execResume s
  | .rearmCmd => Sys2Proof.Machine.execRearm s
  | .noticePopCmd => Sys2Proof.Machine.execNoticePop s
  | .softResetCmd => Sys2Proof.Machine.execSoftReset s
  | .undefinedCmd code => Sys2Proof.Machine.execUndefinedCmd code s
  | .config0Write v => Sys2Proof.Machine.execConfig0Write v s
  | .holdLimitWrite v => Sys2Proof.Machine.execHoldLimitWrite v s
  | .respLimitWrite v => Sys2Proof.Machine.execRespLimitWrite v s
  | .geometryWrite reg v => Sys2Proof.Machine.execGeometryWrite reg v s
  | .configErrorClear v => Sys2Proof.Machine.execConfigErrorClear v s
  | .eventPendingClear v => Sys2Proof.Machine.execEventPendingClear v s
  | .eventLevelWrite v => Sys2Proof.Machine.execEventLevelWrite v s
  | .guardAWrite n v => Sys2Proof.Machine.execGuardAWrite n v s
  | .guardBWrite n v => Sys2Proof.Machine.execGuardBWrite n v s
  | .waddrWrite r half v => Sys2Proof.Machine.execWaddrWrite r half v s
  | .condWrite r k v => Sys2Proof.Machine.execCondWrite r k v s
  | .wctlWrite r v => Sys2Proof.Machine.execWctlWrite r v s
  | .registerWrite target v => Sys2Proof.Machine.execRegisterWrite target v s
  | .answerToFreeLinkSlot slot a => Sys2Proof.Machine.execAnswerToFreeLinkSlot slot a s

end Sys2Proof.Machine
end

