-- ==== Sys2Proof/Safety.lean ====
section
/-! DEFINITION. What the rules promise of every state, and the tables and frames that claims are stated
in: the invariants of each block, the acceptance table of R86, and what host traffic leaves alone. -/

namespace Sys2Proof.Machine

/-! ### Invariants of the blocks -/

/-- Within a cell at most one entry is past WAITING (R22). -/
abbrev oneActive (tbl : List Entry) : Prop :=
  ∀ x ∈ tbl, ∀ y ∈ tbl, x.cell = y.cell → x.pastWaiting = true → y.pastWaiting = true → x = y

/-- The transaction table: at most 16 entries, no two with one tag (R18), one active entry per cell
(R22). -/
abbrev TableOk (s : State) : Prop :=
  s.table.length ≤ Config.tableSize ∧ (s.table.map (·.tag)).Nodup ∧ oneActive s.table

/-- The notice queue holds 0 to 16 records (R180). -/
abbrev NoticesOk (s : State) : Prop := s.ev.notices.length ≤ Config.noticePlaces

/-- A rule's state fits its configuration (R110, R121). -/
abbrev ruleOk (r : WatchRule) : Prop :=
  (r.enable = false → r.state = .disarmed) ∧ (r.enable = true → r.state ≠ .disarmed) ∧
    (r.rearmAuto = true → r.state ≠ .fired) ∧ (r.overrun = true → r.state = .fired)

abbrev RulesOk (s : State) : Prop := ∀ r ∈ s.rules.toList, ruleOk r

/-- Every set of the filter holds at most 4 entries (R51). -/
abbrev FilterOk (s : State) : Prop :=
  ∀ x ∈ s.pres.filter,
    (s.pres.filter.filter (fun y => filterSet y.cell == filterSet x.cell)).length ≤ Config.filterWays

/-- The state in which a header write of this purpose is made (R87, R92, R93, R98, R141, R158, R159). -/
def headerFits (why : HdrPurpose) (g : Engine) : Bool :=
  match why with
  | .opening => g.state == .opening
  | .closeCommit => g.state == .closing && g.closeKind == some .commit
  | .closeCommitOpen => g.state == .closing && g.closeKind == some .commitOpen
  | .reassert => g.state == .rolling
  | .walkFinal => g.state == .rolling || g.state == .recovering
  | .discard => g.state == .recovering
  | .formatFirst => g.state == .recovering
  | .formatSecond => g.state == .recovering

/-- The operation in progress belongs to the engine's state. -/
def opFits (g : Engine) : Bool :=
  match g.op with
  | .none => true
  | .draining => g.state == .closing || g.state == .rolling
  | .headerWrite why _ => headerFits why g
  | .headerReads _ _ _ => g.state == .recovering
  | .recordReads _ _ => g.state == .rolling || g.state == .recovering
  | .restoreWait _ _ => g.state == .rolling || g.state == .recovering
  | .restoreIssued _ => g.state == .rolling || g.state == .recovering

/-- The operation is the header write of R98. -/
def isReassert (op : EngineOp) : Bool :=
  match op with
  | .headerWrite .reassert _ => true
  | _ => false

/-- The engine is in an epoch, or about to say again that it is (R84: its number is not 0). -/
def inEpoch (g : Engine) : Bool :=
  g.state == .opened || g.state == .closing || g.state == .faulted || isReassert g.op

/-- CLOSE_KIND is present in CLOSING only, OPEN_NUMBER in OPENING and in a CLOSING by COMMIT_OPEN (R83). -/
abbrev closingValuesOk (g : Engine) : Prop :=
  g.closeKind.isSome = (g.state == .closing) ∧
    g.openNumber.isSome =
      (g.state == .opening || (g.state == .closing && g.closeKind == some .commitOpen))

/-- The deadline timer runs in OPEN only, and DEADLINE_LEFT is 0 while it is stopped (R83, R102). -/
abbrev deadlineOk (g : Engine) : Prop :=
  (g.deadlineRunning = true → g.state = .opened) ∧ (g.deadlineRunning = false → g.deadlineLeft = 0)

/-- The walk values are absent outside ROLLING, RECOVERING and STALLED, and STALL_CAUSE is present in
STALLED only (R83, R142, R144, R145). -/
abbrev walkOk (g : Engine) : Prop :=
  (walkState g.state = false → g.walk = Walk.absent) ∧ g.walk.stall.isSome = (g.state == .stalled)

/-- No epoch is numbered 0 (R84). -/
abbrev numbersOk (g : Engine) : Prop :=
  g.nextEpoch ≠ some 0 ∧ g.openNumber ≠ some 0 ∧ (inEpoch g = true → g.epoch ≠ 0)

/-- The engine's values are those its state allows (R83, R84). -/
abbrev engineFits (g : Engine) : Prop :=
  opFits g = true ∧ closingValuesOk g ∧ deadlineOk g ∧ walkOk g ∧ numbersOk g

abbrev EngineOk (s : State) : Prop := engineFits s.eng

/-- The entry holds a claim (R43). -/
def Entry.claims (e : Entry) : Bool := e.stage == .fetchingOld && e.decision == some .preserve

/-- The entry holds a claim or a record in the queue. -/
def Entry.preserving (e : Entry) : Bool := e.claims || e.stage == .recording

/-- The engine is OPEN, or drains (R43, R90). -/
def takesRecords (g : Engine) : Bool := g.state == .opened || g.op == .draining

/-- The engine holds no epoch's records: UNRECOVERED, IDLE, and the operations that lead from one to the
other without a walk (R54, R94, R149, R158, R159). -/
def holdsNoRecords (g : Engine) : Bool :=
  g.state == .unrecovered || g.state == .idle ||
    (match g.op with
     | .headerReads _ _ _ => true
     | .headerWrite .discard _ => true
     | .headerWrite .formatFirst _ => true
     | .headerWrite .formatSecond _ => true
     | _ => false)

/-- The law of the record queue: it holds the records from DURABLE_COUNT to NEXT_INDEX − 1 in ascending
order (R49). -/
abbrev queueLaw (s : State) : Prop :=
  s.pres.queue.map (·.index) = List.range' s.eng.durableCount s.pres.queue.length ∧
    s.eng.nextIndex = s.eng.durableCount + s.pres.queue.length

/-- Claims are counted, and claims and records fit the eight places and the journal (R43, R49, R55). -/
abbrev claimLaw (s : State) : Prop :=
  s.pres.claims = s.table.countP Entry.claims ∧
    s.pres.queue.length + s.pres.claims ≤ Config.recordPlaces ∧
    s.eng.nextIndex + s.pres.claims ≤ capacity s.cfg

/-- Each queued record has its owner in RECORDING, and each entry in RECORDING its record (R45, R58). -/
abbrev ownerLaw (s : State) : Prop :=
  (∀ r ∈ s.pres.queue, ∃ e ∈ s.table, e.tag = r.tag ∧ e.stage = .recording ∧ e.record = some r.index) ∧
    (∀ e ∈ s.table, e.stage = .recording → ∃ r ∈ s.pres.queue, r.tag = e.tag ∧ e.record = some r.index)

/-- Claims and records belong to the epoch held, and exist only while it is OPEN or drains (R43, R45,
R90); where the engine holds no epoch's records, the counters and the filter are empty (R54, R94). -/
abbrev epochLaw (s : State) : Prop :=
  (∀ e ∈ s.table, e.preserving = true →
    e.decision = some .preserve ∧ e.epoch = some s.eng.epoch ∧ takesRecords s.eng = true) ∧
    (holdsNoRecords s.eng = true → s.eng.nextIndex = 0 ∧ s.eng.durableCount = 0 ∧ s.pres.filter = [])

abbrev RecordOk (s : State) : Prop := queueLaw s ∧ claimLaw s ∧ ownerLaw s ∧ epochLaw s

/-- Every block at once, the M-port apart. -/
abbrev BlocksOk (s : State) : Prop :=
  TableOk s ∧ NoticesOk s ∧ RulesOk s ∧ FilterOk s ∧ EngineOk s ∧ RecordOk s

/-! ### Invariants of the memory-side port -/

/-- The record and half a slot write is of (R47). -/
def MemOp.slotWrite? : MemOp → Option (Nat × RecHalf)
  | .slotWrite k half _ => some (k, half)
  | _ => none

/-- The transaction is a header write to the copy (R78). -/
def MemOp.isHeaderWriteTo (c : Copy) : MemOp → Bool
  | .headerWrite x _ => x == c
  | _ => false

/-- The transaction is a restoration write (R139). -/
def MemOp.isRestoreWrite : MemOp → Bool
  | .restoreWrite _ _ => true
  | _ => false

/-- The outstanding slot writes, BUSY or STALE, whose result is wanted, or is not. -/
def slotWritesOut (wanted : Bool) (m : MPort) : List (Nat × RecHalf) :=
  m.slots.toList.filterMap (fun l =>
    match l.record? with
    | some r => if r.wanted = wanted then r.op.slotWrite? else none
    | none => none)

/-- The slot writes still in the request queue (R164). -/
def slotWritesQueued (m : MPort) : List (Nat × RecHalf) := m.queue.filterMap (fun x => x.op.slotWrite?)

/-- The slot writes the records of the queue have requested and wait for (R47, R48). -/
def slotWritesAwaited (q : List RecElem) : List (Nat × RecHalf) :=
  q.flatMap (fun r =>
    if r.requested then
      (if r.headerAck then [] else [(r.index, RecHalf.header)]) ++
        (if r.dataAck then [] else [(r.index, RecHalf.data)])
    else [])

/-- The number of outstanding transactions, BUSY or STALE, of a kind. -/
def outstanding (p : MemOp → Bool) (m : MPort) : Nat :=
  m.slots.toList.countP (fun l =>
    match l.record? with
    | some r => p r.op
    | none => false)

/-- The link slot is STALE and holds a slot write whose result is still wanted. -/
def LinkSlot.staleWanted : LinkSlot → Bool
  | .stale r => r.wanted && r.op.slotWrite?.isSome
  | _ => false

/-- The engine's counts are the header writes to each copy and the restoration writes outstanding (R78,
R139). -/
abbrev countLaw (s : State) : Prop :=
  s.eng.hdrOutA = outstanding (MemOp.isHeaderWriteTo .a) s.mport ∧
    s.eng.hdrOutB = outstanding (MemOp.isHeaderWriteTo .b) s.mport ∧
    s.eng.restoreOut = outstanding MemOp.isRestoreWrite s.mport

/-- The orphan list holds, in some order, the journal slots of the outstanding slot writes that are no longer
wanted (R61). -/
abbrev orphanLaw (s : State) : Prop :=
  s.pres.orphans.Perm ((slotWritesOut false s.mport).map (fun x => recordSlot x.1 x.2))

/-- The slot writes outstanding and wanted, or waiting for a link slot, are in some order those the queued
records wait for; a timed-out one is wanted no more; a record that has requested its writes has neither slot in
the orphan list, and one that has not has no answer yet (R47, R48, R58). -/
abbrev slotWriteLaw (s : State) : Prop :=
  (slotWritesOut true s.mport ++ slotWritesQueued s.mport).Perm (slotWritesAwaited s.pres.queue) ∧
    s.mport.slots.toList.any LinkSlot.staleWanted = false ∧
    (∀ r ∈ s.pres.queue, r.requested = true → slotsClear s.pres r.index = true) ∧
    (∀ r ∈ s.pres.queue, r.requested = false → r.headerAck = false ∧ r.dataAck = false)

abbrev PortOk (s : State) : Prop := countLaw s ∧ orphanLaw s ∧ slotWriteLaw s

/-- While a cold reset is held every item of state has its cold-reset value (R193). -/
abbrev ResetOk (s : State) : Prop := s.host.resetHeld = true → s = coldReset true s

/-- Every block at once. -/
abbrev Inv (s : State) : Prop := BlocksOk s ∧ PortOk s ∧ ResetOk s

/-! ### The acceptance table (R86) -/

/-- The refusal of a command the table refuses BUSY where an operation is in progress, STATE elsewhere. -/
def refusedHere (st : EngState) : CmdOutcome :=
  match st with
  | .opening | .closing | .rolling | .recovering => .refused .busy
  | .unrecovered | .idle | .opened | .faulted | .stalled => .refused .state

/-- RECOVER and FORMAT: taken in UNRECOVERED with the geometry in range. -/
def recoverOutcome (s : State) : CmdOutcome :=
  if s.eng.state = .unrecovered then
    if geometryOk s.cfg then .accepted else .refused .unconfigured
  else refusedHere s.eng.state

/-- The code of each command (R186). -/
def commandCode : Instr → Option (BitVec 4)
  | .openCmd => some 1
  | .commitCmd => some 2
  | .commitOpenCmd => some 3
  | .abortCmd => some 4
  | .extendCmd => some 5
  | .recoverCmd => some 6
  | .formatCmd => some 7
  | .discardCmd => some 8
  | .resumeCmd => some 9
  | .rearmCmd => some 10
  | .noticePopCmd => some 11
  | .softResetCmd => some 12
  | .undefinedCmd .code0 => some 0
  | .undefinedCmd .code13 => some 13
  | .undefinedCmd .code14 => some 14
  | .undefinedCmd .code15 => some 15
  | _ => none

/-- The outcome the table of R86 gives a command in a state. -/
def acceptance (c : Instr) (s : State) : CmdOutcome :=
  match c with
  | .openCmd =>
    if s.eng.state = .idle ∧ s.eng.nextEpoch ≠ none then .accepted else refusedHere s.eng.state
  | .commitCmd | .abortCmd =>
    if s.eng.state = .opened ∨ s.eng.state = .faulted then .accepted else refusedHere s.eng.state
  | .commitOpenCmd =>
    if (s.eng.state = .opened ∨ s.eng.state = .faulted) ∧ s.eng.nextEpoch ≠ none then .accepted
    else refusedHere s.eng.state
  | .extendCmd => if s.eng.state = .opened then .accepted else .refused .state
  | .recoverCmd | .formatCmd => recoverOutcome s
  | .discardCmd =>
    if s.eng.state = .unrecovered then
      if geometryOk s.cfg then .accepted else .refused .unconfigured
    else if s.eng.state = .stalled then .accepted else .refused .state
  | .resumeCmd => if s.eng.state = .stalled then .accepted else .refused .state
  | .rearmCmd => if s.port.arg.toNat ≤ 7 then .accepted else .refused .state
  | .noticePopCmd => if s.ev.notices = [] then .empty else .accepted
  | .softResetCmd => .accepted
  | _ => .refused .state

/-! ### Frames -/

/-- What the settling of an event, and host traffic, leave alone: configuration, guards, rules, time,
the management port's own registers, the pins, and the engine's values but its operation, its walk position
and its counts of outstanding writes. -/
structure Untouched where
  pending : List Instr
  guards : Vector GuardEntry 16
  rules : Vector WatchRule 8
  cfg : Settings
  clock : Clock
  port : MgmtPort
  pfw : Bool
  resetHeld : Bool
  levels : BitVec 22
  engine : Engine
  filter : List FilterEntry
  orphans : List Nat
deriving DecidableEq, Repr

/-- The engine with the parts that settling moves blanked. -/
def Engine.steady (g : Engine) : Engine :=
  { g with op := .none, walk := Walk.absent, hdrOutA := 0, hdrOutB := 0, restoreOut := 0 }

/-- The untouched part of a state; the parts of the engine that settling moves are blanked. -/
def State.untouched (s : State) : Untouched :=
  { pending := s.pending, guards := s.guards, rules := s.rules, cfg := s.cfg, clock := s.clock,
    port := s.port, pfw := s.host.pfw, resetHeld := s.host.resetHeld, levels := s.ev.levels,
    engine := s.eng.steady,
    filter := s.pres.filter, orphans := s.pres.orphans }

/-- The notice is the next record of the queue, dated as it stands (R179). -/
def posted (body : NoticeBody) (s : State) : Notice :=
  { time := s.clock.timebase, epoch := s.eng.epoch, body := body }

/-- No cold reset is held: RSTn is deasserted with the supply valid (R193). -/
abbrev Running (s : State) : Prop := s.host.resetHeld = false

/-- The part runs and nothing waits: not at the request queue, not on the host link, and nothing is left to
happen at once. -/
abbrev AtRest (s : State) : Prop := settled s = true ∧ s.mport.queue = [] ∧ s.host.link = [] ∧ Running s

/-- Nothing waits, and a link slot is FREE. -/
abbrev Calm (s : State) : Prop := AtRest s ∧ freeSlots s.mport ≠ []

/-- No entry of the table has this cell. -/
abbrev NoneIn (s : State) (cell : CellIx) : Prop := ∀ x ∈ s.table, x.cell ≠ cell

/-- No other entry of the table has this entry's cell. -/
abbrev Alone (s : State) (e : Entry) : Prop := ∀ x ∈ s.table, x.cell = e.cell → x = e

/-- No entry is re-examined when the engine goes from one state to the other (R25, R26, R34). -/
abbrev Unmoved (s : State) (old new : EngState) : Prop := ∀ e ∈ s.table, stateChoice old new e = false

/-- The record of a transaction granted in this state (R163, R164, R168). -/
def granted (s : State) (op : MemOp) (addr : Addr) : LinkRec :=
  { op := op, addr := addr, issued := s.clock.timebase,
    limit := if s.cfg.respLimit = 0 then 65535 else s.cfg.respLimit, wanted := true }

/-- From s to t the M-port issued this one transaction, in a link slot that was FREE, and these requests are
left to wait (R163, R164). -/
abbrev IssuesLeaving (s t : State) (op : MemOp) (addr : Addr) (left : List MemRequest) : Prop :=
  ∃ i : LinkNo, s.mport.slots[i] = .free ∧
    t.mport =
      { slots := s.mport.slots.set i (.busy (granted s op addr)), queue := left,
        out := s.mport.out ++ [{ slot := i, op := op, addr := addr }] }

/-- From s to t the M-port issued this one transaction, and none is left to wait. -/
abbrev Issues (s t : State) (op : MemOp) (addr : Addr) : Prop := IssuesLeaving s t op addr []

/-- From s to t the M-port issued two transactions at once, each in a link slot of its own that was FREE. -/
abbrev IssuesBoth (s t : State) (p q : MemOp × Addr) : Prop :=
  ∃ i j : LinkNo, i ≠ j ∧ s.mport.slots[i] = .free ∧ s.mport.slots[j] = .free ∧
    t.mport =
      { slots := (s.mport.slots.set i (.busy (granted s p.1 p.2))).set j (.busy (granted s q.1 q.2)),
        queue := [],
        out := s.mport.out ++
          [{ slot := i, op := p.1, addr := p.2 }, { slot := j, op := q.1, addr := q.2 }] }

/-- A request that waits for a link slot (R164). -/
def waits (p : MemOp × Addr) : MemRequest := { op := p.1, addr := p.2, fresh := false }

/-- From s, where no request waits, to t the M-port took the request p and then the request q: as many as there
are FREE link slots are issued, and the rest waits in that order (R164). -/
abbrev TakesInOrder (s t : State) (p q : MemOp × Addr) : Prop :=
  ((freeSlots s.mport).length = 0 → t.mport = { s.mport with queue := [waits p, waits q] }) ∧
    ((freeSlots s.mport).length = 1 → IssuesLeaving s t p.1 p.2 [waits q]) ∧
    (2 ≤ (freeSlots s.mport).length → IssuesBoth s t p q)

/-- From s to t the two transactions of one pair were requested together, in either order (R47, R138, R149,
R151, R164). -/
abbrev RequestsPair (s t : State) (p q : MemOp × Addr) : Prop := TakesInOrder s t p q ∨ TakesInOrder s t q p

/-- From s, where no request waits, to t the M-port took this one request: issued, or, with no link slot FREE, left to
wait (R164). -/
abbrev RequestsOne (s t : State) (op : MemOp) (addr : Addr) : Prop :=
  (freeSlots s.mport = [] → t.mport = { s.mport with queue := [waits (op, addr)] }) ∧
    (freeSlots s.mport ≠ [] → Issues s t op addr)

/-- The two slots of the record at index k, each to be read by a transaction of this kind (R138, R151). -/
abbrev ReadsRecord (s t : State) (kind : RecHalf → MemOp) (k : Nat) : Prop :=
  RequestsPair s t (kind .header, slotAddr s.cfg (2 + 2 * k)) (kind .data, slotAddr s.cfg (3 + 2 * k))

/-- The two slot writes of a record (R46, R47). -/
abbrev WritesRecord (s t : State) (r : RecElem) : Prop :=
  RequestsPair s t
    (.slotWrite r.index .header
      (recordHeaderBytes r.journalId r.epoch (BitVec.ofNat 32 r.index) r.cell r.data),
      slotAddr s.cfg (2 + 2 * r.index))
    (.slotWrite r.index .data r.data, slotAddr s.cfg (3 + 2 * r.index))

/-- The link slot is freed (R165, R167). -/
def MPort.freed (m : MPort) (i : LinkNo) : MPort := { m with slots := m.slots.set i .free }

/-! ### Circumstances of an event -/

/-- The request of this tag can be admitted, its cell has no entry, and no stale write to the cell is left. -/
abbrev Admissible (r : HostRequest) (s : State) : Prop :=
  s.table.length < 16 ∧ (∀ e ∈ s.table, e.tag ≠ r.tag) ∧ requestFits r = true ∧ NoneIn s (requestCell r) ∧
    staleWriteTo s.mport (requestCell r) = false

/-- Link slot i is BUSY with this transaction, whose result is still wanted, and the engine does not drain. -/
abbrev Answering (s : State) (i : LinkNo) (lr : LinkRec) (op : MemOp) : Prop :=
  s.mport.slots[i] = .busy lr ∧ lr.op = op ∧ lr.wanted = true ∧ s.eng.op ≠ .draining

/-- No entry waits for a turn, a place, or room in the journal. -/
abbrev NoneWaits (s : State) : Prop :=
  ∀ e ∈ s.table, e.stage ≠ .waiting ∧ e.stage ≠ .atTurn ∧ e.heldWith .journalFull = false

/-- Once this entry has ended, this other one takes the turn of its cell: the oldest WAITING entry of the cell, a read that
no walk holds, where all others of the cell wait too and no stale write to it is left (R22, R23). -/
abbrev NextReader (s : State) (e next : Entry) : Prop :=
  s.table.find? (fun x => x.cell == e.cell && x.stage == .waiting) = some next ∧
    (∀ x ∈ s.table, x.cell = e.cell → x = e ∨ x.stage = .waiting) ∧ next.kind = .read ∧
    ¬ (next.cls = .journal ∧ (s.eng.state = .rolling ∨ s.eng.state = .recovering ∨ s.eng.state = .stalled)) ∧
    staleWriteTo s.mport e.cell = false

/-- From s to t this entry was forwarded as a read, and nothing else changed (R30). -/
abbrev ForwardsRead (s t : State) (e : Entry) : Prop :=
  Issues s t (.forwardRead e.tag e.cell e.first e.count) e.addr ∧
    t = { s with
      table := s.table.map (fun x => if x.tag = e.tag then { e with stage := .issued } else x)
      mport := t.mport, choices := t.choices }

/-- The part runs, nothing waits for a link slot or on the host link, a link slot is FREE, and no record has
slot writes to request. -/
abbrev Clear (s : State) : Prop :=
  Running s ∧ s.mport.queue = [] ∧ s.host.link = [] ∧ freeSlots s.mport ≠ [] ∧
    s.pres.queue.any (mayRequest s.pres) = false

/-- The drain of the epoch held waits for this write (R90). -/
abbrev DrainWaitsFor (s : State) (e : Entry) : Prop :=
  (e.decision = some .filterHit ∨ e.decision = some .preserve) ∧ e.epoch = some s.eng.epoch ∧
    (e.stage = .fetchingOld ∨ e.stage = .recording ∨ e.stage = .issued)

/-- The drain is complete (R90). -/
abbrev Drained (s : State) : Prop := ∀ e ∈ s.table, ¬ DrainWaitsFor s e

/-- The 64 bytes of the header the engine writes for each purpose: its journal life, the generation after the one it
holds, STATE and EPOCH of the purpose, and JSLOTS (R76, R77, R87, R92, R93, R98, R141, R153, R158, R159, R195). -/
def headerFor (why : HdrPurpose) (g : Engine) (slots : W32) : CellData :=
  let bytes (st : HdrState) (epoch : W32) : CellData :=
    headerBytes g.journalId (g.generation + 1) st epoch slots
  match why with
  | .opening => bytes .active (g.openNumber.getD g.epoch)
  | .closeCommit => bytes .clean g.epoch
  | .closeCommitOpen => bytes .active (g.openNumber.getD g.epoch)
  | .reassert => bytes .active g.epoch
  | .walkFinal => bytes .clean g.epoch
  | .discard => bytes .clean g.epoch
  | .formatFirst => bytes .clean g.epoch
  | .formatSecond => bytes .clean g.epoch

/-- The journal slot of a header copy's bytes (R67). -/
def headerAddr (c : Settings) (copy : Copy) : Addr := slotAddr c (if copy = .a then 0 else 1)

/-- In t the engine, with these values, has come to this header write: requested, unless an earlier write to NEXT_COPY is
outstanding (R78). -/
abbrev WritesHeader (t : State) (why : HdrPurpose) (g : Engine) : Prop :=
  t.eng.op = .headerWrite why (decide (g.hdrOut g.nextCopy = 0))

/-- From s to t the engine, with these values, has come to this header write: its HEADER_WRITE is requested, with its
bytes and the address of its slot, unless an earlier write to NEXT_COPY is outstanding (R76 to R78). -/
abbrev SendsHeader (s t : State) (why : HdrPurpose) (g : Engine) : Prop :=
  WritesHeader t why g ∧
    (g.hdrOut g.nextCopy = 0 →
      RequestsOne s t (.headerWrite g.nextCopy (headerFor why g s.cfg.jslots)) (headerAddr s.cfg g.nextCopy)) ∧
    (g.hdrOut g.nextCopy ≠ 0 → t.mport = s.mport)

/-- From s to t the reads of the two header copies are requested, each unless an earlier header write to its copy is
outstanding (R78, R149, R158). -/
abbrev ReadsHeaders (s t : State) : Prop :=
  let a : MemOp × Addr := (.headerRead .a, headerAddr s.cfg .a)
  let b : MemOp × Addr := (.headerRead .b, headerAddr s.cfg .b)
  (s.eng.hdrOutA = 0 → s.eng.hdrOutB = 0 → RequestsPair s t a b) ∧
    (s.eng.hdrOutA = 0 → s.eng.hdrOutB ≠ 0 → RequestsOne s t a.1 a.2) ∧
    (s.eng.hdrOutA ≠ 0 → s.eng.hdrOutB = 0 → RequestsOne s t b.1 b.2) ∧
    (s.eng.hdrOutA ≠ 0 → s.eng.hdrOutB ≠ 0 → t.mport = s.mport)

/-- From s to t the engine, with these values, has come to the end of an epoch: it drains, or, with nothing to wait for,
writes the ending header (R89, R90, R92, R93). -/
abbrev EndsEpoch (s t : State) (why : HdrPurpose) (g : Engine) : Prop :=
  (¬ Drained s → t.eng.op = .draining ∧ t.mport = s.mport) ∧ (Drained s → SendsHeader s t why g)

/-- From s to t a rollback begins: it drains, or, with nothing to wait for, restores its highest index or, with
no durable record, writes the final header (R99, R135). -/
abbrev BeginsRollback (s t : State) : Prop :=
  let walk (phase : WalkPhase) (index : Option Nat) : Walk :=
    { kind := some .rollback, phase := some phase, index := index, stall := none, scanCount := none
      discardCount := none }
  (¬ Drained s → t.eng.op = .draining ∧ t.eng.walk = walk .restore none ∧ t.mport = s.mport) ∧
    (Drained s → s.eng.durableCount = 0 → SendsHeader s t .walkFinal s.eng ∧ t.eng.walk = walk .final none) ∧
    (Drained s → ∀ k, s.eng.durableCount = k + 1 →
      t.eng.op = .recordReads none none ∧ t.eng.walk = walk .restore (some k) ∧
        ReadsRecord s t (.restoreRead k) k)

/-! ### The head notice as the window shows it (R179, R192) -/

/-- The fields of a notice with their encodings; an absent field is `none`. -/
structure NoticeView where
  kind : Nat
  addr : Option Addr := none
  tag : Option Tag := none
  rule : Option RuleNo := none
  values : Option (W64 × W64) := none
  bit : Option (Fin 64) := none
  index : Option Nat := none
  reason : Option Nat := none
deriving DecidableEq, Repr

/-- The table of the kinds, row by row: the fields each kind carries, and its reasons numbered in their order
(R179, R192). -/
def noticeView : NoticeBody → NoticeView
  | .watchFired r a t old new b =>
    { kind := 1, addr := some a, tag := some t, rule := some r, values := some (old, new), bit := b }
  | .watchOverrun r a t => { kind := 2, addr := some a, tag := some t, rule := some r }
  | .actionDropped r a t why =>
    { kind := 3, addr := some a, tag := some t, rule := some r
      reason := some (match why with
        | .inState .unrecovered => 0
        | .inState .idle => 1
        | .inState .opening => 2
        | .inState .opened => 3
        | .inState .closing => 4
        | .inState .faulted => 5
        | .inState .rolling => 6
        | .inState .recovering => 7
        | .inState .stalled => 8
        | .exhausted => 15) }
  | .denied a t why =>
    { kind := 4, addr := some a, tag := some t
      reason := some (match why with
        | .journalArea => 1
        | .readonly => 2
        | .unrecovered => 3
        | .bare => 4
        | .journalFull => 5
        | .watch => 6) }
  | .bareWrite a t => { kind := 5, addr := some a, tag := some t }
  | .holdExpired a t why =>
    { kind := 6, addr := some a, tag := some t
      reason := some (match why with
        | .power => 1
        | .walk => 2
        | .transition => 3
        | .journalFull => 4) }
  | .forwardFault a t why =>
    { kind := 7, addr := some a, tag := some t
      reason := some (match why with
        | .forwardRead => 1
        | .forwardWrite => 2
        | .oldRead => 3) }
  | .journalFull a t c => { kind := 8, addr := some a, tag := some t, index := some c }
  | .journalFault a t k half =>
    { kind := 9, addr := some a, tag := some t, index := some k
      reason := some (match half with
        | .header => 1
        | .data => 2) }
  | .headerFault a why =>
    { kind := 10, addr := some a
      reason := some (match why with
        | .openHeader => 1
        | .commit => 2
        | .commitOpen => 3
        | .reassert => 4
        | .discard => 5
        | .format => 6) }
  | .walkStall a k kind phase cause =>
    { kind := 11, addr := some a, index := k
      reason := some (
        (match kind with
          | .rollback => 0
          | .recovery => 32) +
        (match phase with
          | .scan => 8
          | .restore => 16
          | .final => 24) +
        (match cause with
          | .readFault => 1
          | .recordInvalid => 2
          | .writeFault => 3
          | .headerFault => 4)) }
  | .deadlineExpired .event => { kind := 12, reason := some 1 }
  | .deadlineExpired .commit => { kind := 12, reason := some 2 }
  | .deadlineExpired .abort => { kind := 12, reason := some 3 }
  | .recoveryResult (.headerReadFault a) => { kind := 13, addr := some a, reason := some 1 }
  | .recoveryResult .noValidHeader => { kind := 13, reason := some 2 }
  | .recoveryResult .clean => { kind := 13, reason := some 3 }
  | .recoveryResult (.rolledBack n) => { kind := 13, index := some n, reason := some 4 }
  | .recoveryResult (.discarded n) => { kind := 13, index := some n, reason := some 5 }
  | .epochEvent .opened => { kind := 14, reason := some 1 }
  | .epochEvent (.commitOpened n) => { kind := 14, index := some n, reason := some 2 }
  | .epochEvent (.committed n) => { kind := 14, index := some n, reason := some 3 }
  | .epochEvent (.rolledBack n) => { kind := 14, index := some n, reason := some 4 }
  | .epochEvent (.discarded n) => { kind := 14, index := some n, reason := some 5 }
  | .epochEvent .formatted => { kind := 14, reason := some 6 }
  | .protocol a t .tagInUse => { kind := 15, addr := some a, tag := some t, reason := some 1 }
  | .protocol a t .boundary => { kind := 15, addr := some a, tag := some t, reason := some 2 }
  | .powerChange true => { kind := 16, reason := some 1 }
  | .powerChange false => { kind := 16, reason := some 2 }

/-! ### What the engine's commands leave (R84, R87, R89, R97, R98, R99) -/

/-- NEXT_EPOCH once a number has been taken from it (R84). -/
def nextAfter (n : W32) : Option W32 := if n = 0xFFFFFFFF#32 then none else some (n + 1)

/-- The engine after an opening is taken with number n (R84, R87). -/
def openingEngine (n : W32) (g : Engine) : Engine :=
  { g with state := .opening, openNumber := some n, nextEpoch := nextAfter n }

/-- The engine after COMMIT is taken, in OPEN or in FAULTED (R89, R97). -/
def commitEngine (g : Engine) : Engine :=
  { g with state := .closing, closeKind := some .commit, deadlineLeft := 0, deadlineRunning := false }

/-- The engine after COMMIT_OPEN is taken with number n, in OPEN or in FAULTED (R89, R97). -/
def commitOpenEngine (n : W32) (g : Engine) : Engine :=
  { g with
    state := .closing, closeKind := some .commitOpen, openNumber := some n, nextEpoch := nextAfter n,
    deadlineLeft := 0, deadlineRunning := false }

/-- The engine after ABORT is taken, in OPEN or in FAULTED (R98, R99). -/
def abortEngine (g : Engine) : Engine :=
  { g with state := .rolling, deadlineLeft := 0, deadlineRunning := false }

/-- What the table of R104 does with a delivered action. -/
inductive ActionFate where
  | commit
  | commitOpen (n : W32)
  | abort
  | opening (n : W32)
  | silent
  | dropped (why : DropReason)
deriving DecidableEq, Repr

/-- The table of R104. -/
def actionFate (g : Engine) (a : EpochAction) : ActionFate :=
  match g.state, a, g.nextEpoch with
  | .opened, .commit, _ => .commit
  | .opened, .commitOpen, some n => .commitOpen n
  | .opened, .commitOpen, none => .dropped .exhausted
  | .opened, .abort, _ => .abort
  | .idle, .commit, _ => .silent
  | .idle, .commitOpen, some n => .opening n
  | .idle, .commitOpen, none => .dropped .exhausted
  | .idle, .abort, _ => .silent
  | st, _, _ => .dropped (.inState st)

/-- The engine's values once the action has met its fate. -/
def ActionFate.engine (g : Engine) : ActionFate → Engine
  | .commit => commitEngine g
  | .commitOpen n => commitOpenEngine n g
  | .abort => abortEngine g
  | .opening n => openingEngine n g
  | .silent => g
  | .dropped _ => g

end Sys2Proof.Machine
end

