-- ==== Sys2Proof/Certificates/Slice0/Obligations.lean ====
section
/-! DEFINITION. The statements about the part, each a Prop for the provers. A statement that rests on a
choice of the model says so and names the log entry. -/

open Sys2Proof Sys2Proof.Machine

/-! ### The machine -/

/-- A step runs the command at the front of the queue, with the queue's rest. -/
def Obligations.StepRunsFrontCommand : Prop :=
  ∀ (c : Instr) (s : State), step { s with pending := c :: s.pending } = exec c s

/-- While the part runs and no command waits, a step hands over the watch actions of the writes FINISHING: a
WATCH_ACTION_DELIVERY for each is queued, and nothing else. With none FINISHING it is one period of the reference clock
(R172): while TICKDIV is 0 nothing changes; else the period is counted, and at the TICKDIV-th the timebase advances by
one, a running deadline timer counts down to 0 and stays there, and the expiries then due are queued, each and no
other: holds at HOLD_LIMIT, the deadline, response timers at L and quarantines at 2L (R28, R100, R102, R166, R167).
That a step on an empty queue does this is the model's choice, log entry 1. -/
def Obligations.IdleStepPassesTime : Prop :=
  ∀ s : State, Running s → s.pending = [] →
    let now : W32 := s.clock.timebase + 1
    let left := if s.eng.deadlineRunning = true ∧ s.eng.deadlineLeft ≠ 0 then s.eng.deadlineLeft - 1
      else s.eng.deadlineLeft
    let holdDue (e : Entry) : Bool := match e.stage with
      | .held _ since => decide (s.cfg.holdLimit ≠ 0 ∧ s.cfg.holdLimit.toNat ≤ (now - since).toNat)
      | _ => false
    let deadlineDue := s.eng.state = .opened ∧ s.eng.deadlineRunning = true ∧ left = 0
    let linkDue (l : LinkSlot) : Option Bool := match l with
      | .free => none
      | .busy r => if r.limit.toNat ≤ (now - r.issued).toNat then some false else none
      | .stale r => if 2 * r.limit.toNat ≤ (now - r.issued).toNat then some true else none
    ((∃ e ∈ s.table, e.stage = .finishing) → ∃ t, step s = .next t ∧
      t = { s with pending := t.pending, choices := t.choices } ∧
      t.pending.Perm ((s.table.filter (fun e => e.stage == .finishing)).map (fun e => .watchActionDelivery e.tag))) ∧
    ((∀ e ∈ s.table, e.stage ≠ .finishing) →
    (s.cfg.tickdiv = 0 → step s = .next s) ∧
    (s.clock.prescale.toNat + 1 < s.cfg.tickdiv.toNat →
      step s = .next { s with clock := { s.clock with prescale := s.clock.prescale + 1 } }) ∧
    (s.cfg.tickdiv ≠ 0 → s.cfg.tickdiv.toNat ≤ s.clock.prescale.toNat + 1 →
      ∃ t, step s = .next t ∧
        t = { s with
          clock := { timebase := now, prescale := 0 }
          eng := { s.eng with deadlineLeft := left }
          pending := t.pending, choices := t.choices } ∧
        (∀ c ∈ t.pending, (∃ e ∈ s.table, holdDue e = true ∧ c = .holdExpiry e.tag) ∨
          (c = .deadlineExpiry ∧ deadlineDue) ∨
          ∃ i : LinkNo, (linkDue s.mport.slots[i] = some false ∧ c = .responseTimeout i) ∨
            (linkDue s.mport.slots[i] = some true ∧ c = .quarantineEnd i)) ∧
        (∀ e ∈ s.table, holdDue e = true → .holdExpiry e.tag ∈ t.pending) ∧
        (deadlineDue → .deadlineExpiry ∈ t.pending) ∧
        (∀ i : LinkNo, (linkDue s.mport.slots[i] = some false → .responseTimeout i ∈ t.pending) ∧
          (linkDue s.mport.slots[i] = some true → .quarantineEnd i ∈ t.pending))))

/-- No command faults and none is refused: every command, in every state, has a next state. That the machine has
no fault and refuses nothing is the model's reading, log entry 18. -/
def Obligations.EveryCommandHasANextState : Prop := ∀ (c : Instr) (s : State), ∃ t, exec c s = .next t

/-- The invariants hold right after a cold reset. -/
def Obligations.ResetMeetsTheInvariants : Prop := Inv State.reset

/-- Every step keeps the invariants: one entry per tag and one active entry per cell, at most 16 notices,
rules and filter sets sound, the engine's values those of its state, the law of the record queue, the engine's
counts those of its writes outstanding at the M-port, the slot writes wanted those the queued records wait for, the
orphans those no longer wanted, and every item at its cold-reset value while a cold reset is held. -/
def Obligations.StepKeepsTheInvariants : Prop :=
  ∀ s t : State, Inv s → step s = .next t → Inv t

/-! ### The formats in memory -/

/-- A header copy reads back as it was laid out: it is valid for its JSLOTS and for no other, its fields
are those written, and bytes 28 to 63 are zero (R69, R70, R75, R195, R196). -/
def Obligations.HeaderReadsBack : Prop :=
  ∀ (j g ep slots slots' : W32) (st : HdrState),
    let d := headerBytes j g st ep slots
    (headerValid slots' d = true ↔ slots' = slots) ∧ hdrJournalId d = j ∧ hdrGeneration d = g ∧
      readHdrState d = st ∧ hdrEpoch d = ep ∧ fieldOf d 0 = 0x5A4A4844#32 ∧ d.extractLsb' 224 288 = 0

/-- Of the records the part lays out, those valid at index k for an epoch are exactly the ones built for that
journal life, epoch and index over data with the check value of the data found; the cell reads back, and bytes
28 to 63 of the header are zero (R72, R73, R75, R195, R196). -/
def Obligations.RecordReadsBack : Prop :=
  ∀ (j ep seq j' ep' : W32) (k : Nat) (cell : CellIx) (data found : CellData),
    let h := recordHeaderBytes j ep seq cell data
    (recordValid j' ep' k h found = true ↔
      j = j' ∧ ep = ep' ∧ seq = BitVec.ofNat 32 k ∧
        checkValue (firstBytes data 64) = checkValue (firstBytes found 64)) ∧
      recordCell h = cell ∧ fieldOf h 0 = 0x5A4A5243#32 ∧ h.extractLsb' 224 288 = 0

/-- Of two header copies the part wrote, the one with the next generation is current, the count wrapping
modulo 2^32; one copy alone is current if it is valid (R70, R71). -/
def Obligations.NextGenerationIsCurrent : Prop :=
  ∀ (j g e1 e2 slots : W32) (s1 s2 : HdrState) (other : CellData),
    let older := headerBytes j g s1 e1 slots
    let newer := headerBytes j (g + 1) s2 e2 slots
    currentHeader slots older newer = some .b ∧ currentHeader slots newer older = some .a ∧
      (headerValid slots other = false →
        currentHeader slots older other = some .a ∧ currentHeader slots other older = some .b ∧
          currentHeader slots other other = none)

/-! ### The guard table -/

/-- The class of a cell: the journal area first; else the MODE of the lowest-numbered entry that is valid,
well-formed and covers the cell; else UNGUARDED (R3, R6). -/
def Obligations.ClassOfACell : Prop :=
  ∀ (c : Settings) (g : Vector GuardEntry 16) (cell : CellIx),
    let inArea := 4 ≤ c.jslots.toNat ∧ c.jslots.toNat ≤ 1048576 ∧
      c.jbaseCell.toNat + c.jslots.toNat ≤ 1073741824 ∧ c.jbaseCell.toNat ≤ cell.toNat ∧
      cell.toNat < c.jbaseCell.toNat + c.jslots.toNat
    let decides (n : Fin 16) := g[n].valid = true ∧ 1 ≤ g[n].count.toNat ∧
      g[n].base.toNat + g[n].count.toNat ≤ 1073741824 ∧ g[n].mode ≠ 3#2 ∧
      g[n].base.toNat ≤ cell.toNat ∧ cell.toNat < g[n].base.toNat + g[n].count.toNat
    (inArea → classify c g cell = .journalArea) ∧
    (¬ inArea → ∀ n, decides n → (∀ m, m < n → ¬ decides m) →
      (g[n].mode = 0#2 → classify c g cell = .journal) ∧
      (g[n].mode = 1#2 → classify c g cell = .readonly) ∧
      (g[n].mode = 2#2 → classify c g cell = .exempt)) ∧
    (¬ inArea → (∀ n, ¬ decides n) → classify c g cell = .unguarded)

/-- A write of BASE and MODE to an invalid entry stores both and raises no error; to a valid entry both are
ignored, and CONFIG_ERROR is set if either differs from the stored value. A write of COUNT and VALID to an invalid
entry stores both, and sets CONFIG_ERROR when VALID becomes 1 and the entry as it then stands is not well-formed;
to a valid entry COUNT is ignored, CONFIG_ERROR is set if it differs, and VALID becomes the bit written. All other
state stays (R3, R4, R5). -/
def Obligations.GuardWrites : Prop :=
  ∀ (n : Fin 16) (v : W32) (s : State), Running s →
    (s.guards[n].valid = false →
      exec (.guardAWrite n v) s = .next { s with
        guards := s.guards.set n { s.guards[n] with
          base := v.extractLsb' 0 30, mode := v.extractLsb' 30 2 } }) ∧
    (s.guards[n].valid = true →
      exec (.guardAWrite n v) s = .next { s with port := { s.port with
        configError := s.port.configError ||
          decide (v.extractLsb' 0 30 ≠ s.guards[n].base ∨ v.extractLsb' 30 2 ≠ s.guards[n].mode) } }) ∧
    (s.guards[n].valid = false →
      exec (.guardBWrite n v) s = .next { s with
        guards := s.guards.set n { s.guards[n] with
          count := v.extractLsb' 0 31, valid := v.getLsbD 31 }
        port := { s.port with
          configError := s.port.configError ||
            decide (v.getLsbD 31 = true ∧
              ¬ (1 ≤ (v.extractLsb' 0 31).toNat ∧
                s.guards[n].base.toNat + (v.extractLsb' 0 31).toNat ≤ 1073741824 ∧
                s.guards[n].mode ≠ 3#2)) } }) ∧
    (s.guards[n].valid = true →
      exec (.guardBWrite n v) s = .next { s with
        guards := s.guards.set n { s.guards[n] with valid := v.getLsbD 31 }
        port := { s.port with
          configError := s.port.configError || decide (v.extractLsb' 0 31 ≠ s.guards[n].count) } })

/-! ### The configuration registers -/

/-- CONFIG0 stores its five fields; a DEADLINE_ACTION that names no action sets CONFIG_ERROR; the next advance
of the timebase is counted from the write: that an unchanged TICKDIV restarts the count too is the model's choice, log
entry 17. Unless the full policy changes from HOLD to DENY nothing else changes: that a write which starts the timebase
again expires nothing itself, a hold or a timer already past its limit included, is the model's reading, log entry 9.
At that change the entries held JOURNAL_FULL are re-examined: in a state at rest, in OPEN with
PFW deasserted, the journal still full and reported so, the writes so held, each alone in its cell and not in the
filter, are answered DENIED with reason JOURNAL_FULL in admission order and freed, and nothing else changes; with none
so held nothing changes; and in any state the rest that host traffic leaves alone stays (R26, R35, R187). -/
def Obligations.Config0Write : Prop :=
  ∀ (v : W32) (s : State), Running s →
    let cfg : Settings := { s.cfg with
      tickdiv := v.extractLsb' 0 8
      barePolicy := if v.getLsbD 8 then .deny else .pass
      fullPolicy := if v.getLsbD 9 then .deny else .hold
      deadlineAction := v.extractLsb' 10 2
      eventEnable := v.getLsbD 12 }
    let u : State := { s with
      cfg := cfg
      clock := { s.clock with prescale := 0 }
      port := { s.port with
        configError := s.port.configError || decide (v.extractLsb' 10 2 = 3#2) } }
    let deny (x : State) (e : Entry) : State := report .protect (.denied e.addr e.tag .journalFull) { x with
      host := { x.host with out := x.host.out ++ [⟨e.tag, .denied⟩] }
      table := x.table.filter (fun y => y.tag != e.tag) }
    ∃ t, exec (.config0Write v) s = .next t ∧ t.untouched = u.untouched ∧
      (s.cfg.fullPolicy = .deny ∨ v.getLsbD 9 = false ∨
        (AtRest s ∧ ∀ e ∈ s.table, e.heldWith .journalFull = false) → t = u) ∧
      (s.cfg.fullPolicy = .hold → v.getLsbD 9 = true → AtRest s → TableOk s → s.host.pfw = false →
        s.eng.state = .opened → s.pres.fullReported = true →
        (s.cfg.jslots.toNat - 2) / 2 ≤ s.eng.nextIndex + s.pres.claims →
        (∀ e ∈ s.table, e.heldWith .journalFull = true → e.kind = .write ∧ e.cls = .journal ∧ Alone s e ∧
          ∀ f ∈ s.pres.filter, f.cell ≠ e.cell) →
        t = (s.table.filter (fun e => e.heldWith .journalFull)).foldl deny u)

/-- HOLD_LIMIT stores bits 15:0. While the timers run, every entry whose hold has then reached a limit that is not
0 is answered FAILED; what host traffic leaves alone stays, and in a state at rest where no hold is due, or while
TICKDIV is 0, nothing at all changes but the limit. In a state at rest with the engine not draining, the due entries
each alone in its cell, they are answered FAILED in admission order and freed, each with notice HOLD_EXPIRED, its cause,
and the class, and nothing else changes (R28, R29, R173, R187). -/
def Obligations.HoldLimitWrite : Prop :=
  ∀ (v : W32) (s : State), Running s →
    let u : State := { s with cfg := { s.cfg with holdLimit := v.extractLsb' 0 16 } }
    let due (e : Entry) : Bool := match e.stage with
      | .held _ since => decide (s.cfg.tickdiv ≠ 0 ∧ v.extractLsb' 0 16 ≠ 0#16 ∧
          (v.extractLsb' 0 16).toNat ≤ (s.clock.timebase - since).toNat)
      | _ => false
    let expire (x : State) (e : Entry) : State := match e.stage with
      | .held c _ => report .holdExpired (.holdExpired e.addr e.tag c) { x with
          host := { x.host with out := x.host.out ++ [⟨e.tag, .failed⟩] }
          table := x.table.filter (fun y => y.tag != e.tag) }
      | _ => x
    ∃ t, exec (.holdLimitWrite v) s = .next t ∧ t.untouched = u.untouched ∧
      (AtRest s → (∀ e ∈ s.table, due e = false) → t = u) ∧
      (TableOk s → ∀ e ∈ s.table, due e = true → ∃ answers, t.host.out = s.host.out ++ answers ∧
        { tag := e.tag, result := .failed } ∈ answers) ∧
      (AtRest s → TableOk s → s.eng.op ≠ .draining → (∀ e ∈ s.table, due e = true → Alone s e) →
        t = (s.table.filter due).foldl expire u)

/-- A geometry register is written in UNRECOVERED and IDLE only, and not while a SLOT_WRITE, HEADER_WRITE
or RESTORE_WRITE is outstanding, stale or not; else the write is ignored with CONFIG_ERROR. In IDLE it takes
the engine to UNRECOVERED. A JBASE_LO write with any of bits 5:0 set also sets CONFIG_ERROR (R188). -/
def Obligations.GeometryWrite : Prop :=
  ∀ (reg : GeoReg) (v : W32) (s : State), Running s →
    let blocked := ∃ i : LinkNo, ∃ r, s.mport.slots[i].record? = some r ∧
      ((∃ k h d, r.op = .slotWrite k h d) ∨ (∃ c d, r.op = .headerWrite c d) ∨
        (∃ c d, r.op = .restoreWrite c d))
    let u : State := { s with
      cfg := match reg with
        | .jbaseLo => { s.cfg with jbaseCell := s.cfg.jbaseCell.extractLsb' 26 4 ++ v.extractLsb' 6 26 }
        | .jbaseHi => { s.cfg with jbaseCell := v.extractLsb' 0 4 ++ s.cfg.jbaseCell.extractLsb' 0 26 }
        | .jslots => { s.cfg with jslots := v }
      port := { s.port with
        configError := s.port.configError || decide (reg = .jbaseLo ∧ v.extractLsb' 0 6 ≠ 0#6) } }
    let ignored : State := { s with port := { s.port with configError := true } }
    (¬ blocked → s.eng.state = .unrecovered → exec (.geometryWrite reg v) s = .next u) ∧
    (¬ blocked → s.eng.state = .idle →
      ∃ t, exec (.geometryWrite reg v) s = .next t ∧ t.eng.state = .unrecovered ∧
        t.untouched = { u.untouched with engine := { u.untouched.engine with state := .unrecovered } } ∧
        (AtRest s → Unmoved s .idle .unrecovered →
          t = { u with eng := { s.eng with state := .unrecovered } })) ∧
    (blocked ∨ (s.eng.state ≠ .unrecovered ∧ s.eng.state ≠ .idle) →
      exec (.geometryWrite reg v) s = .next ignored)

/-- The registers a write simply stores or clears, each with everything else unchanged: CONFIG_ERROR is cleared
by a 1 in bit 16 of STATUS and kept by a 0; each PENDING flag is cleared by a 1 and kept by a 0; the eleven
LEVELs, ARG, DEADLINE and DSEL are stored; RESP_LIMIT is stored, and a 0 sets CONFIG_ERROR; any other offset
is ignored (R168, R175, R176, R185, R186, R187, R190, R191, R192). -/
def Obligations.StoredRegisters : Prop :=
  ∀ (v : W32) (off : BitVec 10) (s : State), Running s →
    exec (.configErrorClear v) s = .next { s with port := { s.port with
      configError := if v.getLsbD 16 then false else s.port.configError } } ∧
    (∃ f : BitVec 11, (∀ i : Nat, f.getLsbD i = (s.ev.flags.getLsbD i && !v.getLsbD i)) ∧
      exec (.eventPendingClear v) s = .next { s with ev := { s.ev with flags := f } }) ∧
    exec (.eventLevelWrite v) s = .next { s with ev := { s.ev with levels := v.extractLsb' 0 22 } } ∧
    exec (.respLimitWrite v) s = .next { s with
      cfg := { s.cfg with respLimit := v.extractLsb' 0 16 }
      port := { s.port with
        configError := s.port.configError || decide (v.extractLsb' 0 16 = 0#16) } } ∧
    exec (.registerWrite .arg v) s = .next { s with port := { s.port with arg := v } } ∧
    exec (.registerWrite .deadline v) s = .next { s with cfg := { s.cfg with
      deadline := v.extractLsb' 0 24 } } ∧
    exec (.registerWrite .nh0 v) s = .next { s with port := { s.port with dsel := v.extractLsb' 25 2 } } ∧
    exec (.registerWrite (.ignored off) v) s = .next s

/-- WADDR and the conditions of a disabled rule are stored as written, and CONFIG_ERROR is set by a nonzero
WADDR bit 2:0 and by a code 6 or 7 in a condition with a bit in the register written. On an enabled rule the
value is ignored, and CONFIG_ERROR is set if it differs from the stored one (R111, R113, R189). That bits 2:0 of
WADDR_LO are not compared on an enabled rule is the model's reading, log entry 13. -/
def Obligations.WatchAddressAndConditionWrites : Prop :=
  ∀ (n : RuleNo) (k : Fin 6) (v : W32) (s : State), Running s →
    let r := s.rules[n]
    let lo : BitVec 33 := r.waddr.extractLsb' 29 4 ++ v.extractLsb' 3 29
    let hi : BitVec 33 := v.extractLsb' 0 4 ++ r.waddr.extractLsb' 0 29
    let written (cs : BitVec 192) : Prop := ∀ b : Nat, cs.getLsbD b =
      if 32 * k.val ≤ b ∧ b < 32 * k.val + 32 then v.getLsbD (b - 32 * k.val) else r.conds.getLsbD b
    let bad (cs : BitVec 192) : Prop := ∃ b : Fin 64, 3 * b.val < 32 * k.val + 32 ∧
      32 * k.val < 3 * b.val + 3 ∧ 6 ≤ (cs.extractLsb' (3 * b.val) 3).toNat
    let err (p : Bool) : MgmtPort := { s.port with configError := s.port.configError || p }
    (r.enable = false →
      exec (.waddrWrite n .lo v) s = .next { s with
        rules := s.rules.set n { r with waddr := lo }, port := err (v.extractLsb' 0 3 != 0#3) } ∧
      exec (.waddrWrite n .hi v) s = .next { s with rules := s.rules.set n { r with waddr := hi } } ∧
      ∃ cs t, written cs ∧ exec (.condWrite n k v) s = .next t ∧
        (bad cs → t = { s with rules := s.rules.set n { r with conds := cs }, port := err true }) ∧
        (¬ bad cs → t = { s with rules := s.rules.set n { r with conds := cs } })) ∧
    (r.enable = true →
      exec (.waddrWrite n .lo v) s = .next { s with port := err (lo != r.waddr) } ∧
      exec (.waddrWrite n .hi v) s = .next { s with port := err (hi != r.waddr) } ∧
      ∃ cs, written cs ∧ exec (.condWrite n k v) s = .next { s with port := err (cs != r.conds) })

/-- WCTL on a disabled rule stores MODE, ACTION and REARM_MODE, and CONFIG_ERROR is set by MODE 3 or an ACTION
above 4; with ENABLE 1 the rule is armed with HITS 0. On an enabled rule the three fields are ignored, and
CONFIG_ERROR is set if one differs; with ENABLE 0 the rule is disarmed, and HITS stays. OVERRUN is clear after
any change of ENABLE (R111, R112, R113). -/
def Obligations.WatchControlWrite : Prop :=
  ∀ (n : RuleNo) (v : W32) (s : State), Running s →
    let r := s.rules[n]
    let mode := v.extractLsb' 1 2
    let action := v.extractLsb' 3 3
    let auto := v.getLsbD 6
    let stored : WatchRule := { r with mode := mode, action := action, rearmAuto := auto }
    let err (p : Bool) : MgmtPort := { s.port with configError := s.port.configError || p }
    (r.enable = false →
      exec (.wctlWrite n v) s = .next { s with
        rules := s.rules.set n (if v.getLsbD 0 then
            { stored with enable := true, state := .armed, overrun := false, hits := 0 }
          else stored)
        port := err (decide (mode = 3#2 ∨ 5 ≤ action.toNat)) }) ∧
    (r.enable = true →
      exec (.wctlWrite n v) s = .next { s with
        rules := s.rules.set n (if v.getLsbD 0 then r
          else { r with enable := false, state := .disarmed, overrun := false })
        port := err (decide (mode ≠ r.mode ∨ action ≠ r.action ∨ auto ≠ r.rearmAuto)) })

/-! ### The commands -/

/-- Every command records its code and the outcome the acceptance table gives it in the state it meets
(R86). -/
def Obligations.CommandAcceptance : Prop :=
  ∀ (c : Instr) (code : BitVec 4) (s : State), Running s → commandCode c = some code →
    ∃ t, exec c s = .next t ∧ t.port = { s.port with
      cmdResult := { code := code, outcome := acceptance c s } }

/-- A command that the table refuses changes nothing but CMD_RESULT, and so does a COMMAND code that names
no command, which is always refused with reason STATE (R85, R86). -/
def Obligations.RefusedCommandChangesOnlyItsResult : Prop :=
  ∀ (c : Instr) (code : BitVec 4) (why : RefuseReason) (s : State), Running s → commandCode c = some code →
    (acceptance c s = .refused why →
      exec c s = .next { s with port := { s.port with
        cmdResult := { code := code, outcome := .refused why } } }) ∧
    (∀ u, c = .undefinedCmd u → acceptance c s = .refused .state)

/-- OPEN in IDLE takes the next number, enters OPENING and writes its header. COMMIT and COMMIT_OPEN in OPEN stop the
deadline timer and enter CLOSING, COMMIT_OPEN with the next number fixed; they drain, or, with nothing to wait for and
no entry of the table to re-examine, write the ending header. In FAULTED they enter CLOSING again and write the ending
header without a drain. A header waits for an earlier write to its copy; else, in a state at rest with no entry to
re-examine, its HEADER_WRITE is requested with its bytes and the address of NEXT_COPY. Of the engine's other values only
its walk and its counts of outstanding writes may move, and nothing of the configuration, the guards, the rules, time or
the filter (R76 to R78, R84, R87, R89, R90, R92, R93, R97). -/
def Obligations.OpenAndCommitTaken : Prop :=
  ∀ s : State, Running s →
    let done (code : BitVec 4) : MgmtPort :=
      { s.port with cmdResult := { code := code, outcome := .accepted } }
    (∀ n, s.eng.state = .idle → s.eng.nextEpoch = some n →
      ∃ t, exec .openCmd s = .next t ∧ WritesHeader t .opening s.eng ∧
        (AtRest s → Unmoved s .idle .opening → SendsHeader s t .opening (openingEngine n s.eng)) ∧
        t.untouched = { s.untouched with engine := (openingEngine n s.eng).steady, port := done 1 }) ∧
    (s.eng.state = .opened →
      ∃ t, exec .commitCmd s = .next t ∧
        (AtRest s → Unmoved s .opened .closing → EndsEpoch s t .closeCommit s.eng) ∧
        t.untouched = { s.untouched with engine := (commitEngine s.eng).steady, port := done 2 }) ∧
    (s.eng.state = .faulted →
      ∃ t, exec .commitCmd s = .next t ∧ WritesHeader t .closeCommit s.eng ∧
        (AtRest s → Unmoved s .faulted .closing → SendsHeader s t .closeCommit s.eng) ∧
        t.untouched = { s.untouched with
          engine := { s.eng.steady with state := .closing, closeKind := some .commit }
          port := done 2 }) ∧
    (∀ n, s.eng.state = .opened → s.eng.nextEpoch = some n →
      ∃ t, exec .commitOpenCmd s = .next t ∧
        (AtRest s → Unmoved s .opened .closing → EndsEpoch s t .closeCommitOpen (commitOpenEngine n s.eng)) ∧
        t.untouched = { s.untouched with engine := (commitOpenEngine n s.eng).steady, port := done 3 }) ∧
    (∀ n, s.eng.state = .faulted → s.eng.nextEpoch = some n →
      ∃ t, exec .commitOpenCmd s = .next t ∧ WritesHeader t .closeCommitOpen s.eng ∧
        (AtRest s → Unmoved s .faulted .closing →
          SendsHeader s t .closeCommitOpen (commitOpenEngine n s.eng)) ∧
        t.untouched = { s.untouched with
          engine := { s.eng.steady with
            state := .closing, closeKind := some .commitOpen, openNumber := some n
            nextEpoch := nextAfter n }
          port := done 3 })

/-- ABORT in OPEN stops the deadline timer and enters ROLLING. In a state at rest with no entry to re-examine it
drains; with nothing to wait for it reads the record of the highest durable index, or, with none, writes the final
header. In FAULTED it enters ROLLING and writes the re-assert first. Either way a rollback walk begins. A header write is
requested with its bytes and the address of NEXT_COPY, unless an earlier write to that copy is outstanding (R76 to R78,
R98, R99, R135, R136, R138, R141). -/
def Obligations.AbortTaken : Prop :=
  ∀ s : State, Running s →
    let done : MgmtPort := { s.port with cmdResult := { code := 4, outcome := .accepted } }
    (s.eng.state = .opened →
      ∃ t, exec .abortCmd s = .next t ∧ t.eng.walk.kind = some .rollback ∧
        (AtRest s → Unmoved s .opened .rolling → BeginsRollback s t) ∧
        t.untouched = { s.untouched with engine := (abortEngine s.eng).steady, port := done }) ∧
    (s.eng.state = .faulted →
      ∃ t, exec .abortCmd s = .next t ∧ WritesHeader t .reassert s.eng ∧
        (AtRest s → Unmoved s .faulted .rolling → SendsHeader s t .reassert s.eng) ∧
        t.eng.walk = { Walk.absent with kind := some .rollback, phase := some .restore } ∧
        t.untouched = { s.untouched with engine := { s.eng.steady with state := .rolling }, port := done })

/-- EXTEND in OPEN loads the deadline timer from DEADLINE, running unless DEADLINE is 0, whatever it did
before; in every other state it is refused with reason STATE. Nothing else changes (R101). -/
def Obligations.ExtendReloadsTheDeadline : Prop :=
  ∀ s : State, Running s →
    (s.eng.state = .opened → exec .extendCmd s = .next { s with
      eng := { s.eng with deadlineLeft := s.cfg.deadline, deadlineRunning := decide (s.cfg.deadline ≠ 0) }
      port := { s.port with cmdResult := { code := 5, outcome := .accepted } } }) ∧
    (s.eng.state ≠ .opened → exec .extendCmd s = .next { s with
      port := { s.port with cmdResult := { code := 5, outcome := .refused .state } } })

/-- RECOVER and DISCARD in UNRECOVERED, the geometry in range, enter RECOVERING and read the two header copies, each
once no earlier header write to it is outstanding; FORMAT enters RECOVERING with the values of a new journal life, its
JOURNAL_ID from ARG, and writes copy A. In a state at rest with no entry to re-examine the reads, or the write with its
bytes, are requested at once (R76 to R78, R149, R158, R159, R195). -/
def Obligations.RecoveryCommandsTaken : Prop :=
  ∀ s : State, Running s → s.eng.state = .unrecovered → geometryOk s.cfg = true →
    let done (code : BitVec 4) : MgmtPort :=
      { s.port with cmdResult := { code := code, outcome := .accepted } }
    let engine : Engine := { s.eng.steady with state := .recovering }
    let quiet := AtRest s ∧ Unmoved s .unrecovered .recovering
    let life : Engine := { s.eng with
      journalId := s.port.arg, generation := 0, nextCopy := .a, epoch := 0, nextEpoch := some 1 }
    let reads (why : HdrReader) : EngineOp := .headerReads why
      (if s.eng.hdrOutA = 0 then .requested else .waiting) (if s.eng.hdrOutB = 0 then .requested else .waiting)
    (∃ t, exec .recoverCmd s = .next t ∧ t.eng.op = reads .recover ∧ (quiet → ReadsHeaders s t) ∧
      t.eng.walk = { Walk.absent with kind := some .recovery, phase := some .scan } ∧
      t.untouched = { s.untouched with engine := engine, port := done 6 }) ∧
    (∃ t, exec .discardCmd s = .next t ∧ t.eng.walk = Walk.absent ∧ t.eng.op = reads .discard ∧
      (quiet → ReadsHeaders s t) ∧
      t.untouched = { s.untouched with engine := engine, port := done 8 }) ∧
    (∃ t, exec .formatCmd s = .next t ∧ t.eng.walk = Walk.absent ∧
      WritesHeader t .formatFirst life ∧ (quiet → SendsHeader s t .formatFirst life) ∧
      t.untouched = { s.untouched with engine := { life.steady with state := .recovering }, port := done 7 })

/-- RESUME of a stalled walk returns to the walk's own state and takes the stopped step again: the two reads of a scan
or of a restoration, or the final header. DISCARD returns there and goes to the final header; its count, unless an
earlier DISCARD of the walk has set it, is the number of records restored: 0 in the scan, all but those from
WALK_INDEX down to 0 in the restore phase, all in the final phase. The stall cause is gone either way. In a state at
rest with no entry to re-examine the reads, or the header write with its bytes, are requested at once (R76 to R78, R138,
R141, R144, R145, R151, R156, R157). That DISCARD leaves WALK_INDEX absent is the model's reading, log entry 14. -/
def Obligations.StalledWalkCommands : Prop :=
  ∀ s : State, Running s → s.eng.state = .stalled →
    let w := s.eng.walk
    let runs : EngState := if w.kind = some .recovery then .recovering else .rolling
    let total := if w.kind = some .recovery then w.scanCount.getD 0 else s.eng.durableCount
    let count := match w.discardCount with
      | some n => n
      | none => match w.phase with
        | some .scan => 0
        | some .restore => total - 1 - w.index.getD 0
        | _ => total
    let quiet := AtRest s ∧ Unmoved s .stalled runs
    let done (code : BitVec 4) : MgmtPort :=
      { s.port with cmdResult := { code := code, outcome := .accepted } }
    let engine : Engine := { s.eng.steady with state := runs }
    (∃ t, exec .resumeCmd s = .next t ∧
      t.untouched = { s.untouched with engine := engine, port := done 9 } ∧
      (∀ k, w.phase = some .scan → w.index = some k → t.eng.op = .recordReads none none ∧
        t.eng.walk = { w with stall := none } ∧ (quiet → ReadsRecord s t (.scanRead k) k)) ∧
      (∀ k, w.phase = some .restore → w.index = some k → t.eng.op = .recordReads none none ∧
        t.eng.walk = { w with stall := none } ∧ (quiet → ReadsRecord s t (.restoreRead k) k)) ∧
      (w.phase = some .final → WritesHeader t .walkFinal s.eng ∧
        (quiet → SendsHeader s t .walkFinal s.eng) ∧ t.eng.walk = { w with stall := none })) ∧
    (∃ t, exec .discardCmd s = .next t ∧
      t.untouched = { s.untouched with engine := engine, port := done 8 } ∧
      WritesHeader t .walkFinal s.eng ∧ (quiet → SendsHeader s t .walkFinal s.eng) ∧
      t.eng.walk = { w with phase := some .final, index := none, stall := none, discardCount := some count })

/-- REARM with ARG 0 to 7 arms the rule named and clears OVERRUN if the rule is enabled, keeps HITS, and is
ACCEPTED whether it is enabled or not; with ARG above 7 it is refused with reason STATE (R123). -/
def Obligations.RearmArmsTheRule : Prop :=
  ∀ s : State, Running s →
    let done (o : CmdOutcome) : MgmtPort := { s.port with cmdResult := { code := 10, outcome := o } }
    (∀ n : RuleNo, s.port.arg.toNat = n.val → s.rules[n].enable = true →
      exec .rearmCmd s = .next { s with
        rules := s.rules.set n { s.rules[n] with state := .armed, overrun := false }
        port := done .accepted }) ∧
    (∀ n : RuleNo, s.port.arg.toNat = n.val → s.rules[n].enable = false →
      exec .rearmCmd s = .next { s with port := done .accepted }) ∧
    (7 < s.port.arg.toNat → exec .rearmCmd s = .next { s with port := done (.refused .state) })

/-- NOTICE_POP removes the head record, the next becoming the head, and is ACCEPTED; on an empty queue it
changes nothing and its result is EMPTY, and the notice count and every field of the head read 0. While the queue is
not empty the window shows the head: its KIND, TIME and EPOCH, and of ADDRESS, TAG, RULE, OLD and NEW, BIT, INDEX and
REASON those its kind carries, each with its presence bit, the others as 0, DSEL choosing the quarter of OLD and NEW
(R179, R181, R192). -/
def Obligations.NoticePop : Prop :=
  ∀ s : State, Running s →
    (∀ n rest, s.ev.notices = n :: rest →
      exec .noticePopCmd s = .next { s with
        ev := { s.ev with notices := rest }
        port := { s.port with cmdResult := { code := 11, outcome := .accepted } } } ∧
      let v := noticeView n.body
      let nh0 := readReg s 0x070
      let nh4 := readReg s 0x080
      nh0.extractLsb' 0 5 = BitVec.ofNat 5 v.kind ∧
      nh0.getLsbD 5 = v.addr.isSome ∧ nh0.getLsbD 6 = v.tag.isSome ∧ nh0.getLsbD 7 = v.rule.isSome ∧
      nh0.getLsbD 8 = v.values.isSome ∧ nh0.getLsbD 9 = v.bit.isSome ∧ nh0.getLsbD 10 = v.index.isSome ∧
      nh0.getLsbD 11 = v.reason.isSome ∧
      (nh0.extractLsb' 12 4).toNat = (v.tag.getD 0).val ∧ (nh0.extractLsb' 16 3).toNat = (v.rule.getD 0).val ∧
      (nh0.extractLsb' 19 6).toNat = (v.bit.getD 0).val ∧ nh0.extractLsb' 25 2 = s.port.dsel ∧
      nh0.extractLsb' 27 5 = 0 ∧
      readReg s 0x074 = n.time ∧ readReg s 0x078 = n.epoch ∧
      nh4.extractLsb' 0 4 ++ readReg s 0x07C = v.addr.getD 0 ∧
      (nh4.extractLsb' 4 6).toNat = v.reason.getD 0 ∧ nh4.extractLsb' 10 20 = BitVec.ofNat 20 (v.index.getD 0) ∧
      nh4.extractLsb' 30 2 = 0 ∧
      (v.values = none → readReg s 0x084 = 0) ∧
      (∀ old new, v.values = some (old, new) →
        readReg s 0x084 = (new ++ old).extractLsb' (32 * s.port.dsel.toNat) 32)) ∧
    (s.ev.notices = [] →
      exec .noticePopCmd s = .next { s with
        port := { s.port with cmdResult := { code := 11, outcome := .empty } } } ∧
      readReg s 0x060 = 0 ∧ (readReg s 0x070).extractLsb' 0 25 = 0 ∧ readReg s 0x074 = 0 ∧
      readReg s 0x078 = 0 ∧ readReg s 0x07C = 0 ∧ readReg s 0x080 = 0 ∧ readReg s 0x084 = 0)

/-- SOFT_RESET, with no request waiting on the link: every entry is answered ABORTED in admission order; the
record queue, the claims, the filter and the request queue are emptied; outstanding slot writes join the orphan
list; IDLE stays IDLE and every other engine state becomes UNRECOVERED with the operation ended; enabled
rules are ARMED with OVERRUN clear; BUSY link slots become STALE; flags and notices are cleared. The rest is
kept, CMD_RESULT apart (R41, R63, R108, R132, R170, R183, R194). -/
def Obligations.SoftResetEndsEverything : Prop :=
  ∀ s : State, Running s → s.host.link = [] →
    ∃ t, exec .softResetCmd s = .next t ∧
      t.host = { s.host with out := s.host.out ++ s.table.map (fun e => ⟨e.tag, .aborted⟩) } ∧
      t.table = [] ∧
      t.pres =
        { queue := [], claims := 0, filter := [], orphans := s.pres.orphans ++ outstandingSlots 0 s.mport,
          fullReported := false } ∧
      t.eng = { s.eng with
        state := if s.eng.state = .idle then .idle else .unrecovered
        nextIndex := 0, durableCount := 0, deadlineLeft := 0, deadlineRunning := false
        closeKind := none, openNumber := none, walk := Walk.absent, op := .none } ∧
      (∀ n : RuleNo, t.rules[n] = { s.rules[n] with
        state := if s.rules[n].enable then .armed else .disarmed, overrun := false }) ∧
      (∀ i : LinkNo, t.mport.slots[i] = match s.mport.slots[i] with
        | .free => .free
        | .busy r => .stale { r with wanted := false }
        | .stale r => .stale { r with wanted := false }) ∧
      t.mport.queue = [] ∧ t.mport.out = s.mport.out ∧
      t.ev = { flags := 0, levels := s.ev.levels, notices := [] } ∧
      t.port = { s.port with cmdResult := { code := 12, outcome := .accepted } } ∧
      t.guards = s.guards ∧ t.cfg = s.cfg ∧ t.clock = s.clock ∧ t.pending = s.pending

/-- COLD_RESET: at its assertion every item takes its cold-reset value, and the part is held there: no command but the
reset's own edges and the pin PFW changes anything, no time passes, and every register reads 0. Its release ends the
hold with the values as they are, PFW at the level of its pin (R12, R42, R64, R107, R131, R171, R182, R186 to R188, R190,
R192, R193). What stays is the model's own: the commands that wait, the choices, and the two traces of what has left the
part, by log entries 4, 5 and 11; that a release with no reset held does nothing is its choice, log entry 2. -/
def Obligations.ColdResetLeavesTheResetState : Prop :=
  ∀ s : State,
    let cold (held : Bool) : State :=
      { pending := s.pending, choices := s.choices
        host := { link := [], pfw := s.host.pfw, resetHeld := held, out := s.host.out }
        guards := Vector.replicate 16 { valid := false, mode := 0, base := 0, count := 0 }
        table := []
        pres := { queue := [], claims := 0, filter := [], orphans := [], fullReported := false }
        eng :=
          { state := .unrecovered, epoch := 0, nextEpoch := some 1, generation := 0, nextCopy := .a
            journalId := 0, nextIndex := 0, durableCount := 0, closeKind := none, openNumber := none
            deadlineLeft := 0, deadlineRunning := false
            walk := { kind := none, phase := none, index := none, stall := none, scanCount := none
                      discardCount := none }
            hdrOutA := 0, hdrOutB := 0, restoreOut := 0, op := .none }
        rules := Vector.replicate 8
          { enable := false, waddr := 0, conds := 0, mode := 0, action := 0, rearmAuto := false
            state := .disarmed, overrun := false, hits := 0 }
        mport := { slots := Vector.replicate 32 .free, queue := [], out := s.mport.out }
        ev := { flags := 0, levels := 0, notices := [] }
        clock := { timebase := 0, prescale := 0 }
        cfg :=
          { tickdiv := 0, barePolicy := .pass, fullPolicy := .hold, deadlineAction := 0, eventEnable := false
            respLimit := 1000, holdLimit := 0, deadline := 0, jbaseCell := 0, jslots := 0 }
        port := { arg := 0, cmdResult := { code := 0, outcome := .noneTaken }, dsel := 0, configError := false } }
    exec (.coldReset .assert) s = .next (cold true) ∧
    (s.host.resetHeld = true → exec (.coldReset .release) s = .next (cold false)) ∧
    (Running s → exec (.coldReset .release) s = .next s) ∧
    (s.host.resetHeld = true →
      (∀ c : Instr, c ≠ .pfwAssert → c ≠ .pfwDeassert → (∀ edge, c ≠ .coldReset edge) → exec c s = .next s) ∧
      exec .pfwAssert s = .next { s with host := { s.host with pfw := true } } ∧
      exec .pfwDeassert s = .next { s with host := { s.host with pfw := false } } ∧
      (s.pending = [] → step s = .next s) ∧ ∀ off, readReg s off = 0)

/-! ### Host requests -/

/-- The entry an admitted request is given: its cell and first word from the address, its class from the guard
table, the byte enables and data of a write in their place in the cell, and as WATCHED the enabled rules
whose word has a byte enabled, in ascending number (R16, R20, R114). -/
def Obligations.EntryOfARequest : Prop :=
  ∀ (r : HostRequest) (s : State), requestFits r = true →
    let e := newEntry r s
    e.tag = r.tag ∧ e.kind = r.kind ∧ e.count = r.count ∧ e.stage = .waiting ∧
      r.addr = e.cell ++ BitVec.ofNat 3 e.first ++ r.addr.extractLsb' 0 3 ∧ e.first < 8 ∧
      e.cls = classify s.cfg s.guards e.cell ∧
      (∀ j : Fin 64, e.strobes.getLsbD j.val = (decide (r.kind = .write) &&
        decide (8 * e.first ≤ j.val ∧ j.val < 8 * (e.first + e.count)) &&
          r.enables.getLsbD (j.val - 8 * e.first))) ∧
      (r.kind = .write → ∀ w : Nat, w < e.count → wordOf e.data (e.first + w) = wordOf r.data w) ∧
      (∀ n : RuleNo, n ∈ e.watched ↔ r.kind = .write ∧ s.rules[n].enable = true ∧
        s.rules[n].waddr.extractLsb' 3 30 = e.cell ∧
        ∃ j : Fin 8, e.strobes.getLsbD (8 * (s.rules[n].waddr.extractLsb' 0 3).toNat + j.val) = true) ∧
      e.watched.Pairwise (· < ·) ∧
      e.decision = none ∧ e.epoch = none ∧ e.record = none ∧ e.old = none ∧ e.action = none

/-- In a state at rest, a request that finds an entry free is refused at once when its tag is in use, or when it
reaches past its cell: DENIED, notice PROTOCOL, class PROTECT, and nothing else. A request that finds the table
full waits on the link, and nothing else changes (R17, R18). -/
def Obligations.RequestRefusedOrWaiting : Prop :=
  ∀ (r : HostRequest) (s : State),
    (AtRest s → s.table.length < 16 → (∃ e ∈ s.table, e.tag = r.tag) →
      exec (.hostRequest r) s =
        .next (report .protect (.protocol r.addr r.tag .tagInUse) (respond r.tag .denied s))) ∧
    (AtRest s → s.table.length < 16 → (∀ e ∈ s.table, e.tag ≠ r.tag) →
      8 < (r.addr.extractLsb' 3 3).toNat + r.count →
      exec (.hostRequest r) s =
        .next (report .protect (.protocol r.addr r.tag .boundary) (respond r.tag .denied s))) ∧
    (Running s → settled s = true → s.mport.queue = [] → 16 ≤ s.table.length →
      exec (.hostRequest r) s = .next { s with host := { s.host with link := s.host.link ++ [r] } })

/-- In a state at rest with a link slot FREE, a read that no walk holds is admitted and its FORWARD_READ issued
at once; nothing else changes, PFW asserted or not (R22, R23, R30). -/
def Obligations.ReadIsIssued : Prop :=
  ∀ (r : HostRequest) (s : State), Calm s → Admissible r s → r.kind = .read →
    ¬ (classify s.cfg s.guards (requestCell r) = .journal ∧
      (s.eng.state = .rolling ∨ s.eng.state = .recovering ∨ s.eng.state = .stalled)) →
    ∃ t, exec (.hostRequest r) s = .next t ∧
      Issues s t (.forwardRead r.tag (requestCell r) (requestFirst r) r.count) (newEntry r s).addr ∧
      t = { s with
        table := s.table ++ [{ newEntry r s with stage := .issued }]
        mport := t.mport, choices := t.choices }

/-- A write to an EXEMPT or UNGUARDED cell, and a JOURNAL-class write in IDLE under policy PASS, is decided
BARE while PFW is deasserted: unwatched it is forwarded at once, watched it first reads its old content.
The JOURNAL-class write sets class BARE, with a notice if BARE was not pending. No claim is taken and
nothing else changes (R31, R32, R36, R38). -/
def Obligations.BareWriteGoesOn : Prop :=
  ∀ (r : HostRequest) (s : State), Calm s → Admissible r s → r.kind = .write →
    s.host.pfw = false →
    let e := newEntry r s
    (e.cls = .exempt ∨ e.cls = .unguarded ∨
      (e.cls = .journal ∧ s.eng.state = .idle ∧ s.cfg.barePolicy = .pass)) →
    ∃ t, exec (.hostRequest r) s = .next t ∧
      t = { s with
        table := s.table ++ [{ e with
          decision := some .bare, stage := if e.watched = [] then .issued else .fetchingOld }]
        ev := if e.cls = .journal then
            if classPending .bare s.ev then (setClass .bare s).ev
            else (post (.bareWrite e.addr e.tag) (setClass .bare s)).ev
          else s.ev
        mport := t.mport, choices := t.choices } ∧
      (e.watched = [] → Issues s t (.forwardWrite e.tag e.cell e.strobes e.data) (cellAddr e.cell)) ∧
      (e.watched ≠ [] → Issues s t (.oldRead e.tag e.cell) (cellAddr e.cell))

/-- A JOURNAL-class write in OPEN, PFW deasserted: a filter hit goes on as BARE does, with the epoch; else,
with room in the journal and a place free, it is decided PRESERVE, takes a claim and reads its old content;
with room but no place free it waits AT_TURN, without a claim (R31, R33, R34, R36, R43). -/
def Obligations.WriteInAnOpenEpoch : Prop :=
  ∀ (r : HostRequest) (s : State), Calm s → Admissible r s → r.kind = .write →
    s.host.pfw = false → s.eng.state = .opened →
    let e := newEntry r s
    let room := s.eng.nextIndex + s.pres.claims < (s.cfg.jslots.toNat - 2) / 2
    let hit := ∃ f ∈ s.pres.filter, f.cell = e.cell
    e.cls = .journal →
    ∃ t, exec (.hostRequest r) s = .next t ∧
      (hit → t = { s with
          table := s.table ++ [{ e with
            decision := some .filterHit, epoch := some s.eng.epoch
            stage := if e.watched = [] then .issued else .fetchingOld }]
          mport := t.mport, choices := t.choices } ∧
        (e.watched = [] → Issues s t (.forwardWrite e.tag e.cell e.strobes e.data) (cellAddr e.cell)) ∧
        (e.watched ≠ [] → Issues s t (.oldRead e.tag e.cell) (cellAddr e.cell))) ∧
      (¬ hit → room → s.pres.queue.length + s.pres.claims < 8 →
        t = { s with
          table := s.table ++ [{ e with
            decision := some .preserve, epoch := some s.eng.epoch, stage := .fetchingOld }]
          pres := { s.pres with claims := s.pres.claims + 1 }
          mport := t.mport, choices := t.choices } ∧
        Issues s t (.oldRead e.tag e.cell) (cellAddr e.cell)) ∧
      (¬ hit → room → 8 ≤ s.pres.queue.length + s.pres.claims →
        t = { s with table := s.table ++ [{ e with stage := .atTurn }] })

/-- A JOURNAL-class write in OPEN that would need a record the journal cannot take is held JOURNAL_FULL under
full policy HOLD and refused under DENY; the first of an epoch posts JOURNAL_FULL with the capacity and sets its
class. Nothing else changes (R31, R35, R55, R56). That JOURNAL_FULL is posted ahead of DENIED is the model's
reading, log entry 7. -/
def Obligations.WriteMeetsAFullJournal : Prop :=
  ∀ (r : HostRequest) (s : State), AtRest s → Admissible r s → r.kind = .write →
    s.host.pfw = false → s.eng.state = .opened →
    let e := newEntry r s
    let capacity := (s.cfg.jslots.toNat - 2) / 2
    let told : State := if s.pres.fullReported then s
      else report .journalFull (.journalFull e.addr e.tag capacity)
        { s with pres := { s.pres with fullReported := true } }
    e.cls = .journal → (∀ f ∈ s.pres.filter, f.cell ≠ e.cell) →
    capacity ≤ s.eng.nextIndex + s.pres.claims →
    (s.cfg.fullPolicy = .hold →
      exec (.hostRequest r) s = .next { told with
        table := s.table ++ [{ e with stage := .held .journalFull s.clock.timebase }] }) ∧
    (s.cfg.fullPolicy = .deny →
      exec (.hostRequest r) s =
        .next (report .protect (.denied e.addr e.tag .journalFull) (respond e.tag .denied told)))

/-- A write to the journal area or to a READONLY cell, and a JOURNAL-class write in UNRECOVERED or in IDLE under
policy DENY, is refused while PFW is deasserted: DENIED, notice DENIED with the reason, class PROTECT, the
entry freed, and nothing else changes (R31, R35). -/
def Obligations.WriteIsDenied : Prop :=
  ∀ (r : HostRequest) (s : State) (why : DenyReason), AtRest s → Admissible r s →
    r.kind = .write → s.host.pfw = false →
    let e := newEntry r s
    (e.cls = .journalArea ∧ why = .journalArea) ∨ (e.cls = .readonly ∧ why = .readonly) ∨
      (e.cls = .journal ∧ s.eng.state = .unrecovered ∧ why = .unrecovered) ∨
      (e.cls = .journal ∧ s.eng.state = .idle ∧ s.cfg.barePolicy = .deny ∧ why = .bare) →
    exec (.hostRequest r) s =
      .next (report .protect (.denied e.addr e.tag why) (respond e.tag .denied s))

/-- Holds: a write of any class while PFW is asserted is held POWER; else a JOURNAL-class write is held WALK
in ROLLING, RECOVERING and STALLED, and TRANSITION in OPENING, CLOSING and FAULTED; a JOURNAL-class read is
held WALK in the first three. HELD_SINCE is the timebase. A request whose cell has an entry past WAITING, or
a stale write left, stays WAITING. Nothing else changes (R22, R23). -/
def Obligations.RequestIsHeldOrWaits : Prop :=
  ∀ (r : HostRequest) (s : State), AtRest s → s.table.length < 16 → (∀ e ∈ s.table, e.tag ≠ r.tag) →
    requestFits r = true →
    let e := newEntry r s
    let free := NoneIn s (requestCell r) ∧ staleWriteTo s.mport (requestCell r) = false
    let walks := s.eng.state = .rolling ∨ s.eng.state = .recovering ∨ s.eng.state = .stalled
    let turns := s.eng.state = .opening ∨ s.eng.state = .closing ∨ s.eng.state = .faulted
    let heldFor (c : HoldCause) : Prop := exec (.hostRequest r) s =
      .next { s with table := s.table ++ [{ e with stage := .held c s.clock.timebase }] }
    (free → r.kind = .write → s.host.pfw = true → heldFor .power) ∧
    (free → r.kind = .write → s.host.pfw = false → e.cls = .journal → walks → heldFor .walk) ∧
    (free → r.kind = .write → s.host.pfw = false → e.cls = .journal → turns → heldFor .transition) ∧
    (free → r.kind = .read → e.cls = .journal → walks → heldFor .walk) ∧
    ((∃ x ∈ s.table, x.cell = requestCell r ∧ x.stage ≠ .waiting) ∨
        staleWriteTo s.mport (requestCell r) = true →
      exec (.hostRequest r) s = .next { s with table := s.table ++ [e] })

/-- HOST_REQUEST, HOLD_EXPIRY, MPORT_GRANT, DRAIN_COMPLETE, HEADER_ACCESS_ISSUE, RECORD_SLOT_WRITES_REQUEST and
RESTORE_WRITE_ISSUE leave the configuration, the guards, the rules, time, PFW, the management port's registers, the
levels, the filter, the orphan list, and the engine's values but its operation, walk and counts as they are. -/
def Obligations.TrafficLeavesTheRestAlone : Prop :=
  ∀ (c : Instr) (s t : State),
    ((∃ r, c = .hostRequest r) ∨ (∃ tag, c = .holdExpiry tag) ∨ c = .mportGrant ∨ c = .drainComplete ∨
      c = .headerAccessIssue ∨ (∃ k, c = .recordSlotWritesRequest k) ∨ c = .restoreWriteIssue) →
    exec c s = .next t → t.untouched = s.untouched

/-! ### Pins and timers -/

/-- PFW: each change of level sets class POWER and leaves what host traffic leaves alone; at its level already,
nothing happens (log entry 12). In a state at rest an assertion posts POWER_CHANGE, and every write AT_TURN becomes held
POWER from then on; nothing else changes. A deassertion posts POWER_CHANGE and re-examines the entries held POWER: none
is left held so, and the entries of cells with none held so stay; where a walk or a transition holds them they become
held WALK or TRANSITION with their HELD_SINCE kept, and with none held POWER, nothing else changes either way
(R23, R24, R27, R178). -/
def Obligations.PfwChanges : Prop :=
  ∀ s : State, Running s →
    let walks := s.eng.state = .rolling ∨ s.eng.state = .recovering ∨ s.eng.state = .stalled
    let turns := s.eng.state = .opening ∨ s.eng.state = .closing ∨ s.eng.state = .faulted
    let passes (c : HoldCause) : State := report .power (.powerChange false) { s with
      host := { s.host with pfw := false }
      table := s.table.map (fun e => match e.stage with
        | .held .power since => { e with stage := .held c since }
        | _ => e) }
    (s.host.pfw = true → exec .pfwAssert s = .next s) ∧
    (s.host.pfw = false → exec .pfwDeassert s = .next s) ∧
    (s.host.pfw = false → ∃ t, exec .pfwAssert s = .next t ∧ t.untouched = { s.untouched with pfw := true } ∧
      classPending .power t.ev = true ∧
      (AtRest s → (TableOk s ∨ ∀ e ∈ s.table, e.stage ≠ .atTurn) →
        (∀ e ∈ s.table, e.stage = .atTurn → e.kind = .write) →
        t = report .power (.powerChange true) { s with
          host := { s.host with pfw := true }
          table := s.table.map (fun e =>
            if e.stage = .atTurn then { e with stage := .held .power s.clock.timebase } else e) })) ∧
    (s.host.pfw = true → ∃ t, exec .pfwDeassert s = .next t ∧
      t.untouched = { s.untouched with pfw := false } ∧ classPending .power t.ev = true ∧
      (TableOk s → ∀ e ∈ t.table, e.heldWith .power = false) ∧
      (AtRest s → TableOk s → ∀ e ∈ s.table,
        (∀ x ∈ s.table, x.cell = e.cell → x.heldWith .power = false) → e ∈ t.table) ∧
      (AtRest s → TableOk s →
        (∀ e ∈ s.table, e.heldWith .power = true → e.kind = .write ∧ e.cls = .journal) →
        (walks → t = passes .walk) ∧ (turns → t = passes .transition)) ∧
      (AtRest s → (∀ e ∈ s.table, e.heldWith .power = false) →
        t = report .power (.powerChange false) { s with host := { s.host with pfw := false } }))

/-- A held entry that has reached a HOLD_LIMIT that is not 0, while the timers run, alone in its cell in a state
at rest, is answered FAILED and freed, with notice HOLD_EXPIRED, its cause, and the class, and nothing else
changes. A held entry not yet at the limit is left as it is (R28, R29). That a command for an expiry not due
does nothing is the model's choice, log entry 2. -/
def Obligations.HoldExpires : Prop :=
  ∀ (s : State) (e : Entry) (c : HoldCause) (since : W32), entryOf s e.tag = some e →
    e.stage = .held c since →
    let due := s.cfg.tickdiv ≠ 0 ∧ s.cfg.holdLimit ≠ 0 ∧
      s.cfg.holdLimit.toNat ≤ (s.clock.timebase - since).toNat
    (due → AtRest s → s.eng.op ≠ .draining → Alone s e →
      exec (.holdExpiry e.tag) s = .next (report .holdExpired (.holdExpired e.addr e.tag c)
        { s with
          host := { s.host with out := s.host.out ++ [⟨e.tag, .failed⟩] }
          table := s.table.filter (fun x => x.tag != e.tag) })) ∧
    (¬ due → exec (.holdExpiry e.tag) s = .next s)

/-- The deadline timer that has reached 0 in OPEN while the timers run posts DEADLINE_EXPIRED with the action,
where the notice queue has room, sets class DEADLINE and stops; EVENT does no more in a state at rest, COMMIT
and ABORT are taken as the commands are, without a result, the engine draining first where it has to. Where the timer
is not due, nothing happens (R89, R90, R99, R100, R102), which is the model's choice, log entry 2. -/
def Obligations.DeadlineExpires : Prop :=
  ∀ s : State, Running s →
    let due := s.cfg.tickdiv ≠ 0 ∧ s.eng.state = .opened ∧ s.eng.deadlineRunning = true ∧
      s.eng.deadlineLeft = 0
    (¬ due → exec .deadlineExpiry s = .next s) ∧
    (due → ∃ t, exec .deadlineExpiry s = .next t ∧ classPending .deadline t.ev = true ∧
      (s.ev.notices.length < 16 → ∃ more, t.ev.notices = s.ev.notices ++ more ∧ ∃ n ∈ more,
        n.body = .deadlineExpired (if s.cfg.deadlineAction = 1 then .commit
          else if s.cfg.deadlineAction = 2 then .abort else .event)) ∧
      (s.cfg.deadlineAction = 1 →
        (AtRest s → Unmoved s .opened .closing → EndsEpoch s t .closeCommit s.eng) ∧
        t.untouched = { s.untouched with engine := (commitEngine s.eng).steady }) ∧
      (s.cfg.deadlineAction = 2 →
        (AtRest s → Unmoved s .opened .rolling → BeginsRollback s t) ∧
        t.untouched = { s.untouched with engine := (abortEngine s.eng).steady } ∧
          t.eng.walk.kind = some .rollback) ∧
      (s.cfg.deadlineAction = 0 ∨ s.cfg.deadlineAction = 3 → AtRest s →
        t = report .deadline (.deadlineExpired .event)
          { s with eng := { s.eng with deadlineRunning := false } }))

/-- A watch action handed to the engine meets the engine's table of actions, and the write is answered OK. A COMMIT,
COMMIT_OPEN or ABORT taken goes on as the command does: to the drain, the header, or the restore walk. In a
state at rest, for a write alone in its cell: a COMMIT or ABORT in IDLE only answers the write and frees its
entry, and every other drop also posts ACTION_DROPPED and changes nothing else (R39, R87, R89, R99, R104, R128). -/
def Obligations.WatchActionIsDelivered : Prop :=
  ∀ (s : State) (e : Entry) (a : EpochAction) (rule : RuleNo), Running s → TableOk s →
    entryOf s e.tag = some e → e.stage = .finishing → e.action = some (a, rule) →
    let fate := actionFate s.eng a
    let answered (u : State) : State := { u with
      host := { u.host with out := u.host.out ++ [⟨e.tag, .okWrite⟩] }
      table := u.table.filter (fun x => x.tag != e.tag) }
    ∃ t, exec (.watchActionDelivery e.tag) s = .next t ∧
      t.untouched = { s.untouched with engine := (fate.engine s.eng).steady } ∧
      (∃ answers, t.host.out = s.host.out ++ answers ∧ ⟨e.tag, .okWrite⟩ ∈ answers) ∧
      (AtRest s → Alone s e →
        (∀ n, fate = .opening n → Unmoved s .idle .opening →
          SendsHeader s t .opening (openingEngine n s.eng)) ∧
        (fate = .commit → Unmoved s .opened .closing → EndsEpoch s t .closeCommit s.eng) ∧
        (∀ n, fate = .commitOpen n → Unmoved s .opened .closing →
          EndsEpoch s t .closeCommitOpen (commitOpenEngine n s.eng)) ∧
        (fate = .abort → Unmoved s .opened .rolling → BeginsRollback s t)) ∧
      (AtRest s → s.eng.op ≠ .draining → Alone s e → fate = .silent → t = answered s) ∧
      (∀ why, AtRest s → s.eng.op ≠ .draining → Alone s e → fate = .dropped why →
        t = answered (post (.actionDropped rule e.addr e.tag why) s))

/-! ### Answers from memory -/

/-- The answer to a FORWARD_READ or FORWARD_WRITE frees the link slot: a read is answered OK with its COUNT words; a write
OK, or, with an action to hand over, it enters FINISHING; an ERROR is answered FAILED with FORWARD_FAULT and class FAULT.
For an entry alone in its cell nothing else changes; where the oldest entry WAITING in the cell is a read that nothing
holds, that read takes its turn and is forwarded. The OK that ends the last write a drain of COMMIT or COMMIT_OPEN waits
for is followed by the ending header (R22, R30, R38, R39, R90, R92, R93, R165). That the words of a read stand from bit 0
of the answer is the model's choice, log entry 22, and so is that the entry stays FINISHING, its action not yet delivered
and the engine as it was, until a command delivers it, log entry 24. -/
def Obligations.ForwardIsAnswered : Prop :=
  ∀ (s : State) (i : LinkNo) (lr : LinkRec) (e : Entry) (d : CellData), AtRest s →
    entryOf s e.tag = some e → e.stage = .issued →
    let ended (r : HostResult) : State := { s with
      host := { s.host with out := s.host.out ++ [⟨e.tag, r⟩] }
      table := s.table.filter (fun x => x.tag != e.tag)
      mport := s.mport.freed i }
    let leaves (a : Answer) (u : State) : Prop :=
      (Alone s e → exec (.mportAnswer i a) s = .next u) ∧
      (∀ next, TableOk s → NextReader s e next →
        ∃ t, exec (.mportAnswer i a) s = .next t ∧ ForwardsRead u t next)
    (∀ cell f n, Answering s i lr (.forwardRead e.tag cell f n) →
      leaves (.ok d) (ended (.okRead ((List.range e.count).map (fun w => d.extractLsb' (64 * w) 64)))) ∧
      leaves .error (report .fault (.forwardFault e.addr e.tag .forwardRead) (ended .failed))) ∧
    (∀ cell st bytes, Answering s i lr (.forwardWrite e.tag cell st bytes) →
      (e.action = none → leaves (.ok d) (ended .okWrite)) ∧
      (Alone s e → e.action ≠ none → exec (.mportAnswer i (.ok d)) s = .next { s with
        table := s.table.map (fun x => if x.tag = e.tag then { e with stage := .finishing } else x)
        mport := s.mport.freed i }) ∧
      leaves .error (report .fault (.forwardFault e.addr e.tag .forwardWrite) (ended .failed))) ∧
    (∀ cell st bytes, s.mport.slots[i] = .busy lr → lr.op = .forwardWrite e.tag cell st bytes → lr.wanted = true →
      s.eng.op = .draining → s.eng.state = .closing → e.action = none → Alone s e →
      (∀ x ∈ s.table, DrainWaitsFor s x → x.tag = e.tag) →
      ∃ t, exec (.mportAnswer i (.ok d)) s = .next t ∧
        SendsHeader (ended .okWrite) t
          (if s.eng.closeKind = some .commitOpen then .closeCommitOpen else .closeCommit) s.eng ∧
        t = { ended .okWrite with eng := t.eng, mport := t.mport, choices := t.choices } ∧
        t.eng.steady = s.eng.steady ∧ t.eng.walk = s.eng.walk)

/-- The old content of a PRESERVE write that no rule watches: its link slot is freed, its claim becomes the record with
index NEXT_INDEX at the tail of the queue, holding the content as read, and the write enters RECORDING; its two slot
writes are requested at once, with the bytes of the record's header and the content as read, unless a slot of the record
is an orphan's. An ERROR, to the read of any PRESERVE write, watched or not, answers the write FAILED, releases its
claim, and changes nothing else but the notice and the class; where a write AT_TURN waits for the place, and OPEN, PFW
deasserted and room in the journal let it, it takes the claim and reads its old content (R34, R36, R37, R43 to R47, R60,
R67, R165). -/
def Obligations.OldContentBecomesARecord : Prop :=
  ∀ (s : State) (i : LinkNo) (lr : LinkRec) (e : Entry) (cell : CellIx) (d : CellData), AtRest s →
    Answering s i lr (.oldRead e.tag cell) → entryOf s e.tag = some e →
    e.stage = .fetchingOld → e.decision = some .preserve →
    let k := s.eng.nextIndex
    let clear := recordSlot k .header ∉ s.pres.orphans ∧ recordSlot k .data ∉ s.pres.orphans
    let record : RecElem :=
      { index := k, cell := e.cell, data := d, tag := e.tag, epoch := e.epoch.getD s.eng.epoch
        journalId := s.eng.journalId, requested := decide clear, headerAck := false, dataAck := false }
    let freed : State := { s with mport := s.mport.freed i }
    let failed : State := report .fault (.forwardFault e.addr e.tag .oldRead) { s with
      host := { s.host with out := s.host.out ++ [⟨e.tag, .failed⟩] }
      table := s.table.filter (fun x => x.tag != e.tag)
      pres := { s.pres with claims := s.pres.claims - 1 }
      mport := s.mport.freed i }
    (e.watched = [] → NoneWaits s → (∀ r ∈ s.pres.queue, r.index ≠ k) →
      ∃ t, exec (.mportAnswer i (.ok d)) s = .next t ∧
      t = { s with
        table := s.table.map (fun x => if x.tag = e.tag then
          { e with stage := .recording, record := some k, old := some d } else x)
        eng := { s.eng with nextIndex := k + 1 }
        pres := { s.pres with claims := s.pres.claims - 1, queue := s.pres.queue ++ [record] }
        mport := t.mport, choices := t.choices } ∧
      (clear → WritesRecord freed t record) ∧ (¬ clear → t.mport = freed.mport)) ∧
    (Alone s e → NoneWaits s → exec (.mportAnswer i .error) s = .next failed) ∧
    (∀ next ∈ s.table, Alone s e → TableOk s → s.host.pfw = false → s.eng.state = .opened →
      next.stage = .atTurn → next.kind = .write → next.cls = .journal → (∀ f ∈ s.pres.filter, f.cell ≠ next.cell) →
      (∀ x ∈ s.table, x ≠ next → x.stage ≠ .waiting ∧ x.stage ≠ .atTurn ∧ x.heldWith .journalFull = false) →
      s.pres.queue.length + (s.pres.claims - 1) < 8 →
      s.eng.nextIndex + (s.pres.claims - 1) < (s.cfg.jslots.toNat - 2) / 2 →
      ∃ t, exec (.mportAnswer i .error) s = .next t ∧
        Issues failed t (.oldRead next.tag next.cell) (cellAddr next.cell) ∧
        t = { failed with
          table := failed.table.map (fun x => if x.tag = next.tag then
            { next with decision := some .preserve, epoch := some s.eng.epoch, stage := .fetchingOld } else x)
          pres := { failed.pres with claims := s.pres.claims - 1 + 1 }
          mport := t.mport, choices := t.choices })

/-- The old content of a watched write is judged by the rules it was admitted with. A REFUSE that fires ends it DENIED
with reason WATCH, and a PRESERVE write's claim with it; else a BARE or FILTER_HIT write is forwarded, and a PRESERVE
write becomes the record with index NEXT_INDEX, its slot writes requested unless a slot of the record is an orphan's,
either with the action the merge gives. The rules, classes and notices are as the evaluation leaves them, and nothing
else changes. An ERROR answers the write FAILED with nothing evaluated, and a PRESERVE write's claim is released (R36, R37, R44, R45, R47, R60, R116, R119, R125 to R127). -/
def Obligations.WatchedWriteIsJudged : Prop :=
  ∀ (s : State) (i : LinkNo) (lr : LinkRec) (e : Entry) (cell : CellIx) (d : CellData), AtRest s →
    Answering s i lr (.oldRead e.tag cell) → entryOf s e.tag = some e → e.stage = .fetchingOld → Alone s e →
    let read : Entry := { e with old := some d }
    let judged := (evaluate read d s).1
    let asked := (evaluate read d s).2
    let u : State := { s with rules := judged.rules, ev := judged.ev, mport := s.mport.freed i }
    let refused : State := report .protect (.denied e.addr e.tag .watch) { u with
      host := { u.host with out := u.host.out ++ [⟨e.tag, .denied⟩] }
      table := s.table.filter (fun x => x.tag != e.tag) }
    let failed : State := report .fault (.forwardFault e.addr e.tag .oldRead) { s with
      host := { s.host with out := s.host.out ++ [⟨e.tag, .failed⟩] }
      table := s.table.filter (fun x => x.tag != e.tag)
      mport := s.mport.freed i }
    let passes (goes : Option (EpochAction × RuleNo) → Prop) : Prop :=
      (merge asked = .pass → goes e.action) ∧ (∀ a rule, merge asked = .act a rule → goes (some (a, rule)))
    (e.decision ≠ some .preserve → inJournalArea s.cfg e.cell = false →
      (merge asked = .refuse → exec (.mportAnswer i (.ok d)) s = .next refused) ∧
      passes (fun action => ∃ t, exec (.mportAnswer i (.ok d)) s = .next t ∧
        Issues u t (.forwardWrite e.tag e.cell e.strobes e.data) (cellAddr e.cell) ∧
        t = { u with
          table := s.table.map (fun x => if x.tag = e.tag then
            { read with stage := .issued, action := action } else x)
          mport := t.mport, choices := t.choices }) ∧
      exec (.mportAnswer i .error) s = .next failed) ∧
    (e.decision = some .preserve → NoneWaits s →
      let k := s.eng.nextIndex
      let clear := recordSlot k .header ∉ s.pres.orphans ∧ recordSlot k .data ∉ s.pres.orphans
      let record : RecElem :=
        { index := k, cell := e.cell, data := d, tag := e.tag, epoch := e.epoch.getD s.eng.epoch
          journalId := s.eng.journalId, requested := decide clear, headerAck := false, dataAck := false }
      (exec (.mportAnswer i .error) s = .next { failed with pres := { s.pres with claims := s.pres.claims - 1 } }) ∧
      (merge asked = .refuse → exec (.mportAnswer i (.ok d)) s =
        .next { refused with pres := { s.pres with claims := s.pres.claims - 1 } }) ∧
      ((∀ r ∈ s.pres.queue, r.index ≠ k) →
        passes (fun action => ∃ t, exec (.mportAnswer i (.ok d)) s = .next t ∧
          (clear → WritesRecord u t record) ∧ (¬ clear → t.mport = u.mport) ∧
          t = { u with
            table := s.table.map (fun x => if x.tag = e.tag then
              { read with stage := .recording, record := some k, action := action } else x)
            eng := { s.eng with nextIndex := k + 1 }
            pres := { s.pres with claims := s.pres.claims - 1, queue := s.pres.queue ++ [record] }
            mport := t.mport, choices := t.choices })))

/-- The second OK of the head record's slot writes makes it durable: it leaves the queue, DURABLE_COUNT goes up
by one, its cell joins the filter as the newest of its set, a full set first losing its oldest, and its owner is
forwarded. A next record that is ready already becomes durable with it, and the two forwards are requested, and leave, in
index order. The first OK sets its flag and does nothing more (R48, R49, R51, R52, R164). -/
def Obligations.RecordBecomesDurable : Prop :=
  ∀ (s : State) (i : LinkNo) (lr : LinkRec) (r : RecElem) (rest : List RecElem) (half : RecHalf)
    (bytes d : CellData), AtRest s → Answering s i lr (.slotWrite r.index half bytes) →
    s.pres.queue = r :: rest → (∀ x ∈ rest, x.index ≠ r.index) → r.requested = true →
    NoneWaits s → recordSlot r.index half ∉ s.pres.orphans →
    let acked : RecElem := match half with
      | .header => { r with headerAck := true }
      | .data => { r with dataAck := true }
    let inserted (f : List FilterEntry) (x : RecElem) : List FilterEntry :=
      let sameSet (y : FilterEntry) : Bool := y.cell.toNat % 512 == x.cell.toNat % 512
      (if (f.filter sameSet).length < 4 then f else f.eraseP sameSet) ++ [{ cell := x.cell, index := x.index }]
    let forwarded (e : Entry) : MemOp × Addr := (.forwardWrite e.tag e.cell e.strobes e.data, cellAddr e.cell)
    let owner (x : RecElem) (e : Entry) : Prop :=
      entryOf s x.tag = some e ∧ e.stage = .recording ∧ inJournalArea s.cfg e.cell = false
    let u : State := { s with mport := s.mport.freed i }
    (acked.ready = false → exec (.mportAnswer i (.ok d)) s =
      .next { u with pres := { s.pres with queue := acked :: rest } }) ∧
    (∀ e, acked.ready = true → (∀ x ∈ rest, x.ready = false) → owner r e →
      ∃ t, exec (.mportAnswer i (.ok d)) s = .next t ∧ Issues u t (forwarded e).1 (forwarded e).2 ∧
        t = { u with
          table := s.table.map (fun x => if x.tag = e.tag then { e with stage := .issued } else x)
          eng := { s.eng with durableCount := s.eng.durableCount + 1 }
          pres := { s.pres with queue := rest, filter := inserted s.pres.filter r }
          mport := t.mport, choices := t.choices }) ∧
    (∀ e next more e', acked.ready = true → rest = next :: more → next.ready = true →
      (∀ x ∈ more, x.ready = false) → owner r e → owner next e' → e.tag ≠ e'.tag →
      ∃ t, exec (.mportAnswer i (.ok d)) s = .next t ∧ TakesInOrder u t (forwarded e) (forwarded e') ∧
        t = { u with
          table := s.table.map (fun x => if x.tag = e.tag then { e with stage := .issued }
            else if x.tag = e'.tag then { e' with stage := .issued } else x)
          eng := { s.eng with durableCount := s.eng.durableCount + 2 }
          pres := { s.pres with queue := more, filter := inserted (inserted s.pres.filter r) next }
          mport := t.mport, choices := t.choices })

/-- An ERROR to a slot write of a queued record, no other entry waiting and no other write to that slot
outstanding: the record and every younger one leave the queue with their writes answered FAILED, NEXT_INDEX is
set back to it, JOURNAL_FAULT is posted and class FAULT set, and the slot writes of removed records still
outstanding become orphans. Older records stay (R58, R61). -/
def Obligations.RecordFaultRemovesTheTail : Prop :=
  ∀ (s : State) (i : LinkNo) (lr : LinkRec) (r : RecElem) (half : RecHalf) (bytes : CellData), AtRest s →
    Answering s i lr (.slotWrite r.index half bytes) → BlocksOk s → r ∈ s.pres.queue →
    NoneWaits s → recordSlot r.index half ∉ s.pres.orphans ++ outstandingSlots r.index (s.mport.freed i) →
    let k := r.index
    let gone := s.pres.queue.filter (fun x => decide (k ≤ x.index))
    ∃ t, exec (.mportAnswer i .error) s = .next t ∧
      t.pres = { s.pres with
        queue := s.pres.queue.filter (fun x => decide (x.index < k))
        orphans := s.pres.orphans ++ outstandingSlots k (s.mport.freed i) } ∧
      t.eng = { s.eng with nextIndex := k } ∧
      t.host = { s.host with out := s.host.out ++ gone.map (fun x => ⟨x.tag, .failed⟩) } ∧
      t.table = s.table.filter (fun e => !(gone.any (fun x => x.tag == e.tag))) ∧
      t.ev = (report .fault (.journalFault (cellAddr r.cell) r.tag k half) { s with
        eng := { s.eng with nextIndex := k } }).ev ∧
      t.mport.queue = [] ∧ t.mport.out = s.mport.out ∧ t.mport.slots[i] = .free ∧
      t.rules = s.rules ∧ t.cfg = s.cfg ∧ t.port = s.port ∧ t.guards = s.guards ∧ t.clock = s.clock ∧
      t.pending = s.pending

/-! ### The engine's own transactions -/

/-- A header write answered OK advances GENERATION and goes on to the other copy. OPEN and COMMIT_OPEN then enter OPEN
with the number fixed, the counters at 0, the filter empty and the deadline loaded; COMMIT, a walk's final header,
DISCARD and FORMAT's second header enter IDLE; a re-assert goes on to the walk, FORMAT's first header to its second.
Each entry into OPEN or IDLE sets class EPOCH_DONE and posts its report where the notice queue has room: OPENED,
COMMITTED or COMMIT_OPENED with the records of the epoch, ROLLED_BACK with those the walk restored or DISCARDED with
its count, FORMATTED. In a state at rest a header that follows is requested with its bytes; at an entry into OPEN
FULL_REPORTED becomes no, and a write held TRANSITION, the one entry to re-examine, takes a claim and reads its old
content; at an entry into IDLE such a write is DENIED under policy DENY, and a read held WALK is forwarded (R25, R31, R33,
R35, R43, R56, R76 to R78, R88, R92 to R94, R98, R135, R136, R141, R145, R153, R157 to R159). That COMMITTED, DISCARDED
from UNRECOVERED and FORMATTED are posted ahead of the notices of writes re-examined at the same entry, and so keep the
one place left with 15 records held, is the model's reading, log entry 7. -/
def Obligations.HeaderAcknowledged : Prop :=
  ∀ (s : State) (i : LinkNo) (lr : LinkRec) (c : Copy) (bytes d : CellData) (why : HdrPurpose),
    s.mport.slots[i] = .busy lr → lr.op = .headerWrite c bytes → lr.wanted = true →
    s.eng.op = .headerWrite why true → Running s →
    let w := s.eng.walk
    let total := if w.kind = some .recovery then w.scanCount.getD 0 else s.eng.durableCount
    let reported : Option NoticeBody := match why with
      | .opening => some (.epochEvent .opened)
      | .closeCommit => some (.epochEvent (.committed s.eng.durableCount))
      | .closeCommitOpen => some (.epochEvent (.commitOpened s.eng.durableCount))
      | .reassert => none
      | .walkFinal => some (match decide (w.kind = some .recovery), w.discardCount with
        | true, none => .recoveryResult (.rolledBack total)
        | true, some n => .recoveryResult (.discarded n)
        | false, none => .epochEvent (.rolledBack total)
        | false, some n => .epochEvent (.discarded n))
      | .discard => some (.recoveryResult (.discarded 0))
      | .formatFirst => none
      | .formatSecond => some (.epochEvent .formatted)
    let landed : Engine := { s.eng.steady with
      generation := s.eng.generation + 1
      nextCopy := match s.eng.nextCopy with
        | .a => .b
        | .b => .a }
    let going : Engine := Engine.mapHdrOut (· - 1) c { s.eng with
      generation := s.eng.generation + 1
      nextCopy := match s.eng.nextCopy with
        | .a => .b
        | .b => .a }
    let freed : State := { s with mport := s.mport.freed i }
    let opens := why = .opening ∨ why = .closeCommitOpen
    let idles := why = .closeCommit ∨ why = .walkFinal ∨ why = .discard ∨ why = .formatSecond
    let only (e : Entry) (new : EngState) : Prop :=
      AtRest s ∧ TableOk s ∧ Alone s e ∧ ∀ x ∈ s.table, x ≠ e → stateChoice s.eng.state new x = false
    let counted : Engine := { landed with nextIndex := 0, durableCount := 0, closeKind := none, openNumber := none }
    ∃ t, exec (.mportAnswer i (.ok d)) s = .next t ∧
      (opens → t.untouched = { s.untouched with
        filter := []
        engine := { counted with
          state := .opened, epoch := s.eng.openNumber.getD s.eng.epoch
          deadlineLeft := s.cfg.deadline, deadlineRunning := decide (s.cfg.deadline ≠ 0) } }) ∧
      (opens → AtRest s → Unmoved s s.eng.state .opened →
        t.pres = { s.pres with filter := [], fullReported := false }) ∧
      (opens → ∀ e ∈ s.table, only e .opened → (∃ since, e.stage = .held .transition since) → e.kind = .write →
        e.cls = .journal → s.host.pfw = false → s.pres.queue = [] → s.pres.claims = 0 → 4 ≤ s.cfg.jslots.toNat →
        t.pres = { s.pres with claims := 1, filter := [], fullReported := false } ∧
        t.table = s.table.map (fun x => if x.tag = e.tag then { e with
          decision := some .preserve, epoch := some (s.eng.openNumber.getD s.eng.epoch)
          stage := .fetchingOld } else x) ∧
        Issues freed t (.oldRead e.tag e.cell) (cellAddr e.cell)) ∧
      (idles → t.untouched = { s.untouched with
          filter := []
          engine := { counted with state := .idle, deadlineLeft := 0, deadlineRunning := false } }) ∧
      (idles → ∀ e ∈ s.table, only e .idle → (∃ since, e.stage = .held .transition since) → e.kind = .write →
        e.cls = .journal → s.host.pfw = false → s.cfg.barePolicy = .deny →
        t.table = s.table.filter (fun x => x.tag != e.tag) ∧ t.mport = freed.mport ∧
        t.host = { s.host with out := s.host.out ++ [⟨e.tag, .denied⟩] } ∧
        classPending .protect t.ev = true) ∧
      (idles → ∀ e ∈ s.table, only e .idle → (∃ since, e.stage = .held .walk since) → e.kind = .read →
        t.table = s.table.map (fun x => if x.tag = e.tag then { e with stage := .issued } else x) ∧
        t.host = s.host ∧ Issues freed t (.forwardRead e.tag e.cell e.first e.count) e.addr) ∧
      (why = .reassert → t.untouched = { s.untouched with engine := landed } ∧
        (total = 0 → WritesHeader t .walkFinal going ∧ (AtRest s → SendsHeader freed t .walkFinal going) ∧
          t.eng.walk = { w with phase := some .final, index := none }) ∧
        (∀ k, total = k + 1 → t.eng.op = .recordReads none none ∧
          t.eng.walk = { w with phase := some .restore, index := some k } ∧
          (AtRest s → ReadsRecord freed t (.restoreRead k) k))) ∧
      (why = .formatFirst → t.untouched = { s.untouched with engine := landed } ∧
        WritesHeader t .formatSecond going ∧ (AtRest s → SendsHeader freed t .formatSecond going)) ∧
      (∀ b, reported = some b →
        classPending .epochDone t.ev = true ∧
          (s.ev.notices.length < 16 → ∃ more, t.ev.notices = s.ev.notices ++ more ∧
            ∃ n ∈ more, n.body = b))

/-- A header write answered ERROR leaves GENERATION and NEXT_COPY. A failed opening burns its number and returns
to IDLE; a failed ending header or re-assert enters FAULTED with everything of the epoch kept; a failed final
header stalls the walk; a failed DISCARD or FORMAT returns to UNRECOVERED. HEADER_FAULT or WALK_STALL is posted,
where the notice queue has room, with the byte address of the slot (R87, R92, R93, R96, R98, R142, R155, R158,
R159). That HEADER_FAULT is posted ahead of the notices of writes re-examined at the same return to IDLE or UNRECOVERED,
and so keeps the one place left with 15 records held, is the model's reading, log entry 7. -/
def Obligations.HeaderFailed : Prop :=
  ∀ (s : State) (i : LinkNo) (lr : LinkRec) (c : Copy) (bytes : CellData) (why : HdrPurpose),
    s.mport.slots[i] = .busy lr → lr.op = .headerWrite c bytes → lr.wanted = true →
    s.eng.op = .headerWrite why true → Running s →
    let slot := slotAddr s.cfg (copySlot s.eng.nextCopy)
    let tells (cls : EvClass) (b : NoticeBody) (t : State) : Prop := classPending cls t.ev = true ∧
      (s.ev.notices.length < 16 → ∃ more, t.ev.notices = s.ev.notices ++ more ∧ ∃ n ∈ more, n.body = b)
    ∃ t, exec (.mportAnswer i .error) s = .next t ∧
      (why = .opening → tells .fault (.headerFault slot .openHeader) t ∧ t.untouched = { s.untouched with
        filter := []
        engine := { s.eng.steady with
          state := .idle, epoch := s.eng.openNumber.getD s.eng.epoch, openNumber := none, closeKind := none
          nextIndex := 0, durableCount := 0, deadlineLeft := 0, deadlineRunning := false } }) ∧
      (∀ reason, (why = .closeCommit ∧ reason = .commit) ∨ (why = .closeCommitOpen ∧ reason = .commitOpen) ∨
          (why = .reassert ∧ reason = .reassert) →
        tells .fault (.headerFault slot reason) t ∧ t.eng.walk = Walk.absent ∧
          t.untouched = { s.untouched with engine := { s.eng.steady with
            state := .faulted, closeKind := none, openNumber := none } }) ∧
      (why = .walkFinal →
        tells .stall (.walkStall slot s.eng.walk.index (s.eng.walk.kind.getD .rollback)
          (s.eng.walk.phase.getD .restore) .headerFault) t ∧
          t.eng.walk = { s.eng.walk with stall := some .headerFault } ∧
          t.untouched = { s.untouched with engine := { s.eng.steady with state := .stalled } }) ∧
      (∀ reason, (why = .discard ∧ reason = .discard) ∨
          (why = .formatFirst ∨ why = .formatSecond) ∧ reason = .format →
        tells .fault (.headerFault slot reason) t ∧ t.eng.walk = Walk.absent ∧
          t.untouched = { s.untouched with engine := { s.eng.steady with state := .unrecovered } })

/-- A header read of RECOVER or DISCARD, of either copy and in either order: an ERROR, to the first or to the second,
ends the operation in UNRECOVERED with the address of the copy's slot. After the first OK the other read is waited for.
With both copies read and none valid it ends there too; else the current header's values are adopted, and DISCARD writes
its header with their bytes, RECOVER of a CLEAN header enters IDLE and reports it, and of an ACTIVE one begins its scan with the two
reads of index 0 (R71, R149 to R151, R158). RECOVERY_RESULT is posted where the notice queue has room; that it is posted
ahead of the notices of writes re-examined at the same return to UNRECOVERED or entry into IDLE, and so keeps the one
place left with 15 records held, is the model's reading, log entry 7. -/
def Obligations.HeadersAreRead : Prop :=
  ∀ (s : State) (i : LinkNo) (lr : LinkRec) (why : HdrReader) (c : Copy) (a b : HdrRead) (d : CellData),
    s.mport.slots[i] = .busy lr → lr.op = .headerRead c → lr.wanted = true →
    s.eng.op = .headerReads why a b → Running s →
    let a' : HdrRead := if c = .a then .got d else a
    let b' : HdrRead := if c = .b then .got d else b
    let freed : State := { s with mport := s.mport.freed i }
    let tells (cls : EvClass) (n : NoticeBody) (t : State) : Prop := classPending cls t.ev = true ∧
      (s.ev.notices.length < 16 → ∃ more, t.ev.notices = s.ev.notices ++ more ∧ ∃ x ∈ more, x.body = n)
    let ends (n : NoticeBody) (t : State) : Prop :=
      t.untouched = { s.untouched with engine := { s.eng.steady with state := .unrecovered } } ∧
        t.eng.walk = Walk.absent ∧ tells .fault n t
    (∃ t, exec (.mportAnswer i .error) s = .next t ∧
      ends (.recoveryResult (.headerReadFault (slotAddr s.cfg (if c = .a then 0 else 1)))) t) ∧
    (∃ t, exec (.mportAnswer i (.ok d)) s = .next t ∧
      (AtRest s → (∀ x, a' ≠ .got x) ∨ (∀ x, b' ≠ .got x) →
        t = { freed with eng := { s.eng with op := .headerReads why a' b' } }) ∧
      (∀ x y, a' = .got x → b' = .got y → currentHeader s.cfg.jslots x y = none →
        ends (.recoveryResult .noValidHeader) t) ∧
      (∀ x y, a' = .got x → b' = .got y → ∀ cur, currentHeader s.cfg.jslots x y = some cur →
        let h : CellData := if cur = .a then x else y
        let adopted : Engine := { s.eng with
          journalId := hdrJournalId h, epoch := hdrEpoch h, generation := hdrGeneration h
          nextCopy := if cur = .a then .b else .a, nextEpoch := nextAfter (hdrEpoch h) }
        (why = .discard → t.untouched = { s.untouched with engine := adopted.steady } ∧
          WritesHeader t .discard adopted ∧ (AtRest s → SendsHeader freed t .discard adopted)) ∧
        (why = .recover → fieldOf h 3 = 1 →
          t.untouched = { s.untouched with
            filter := []
            engine := { adopted.steady with
              state := .idle, nextIndex := 0, durableCount := 0, deadlineLeft := 0
              deadlineRunning := false, closeKind := none, openNumber := none } } ∧
          tells .epochDone (.recoveryResult .clean) t) ∧
        (why = .recover → fieldOf h 3 ≠ 1 → t.untouched = { s.untouched with engine := adopted.steady } ∧
          t.eng.op = .recordReads none none ∧
          t.eng.walk = { s.eng.walk with phase := some .scan, index := some 0 } ∧
          (AtRest s → ReadsRecord freed t (.scanRead 0) 0))))

/-- The two slots of a record are read, in either order. After the first OK the other read is waited for; with both the
record is tested. Restoring, a valid record goes on to its restoration write and an invalid one stalls the walk
RECORD_INVALID. Scanning, a valid one goes on to the next index, or, at the last, ends the scan with all records found;
an invalid one ends it with the records before it, and the restore walk begins at the highest of them. An ERROR stalls
the walk READ_FAULT. A stall posts WALK_STALL with the address of the record's header slot and the index, where the
notice queue has room (R67, R138, R139, R142, R151, R153, R155). -/
def Obligations.RecordIsTested : Prop :=
  ∀ (s : State) (i : LinkNo) (lr : LinkRec) (k : Nat) (half : RecHalf) (h d : Option CellData)
    (bytes : CellData),
    s.mport.slots[i] = .busy lr → (lr.op = .scanRead k half ∨ lr.op = .restoreRead k half) →
    lr.wanted = true → s.eng.op = .recordReads h d → Running s →
    let h' := if half = .header then some bytes else h
    let d' := if half = .data then some bytes else d
    let w := s.eng.walk
    let freed : State := { s with mport := s.mport.freed i }
    let capacity := (s.cfg.jslots.toNat - 2) / 2
    let stalls (c : StallCause) (t : State) : Prop := t.eng.state = .stalled ∧
      t.eng.walk = { w with stall := some c } ∧ classPending .stall t.ev = true ∧
      (s.ev.notices.length < 16 → ∃ more, t.ev.notices = s.ev.notices ++ more ∧ ∃ n ∈ more,
        n.body = .walkStall (slotAddr s.cfg (2 + 2 * k)) w.index (w.kind.getD .rollback)
          (w.phase.getD .restore) c)
    let found (n : Nat) (t : State) : Prop := w.kind = some .recovery →
      (n = 0 → WritesHeader t .walkFinal s.eng ∧ (AtRest s → SendsHeader freed t .walkFinal s.eng) ∧
        t.eng.walk = { w with scanCount := some 0, phase := some .final, index := none }) ∧
      (∀ m, n = m + 1 → t.eng.op = .recordReads none none ∧
        t.eng.walk = { w with scanCount := some n, phase := some .restore, index := some m } ∧
        (AtRest s → ReadsRecord freed t (.restoreRead m) m))
    (∃ t, exec (.mportAnswer i .error) s = .next t ∧ stalls .readFault t) ∧
    (∃ t, exec (.mportAnswer i (.ok bytes)) s = .next t ∧
      (AtRest s → h' = none ∨ d' = none → t = { freed with eng := { s.eng with op := .recordReads h' d' } }) ∧
      (∀ x y, h' = some x → d' = some y → w.phase ≠ some .scan →
        (recordValid s.eng.journalId s.eng.epoch k x y = false → stalls .recordInvalid t) ∧
        (recordValid s.eng.journalId s.eng.epoch k x y = true → t.untouched = s.untouched ∧ t.eng.walk = w ∧
          (t.eng.op = .restoreWait (recordCell x) y ∨ t.eng.op = .restoreIssued (recordCell x)) ∧
          (AtRest s → s.eng.restoreOut = 0 → staleForwardTo s.mport (recordCell x) = false →
            t.eng.op = .restoreIssued (recordCell x) ∧
              Issues freed t (.restoreWrite (recordCell x) y) (cellAddr (recordCell x))) ∧
          (AtRest s → s.eng.restoreOut ≠ 0 ∨ staleForwardTo s.mport (recordCell x) = true →
            t.eng.op = .restoreWait (recordCell x) y ∧ t.mport = freed.mport))) ∧
      (∀ x y, h' = some x → d' = some y → w.phase = some .scan → t.untouched = s.untouched ∧
        (recordValid s.eng.journalId s.eng.epoch k x y = true →
          (k + 1 < capacity → t.eng.op = .recordReads none none ∧
            t.eng.walk = { w with index := some (k + 1) } ∧
            (AtRest s → ReadsRecord freed t (.scanRead (k + 1)) (k + 1))) ∧
          (capacity ≤ k + 1 → found (k + 1) t)) ∧
        (recordValid s.eng.journalId s.eng.epoch k x y = false → found k t)))

/-- A restoration write answered OK takes the walk to the two reads of the next lower index, or to its final header
below index 0; an ERROR stalls it WRITE_FAULT with the cell's address (R138, R140, R142). -/
def Obligations.RestorationIsAnswered : Prop :=
  ∀ (s : State) (i : LinkNo) (lr : LinkRec) (k : Nat) (cell cell' : CellIx) (bytes d : CellData),
    s.mport.slots[i] = .busy lr → lr.op = .restoreWrite cell bytes → lr.wanted = true →
    s.eng.op = .restoreIssued cell' → s.eng.walk.index = some k → Running s →
    (∃ t, exec (.mportAnswer i (.ok d)) s = .next t ∧ t.untouched = s.untouched ∧
      (∀ m, k = m + 1 → t.eng.op = .recordReads none none ∧
        t.eng.walk = { s.eng.walk with phase := some .restore, index := some m } ∧
        (AtRest s → ReadsRecord { s with mport := s.mport.freed i } t (.restoreRead m) m)) ∧
      (k = 0 → WritesHeader t .walkFinal s.eng ∧
        (AtRest s → SendsHeader { s with mport := s.mport.freed i } t .walkFinal s.eng) ∧
        t.eng.walk = { s.eng.walk with phase := some .final, index := none })) ∧
    (∃ t, exec (.mportAnswer i .error) s = .next t ∧ t.eng.state = .stalled ∧
      t.eng.walk = { s.eng.walk with stall := some .writeFault } ∧ classPending .stall t.ev = true ∧
      (s.ev.notices.length < 16 → ∃ more, t.ev.notices = s.ev.notices ++ more ∧ ∃ n ∈ more,
        n.body = .walkStall (cellAddr cell) (some k) (s.eng.walk.kind.getD .rollback)
          (s.eng.walk.phase.getD .restore) .writeFault))

/-- What the engine does for itself once it may. A drain that is complete goes on to the ending header or to the
restore walk, with the two reads of its highest index. A header write that no earlier write to its copy holds back is
issued, with the STATE and EPOCH of its purpose, and counted; so is a restoration write, with no earlier one outstanding
and no stale forward to its cell left; of the header reads that waited, those that may be issued are. Where it may not
go on, a state at rest stays as it is (R76, R78, R87, R90, R92, R93, R98, R135, R138, R139, R141, R158, R159, R195). That
these rows act only where their condition holds is the model's reading, log entry 3. -/
def Obligations.EngineGoesOn : Prop :=
  ∀ s : State, Running s →
    let w := s.eng.walk
    let total := if w.kind = some .recovery then w.scanCount.getD 0 else s.eng.durableCount
    let closing : HdrPurpose := if s.eng.closeKind = some .commitOpen then .closeCommitOpen else .closeCommit
    (s.eng.op = .draining → Drained s →
      ∃ t, exec .drainComplete s = .next t ∧ t.untouched = s.untouched ∧
        (s.eng.state = .closing →
          WritesHeader t closing s.eng ∧ (Clear s → SendsHeader s t closing s.eng)) ∧
        (s.eng.state ≠ .closing → total = 0 → WritesHeader t .walkFinal s.eng ∧
          (Clear s → SendsHeader s t .walkFinal s.eng) ∧
          t.eng.walk = { w with phase := some .final, index := none }) ∧
        (s.eng.state ≠ .closing → ∀ k, total = k + 1 → t.eng.op = .recordReads none none ∧
          t.eng.walk = { w with phase := some .restore, index := some k } ∧
          (Clear s → ReadsRecord s t (.restoreRead k) k))) ∧
    (∀ why, s.eng.op = .headerWrite why false → s.eng.hdrOut s.eng.nextCopy = 0 → Clear s →
      ∃ t, exec .headerAccessIssue s = .next t ∧
        Issues s t (.headerWrite s.eng.nextCopy (headerFor why s.eng s.cfg.jslots))
          (headerAddr s.cfg s.eng.nextCopy) ∧
        t = { s with
          eng := Engine.mapHdrOut (· + 1) s.eng.nextCopy { s.eng with op := .headerWrite why true }
          mport := t.mport, choices := t.choices }) ∧
    (∀ why a b, s.eng.op = .headerReads why a b → Clear s →
      let goA := a = .waiting ∧ s.eng.hdrOutA = 0
      let goB := b = .waiting ∧ s.eng.hdrOutB = 0
      goA ∨ goB →
      ∃ t, exec .headerAccessIssue s = .next t ∧
        (goA → ¬ goB → Issues s t (.headerRead .a) (headerAddr s.cfg .a)) ∧
        (goB → ¬ goA → Issues s t (.headerRead .b) (headerAddr s.cfg .b)) ∧
        (goA → goB →
          RequestsPair s t (.headerRead .a, headerAddr s.cfg .a) (.headerRead .b, headerAddr s.cfg .b)) ∧
        t = { s with
          eng := { s.eng with
            op := .headerReads why (if goA then .requested else a) (if goB then .requested else b) }
          mport := t.mport, choices := t.choices }) ∧
    (∀ cell bytes, s.eng.op = .restoreWait cell bytes → s.eng.restoreOut = 0 →
      staleForwardTo s.mport cell = false → Clear s →
      ∃ t, exec .restoreWriteIssue s = .next t ∧ Issues s t (.restoreWrite cell bytes) (cellAddr cell) ∧
        t = { s with
          eng := { s.eng with op := .restoreIssued cell, restoreOut := s.eng.restoreOut + 1 }
          mport := t.mport, choices := t.choices }) ∧
    (AtRest s → exec .drainComplete s = .next s ∧ exec .headerAccessIssue s = .next s ∧
      exec .restoreWriteIssue s = .next s)

/-- The two slot writes of a queued record, not yet requested and neither slot an orphan's, are requested
together, in either order, and issued as far as link slots are FREE, with the bytes of the record's header
and data; the others wait. A record with no slot write to request, or none of this index, changes nothing in a state
at rest, the model's choice, log entry 2 (R46, R47, R67, R164). -/
def Obligations.SlotWritesAreRequested : Prop :=
  ∀ (s : State) (r : RecElem), Running s →
    (s.mport.queue = [] → s.host.link = [] →
      (s.eng.op = .none) → s.pres.queue.find? (fun x => x.index == r.index) = some r →
      r.requested = false → recordSlot r.index .header ∉ s.pres.orphans →
      recordSlot r.index .data ∉ s.pres.orphans →
      (∀ x ∈ s.pres.queue, x.index ≠ r.index → x.requested = true) →
      ∃ t, exec (.recordSlotWritesRequest r.index) s = .next t ∧
        t = { s with
          pres := { s.pres with
            queue := s.pres.queue.map (fun x => if x.index = r.index then { x with requested := true } else x) }
          mport := t.mport, choices := t.choices } ∧
        WritesRecord s t r) ∧
    (∀ k, AtRest s → exec (.recordSlotWritesRequest k) s = .next s)

/-- A grant gives the oldest request the one FREE link slot, or, waiting alone, one of several: BUSY with its record,
its time, and L as RESP_LIMIT stands; header and restoration writes are counted, and the younger requests wait on in
their order. A FORWARD_WRITE whose cell now lies in the journal area is not issued: waiting alone, its write, alone in
its cell, is answered DENIED and the link slot stays FREE. Nor is a RESTORE_WRITE while an earlier restoration write is
outstanding or a forward to its cell stands stale: the engine waits, and the link slot goes to the next request, if any
(R9, R78, R139, R163, R164, R168). That such a restoration leaves the queue, to ask again when it may, is the model's
choice, log entry 26. -/
def Obligations.OldestRequestIsGranted : Prop :=
  ∀ (s : State) (r : MemRequest) (rest : List MemRequest), Running s → s.mport.queue = r :: rest →
    s.host.link = [] → freeSlots s.mport ≠ [] →
    settled { s with mport := { s.mport with queue := [] } } = true →
    let inArea (cell : CellIx) := inJournalArea s.cfg cell = true
    let held (cell : CellIx) := s.eng.restoreOut ≠ 0 ∨ staleForwardTo s.mport cell = true
    let grantable (x : MemRequest) := (∀ tag cell st bytes, x.op = .forwardWrite tag cell st bytes → ¬ inArea cell) ∧
      (∀ cell bytes, x.op = .restoreWrite cell bytes → ¬ held cell)
    let grants (u : State) (x : MemRequest) (left : List MemRequest) : Prop := ∃ t, exec .mportGrant s = .next t ∧
      IssuesLeaving u t x.op x.addr (left.map (fun y => { y with fresh := false })) ∧
      t = { u with
        eng := match x.op with
          | .headerWrite c _ => Engine.mapHdrOut (· + 1) c u.eng
          | .restoreWrite _ _ => { u.eng with restoreOut := u.eng.restoreOut + 1 }
          | _ => u.eng
        mport := t.mport, choices := t.choices }
    (grantable r → rest = [] ∨ (freeSlots s.mport).length = 1 → grants s r rest) ∧
    (∀ e cell st bytes, r.op = .forwardWrite e.tag cell st bytes → inArea cell → rest = [] →
      entryOf s e.tag = some e → e.stage = .issued → Alone s e → s.eng.op ≠ .draining →
      exec .mportGrant s = .next (report .protect (.denied e.addr e.tag .journalArea) { s with
        host := { s.host with out := s.host.out ++ [⟨e.tag, .denied⟩] }
        table := s.table.filter (fun x => x.tag != e.tag)
        mport := { s.mport with queue := [] } })) ∧
    (∀ cell bytes, r.op = .restoreWrite cell bytes → s.eng.op = .restoreIssued cell → held cell →
      let waiting : State := { s with
        eng := { s.eng with op := .restoreWait cell bytes }, mport := { s.mport with queue := [] } }
      (rest = [] → exec .mportGrant s = .next waiting) ∧
      (∀ x more, rest = x :: more → (∀ cell bytes, x.op ≠ .restoreWrite cell bytes) → grantable x →
        more = [] ∨ (freeSlots s.mport).length = 1 → grants waiting x more))

/-- Response timers and quarantines: at L a BUSY link slot becomes STALE keeping its record, and a FORWARD_READ
alone in its cell is answered as by an ERROR; at 2L a STALE one is freed, and a late answer frees it too, delivering
nothing and, in a state at rest with nothing waiting, reporting only that the transaction has left. In a state at rest
that meets the invariants, every entry past its decision and the engine waiting for no leave, a TIMEOUT of every kind
does what an ERROR does, but for the link slot, its counts and its orphan, which wait for the release. A release that
ends a wait lets go on what waited: the read WAITING in the cell, the record, the header write with the bytes of its
purpose, the restoration (R22, R47, R61, R76 to R78, R139, R165 to R167). A slot not due is left as it is, and an answer that names a FREE link slot does
nothing. That a command for a timer not due does nothing is the model's choice, log entry 2. -/
def Obligations.LinkSlotTimers : Prop :=
  ∀ (s : State) (i : LinkNo) (lr : LinkRec) (a : Answer),
    let late := (s.clock.timebase - lr.issued).toNat
    let runs := s.cfg.tickdiv ≠ 0
    (s.mport.slots[i] = .free → exec (.answerToFreeLinkSlot i a) s = .next s) ∧
    (s.mport.slots[i] = .busy lr → ¬ (runs ∧ lr.limit.toNat ≤ late) →
      exec (.responseTimeout i) s = .next s) ∧
    (s.mport.slots[i] = .stale lr → ¬ (runs ∧ 2 * lr.limit.toNat ≤ late) →
      exec (.quarantineEnd i) s = .next s) ∧
    (s.mport.slots[i] = .busy lr → Running s → runs → lr.limit.toNat ≤ late →
      (∃ t lr', exec (.responseTimeout i) s = .next t ∧ t.mport.slots[i] = .stale lr' ∧
        lr' = { lr with wanted := lr'.wanted }) ∧
      (∀ e cell f n, lr.op = .forwardRead e.tag cell f n → lr.wanted = true → AtRest s →
        entryOf s e.tag = some e → e.stage = .issued → Alone s e → s.eng.op ≠ .draining →
        exec (.responseTimeout i) s =
          .next (report .fault (.forwardFault e.addr e.tag .forwardRead) { s with
            host := { s.host with out := s.host.out ++ [⟨e.tag, .failed⟩] }
            table := s.table.filter (fun x => x.tag != e.tag)
            mport := { s.mport with slots := s.mport.slots.set i (.stale lr) } })) ∧
      (lr.wanted = true → AtRest s → Inv s →
        (∀ e ∈ s.table, e.stage = .fetchingOld ∨ e.stage = .recording ∨ e.stage = .issued ∨
          e.stage = .finishing) →
        s.eng.op ≠ .draining → (∀ why, s.eng.op ≠ .headerWrite why false) →
        (∀ why x y, s.eng.op = .headerReads why x y → x ≠ .waiting ∧ y ≠ .waiting) →
        (∀ cell bytes, s.eng.op ≠ .restoreWait cell bytes) →
        ∃ t u, exec (.responseTimeout i) s = .next t ∧ exec (.mportAnswer i .error) s = .next u ∧
          t = { u with
            mport := t.mport
            pres := { u.pres with orphans := t.pres.orphans }
            eng := { u.eng with
              hdrOutA := s.eng.hdrOutA, hdrOutB := s.eng.hdrOutB, restoreOut := s.eng.restoreOut } } ∧
          t.pres.orphans.Perm (match lr.op with
            | .slotWrite k half _ => recordSlot k half :: u.pres.orphans
            | _ => u.pres.orphans) ∧
          u.mport.slots[i] = .free ∧ t.mport = { u.mport with slots := u.mport.slots.set i t.mport.slots[i] })) ∧
    (s.mport.slots[i] = .stale lr → Running s → s.mport.queue = [] → s.host.link = [] → s.eng.op ≠ .draining →
      let left : State := { s with
        mport := s.mport.freed i
        pres := { s.pres with orphans := match lr.op with
          | .slotWrite k half _ => s.pres.orphans.erase (recordSlot k half)
          | _ => s.pres.orphans }
        eng := match lr.op with
          | .headerWrite c _ => Engine.mapHdrOut (· - 1) c s.eng
          | .restoreWrite _ _ => { s.eng with restoreOut := s.eng.restoreOut - 1 }
          | _ => s.eng }
      let releases (p : State → Prop) : Prop := ∃ t, exec (.staleLateAnswer i a) s = .next t ∧
        (runs → 2 * lr.limit.toNat ≤ late → exec (.quarantineEnd i) s = .next t) ∧ p t
      let nothingWaits := ∀ x ∈ s.table, x.stage ≠ .waiting
      let allRequested := ∀ x ∈ s.pres.queue, x.requested = true
      (s.eng.op = .none → allRequested → nothingWaits → releases (fun t => t = left)) ∧
      (∀ e, s.eng.op = .none → allRequested → TableOk s → e ∈ s.table → e.stage = .waiting →
        lr.op.isWriteTo e.cell = true → staleWriteTo left.mport e.cell = false →
        s.table.find? (fun x => x.cell == e.cell) = some e →
        (∀ x ∈ s.table, x.cell = e.cell → x.stage = .waiting) →
        e.kind = .read → ¬ (e.cls = .journal ∧
          (s.eng.state = .rolling ∨ s.eng.state = .recovering ∨ s.eng.state = .stalled)) →
        releases (fun t => Issues left t (.forwardRead e.tag e.cell e.first e.count) e.addr ∧
          t = { left with
            table := s.table.map (fun x => if x.tag = e.tag then { e with stage := .issued } else x)
            mport := t.mport, choices := t.choices })) ∧
      (∀ r, s.eng.op = .none → nothingWaits → s.pres.queue.find? (fun x => x.index == r.index) = some r →
        r.requested = false → recordSlot r.index .header ∉ left.pres.orphans →
        recordSlot r.index .data ∉ left.pres.orphans →
        (∀ x ∈ s.pres.queue, x.index ≠ r.index → x.requested = true) →
        releases (fun t => WritesRecord left t r ∧
          t = { left with
            pres := { left.pres with
              queue := s.pres.queue.map (fun x =>
                if x.index = r.index then { x with requested := true } else x) }
            mport := t.mport, choices := t.choices })) ∧
      (∀ why, s.eng.op = .headerWrite why false → allRequested → nothingWaits →
        left.eng.hdrOut s.eng.nextCopy = 0 →
        releases (fun t => t.eng = Engine.mapHdrOut (· + 1) s.eng.nextCopy
            { left.eng with op := .headerWrite why true } ∧
          t = { left with eng := t.eng, mport := t.mport, choices := t.choices } ∧
          Issues left t (.headerWrite s.eng.nextCopy (headerFor why s.eng s.cfg.jslots))
            (headerAddr s.cfg s.eng.nextCopy))) ∧
      (∀ cell bytes, s.eng.op = .restoreWait cell bytes → allRequested → nothingWaits →
        left.eng.restoreOut = 0 → staleForwardTo left.mport cell = false →
        releases (fun t => Issues left t (.restoreWrite cell bytes) (cellAddr cell) ∧
          t = { left with
            eng := { left.eng with op := .restoreIssued cell, restoreOut := left.eng.restoreOut + 1 }
            mport := t.mport, choices := t.choices })))

/-! ### Watch rules -/

/-- Each condition, bit by bit: IGNORE and the codes that name no condition take no part; the others look at the
old and the new value of the bit as the table gives. MODE combines the bits: ALL matches when some bit is considered
and every considered bit satisfies its condition; ANY and FIRST when some bit satisfies its condition, FIRST always
reporting the lowest; the code that names no mode never, and no mode when every bit is IGNORE (R117, R118). -/
def Obligations.WatchConditionsAndModes : Prop :=
  (∀ (old new : Bool),
    (satisfied 0 old new = false ∧ considered 0 = false) ∧
    (satisfied 1 old new = (old != new) ∧ considered 1 = true) ∧
    (satisfied 2 old new = !new ∧ considered 2 = true) ∧
    (satisfied 3 old new = new ∧ considered 3 = true) ∧
    (satisfied 4 old new = (old && !new) ∧ considered 4 = true) ∧
    (satisfied 5 old new = (!old && new) ∧ considered 5 = true) ∧
    (satisfied 6 old new = false ∧ considered 6 = false) ∧
    (satisfied 7 old new = false ∧ considered 7 = false)) ∧
  ∀ (r : WatchRule) (old new : W64),
    let code (b : Fin 64) : BitVec 3 := r.conds.extractLsb' (3 * b.val) 3
    let sat (b : Fin 64) : Bool := satisfied (code b) (old.getLsbD b.val) (new.getLsbD b.val)
    let cons (b : Fin 64) : Bool := considered (code b)
    (r.mode = 0 → (r.compare old new = .matched none ↔
      (∃ b, cons b = true) ∧ ∀ b, cons b = true → sat b = true)) ∧
    (r.mode = 1 → (r.compare old new = .matched none ↔ ∃ b, cons b = true ∧ sat b = true)) ∧
    (r.mode = 2 → ∀ b, r.compare old new = .matched (some b) ↔
      cons b = true ∧ sat b = true ∧ ∀ c, c < b → sat c = false) ∧
    (r.mode = 2 → r.compare old new ≠ .matched none) ∧
    (r.mode = 3 → r.compare old new = .noMatch) ∧
    ((∀ b, cons b = false) → r.compare old new = .noMatch) ∧
    (∀ x, r.compare old new = .matched (some x) → r.mode = 2)

/-- The rules of a write's WATCHED set are evaluated one after another in its order, each on the state the ones before
it left, their actions gathered in that order. A rule that matches, is enabled and still watches a word the write
touches: ARMED, it counts, posts WATCH_FIRED with the word's old and new values, sets class WATCH, asks for its ACTION,
and becomes FIRED unless REARM_MODE is AUTO; FIRED, it counts, reports its first overrun only, and asks for nothing. A
rule that does not match, is passed over or is DISARMED changes nothing. The new value of the cell has the write's byte
where its enable is set and the old byte elsewhere (R115, R119, R120, R121). -/
def Obligations.WatchRuleFires : Prop :=
  (∀ (old new : CellData) (st : Strobes) (j : Fin 64),
    (mergeCell old new st).extractLsb' (8 * j.val) 8 =
      if st.getLsbD j.val then new.extractLsb' (8 * j.val) 8 else old.extractLsb' (8 * j.val) 8) ∧
  (∀ (s : State) (e : Entry) (old : CellData),
    (e.watched = [] → evaluate e old s = (s, [])) ∧
    (∀ n rest, e.watched = n :: rest →
      let first := evaluate { e with watched := [n] } old s
      let others := evaluate { e with watched := rest } old first.1
      evaluate e old s = (others.1, first.2 ++ others.2))) ∧
  ∀ (s : State) (e : Entry) (n : RuleNo) (old : CellData), e.watched = [n] →
    let r := s.rules[n]
    let before := wordOf old (r.waddr.extractLsb' 0 3).toNat
    let after := wordOf (mergeCell old e.data e.strobes) (r.waddr.extractLsb' 0 3).toNat
    let addr : Addr := r.waddr ++ 0#3
    let hits := if r.hits = 65535 then r.hits else r.hits + 1
    let touched := r.enable = true ∧ r.waddr.extractLsb' 3 30 = e.cell ∧
      ∃ j : Fin 8, e.strobes.getLsbD (8 * (r.waddr.extractLsb' 0 3).toNat + j.val) = true
    (∀ bit, touched → r.compare before after = .matched bit → r.state = .armed →
      evaluate e old s = (report .watch (.watchFired n addr e.tag before after bit) { s with
          rules := s.rules.set n { r with hits := hits, state := if r.rearmAuto then .armed else .fired } },
        [(r.action, n)])) ∧
    (∀ bit, touched → r.compare before after = .matched bit → r.state = .fired → r.overrun = false →
      evaluate e old s = (report .watch (.watchOverrun n addr e.tag) { s with
          rules := s.rules.set n { r with hits := hits, overrun := true } }, [])) ∧
    (∀ bit, touched → r.compare before after = .matched bit → r.state = .fired → r.overrun = true →
      evaluate e old s = ({ s with rules := s.rules.set n { r with hits := hits } }, [])) ∧
    (¬ touched ∨ r.compare before after = .noMatch ∨ r.state = .disarmed → evaluate e old s = (s, []))

/-- The merge of the actions that fired for a write, given in ascending rule number: REFUSE if any rule asked for
it; else ABORT, else COMMIT_OPEN, else COMMIT, with the lowest-numbered rule that asked for it; else nothing
(R125). -/
def Obligations.MergeTakesTheStrongest : Prop :=
  ∀ asked : List Asked, asked.Pairwise (fun a b => a.2 < b.2) →
    let asks (code : BitVec 3) : Prop := ∃ r, (code, r) ∈ asked
    let lowest (code : BitVec 3) (r : RuleNo) : Prop := (code, r) ∈ asked ∧ ∀ x, (code, x) ∈ asked → r ≤ x
    (asks 1 → merge asked = .refuse) ∧
    (∀ r, ¬ asks 1 → lowest 4 r → merge asked = .act .abort r) ∧
    (∀ r, ¬ asks 1 → ¬ asks 4 → lowest 3 r → merge asked = .act .commitOpen r) ∧
    (∀ r, ¬ asks 1 → ¬ asks 4 → ¬ asks 3 → lowest 2 r → merge asked = .act .commit r) ∧
    (¬ asks 1 → ¬ asks 4 → ¬ asks 3 → ¬ asks 2 → merge asked = .pass)

/-! ### Events and registers -/

/-- Posting: with fewer than 16 records held the notice joins the tail with TIME and EPOCH as they stand; with 16
it is dropped and class NOTICE_LOST is set. A report also sets its class, whatever becomes of the notice, and
nothing else changes. The eleven classes have the flags of EVENT_PENDING in their order, from FAULT in bit 0 to
EPOCH_DONE in bit 10 (R174, R175, R179, R180, R191). -/
def Obligations.NoticesJoinOrAreLost : Prop :=
  ∀ (s : State) (b : NoticeBody) (c : EvClass) (k : Fin 11),
    let order : Vector EvClass 11 := #v[.fault, .stall, .power, .deadline, .journalFull, .holdExpired,
      .noticeLost, .watch, .protect, .bare, .epochDone]
    order[k] = c →
    let n : Notice := { time := s.clock.timebase, epoch := s.eng.epoch, body := b }
    let flag : BitVec 11 := 1#11 <<< k.val
    let lost : BitVec 11 := 1#11 <<< 6
    (classPending c s.ev = s.ev.flags.getLsbD k.val) ∧
    (Running s → readReg s 0x058 = s.ev.flags.setWidth 32) ∧
    (s.ev.notices.length < 16 →
      post b s = { s with ev := { s.ev with notices := s.ev.notices ++ [n] } } ∧
      report c b s = { s with ev := { s.ev with
        notices := s.ev.notices ++ [n], flags := s.ev.flags ||| flag } }) ∧
    (16 ≤ s.ev.notices.length →
      post b s = { s with ev := { s.ev with flags := s.ev.flags ||| lost } } ∧
      report c b s = { s with ev := { s.ev with flags := s.ev.flags ||| lost ||| flag } })

/-- CURRENT_CLASS names, of the classes pending with LEVEL 1 to 3, one of the highest LEVEL, and of several at
that level the first in order; with none pending so it reads NONE. It does not depend on EVENT_ENABLE. The EVT
line is asserted exactly while EVENT_ENABLE is 1 and some class is pending with LEVEL 1 to 3 (R176, R177). -/
def Obligations.CurrentClassIsTheMostUrgent : Prop :=
  ∀ (s : State) (c : Fin 11), Running s →
    let level (i : Fin 11) : Nat := (s.ev.levels.extractLsb' (2 * i.val) 2).toNat
    let calls (i : Fin 11) : Prop := s.ev.flags.getLsbD i.val = true ∧ 1 ≤ level i
    (readReg s 0x05C = BitVec.ofNat 32 (c.val + 1) ↔
      calls c ∧ ∀ i, calls i → level i < level c ∨ (level i = level c ∧ c ≤ i)) ∧
    (readReg s 0x05C = 0 ↔ ∀ i, ¬ calls i) ∧
    (evtLine s = true ↔ s.cfg.eventEnable = true ∧ ∃ i, calls i)

/-- What is written to a configuration register reads back, the bits it does not define as 0; the halves of JBASE
in UNRECOVERED with nothing outstanding, the registers of a guard entry or watch rule while it is not in use, with the
state, OVERRUN and HITS of a rule beside its control fields. STATUS, the counters, the walk values, the occupancies,
CMD_RESULT and the timebase show the values as they stand (R184 to R187, R189, R191, R192). That DSEL reads back also
while the notice queue is empty is the model's reading, log entry 16. -/
def Obligations.RegistersReadBack : Prop :=
  ∀ (v : W32) (s : State), Running s →
    let reads (c : Instr) (off : BitVec 10) (want : W32) : Prop :=
      ∃ t, exec c s = .next t ∧ readReg t off = want
    let shows (off : BitVec 10) (p : Option Nat) : Prop := readReg s off = match p with
      | none => 0
      | some n => 1#1 ++ 0#11 ++ BitVec.ofNat 20 n
    let status := readReg s 0x020
    let occupancy := readReg s 0x050
    let result := readReg s 0x034
    reads (.config0Write v) 0x004 (v &&& 0x1FFF#32) ∧
    reads (.respLimitWrite v) 0x008 (v &&& 0xFFFF#32) ∧
    reads (.holdLimitWrite v) 0x00C (v &&& 0xFFFF#32) ∧
    reads (.registerWrite .deadline v) 0x010 (v &&& 0xFFFFFF#32) ∧
    reads (.registerWrite .arg v) 0x030 v ∧
    (∃ t, exec (.registerWrite .nh0 v) s = .next t ∧
      (readReg t 0x070).extractLsb' 25 2 = v.extractLsb' 25 2) ∧
    reads (.eventLevelWrite v) 0x054 (v &&& 0x3FFFFF#32) ∧
    (s.eng.state = .unrecovered → geometryBlocked s.mport = false →
      reads (.geometryWrite .jbaseLo v) 0x014 (v &&& 0xFFFFFFC0#32) ∧
      reads (.geometryWrite .jbaseHi v) 0x018 (v &&& 0xF#32) ∧
      reads (.geometryWrite .jslots v) 0x01C v) ∧
    (∀ n : Fin 16, s.guards[n].valid = false →
      reads (.guardAWrite n v) (BitVec.ofNat 10 (0x100 + 8 * n.val)) v ∧
      reads (.guardBWrite n v) (BitVec.ofNat 10 (0x104 + 8 * n.val)) v) ∧
    (∀ (n : RuleNo) (k : Fin 6), s.rules[n].enable = false →
      reads (.waddrWrite n .lo v) (BitVec.ofNat 10 (0x200 + 64 * n.val)) (v &&& 0xFFFFFFF8#32) ∧
      reads (.waddrWrite n .hi v) (BitVec.ofNat 10 (0x204 + 64 * n.val)) (v &&& 0xF#32) ∧
      reads (.condWrite n k v) (BitVec.ofNat 10 (0x208 + 64 * n.val + 4 * k.val)) v) ∧
    (∀ n : RuleNo, s.rules[n].enable = false →
      ∃ t, exec (.wctlWrite n v) s = .next t ∧
        let wctl := readReg t (BitVec.ofNat 10 (0x220 + 64 * n.val))
        wctl.extractLsb' 0 7 = v.extractLsb' 0 7) ∧
    (∀ n : RuleNo,
      let r := s.rules[n]
      let wctl := readReg s (BitVec.ofNat 10 (0x220 + 64 * n.val))
      wctl.getLsbD 0 = r.enable ∧ wctl.extractLsb' 1 2 = r.mode ∧ wctl.extractLsb' 3 3 = r.action ∧
      wctl.getLsbD 6 = r.rearmAuto ∧ wctl.getLsbD 7 = false ∧
      (wctl.extractLsb' 8 2).toNat = (match r.state with
        | .disarmed => 0
        | .armed => 1
        | .fired => 2) ∧
      wctl.getLsbD 10 = r.overrun ∧ wctl.extractLsb' 11 5 = 0 ∧ wctl.extractLsb' 16 16 = r.hits) ∧
    (status.extractLsb' 0 4).toNat = (match s.eng.state with
      | .unrecovered => 0
      | .idle => 1
      | .opening => 2
      | .opened => 3
      | .closing => 4
      | .faulted => 5
      | .rolling => 6
      | .recovering => 7
      | .stalled => 8) ∧
    (status.extractLsb' 4 2).toNat = (match s.eng.walk.kind with
      | none => 0
      | some .rollback => 1
      | some .recovery => 2) ∧
    (status.extractLsb' 6 2).toNat = (match s.eng.walk.phase with
      | none => 0
      | some .scan => 1
      | some .restore => 2
      | some .final => 3) ∧
    (status.extractLsb' 8 3).toNat = (match s.eng.walk.stall with
      | none => 0
      | some .readFault => 1
      | some .recordInvalid => 2
      | some .writeFault => 3
      | some .headerFault => 4) ∧
    status.extractLsb' 11 5 = 0 ∧ status.getLsbD 16 = s.port.configError ∧ status.getLsbD 17 = s.host.pfw ∧
    (status.getLsbD 18 = true ↔ 4 ≤ s.cfg.jslots.toNat ∧ s.cfg.jslots.toNat ≤ 1048576 ∧
      s.cfg.jbaseCell.toNat + s.cfg.jslots.toNat ≤ 1073741824) ∧
    (status.getLsbD 19 = true ↔ s.eng.nextCopy = .b) ∧ status.extractLsb' 20 12 = 0 ∧
    shows 0x024 s.eng.walk.index ∧ shows 0x028 s.eng.walk.scanCount ∧
    result.extractLsb' 0 4 = (if s.port.cmdResult.outcome = .noneTaken then 0 else s.port.cmdResult.code) ∧
    (result.extractLsb' 4 28).toNat = (match s.port.cmdResult.outcome with
      | .noneTaken => 0
      | .accepted => 1
      | .refused .busy => 2 + 4
      | .refused .state => 2 + 8
      | .refused .unconfigured => 2 + 12
      | .empty => 3) ∧
    readReg s 0x038 = s.eng.epoch ∧ readReg s 0x03C = s.eng.generation ∧ readReg s 0x040 = s.eng.journalId ∧
    readReg s 0x044 = 0#12 ++ BitVec.ofNat 20 s.eng.durableCount ∧
    readReg s 0x048 = 0#12 ++ BitVec.ofNat 20 s.eng.nextIndex ∧
    readReg s 0x04C = (if s.eng.deadlineRunning then 0#8 ++ s.eng.deadlineLeft else 0) ∧
    occupancy = 0#4 ++ BitVec.ofNat 4 s.pres.queue.length ++ 0#3 ++ BitVec.ofNat 5 s.table.length ++ 0#4 ++
      BitVec.ofNat 12 s.pres.filter.length ∧
    readReg s 0x060 = 0#27 ++ BitVec.ofNat 5 s.ev.notices.length ∧ readReg s 0x064 = s.clock.timebase ∧
    readReg s 0x000 = 0x5A4A0240#32 ∧ readReg s 0x02C = 0
end

