-- ==== Sys2Proof/Laws/State.lean ====
section
/-! SUPPORT. One equation per field of State for each update of one field, so that no later proof unfolds an
update. -/

namespace Sys2Proof.Machine

variable (s : State)

/-! #### unlessHeld -/

/-- While the part runs a command has its meaning. -/
@[simp] theorem unlessHeld_running {s : State} (h : Running s) (o : Host.Outcome State Fault Refusal) :
    unlessHeld s o = o := if_neg (by rw [h]; exact Bool.false_ne_true)

/-- While a cold reset is held a command does nothing (R193). -/
@[simp] theorem unlessHeld_held {s : State} (h : s.host.resetHeld = true)
    (o : Host.Outcome State Fault Refusal) : unlessHeld s o = .next s := if_pos h

/-- While the part runs a read is a read of the window. -/
@[simp] theorem readReg_running {s : State} (h : Running s) (off : BitVec 10) :
    readReg s off = readWindow s off := if_neg (by rw [h]; exact Bool.false_ne_true)

/-! #### setClass -/

@[simp] theorem setClass_pending (c : EvClass) : (setClass c s).pending = s.pending := rfl
@[simp] theorem setClass_choices (c : EvClass) : (setClass c s).choices = s.choices := rfl
@[simp] theorem setClass_host (c : EvClass) : (setClass c s).host = s.host := rfl
@[simp] theorem setClass_guards (c : EvClass) : (setClass c s).guards = s.guards := rfl
@[simp] theorem setClass_table (c : EvClass) : (setClass c s).table = s.table := rfl
@[simp] theorem setClass_pres (c : EvClass) : (setClass c s).pres = s.pres := rfl
@[simp] theorem setClass_eng (c : EvClass) : (setClass c s).eng = s.eng := rfl
@[simp] theorem setClass_rules (c : EvClass) : (setClass c s).rules = s.rules := rfl
@[simp] theorem setClass_mport (c : EvClass) : (setClass c s).mport = s.mport := rfl
@[simp] theorem setClass_ev (c : EvClass) :
    (setClass c s).ev = { s.ev with flags := s.ev.flags ||| (1#11 <<< c.bit) } := rfl
@[simp] theorem setClass_clock (c : EvClass) : (setClass c s).clock = s.clock := rfl
@[simp] theorem setClass_cfg (c : EvClass) : (setClass c s).cfg = s.cfg := rfl
@[simp] theorem setClass_port (c : EvClass) : (setClass c s).port = s.port := rfl

/-! #### raiseConfigError -/

@[simp] theorem raiseConfigError_pending (b : Bool) : (raiseConfigError b s).pending = s.pending := rfl
@[simp] theorem raiseConfigError_choices (b : Bool) : (raiseConfigError b s).choices = s.choices := rfl
@[simp] theorem raiseConfigError_host (b : Bool) : (raiseConfigError b s).host = s.host := rfl
@[simp] theorem raiseConfigError_guards (b : Bool) : (raiseConfigError b s).guards = s.guards := rfl
@[simp] theorem raiseConfigError_table (b : Bool) : (raiseConfigError b s).table = s.table := rfl
@[simp] theorem raiseConfigError_pres (b : Bool) : (raiseConfigError b s).pres = s.pres := rfl
@[simp] theorem raiseConfigError_eng (b : Bool) : (raiseConfigError b s).eng = s.eng := rfl
@[simp] theorem raiseConfigError_rules (b : Bool) : (raiseConfigError b s).rules = s.rules := rfl
@[simp] theorem raiseConfigError_mport (b : Bool) : (raiseConfigError b s).mport = s.mport := rfl
@[simp] theorem raiseConfigError_ev (b : Bool) : (raiseConfigError b s).ev = s.ev := rfl
@[simp] theorem raiseConfigError_clock (b : Bool) : (raiseConfigError b s).clock = s.clock := rfl
@[simp] theorem raiseConfigError_cfg (b : Bool) : (raiseConfigError b s).cfg = s.cfg := rfl
@[simp] theorem raiseConfigError_port (b : Bool) :
    (raiseConfigError b s).port = { s.port with configError := s.port.configError || b } := rfl

/-! #### respond -/

@[simp] theorem respond_pending (t : Tag) (r : HostResult) : (respond t r s).pending = s.pending := rfl
@[simp] theorem respond_choices (t : Tag) (r : HostResult) : (respond t r s).choices = s.choices := rfl
@[simp] theorem respond_host (t : Tag) (r : HostResult) :
    (respond t r s).host = { s.host with out := s.host.out ++ [{ tag := t, result := r }] } := rfl
@[simp] theorem respond_guards (t : Tag) (r : HostResult) : (respond t r s).guards = s.guards := rfl
@[simp] theorem respond_table (t : Tag) (r : HostResult) : (respond t r s).table = s.table := rfl
@[simp] theorem respond_pres (t : Tag) (r : HostResult) : (respond t r s).pres = s.pres := rfl
@[simp] theorem respond_eng (t : Tag) (r : HostResult) : (respond t r s).eng = s.eng := rfl
@[simp] theorem respond_rules (t : Tag) (r : HostResult) : (respond t r s).rules = s.rules := rfl
@[simp] theorem respond_mport (t : Tag) (r : HostResult) : (respond t r s).mport = s.mport := rfl
@[simp] theorem respond_ev (t : Tag) (r : HostResult) : (respond t r s).ev = s.ev := rfl
@[simp] theorem respond_clock (t : Tag) (r : HostResult) : (respond t r s).clock = s.clock := rfl
@[simp] theorem respond_cfg (t : Tag) (r : HostResult) : (respond t r s).cfg = s.cfg := rfl
@[simp] theorem respond_port (t : Tag) (r : HostResult) : (respond t r s).port = s.port := rfl

/-! #### putEntry -/

@[simp] theorem putEntry_pending (e : Entry) : (putEntry e s).pending = s.pending := rfl
@[simp] theorem putEntry_choices (e : Entry) : (putEntry e s).choices = s.choices := rfl
@[simp] theorem putEntry_host (e : Entry) : (putEntry e s).host = s.host := rfl
@[simp] theorem putEntry_guards (e : Entry) : (putEntry e s).guards = s.guards := rfl
@[simp] theorem putEntry_table (e : Entry) :
    (putEntry e s).table = s.table.map (fun x => if x.tag = e.tag then e else x) := rfl
@[simp] theorem putEntry_pres (e : Entry) : (putEntry e s).pres = s.pres := rfl
@[simp] theorem putEntry_eng (e : Entry) : (putEntry e s).eng = s.eng := rfl
@[simp] theorem putEntry_rules (e : Entry) : (putEntry e s).rules = s.rules := rfl
@[simp] theorem putEntry_mport (e : Entry) : (putEntry e s).mport = s.mport := rfl
@[simp] theorem putEntry_ev (e : Entry) : (putEntry e s).ev = s.ev := rfl
@[simp] theorem putEntry_clock (e : Entry) : (putEntry e s).clock = s.clock := rfl
@[simp] theorem putEntry_cfg (e : Entry) : (putEntry e s).cfg = s.cfg := rfl
@[simp] theorem putEntry_port (e : Entry) : (putEntry e s).port = s.port := rfl

/-! #### freeEntry -/

@[simp] theorem freeEntry_pending (t : Tag) : (freeEntry t s).pending = s.pending := rfl
@[simp] theorem freeEntry_choices (t : Tag) : (freeEntry t s).choices = s.choices := rfl
@[simp] theorem freeEntry_host (t : Tag) : (freeEntry t s).host = s.host := rfl
@[simp] theorem freeEntry_guards (t : Tag) : (freeEntry t s).guards = s.guards := rfl
@[simp] theorem freeEntry_table (t : Tag) :
    (freeEntry t s).table = s.table.filter (fun x => x.tag != t) := rfl
@[simp] theorem freeEntry_pres (t : Tag) : (freeEntry t s).pres = s.pres := rfl
@[simp] theorem freeEntry_eng (t : Tag) : (freeEntry t s).eng = s.eng := rfl
@[simp] theorem freeEntry_rules (t : Tag) : (freeEntry t s).rules = s.rules := rfl
@[simp] theorem freeEntry_mport (t : Tag) : (freeEntry t s).mport = s.mport := rfl
@[simp] theorem freeEntry_ev (t : Tag) : (freeEntry t s).ev = s.ev := rfl
@[simp] theorem freeEntry_clock (t : Tag) : (freeEntry t s).clock = s.clock := rfl
@[simp] theorem freeEntry_cfg (t : Tag) : (freeEntry t s).cfg = s.cfg := rfl
@[simp] theorem freeEntry_port (t : Tag) : (freeEntry t s).port = s.port := rfl

/-! #### putGuard -/

@[simp] theorem putGuard_pending (n : Fin 16) (g : GuardEntry) : (putGuard n g s).pending = s.pending := rfl
@[simp] theorem putGuard_choices (n : Fin 16) (g : GuardEntry) : (putGuard n g s).choices = s.choices := rfl
@[simp] theorem putGuard_host (n : Fin 16) (g : GuardEntry) : (putGuard n g s).host = s.host := rfl
@[simp] theorem putGuard_guards (n : Fin 16) (g : GuardEntry) :
    (putGuard n g s).guards = s.guards.set n g := rfl
@[simp] theorem putGuard_table (n : Fin 16) (g : GuardEntry) : (putGuard n g s).table = s.table := rfl
@[simp] theorem putGuard_pres (n : Fin 16) (g : GuardEntry) : (putGuard n g s).pres = s.pres := rfl
@[simp] theorem putGuard_eng (n : Fin 16) (g : GuardEntry) : (putGuard n g s).eng = s.eng := rfl
@[simp] theorem putGuard_rules (n : Fin 16) (g : GuardEntry) : (putGuard n g s).rules = s.rules := rfl
@[simp] theorem putGuard_mport (n : Fin 16) (g : GuardEntry) : (putGuard n g s).mport = s.mport := rfl
@[simp] theorem putGuard_ev (n : Fin 16) (g : GuardEntry) : (putGuard n g s).ev = s.ev := rfl
@[simp] theorem putGuard_clock (n : Fin 16) (g : GuardEntry) : (putGuard n g s).clock = s.clock := rfl
@[simp] theorem putGuard_cfg (n : Fin 16) (g : GuardEntry) : (putGuard n g s).cfg = s.cfg := rfl
@[simp] theorem putGuard_port (n : Fin 16) (g : GuardEntry) : (putGuard n g s).port = s.port := rfl

/-! #### putRule -/

@[simp] theorem putRule_pending (n : RuleNo) (r : WatchRule) : (putRule n r s).pending = s.pending := rfl
@[simp] theorem putRule_choices (n : RuleNo) (r : WatchRule) : (putRule n r s).choices = s.choices := rfl
@[simp] theorem putRule_host (n : RuleNo) (r : WatchRule) : (putRule n r s).host = s.host := rfl
@[simp] theorem putRule_guards (n : RuleNo) (r : WatchRule) : (putRule n r s).guards = s.guards := rfl
@[simp] theorem putRule_table (n : RuleNo) (r : WatchRule) : (putRule n r s).table = s.table := rfl
@[simp] theorem putRule_pres (n : RuleNo) (r : WatchRule) : (putRule n r s).pres = s.pres := rfl
@[simp] theorem putRule_eng (n : RuleNo) (r : WatchRule) : (putRule n r s).eng = s.eng := rfl
@[simp] theorem putRule_rules (n : RuleNo) (r : WatchRule) :
    (putRule n r s).rules = s.rules.set n r := rfl
@[simp] theorem putRule_mport (n : RuleNo) (r : WatchRule) : (putRule n r s).mport = s.mport := rfl
@[simp] theorem putRule_ev (n : RuleNo) (r : WatchRule) : (putRule n r s).ev = s.ev := rfl
@[simp] theorem putRule_clock (n : RuleNo) (r : WatchRule) : (putRule n r s).clock = s.clock := rfl
@[simp] theorem putRule_cfg (n : RuleNo) (r : WatchRule) : (putRule n r s).cfg = s.cfg := rfl
@[simp] theorem putRule_port (n : RuleNo) (r : WatchRule) : (putRule n r s).port = s.port := rfl

/-! #### releaseClaim -/

@[simp] theorem releaseClaim_pending : (releaseClaim s).pending = s.pending := rfl
@[simp] theorem releaseClaim_choices : (releaseClaim s).choices = s.choices := rfl
@[simp] theorem releaseClaim_host : (releaseClaim s).host = s.host := rfl
@[simp] theorem releaseClaim_guards : (releaseClaim s).guards = s.guards := rfl
@[simp] theorem releaseClaim_table : (releaseClaim s).table = s.table := rfl
@[simp] theorem releaseClaim_pres :
    (releaseClaim s).pres = { s.pres with claims := s.pres.claims - 1 } := rfl
@[simp] theorem releaseClaim_eng : (releaseClaim s).eng = s.eng := rfl
@[simp] theorem releaseClaim_rules : (releaseClaim s).rules = s.rules := rfl
@[simp] theorem releaseClaim_mport : (releaseClaim s).mport = s.mport := rfl
@[simp] theorem releaseClaim_ev : (releaseClaim s).ev = s.ev := rfl
@[simp] theorem releaseClaim_clock : (releaseClaim s).clock = s.clock := rfl
@[simp] theorem releaseClaim_cfg : (releaseClaim s).cfg = s.cfg := rfl
@[simp] theorem releaseClaim_port : (releaseClaim s).port = s.port := rfl

/-! #### setEng -/

@[simp] theorem setEng_pending (f : Engine → Engine) : (setEng f s).pending = s.pending := rfl
@[simp] theorem setEng_choices (f : Engine → Engine) : (setEng f s).choices = s.choices := rfl
@[simp] theorem setEng_host (f : Engine → Engine) : (setEng f s).host = s.host := rfl
@[simp] theorem setEng_guards (f : Engine → Engine) : (setEng f s).guards = s.guards := rfl
@[simp] theorem setEng_table (f : Engine → Engine) : (setEng f s).table = s.table := rfl
@[simp] theorem setEng_pres (f : Engine → Engine) : (setEng f s).pres = s.pres := rfl
@[simp] theorem setEng_eng (f : Engine → Engine) :
    (setEng f s).eng = f s.eng := rfl
@[simp] theorem setEng_rules (f : Engine → Engine) : (setEng f s).rules = s.rules := rfl
@[simp] theorem setEng_mport (f : Engine → Engine) : (setEng f s).mport = s.mport := rfl
@[simp] theorem setEng_ev (f : Engine → Engine) : (setEng f s).ev = s.ev := rfl
@[simp] theorem setEng_clock (f : Engine → Engine) : (setEng f s).clock = s.clock := rfl
@[simp] theorem setEng_cfg (f : Engine → Engine) : (setEng f s).cfg = s.cfg := rfl
@[simp] theorem setEng_port (f : Engine → Engine) : (setEng f s).port = s.port := rfl

/-! #### setPfw -/

@[simp] theorem setPfw_pending (l : Bool) : (setPfw l s).pending = s.pending := rfl
@[simp] theorem setPfw_choices (l : Bool) : (setPfw l s).choices = s.choices := rfl
@[simp] theorem setPfw_host (l : Bool) :
    (setPfw l s).host = { s.host with pfw := l } := rfl
@[simp] theorem setPfw_guards (l : Bool) : (setPfw l s).guards = s.guards := rfl
@[simp] theorem setPfw_table (l : Bool) : (setPfw l s).table = s.table := rfl
@[simp] theorem setPfw_pres (l : Bool) : (setPfw l s).pres = s.pres := rfl
@[simp] theorem setPfw_eng (l : Bool) : (setPfw l s).eng = s.eng := rfl
@[simp] theorem setPfw_rules (l : Bool) : (setPfw l s).rules = s.rules := rfl
@[simp] theorem setPfw_mport (l : Bool) : (setPfw l s).mport = s.mport := rfl
@[simp] theorem setPfw_ev (l : Bool) : (setPfw l s).ev = s.ev := rfl
@[simp] theorem setPfw_clock (l : Bool) : (setPfw l s).clock = s.clock := rfl
@[simp] theorem setPfw_cfg (l : Bool) : (setPfw l s).cfg = s.cfg := rfl
@[simp] theorem setPfw_port (l : Bool) : (setPfw l s).port = s.port := rfl

/-! #### setCfg -/

@[simp] theorem setCfg_pending (f : Settings → Settings) : (setCfg f s).pending = s.pending := rfl
@[simp] theorem setCfg_choices (f : Settings → Settings) : (setCfg f s).choices = s.choices := rfl
@[simp] theorem setCfg_host (f : Settings → Settings) : (setCfg f s).host = s.host := rfl
@[simp] theorem setCfg_guards (f : Settings → Settings) : (setCfg f s).guards = s.guards := rfl
@[simp] theorem setCfg_table (f : Settings → Settings) : (setCfg f s).table = s.table := rfl
@[simp] theorem setCfg_pres (f : Settings → Settings) : (setCfg f s).pres = s.pres := rfl
@[simp] theorem setCfg_eng (f : Settings → Settings) : (setCfg f s).eng = s.eng := rfl
@[simp] theorem setCfg_rules (f : Settings → Settings) : (setCfg f s).rules = s.rules := rfl
@[simp] theorem setCfg_mport (f : Settings → Settings) : (setCfg f s).mport = s.mport := rfl
@[simp] theorem setCfg_ev (f : Settings → Settings) : (setCfg f s).ev = s.ev := rfl
@[simp] theorem setCfg_clock (f : Settings → Settings) : (setCfg f s).clock = s.clock := rfl
@[simp] theorem setCfg_cfg (f : Settings → Settings) :
    (setCfg f s).cfg = f s.cfg := rfl
@[simp] theorem setCfg_port (f : Settings → Settings) : (setCfg f s).port = s.port := rfl

/-! #### putSlot -/

@[simp] theorem putSlot_pending (i : LinkNo) (l : LinkSlot) : (putSlot i l s).pending = s.pending := rfl
@[simp] theorem putSlot_choices (i : LinkNo) (l : LinkSlot) : (putSlot i l s).choices = s.choices := rfl
@[simp] theorem putSlot_host (i : LinkNo) (l : LinkSlot) : (putSlot i l s).host = s.host := rfl
@[simp] theorem putSlot_guards (i : LinkNo) (l : LinkSlot) : (putSlot i l s).guards = s.guards := rfl
@[simp] theorem putSlot_table (i : LinkNo) (l : LinkSlot) : (putSlot i l s).table = s.table := rfl
@[simp] theorem putSlot_pres (i : LinkNo) (l : LinkSlot) : (putSlot i l s).pres = s.pres := rfl
@[simp] theorem putSlot_eng (i : LinkNo) (l : LinkSlot) : (putSlot i l s).eng = s.eng := rfl
@[simp] theorem putSlot_rules (i : LinkNo) (l : LinkSlot) : (putSlot i l s).rules = s.rules := rfl
@[simp] theorem putSlot_mport (i : LinkNo) (l : LinkSlot) :
    (putSlot i l s).mport = { s.mport with slots := s.mport.slots.set i l } := rfl
@[simp] theorem putSlot_ev (i : LinkNo) (l : LinkSlot) : (putSlot i l s).ev = s.ev := rfl
@[simp] theorem putSlot_clock (i : LinkNo) (l : LinkSlot) : (putSlot i l s).clock = s.clock := rfl
@[simp] theorem putSlot_cfg (i : LinkNo) (l : LinkSlot) : (putSlot i l s).cfg = s.cfg := rfl
@[simp] theorem putSlot_port (i : LinkNo) (l : LinkSlot) : (putSlot i l s).port = s.port := rfl

/-! #### recordResult -/

@[simp] theorem recordResult_pending (c : BitVec 4) (o : CmdOutcome) :
    (recordResult c o s).pending = s.pending := rfl
@[simp] theorem recordResult_choices (c : BitVec 4) (o : CmdOutcome) :
    (recordResult c o s).choices = s.choices := rfl
@[simp] theorem recordResult_host (c : BitVec 4) (o : CmdOutcome) : (recordResult c o s).host = s.host := rfl
@[simp] theorem recordResult_guards (c : BitVec 4) (o : CmdOutcome) :
    (recordResult c o s).guards = s.guards := rfl
@[simp] theorem recordResult_table (c : BitVec 4) (o : CmdOutcome) :
    (recordResult c o s).table = s.table := rfl
@[simp] theorem recordResult_pres (c : BitVec 4) (o : CmdOutcome) : (recordResult c o s).pres = s.pres := rfl
@[simp] theorem recordResult_eng (c : BitVec 4) (o : CmdOutcome) : (recordResult c o s).eng = s.eng := rfl
@[simp] theorem recordResult_rules (c : BitVec 4) (o : CmdOutcome) :
    (recordResult c o s).rules = s.rules := rfl
@[simp] theorem recordResult_mport (c : BitVec 4) (o : CmdOutcome) :
    (recordResult c o s).mport = s.mport := rfl
@[simp] theorem recordResult_ev (c : BitVec 4) (o : CmdOutcome) : (recordResult c o s).ev = s.ev := rfl
@[simp] theorem recordResult_clock (c : BitVec 4) (o : CmdOutcome) :
    (recordResult c o s).clock = s.clock := rfl
@[simp] theorem recordResult_cfg (c : BitVec 4) (o : CmdOutcome) : (recordResult c o s).cfg = s.cfg := rfl
@[simp] theorem recordResult_port (c : BitVec 4) (o : CmdOutcome) :
    (recordResult c o s).port = { s.port with cmdResult := { code := c, outcome := o } } := rfl

/-! #### restartPrescale -/

@[simp] theorem restartPrescale_pending : (restartPrescale s).pending = s.pending := rfl
@[simp] theorem restartPrescale_choices : (restartPrescale s).choices = s.choices := rfl
@[simp] theorem restartPrescale_host : (restartPrescale s).host = s.host := rfl
@[simp] theorem restartPrescale_guards : (restartPrescale s).guards = s.guards := rfl
@[simp] theorem restartPrescale_table : (restartPrescale s).table = s.table := rfl
@[simp] theorem restartPrescale_pres : (restartPrescale s).pres = s.pres := rfl
@[simp] theorem restartPrescale_eng : (restartPrescale s).eng = s.eng := rfl
@[simp] theorem restartPrescale_rules : (restartPrescale s).rules = s.rules := rfl
@[simp] theorem restartPrescale_mport : (restartPrescale s).mport = s.mport := rfl
@[simp] theorem restartPrescale_ev : (restartPrescale s).ev = s.ev := rfl
@[simp] theorem restartPrescale_clock :
    (restartPrescale s).clock = { s.clock with prescale := 0 } := rfl
@[simp] theorem restartPrescale_cfg : (restartPrescale s).cfg = s.cfg := rfl
@[simp] theorem restartPrescale_port : (restartPrescale s).port = s.port := rfl

/-! #### closeEvent -/

@[simp] theorem closeEvent_pending : (closeEvent s).pending = s.pending := rfl
@[simp] theorem closeEvent_choices : (closeEvent s).choices = s.choices := rfl
@[simp] theorem closeEvent_host : (closeEvent s).host = s.host := rfl
@[simp] theorem closeEvent_guards : (closeEvent s).guards = s.guards := rfl
@[simp] theorem closeEvent_table : (closeEvent s).table = s.table := rfl
@[simp] theorem closeEvent_pres : (closeEvent s).pres = s.pres := rfl
@[simp] theorem closeEvent_eng : (closeEvent s).eng = s.eng := rfl
@[simp] theorem closeEvent_rules : (closeEvent s).rules = s.rules := rfl
@[simp] theorem closeEvent_mport :
    (closeEvent s).mport =
      { s.mport with queue := s.mport.queue.map (fun r => { r with fresh := false }) } := rfl
@[simp] theorem closeEvent_ev : (closeEvent s).ev = s.ev := rfl
@[simp] theorem closeEvent_clock : (closeEvent s).clock = s.clock := rfl
@[simp] theorem closeEvent_cfg : (closeEvent s).cfg = s.cfg := rfl
@[simp] theorem closeEvent_port : (closeEvent s).port = s.port := rfl

/-! #### loadDeadline -/

@[simp] theorem loadDeadline_pending : (loadDeadline s).pending = s.pending := rfl
@[simp] theorem loadDeadline_choices : (loadDeadline s).choices = s.choices := rfl
@[simp] theorem loadDeadline_host : (loadDeadline s).host = s.host := rfl
@[simp] theorem loadDeadline_guards : (loadDeadline s).guards = s.guards := rfl
@[simp] theorem loadDeadline_table : (loadDeadline s).table = s.table := rfl
@[simp] theorem loadDeadline_pres : (loadDeadline s).pres = s.pres := rfl
@[simp] theorem loadDeadline_eng :
    (loadDeadline s).eng =
      { s.eng with deadlineLeft := s.cfg.deadline, deadlineRunning := s.cfg.deadline != 0 } := rfl
@[simp] theorem loadDeadline_rules : (loadDeadline s).rules = s.rules := rfl
@[simp] theorem loadDeadline_mport : (loadDeadline s).mport = s.mport := rfl
@[simp] theorem loadDeadline_ev : (loadDeadline s).ev = s.ev := rfl
@[simp] theorem loadDeadline_clock : (loadDeadline s).clock = s.clock := rfl
@[simp] theorem loadDeadline_cfg : (loadDeadline s).cfg = s.cfg := rfl
@[simp] theorem loadDeadline_port : (loadDeadline s).port = s.port := rfl

/-! #### stopDeadline -/

@[simp] theorem stopDeadline_pending : (stopDeadline s).pending = s.pending := rfl
@[simp] theorem stopDeadline_choices : (stopDeadline s).choices = s.choices := rfl
@[simp] theorem stopDeadline_host : (stopDeadline s).host = s.host := rfl
@[simp] theorem stopDeadline_guards : (stopDeadline s).guards = s.guards := rfl
@[simp] theorem stopDeadline_table : (stopDeadline s).table = s.table := rfl
@[simp] theorem stopDeadline_pres : (stopDeadline s).pres = s.pres := rfl
@[simp] theorem stopDeadline_eng :
    (stopDeadline s).eng = { s.eng with deadlineLeft := 0, deadlineRunning := false } := rfl
@[simp] theorem stopDeadline_rules : (stopDeadline s).rules = s.rules := rfl
@[simp] theorem stopDeadline_mport : (stopDeadline s).mport = s.mport := rfl
@[simp] theorem stopDeadline_ev : (stopDeadline s).ev = s.ev := rfl
@[simp] theorem stopDeadline_clock : (stopDeadline s).clock = s.clock := rfl
@[simp] theorem stopDeadline_cfg : (stopDeadline s).cfg = s.cfg := rfl
@[simp] theorem stopDeadline_port : (stopDeadline s).port = s.port := rfl

/-! #### needHeader -/

@[simp] theorem needHeader_pending (w : HdrPurpose) : (needHeader w s).pending = s.pending := rfl
@[simp] theorem needHeader_choices (w : HdrPurpose) : (needHeader w s).choices = s.choices := rfl
@[simp] theorem needHeader_host (w : HdrPurpose) : (needHeader w s).host = s.host := rfl
@[simp] theorem needHeader_guards (w : HdrPurpose) : (needHeader w s).guards = s.guards := rfl
@[simp] theorem needHeader_table (w : HdrPurpose) : (needHeader w s).table = s.table := rfl
@[simp] theorem needHeader_pres (w : HdrPurpose) : (needHeader w s).pres = s.pres := rfl
@[simp] theorem needHeader_eng (w : HdrPurpose) :
    (needHeader w s).eng = { s.eng with op := .headerWrite w false } := rfl
@[simp] theorem needHeader_rules (w : HdrPurpose) : (needHeader w s).rules = s.rules := rfl
@[simp] theorem needHeader_mport (w : HdrPurpose) : (needHeader w s).mport = s.mport := rfl
@[simp] theorem needHeader_ev (w : HdrPurpose) : (needHeader w s).ev = s.ev := rfl
@[simp] theorem needHeader_clock (w : HdrPurpose) : (needHeader w s).clock = s.clock := rfl
@[simp] theorem needHeader_cfg (w : HdrPurpose) : (needHeader w s).cfg = s.cfg := rfl
@[simp] theorem needHeader_port (w : HdrPurpose) : (needHeader w s).port = s.port := rfl

/-! #### headerLanded -/

@[simp] theorem headerLanded_pending : (headerLanded s).pending = s.pending := rfl
@[simp] theorem headerLanded_choices : (headerLanded s).choices = s.choices := rfl
@[simp] theorem headerLanded_host : (headerLanded s).host = s.host := rfl
@[simp] theorem headerLanded_guards : (headerLanded s).guards = s.guards := rfl
@[simp] theorem headerLanded_table : (headerLanded s).table = s.table := rfl
@[simp] theorem headerLanded_pres : (headerLanded s).pres = s.pres := rfl
@[simp] theorem headerLanded_eng :
    (headerLanded s).eng =
      { s.eng with generation := s.eng.generation + 1, nextCopy := s.eng.nextCopy.other } := rfl
@[simp] theorem headerLanded_rules : (headerLanded s).rules = s.rules := rfl
@[simp] theorem headerLanded_mport : (headerLanded s).mport = s.mport := rfl
@[simp] theorem headerLanded_ev : (headerLanded s).ev = s.ev := rfl
@[simp] theorem headerLanded_clock : (headerLanded s).clock = s.clock := rfl
@[simp] theorem headerLanded_cfg : (headerLanded s).cfg = s.cfg := rfl
@[simp] theorem headerLanded_port : (headerLanded s).port = s.port := rfl

/-! #### fixOpenNumber -/

@[simp] theorem fixOpenNumber_pending : (fixOpenNumber s).pending = s.pending := rfl
@[simp] theorem fixOpenNumber_choices : (fixOpenNumber s).choices = s.choices := rfl
@[simp] theorem fixOpenNumber_host : (fixOpenNumber s).host = s.host := rfl
@[simp] theorem fixOpenNumber_guards : (fixOpenNumber s).guards = s.guards := rfl
@[simp] theorem fixOpenNumber_table : (fixOpenNumber s).table = s.table := rfl
@[simp] theorem fixOpenNumber_pres : (fixOpenNumber s).pres = s.pres := rfl
@[simp] theorem fixOpenNumber_rules : (fixOpenNumber s).rules = s.rules := rfl
@[simp] theorem fixOpenNumber_mport : (fixOpenNumber s).mport = s.mport := rfl
@[simp] theorem fixOpenNumber_ev : (fixOpenNumber s).ev = s.ev := rfl
@[simp] theorem fixOpenNumber_clock : (fixOpenNumber s).clock = s.clock := rfl
@[simp] theorem fixOpenNumber_cfg : (fixOpenNumber s).cfg = s.cfg := rfl
@[simp] theorem fixOpenNumber_port : (fixOpenNumber s).port = s.port := rfl

end Sys2Proof.Machine
end

