-- ==== Sys2Proof/Laws/Ops.lean ====
section
/-! SUPPORT. What each shared operation can do, said once: the frame of everything the transaction table
does, and the values of pick, post, enqueue and disown. -/

namespace Sys2Proof.Machine

/-- From s to t nothing changed but what the transaction table moves: its entries, the responses, the
claims, FULL_REPORTED, the classes and notices, the requests, and the choices drawn. -/
structure TableOnly (s t : State) : Prop where
  pending : t.pending = s.pending
  link : t.host.link = s.host.link
  pfw : t.host.pfw = s.host.pfw
  held : t.host.resetHeld = s.host.resetHeld
  guards : t.guards = s.guards
  eng : t.eng = s.eng
  rules : t.rules = s.rules
  slots : t.mport.slots = s.mport.slots
  issues : t.mport.out = s.mport.out
  queued : slotWritesQueued t.mport = slotWritesQueued s.mport
  levels : t.ev.levels = s.ev.levels
  clock : t.clock = s.clock
  cfg : t.cfg = s.cfg
  port : t.port = s.port
  queue : t.pres.queue = s.pres.queue
  filter : t.pres.filter = s.pres.filter
  orphans : t.pres.orphans = s.pres.orphans
  notices : NoticesOk s → NoticesOk t

theorem TableOnly.refl (s : State) : TableOnly s s := by constructor <;> first | rfl | exact id

theorem TableOnly.trans {s t u : State} (h : TableOnly s t) (k : TableOnly t u) : TableOnly s u where
  pending := k.pending.trans h.pending
  link := k.link.trans h.link
  pfw := k.pfw.trans h.pfw
  held := k.held.trans h.held
  guards := k.guards.trans h.guards
  eng := k.eng.trans h.eng
  rules := k.rules.trans h.rules
  slots := k.slots.trans h.slots
  issues := k.issues.trans h.issues
  queued := k.queued.trans h.queued
  levels := k.levels.trans h.levels
  clock := k.clock.trans h.clock
  cfg := k.cfg.trans h.cfg
  port := k.port.trans h.port
  queue := k.queue.trans h.queue
  filter := k.filter.trans h.filter
  orphans := k.orphans.trans h.orphans
  notices := fun hn => k.notices (h.notices hn)

/-! ### Choices -/

/-- A draw changes the choices only. -/
theorem pick_state (n : Nat) (s : State) : ∃ cs, (pick n s).2 = { s with choices := cs } := by
  unfold pick
  split
  · exact ⟨s.choices, rfl⟩
  · split
    · exact ⟨_, rfl⟩
    · exact ⟨_, rfl⟩

/-- A draw among at least one alternative names one of them. -/
theorem pick_lt {n : Nat} (h : 0 < n) (s : State) : (pick n s).1 < n := by
  unfold pick
  split
  · exact h
  · split
    · exact Nat.mod_lt _ h
    · exact Nat.mod_lt _ h

/-! ### Notices (R179, R180) -/

/-- R180: a posting appends the notice where there is room, and sets NOTICE_LOST where there is none. -/
theorem post_cases (b : NoticeBody) (s : State) :
    (s.ev.notices.length < Config.noticePlaces ∧
      post b s = { s with ev := { s.ev with notices := s.ev.notices ++ [posted b s] } }) ∨
    (Config.noticePlaces ≤ s.ev.notices.length ∧ post b s = setClass .noticeLost s) := by
  unfold post posted
  split
  · exact .inl ⟨‹_›, rfl⟩
  · exact .inr ⟨Nat.le_of_not_lt ‹_›, rfl⟩

/-- The queue never holds more than 16 records (R180). -/
theorem post_notices_le (b : NoticeBody) (s : State) (h : NoticesOk s) : NoticesOk (post b s) := by
  rcases post_cases b s with ⟨hl, hp⟩ | ⟨-, hp⟩ <;> rw [hp]
  · simp only [NoticesOk, List.length_append, List.length_singleton]; omega
  · exact h

theorem post_tableOnly (b : NoticeBody) (s : State) : TableOnly s (post b s) := by
  have hn := post_notices_le b s
  rcases post_cases b s with ⟨-, h⟩ | ⟨-, h⟩ <;> rw [h] at hn ⊢ <;> constructor <;> first | rfl | exact hn

@[simp] theorem post_table (b : NoticeBody) (s : State) : (post b s).table = s.table := by
  rcases post_cases b s with ⟨-, h⟩ | ⟨-, h⟩ <;> simp [h]

@[simp] theorem post_pres (b : NoticeBody) (s : State) : (post b s).pres = s.pres := by
  rcases post_cases b s with ⟨-, h⟩ | ⟨-, h⟩ <;> simp [h]

@[simp] theorem post_host (b : NoticeBody) (s : State) : (post b s).host = s.host := by
  rcases post_cases b s with ⟨-, h⟩ | ⟨-, h⟩ <;> simp [h]

@[simp] theorem post_mport (b : NoticeBody) (s : State) : (post b s).mport = s.mport := by
  rcases post_cases b s with ⟨-, h⟩ | ⟨-, h⟩ <;> simp [h]

theorem setClass_tableOnly (c : EvClass) (s : State) : TableOnly s (setClass c s) := by
  constructor <;> first | rfl | exact id

theorem report_tableOnly (c : EvClass) (b : NoticeBody) (s : State) : TableOnly s (report c b s) :=
  (post_tableOnly b s).trans (setClass_tableOnly c _)

@[simp] theorem report_table (c : EvClass) (b : NoticeBody) (s : State) :
    (report c b s).table = s.table := by simp [report]

@[simp] theorem report_pres (c : EvClass) (b : NoticeBody) (s : State) :
    (report c b s).pres = s.pres := by simp [report]

@[simp] theorem report_host (c : EvClass) (b : NoticeBody) (s : State) :
    (report c b s).host = s.host := by simp [report]

@[simp] theorem report_mport (c : EvClass) (b : NoticeBody) (s : State) :
    (report c b s).mport = s.mport := by simp [report]

/-! ### Responses and entries -/

theorem respond_tableOnly (t : Tag) (r : HostResult) (s : State) : TableOnly s (respond t r s) := by
  constructor <;> first | rfl | exact id

theorem putEntry_tableOnly (e : Entry) (s : State) : TableOnly s (putEntry e s) := by
  constructor <;> first | rfl | exact id

theorem freeEntry_tableOnly (t : Tag) (s : State) : TableOnly s (freeEntry t s) := by
  constructor <;> first | rfl | exact id

theorem endEntry_tableOnly (e : Entry) (r : HostResult) (s : State) : TableOnly s (endEntry e r s) := by
  constructor <;> first | rfl | exact id

theorem denyEntry_tableOnly (e : Entry) (w : DenyReason) (s : State) : TableOnly s (denyEntry e w s) :=
  (endEntry_tableOnly e .denied s).trans (report_tableOnly _ _ _)

theorem failEntry_tableOnly (e : Entry) (w : ForwardFault) (s : State) :
    TableOnly s (failEntry e w s) :=
  (endEntry_tableOnly e .failed s).trans (report_tableOnly _ _ _)

@[simp] theorem endEntry_table (e : Entry) (r : HostResult) (s : State) :
    (endEntry e r s).table = s.table.filter (fun x => x.tag != e.tag) := rfl

@[simp] theorem endEntry_pres (e : Entry) (r : HostResult) (s : State) :
    (endEntry e r s).pres = s.pres := rfl

@[simp] theorem denyEntry_table (e : Entry) (w : DenyReason) (s : State) :
    (denyEntry e w s).table = s.table.filter (fun x => x.tag != e.tag) := by simp [denyEntry]

@[simp] theorem denyEntry_pres (e : Entry) (w : DenyReason) (s : State) :
    (denyEntry e w s).pres = s.pres := by simp [denyEntry]

@[simp] theorem failEntry_table (e : Entry) (w : ForwardFault) (s : State) :
    (failEntry e w s).table = s.table.filter (fun x => x.tag != e.tag) := by simp [failEntry]

@[simp] theorem failEntry_pres (e : Entry) (w : ForwardFault) (s : State) :
    (failEntry e w s).pres = s.pres := by simp [failEntry]

/-! ### Requests (R164) -/

/-- R164: a request enters the queue, ahead of none but requests of the same event, and nothing else
changes but the choices drawn. -/
theorem enqueue_cases (op : MemOp) (addr : Addr) (s : State) :
    ∃ cs before after, s.mport.queue = before ++ after ∧ (∀ x ∈ after, x.fresh = true) ∧
      enqueue op addr s = { s with
        choices := cs
        mport := { s.mport with
          queue := before ++ { op := op, addr := addr, fresh := true } :: after } } := by
  obtain ⟨slack, hs⟩ : ∃ l, l = s.mport.queue.reverse.takeWhile (fun x => x.fresh) := ⟨_, rfl⟩
  obtain ⟨cs, hp⟩ := pick_state (slack.length + 1) s
  have hlt : (pick (slack.length + 1) s).1 < slack.length + 1 := pick_lt (Nat.succ_pos _) s
  refine ⟨cs, _, _, (List.take_append_drop
    (s.mport.queue.length - (pick (slack.length + 1) s).1) s.mport.queue).symm, fun x hx => ?_, ?_⟩
  · have hmem : x ∈ s.mport.queue.reverse.take (pick (slack.length + 1) s).1 := by
      rw [List.take_reverse]; exact List.mem_reverse.mpr hx
    have hpre : slack <+: s.mport.queue.reverse := hs ▸ List.takeWhile_prefix _
    have hin : x ∈ slack := by
      rw [List.prefix_iff_eq_take.mp hpre]
      exact (List.take_prefix_take_left (Nat.le_of_lt_succ hlt)).subset hmem
    exact List.mem_takeWhile_imp (p := fun x : MemRequest => x.fresh) (hs ▸ hin)
  · simp only [enqueue, ← hs, hp]

/-- A request that is no slot write moves only what the table moves. -/
theorem enqueue_tableOnly (op : MemOp) (addr : Addr) (s : State) (ho : op.slotWrite? = none := by rfl) :
    TableOnly s (enqueue op addr s) := by
  obtain ⟨cs, b, a, hq, -, h⟩ := enqueue_cases op addr s
  have hw : slotWritesQueued (enqueue op addr s).mport = slotWritesQueued s.mport := by
    rw [h]; simp [slotWritesQueued, hq, ho]
  rw [h] at hw ⊢
  constructor <;> first | rfl | exact id | exact hw

@[simp] theorem enqueue_table (op : MemOp) (addr : Addr) (s : State) :
    (enqueue op addr s).table = s.table := by
  obtain ⟨cs, b, a, -, -, h⟩ := enqueue_cases op addr s; rw [h]

@[simp] theorem enqueue_pres (op : MemOp) (addr : Addr) (s : State) :
    (enqueue op addr s).pres = s.pres := by
  obtain ⟨cs, b, a, -, -, h⟩ := enqueue_cases op addr s; rw [h]

@[simp] theorem enqueue_ev (op : MemOp) (addr : Addr) (s : State) :
    (enqueue op addr s).ev = s.ev := by
  obtain ⟨cs, b, a, -, -, h⟩ := enqueue_cases op addr s; rw [h]

@[simp] theorem enqueue_host (op : MemOp) (addr : Addr) (s : State) :
    (enqueue op addr s).host = s.host := by
  obtain ⟨cs, b, a, -, -, h⟩ := enqueue_cases op addr s; rw [h]

@[simp] theorem enqueue_eng (op : MemOp) (addr : Addr) (s : State) :
    (enqueue op addr s).eng = s.eng := by
  obtain ⟨cs, b, a, -, -, h⟩ := enqueue_cases op addr s; rw [h]

@[simp] theorem enqueue_cfg (op : MemOp) (addr : Addr) (s : State) :
    (enqueue op addr s).cfg = s.cfg := by
  obtain ⟨cs, b, a, -, -, h⟩ := enqueue_cases op addr s; rw [h]

/-- A request at the tail that is no slot write moves only what the table moves. -/
theorem enqueueLast_tableOnly (op : MemOp) (addr : Addr) (s : State) (ho : op.slotWrite? = none := by rfl) :
    TableOnly s (enqueueLast op addr s) := by
  have hw : slotWritesQueued (enqueueLast op addr s).mport = slotWritesQueued s.mport := by
    simp [slotWritesQueued, enqueueLast, ho]
  constructor <;> first | rfl | exact id | exact hw

/-- The request stands in the queue. -/
theorem mem_enqueue (op : MemOp) (addr : Addr) (s : State) :
    { op := op, addr := addr, fresh := true } ∈ (enqueue op addr s).mport.queue := by
  obtain ⟨cs, b, a, -, -, h⟩ := enqueue_cases op addr s
  rw [h]; simp

/-- On an empty queue the request is alone, and no choice is drawn. -/
theorem enqueue_nil (op : MemOp) (addr : Addr) (s : State) (h : s.mport.queue = []) :
    enqueue op addr s = { s with mport := { s.mport with
      queue := [{ op := op, addr := addr, fresh := true }] } } := by
  simp [enqueue, pick, h]

/-! ### Results given up (R164, R165) -/

@[simp] theorem mapSlots_get (f : LinkSlot → LinkSlot) (v : Vector LinkSlot 32) (i : LinkNo) :
    (mapSlots f v)[i] = f v[i] := by
  simp [mapSlots, ← Vector.getElem_toList]

/-- A link slot given up keeps its state, operation and times. -/
theorem disown_frame (p : MemOp → Bool) (s : State) :
    (disown p s).pending = s.pending ∧ (disown p s).host = s.host ∧ (disown p s).guards = s.guards ∧
      (disown p s).table = s.table ∧ (disown p s).pres = s.pres ∧ (disown p s).eng = s.eng ∧
      (disown p s).rules = s.rules ∧ (disown p s).ev = s.ev ∧ (disown p s).clock = s.clock ∧
      (disown p s).cfg = s.cfg ∧ (disown p s).port = s.port ∧
      (disown p s).mport.out = s.mport.out ∧ (disown p s).choices = s.choices :=
  ⟨rfl, rfl, rfl, rfl, rfl, rfl, rfl, rfl, rfl, rfl, rfl, rfl, rfl⟩

/-- The requests of the kind given up leave the queue (R164). -/
theorem disown_queue (p : MemOp → Bool) (s : State) :
    (disown p s).mport.queue = s.mport.queue.filter (fun x => !p x.op) := rfl

end Sys2Proof.Machine
end

