-- ==== Sys2Proof/Laws/Entries.lean ====
section
/-! SUPPORT. The two moves every rule makes on the table, replacing the entry of a tag and freeing it, and
what they keep of the table's order and of the record law. -/

namespace Sys2Proof.Machine

/-- The table with the entry of e's tag replaced by e. -/
abbrev putIn (e : Entry) (tbl : List Entry) : List Entry := tbl.map (fun x => if x.tag = e.tag then e else x)

/-- The table without the entry of a tag. -/
abbrev without (t : Tag) (tbl : List Entry) : List Entry := tbl.filter (fun x => x.tag != t)

theorem entry_eq_of_tag {tbl : List Entry} (h : (tbl.map (·.tag)).Nodup) {x y : Entry}
    (hx : x ∈ tbl) (hy : y ∈ tbl) (ht : x.tag = y.tag) : x = y :=
  List.inj_on_of_nodup_map h hx hy ht

theorem mem_putIn {e y : Entry} {tbl : List Entry} (h : y ∈ putIn e tbl) :
    y = e ∨ (y ∈ tbl ∧ y.tag ≠ e.tag) := by
  obtain ⟨x, hx, rfl⟩ := List.mem_map.mp h
  by_cases ht : x.tag = e.tag <;> simp [ht, hx]

theorem mem_putIn_self {e x : Entry} {tbl : List Entry} (hx : x ∈ tbl) (ht : x.tag = e.tag) :
    e ∈ putIn e tbl :=
  List.mem_map.mpr ⟨x, hx, by simp [ht]⟩

theorem mem_putIn_other {e y : Entry} {tbl : List Entry} (hy : y ∈ tbl) (ht : y.tag ≠ e.tag) :
    y ∈ putIn e tbl :=
  List.mem_map.mpr ⟨y, hy, by simp [ht]⟩

theorem putIn_tags (e : Entry) (tbl : List Entry) : (putIn e tbl).map (·.tag) = tbl.map (·.tag) := by
  rw [List.map_map]
  refine List.map_congr_left fun x _ => ?_
  by_cases ht : x.tag = e.tag <;> simp [ht]

theorem mem_without {t : Tag} {y : Entry} {tbl : List Entry} : y ∈ without t tbl ↔ y ∈ tbl ∧ y.tag ≠ t := by
  simp [without]

theorem without_sublist (t : Tag) (tbl : List Entry) : (without t tbl).Sublist tbl := List.filter_sublist

theorem putIn_absent {e : Entry} {tbl : List Entry} (h : ∀ x ∈ tbl, x.tag ≠ e.tag) : putIn e tbl = tbl := by
  conv_rhs => rw [← List.map_id tbl]
  exact List.map_congr_left fun x hx => by simp [h x hx]

/-- Counting over a table with one entry replaced. -/
theorem countP_putIn (p : Entry → Bool) {tbl : List Entry} (hn : (tbl.map (·.tag)).Nodup) {x e : Entry}
    (hx : x ∈ tbl) (ht : x.tag = e.tag) :
    (putIn e tbl).countP p + (p x).toNat = tbl.countP p + (p e).toNat := by
  induction tbl with
  | nil => cases hx
  | cons y ys ih =>
    rw [List.map_cons, List.nodup_cons] at hn
    rcases List.mem_cons.mp hx with rfl | hy
    · have habs : ∀ z ∈ ys, z.tag ≠ e.tag := fun z hz h =>
        hn.1 (List.mem_map.mpr ⟨z, hz, h.trans ht.symm⟩)
      have hys := putIn_absent habs
      simp only [putIn] at hys
      simp only [putIn, List.map_cons, List.countP_cons, ht, if_true, hys, Bool.toNat]
      cases p x <;> cases p e <;> simp
    · have hne : y.tag ≠ e.tag := fun h => hn.1 (List.mem_map.mpr ⟨x, hy, ht.trans h.symm⟩)
      have := ih hn.2 hy
      simp only [putIn, List.map_cons, List.countP_cons, hne, if_false]
      simp only [putIn] at this
      omega

/-- Counting over a table with one entry freed. -/
theorem countP_without (p : Entry → Bool) {tbl : List Entry} (hn : (tbl.map (·.tag)).Nodup) {x : Entry}
    (hx : x ∈ tbl) : (without x.tag tbl).countP p + (p x).toNat = tbl.countP p := by
  induction tbl with
  | nil => cases hx
  | cons y ys ih =>
    rw [List.map_cons, List.nodup_cons] at hn
    rcases List.mem_cons.mp hx with rfl | hy
    · have habs : without x.tag ys = ys := List.filter_eq_self.mpr fun z hz => by
        simp only [bne_iff_ne, ne_eq]
        exact fun h => hn.1 (List.mem_map.mpr ⟨z, hz, h⟩)
      simp only [without] at habs
      simp only [without, List.filter_cons, bne_self_eq_false, List.countP_cons, habs]
      cases p x <;> simp
    · have hne : y.tag ≠ x.tag := fun h => hn.1 (List.mem_map.mpr ⟨x, hy, h.symm⟩)
      have := ih hn.2 hy
      simp only [without, List.filter_cons, bne_iff_ne, ne_eq, hne, not_false_eq_true, if_true,
        List.countP_cons]
      simp only [without] at this
      omega

theorem length_putIn (e : Entry) (tbl : List Entry) : (putIn e tbl).length = tbl.length := by simp

/-! ### The table's order (R18, R22) -/

/-- An entry that is, or may become, the active one of its cell is replaced. -/
theorem oneActive_putIn {tbl : List Entry} (ha : oneActive tbl) {x e : Entry} (hx : x ∈ tbl) (ht : x.tag = e.tag) (hc : x.cell = e.cell)
    (hp : x.pastWaiting = true ∨ ∀ y ∈ tbl, y.cell = x.cell → y.pastWaiting = false) :
    oneActive (putIn e tbl) := by
  have key : ∀ y ∈ tbl, y.tag ≠ e.tag → y.cell = e.cell → y.pastWaiting = false := by
    intro y hy hyt hyc
    rcases hp with hp | hp
    · by_contra hb
      have := ha x hx y hy (hc.trans hyc.symm) hp (by simpa using hb)
      exact hyt (this ▸ ht)
    · exact hp y hy (hyc.trans hc.symm)
  intro y hy z hz hcell hyp hzp
  rcases mem_putIn hy with he | ⟨hy, hyt⟩ <;> rcases mem_putIn hz with he' | ⟨hz, hzt⟩
  · rw [he, he']
  · rw [key z hz hzt (hcell.symm.trans (by rw [he]))] at hzp; cases hzp
  · rw [key y hy hyt (hcell.trans (by rw [he']))] at hyp; cases hyp
  · exact ha y hy z hz hcell hyp hzp

theorem oneActive_sublist {a b : List Entry} (h : a.Sublist b) (hb : oneActive b) : oneActive a :=
  fun x hx y hy => hb x (h.subset hx) y (h.subset hy)

theorem tableOk_putIn {s t : State} (h : TableOk s) {x e : Entry} (ht : t.table = putIn e s.table)
    (hx : x ∈ s.table) (htag : x.tag = e.tag) (hc : x.cell = e.cell)
    (hp : x.pastWaiting = true ∨ ∀ y ∈ s.table, y.cell = x.cell → y.pastWaiting = false) :
    TableOk t := by
  refine ⟨?_, ?_, ?_⟩
  · rw [ht, length_putIn]; exact h.1
  · rw [ht, putIn_tags]; exact h.2.1
  · rw [ht]; exact oneActive_putIn h.2.2 hx htag hc hp

theorem tableOk_sublist {s t : State} (h : TableOk s) (hs : t.table.Sublist s.table) : TableOk t :=
  ⟨le_trans hs.length_le h.1, h.2.1.sublist (hs.map _), oneActive_sublist hs h.2.2⟩

theorem tableOk_of_table {s t : State} (h : TableOk s) (ht : t.table = s.table) : TableOk t := by
  rw [TableOk, ht]; exact h

/-! ### The record law (R43, R45, R49) -/

/-- The parts of a state besides the table that the record law speaks of. -/
structure SameRecords (s t : State) : Prop where
  eng : t.eng = s.eng
  cfg : t.cfg = s.cfg
  queue : t.pres.queue = s.pres.queue
  filter : t.pres.filter = s.pres.filter

theorem TableOnly.sameRecords {s t : State} (h : TableOnly s t) : SameRecords s t :=
  ⟨h.eng, h.cfg, h.queue, h.filter⟩

theorem recordOk_of_same {s t : State} (h : RecordOk s) (hs : SameRecords s t) (ht : t.table = s.table)
    (hc : t.pres.claims = s.pres.claims) : RecordOk t := by
  obtain ⟨he, hg, hq, hf⟩ := hs
  simp only [RecordOk, queueLaw, claimLaw, ownerLaw, epochLaw, he, hg, hq, hf, ht, hc] at h ⊢
  exact h

/-- An entry without claim or record is replaced by one without record; where the new one holds a claim,
the claim is counted, the engine takes records, and there is room. -/
theorem recordOk_putIn {s t : State} (hT : TableOk s) (h : RecordOk s) (hs : SameRecords s t)
    {x e : Entry} (ht : t.table = putIn e s.table) (hx : x ∈ s.table) (htag : x.tag = e.tag)
    (hxp : x.preserving = false) (hrec : e.stage ≠ .recording)
    (hcl : (e.claims = false ∧ t.pres.claims = s.pres.claims) ∨
      (e.claims = true ∧ t.pres.claims = s.pres.claims + 1 ∧ e.epoch = some s.eng.epoch ∧
        takesRecords s.eng = true ∧ s.pres.queue.length + s.pres.claims < Config.recordPlaces ∧
        s.eng.nextIndex + s.pres.claims < capacity s.cfg)) : RecordOk t := by
  obtain ⟨he, hg, hq, hf⟩ := hs
  obtain ⟨hql, ⟨hcount, hplaces, hcap⟩, ⟨hown, howner⟩, ⟨hep, hzero⟩⟩ := h
  have hxc : x.claims = false := by
    simp only [Entry.preserving, Bool.or_eq_false_iff] at hxp; exact hxp.1
  have hxr : x.stage ≠ .recording := by
    intro h; simp [Entry.preserving, h] at hxp
  have hcnt := countP_putIn Entry.claims hT.2.1 hx htag
  rw [hxc] at hcnt
  refine ⟨?_, ⟨?_, ?_, ?_⟩, ⟨?_, ?_⟩, ⟨?_, ?_⟩⟩
  · rw [queueLaw, hq, he]; exact hql
  · rw [ht]
    rcases hcl with ⟨h1, h2⟩ | ⟨h1, h2, -⟩ <;> rw [h1] at hcnt <;>
      simp only [Bool.toNat_false, Bool.toNat_true, Nat.add_zero] at hcnt <;> omega
  · rw [hq]; rcases hcl with ⟨-, h2⟩ | ⟨-, h2, -, -, h3, -⟩ <;> omega
  · rw [he, hg]; rcases hcl with ⟨-, h2⟩ | ⟨-, h2, -, -, -, h3⟩ <;> omega
  · intro r hr
    obtain ⟨y, hy, h1, h2, h3⟩ := hown r (hq ▸ hr)
    refine ⟨y, ?_, h1, h2, h3⟩
    rw [ht]
    refine mem_putIn_other hy fun hyt => ?_
    exact hxr (entry_eq_of_tag hT.2.1 hx hy (htag.trans hyt.symm) ▸ h2)
  · intro y hy hst
    rw [ht] at hy
    rcases mem_putIn hy with rfl | ⟨hy, -⟩
    · exact absurd hst hrec
    · rw [hq]; exact howner y hy hst
  · intro y hy hyp
    rw [ht] at hy
    rw [he]
    rcases mem_putIn hy with rfl | ⟨hy, -⟩
    · rcases hcl with ⟨h1, -⟩ | ⟨h1, -, h2, h3, -⟩
      · simp [Entry.preserving, h1, hrec] at hyp
      · refine ⟨?_, h2, h3⟩
        simp only [Entry.claims, Bool.and_eq_true, beq_iff_eq] at h1
        exact h1.2
    · exact hep y hy hyp
  · rw [he, hf]; exact hzero

/-- An entry without claim or record is freed. -/
theorem recordOk_without {s t : State} (hT : TableOk s) (h : RecordOk s) (hs : SameRecords s t)
    {x : Entry} (ht : t.table = without x.tag s.table) (hx : x ∈ s.table)
    (hxp : x.preserving = false) (hc : t.pres.claims = s.pres.claims) : RecordOk t := by
  obtain ⟨he, hg, hq, hf⟩ := hs
  obtain ⟨hql, ⟨hcount, hplaces, hcap⟩, ⟨hown, howner⟩, ⟨hep, hzero⟩⟩ := h
  have hxc : x.claims = false := by
    simp only [Entry.preserving, Bool.or_eq_false_iff] at hxp; exact hxp.1
  have hcnt := countP_without Entry.claims hT.2.1 hx
  rw [hxc] at hcnt
  refine ⟨?_, ⟨?_, ?_, ?_⟩, ⟨?_, ?_⟩, ⟨?_, ?_⟩⟩
  · rw [queueLaw, hq, he]; exact hql
  · rw [ht, hc]; simp only [Bool.toNat_false, Nat.add_zero] at hcnt; omega
  · rw [hq, hc]; exact hplaces
  · rw [he, hg, hc]; exact hcap
  · intro r hr
    obtain ⟨y, hy, h1, h2, h3⟩ := hown r (hq ▸ hr)
    refine ⟨y, ?_, h1, h2, h3⟩
    rw [ht]
    refine mem_without.mpr ⟨hy, fun hyt => ?_⟩
    have := entry_eq_of_tag hT.2.1 hy hx hyt
    rw [this] at h2
    simp [Entry.preserving, h2] at hxp
  · intro y hy hst
    rw [ht] at hy
    rw [hq]; exact howner y (mem_without.mp hy).1 hst
  · intro y hy hyp
    rw [ht] at hy
    rw [he]; exact hep y (mem_without.mp hy).1 hyp
  · rw [he, hf]; exact hzero

end Sys2Proof.Machine
end

