-- ==== Sys2Proof/Laws/Table.lean ====
section
/-! SUPPORT. What a turn, a re-examination, a visit and an admission can do, said once; that they move only
what the table moves, and that they keep the table's order and the record law. -/

namespace Sys2Proof.Machine

/-- The two invariants the table's moves depend on together. -/
abbrev TrafficOk (s : State) : Prop := TableOk s ∧ RecordOk s

theorem trafficOk_of_same {s t : State} (h : TrafficOk s) (ho : TableOnly s t) (ht : t.table = s.table)
    (hc : t.pres.claims = s.pres.claims) : TrafficOk t :=
  ⟨tableOk_of_table h.1 ht, recordOk_of_same h.2 ho.sameRecords ht hc⟩

/-! ### Frames -/

theorem reportFull_tableOnly (e : Entry) (s : State) : TableOnly s (reportFull e s) := by
  unfold reportFull
  split
  · exact .refl s
  · exact TableOnly.trans (by constructor <;> first | rfl | exact id) (report_tableOnly _ _ _)

@[simp] theorem reportFull_table (e : Entry) (s : State) : (reportFull e s).table = s.table := by
  unfold reportFull; split <;> simp

@[simp] theorem reportFull_claims (e : Entry) (s : State) :
    (reportFull e s).pres.claims = s.pres.claims := by
  unfold reportFull; split <;> simp

theorem noteBare_tableOnly (e : Entry) (s : State) : TableOnly s (noteBare e s) := by
  unfold noteBare
  split
  · dsimp only
    split
    · exact setClass_tableOnly _ _
    · exact (setClass_tableOnly _ _).trans (post_tableOnly _ _)
  · exact .refl s

@[simp] theorem noteBare_table (e : Entry) (s : State) : (noteBare e s).table = s.table := by
  unfold noteBare; split
  · dsimp only; split <;> simp
  · rfl

@[simp] theorem noteBare_pres (e : Entry) (s : State) : (noteBare e s).pres = s.pres := by
  unfold noteBare; split
  · dsimp only; split <;> simp
  · rfl

theorem forward_tableOnly (e : Entry) (s : State) : TableOnly s (forward e s) :=
  (putEntry_tableOnly _ s).trans (enqueue_tableOnly _ _ _)

@[simp] theorem forward_table (e : Entry) (s : State) :
    (forward e s).table = putIn { e with stage := .issued } s.table := by simp [forward]

@[simp] theorem forward_pres (e : Entry) (s : State) : (forward e s).pres = s.pres := by simp [forward]

theorem forwardInOrder_tableOnly (e : Entry) (s : State) : TableOnly s (forwardInOrder e s) :=
  (putEntry_tableOnly _ s).trans (enqueueLast_tableOnly _ _ _)

@[simp] theorem forwardInOrder_table (e : Entry) (s : State) :
    (forwardInOrder e s).table = putIn { e with stage := .issued } s.table := rfl

@[simp] theorem forwardInOrder_pres (e : Entry) (s : State) : (forwardInOrder e s).pres = s.pres := rfl

theorem fetchOld_tableOnly (e : Entry) (s : State) : TableOnly s (fetchOld e s) :=
  (putEntry_tableOnly _ s).trans (enqueue_tableOnly _ _ _)

@[simp] theorem fetchOld_table (e : Entry) (s : State) :
    (fetchOld e s).table = putIn { e with stage := .fetchingOld } s.table := by simp [fetchOld]

@[simp] theorem fetchOld_pres (e : Entry) (s : State) : (fetchOld e s).pres = s.pres := by
  simp [fetchOld]

theorem startWrite_tableOnly (e : Entry) (s : State) : TableOnly s (startWrite e s) := by
  unfold startWrite; split
  · exact forward_tableOnly e s
  · exact fetchOld_tableOnly e s

@[simp] theorem startWrite_pres (e : Entry) (s : State) : (startWrite e s).pres = s.pres := by
  unfold startWrite; split <;> simp

theorem applyVerdict_tableOnly (e : Entry) (v : Verdict) (s : State) :
    TableOnly s (applyVerdict e v s) := by
  cases v with
  | hold c =>
    refine TableOnly.trans ?_ (putEntry_tableOnly _ _)
    split
    · exact reportFull_tableOnly e s
    · exact .refl s
  | issueRead => exact (putEntry_tableOnly _ s).trans (enqueue_tableOnly _ _ _)
  | refuse w =>
    refine TableOnly.trans ?_ (denyEntry_tableOnly _ _ _)
    split
    · exact reportFull_tableOnly e s
    · exact .refl s
  | bare => exact (noteBare_tableOnly e s).trans (startWrite_tableOnly _ _)
  | filterHit => exact startWrite_tableOnly _ _
  | preserve => exact TableOnly.trans (by constructor <;> first | rfl | exact id) (fetchOld_tableOnly _ _)
  | atTurn => exact putEntry_tableOnly _ s

theorem examine_tableOnly (e : Entry) (s : State) : TableOnly s (examine e s) :=
  applyVerdict_tableOnly e _ s

theorem turns_tableOnly (n : Nat) (c : CellIx) (s : State) : TableOnly s (turns n c s) := by
  induction n generalizing s with
  | zero => exact .refl s
  | succ n ih =>
    unfold turns
    split
    · exact .refl s
    · exact (examine_tableOnly _ s).trans (ih _)

theorem giveTurn_tableOnly (c : CellIx) (s : State) : TableOnly s (giveTurn c s) :=
  turns_tableOnly _ c s

theorem reexamine_tableOnly (e : Entry) (s : State) : TableOnly s (reexamine e s) :=
  (examine_tableOnly e s).trans (giveTurn_tableOnly _ _)

theorem visitOne_tableOnly (p : State → Entry → Bool) (s : State) (t : Tag) :
    TableOnly s (visitOne p s t) := by
  unfold visitOne
  split
  · exact .refl s
  · split
    · split
      · exact reexamine_tableOnly _ s
      · exact giveTurn_tableOnly _ s
    · exact .refl s

theorem foldl_tableOnly {α : Type} (f : State → α → State) (h : ∀ s a, TableOnly s (f s a))
    (l : List α) (s : State) : TableOnly s (l.foldl f s) := by
  induction l generalizing s with
  | nil => exact .refl s
  | cons a l ih => exact (h s a).trans (ih _)

theorem visit_tableOnly (p : State → Entry → Bool) (s : State) : TableOnly s (visit p s) :=
  foldl_tableOnly _ (visitOne_tableOnly p) _ s

theorem afterFree_tableOnly (cs : List CellIx) (a b : Bool) (s : State) :
    TableOnly s (afterFree cs a b s) := visit_tableOnly _ s

theorem refuseRequest_tableOnly (r : HostRequest) (w : ProtocolReason) (s : State) :
    TableOnly s (refuseRequest r w s) := (respond_tableOnly _ _ s).trans (report_tableOnly _ _ _)

theorem takeRequest_tableOnly (r : HostRequest) (s : State) : TableOnly s (takeRequest r s) := by
  unfold takeRequest
  split
  · exact refuseRequest_tableOnly r _ s
  · split
    · exact refuseRequest_tableOnly r _ s
    · exact TableOnly.trans (by constructor <;> first | rfl | exact id) (giveTurn_tableOnly _ _)

theorem expireHold_tableOnly (e : Entry) (c : HoldCause) (s : State) :
    TableOnly s (expireHold e c s) :=
  ((endEntry_tableOnly e .failed s).trans (report_tableOnly _ _ _)).trans (giveTurn_tableOnly _ _)

theorem expireIfDue_tableOnly (s : State) (t : Tag) : TableOnly s (expireIfDue s t) := by
  unfold expireIfDue
  split
  · exact .refl s
  · exact expireHold_tableOnly _ _ s

/-- A change of engine state changes the state, and then only what the table moves. -/
theorem enterState_tableOnly (n : EngState) (s : State) :
    TableOnly { s with eng := { s.eng with state := n } } (enterState n s) := visit_tableOnly _ _

theorem enterState_eng (n : EngState) (s : State) :
    (enterState n s).eng = { s.eng with state := n } := (enterState_tableOnly n s).eng

/-! ### What an examination does -/

/-- A write is decided PRESERVE in OPEN only, with room in the journal and a place free (R31, R43). -/
theorem verdict_preserve {s : State} {e : Entry} (h : verdict s e = .preserve) :
    s.eng.state = .opened ∧ journalFull s = false ∧ placeFree s.pres = true := by
  unfold verdict at h
  split at h
  · cases h
  · split at h
    · cases h
    · unfold decision at h
      split at h <;> try cases h
      split at h <;> try cases h
      · split at h <;> cases h
      · rename_i hs
        split at h
        · cases h
        · split at h
          · cases h
          · rename_i hf
            split at h
            · exact ⟨hs, by simpa using hf, ‹_›⟩
            · cases h

theorem examine_eq (e : Entry) (s : State) : examine e s = applyVerdict e (verdict s e) s := rfl

/-- What an examination does to the table and the claims: the entry leaves WAITING for a stage before its
record, with a claim exactly when it is decided PRESERVE, or it is answered and freed. -/
theorem examine_cases (e : Entry) (s : State) :
    (∃ st d ep, (examine e s).table = putIn { e with stage := st, decision := d, epoch := ep } s.table ∧
        st ≠ .waiting ∧ st ≠ .recording ∧
        ((¬ (st = .fetchingOld ∧ d = some .preserve) ∧
            (examine e s).pres.claims = s.pres.claims) ∨
          (st = .fetchingOld ∧ d = some .preserve ∧ ep = some s.eng.epoch ∧ s.eng.state = .opened ∧
            journalFull s = false ∧ placeFree s.pres = true ∧
            (examine e s).pres.claims = s.pres.claims + 1))) ∨
      ((examine e s).table = without e.tag s.table ∧ (examine e s).pres.claims = s.pres.claims) := by
  rw [examine_eq]
  cases hv : verdict s e with
  | hold c =>
    refine .inl ⟨.held c (heldSince s e), e.decision, e.epoch, ?_, by simp, by simp, .inl ⟨by simp, ?_⟩⟩ <;>
      simp only [applyVerdict, putEntry_table, putEntry_pres] <;> split <;> simp
  | issueRead =>
    exact .inl ⟨.issued, e.decision, e.epoch, by simp [applyVerdict], by simp, by simp,
      .inl ⟨by simp, by simp [applyVerdict]⟩⟩
  | refuse w =>
    refine .inr ⟨?_, ?_⟩ <;> simp only [applyVerdict, denyEntry_table, denyEntry_pres] <;> split <;> simp
  | bare =>
    by_cases hw : e.watched = []
    · exact .inl ⟨.issued, some .bare, e.epoch, by simp [applyVerdict, startWrite, hw], by simp, by simp,
        .inl ⟨by simp, by simp [applyVerdict]⟩⟩
    · exact .inl ⟨.fetchingOld, some .bare, e.epoch, by simp [applyVerdict, startWrite, hw], by simp,
        by simp, .inl ⟨by simp, by simp [applyVerdict]⟩⟩
  | filterHit =>
    by_cases hw : e.watched = []
    · exact .inl ⟨.issued, some .filterHit, some s.eng.epoch, by simp [applyVerdict, startWrite, hw],
        by simp, by simp, .inl ⟨by simp, by simp [applyVerdict]⟩⟩
    · exact .inl ⟨.fetchingOld, some .filterHit, some s.eng.epoch, by simp [applyVerdict, startWrite, hw],
        by simp, by simp, .inl ⟨by simp, by simp [applyVerdict]⟩⟩
  | preserve =>
    obtain ⟨h1, h2, h3⟩ := verdict_preserve hv
    exact .inl ⟨.fetchingOld, some .preserve, some s.eng.epoch, by simp [applyVerdict], by simp, by simp,
      .inr ⟨rfl, rfl, rfl, h1, h2, h3, by simp [applyVerdict]⟩⟩
  | atTurn =>
    exact .inl ⟨.atTurn, e.decision, e.epoch, by simp [applyVerdict], by simp, by simp,
      .inl ⟨by simp, by simp [applyVerdict]⟩⟩

/-! ### The invariants kept -/

/-- The stages before the decision point, in which an entry is tested (R22, R27). -/
def Entry.undecided (e : Entry) : Bool :=
  match e.stage with
  | .waiting => true
  | .held _ _ => true
  | .atTurn => true
  | _ => false

theorem Entry.undecided_not_preserving {e : Entry} (h : e.undecided = true) : e.preserving = false := by
  cases hs : e.stage <;> simp_all [Entry.undecided, Entry.preserving, Entry.claims]

theorem examine_keeps {s : State} (h : TrafficOk s) {e : Entry} (he : e ∈ s.table)
    (hu : e.undecided = true)
    (hp : e.pastWaiting = true ∨ ∀ y ∈ s.table, y.cell = e.cell → y.pastWaiting = false) :
    TrafficOk (examine e s) := by
  have ho := examine_tableOnly e s
  rcases examine_cases e s with ⟨st, d, ep, ht, -, hr, hc⟩ | ⟨ht, hc⟩
  · refine ⟨tableOk_putIn h.1 ht he rfl rfl hp, recordOk_putIn h.1 h.2 ho.sameRecords ht he rfl
      (Entry.undecided_not_preserving hu) hr ?_⟩
    rcases hc with ⟨hn, hc⟩ | ⟨rfl, rfl, rfl, hst, hj, hf, hc⟩
    · refine .inl ⟨?_, hc⟩
      simpa [Entry.claims, Bool.and_eq_false_iff, beq_eq_false_iff_ne, not_and_or] using hn
    · refine .inr ⟨by simp [Entry.claims], hc, rfl, by simp [takesRecords, hst], ?_, ?_⟩
      · simpa [placeFree] using hf
      · simpa [journalFull] using hj
  · exact ⟨tableOk_sublist h.1 (ht ▸ without_sublist _ _),
      recordOk_without h.1 h.2 ho.sameRecords ht he (Entry.undecided_not_preserving hu) hc⟩

theorem turnOf_some {s : State} {c : CellIx} {e : Entry} (h : turnOf s c = some e) :
    e ∈ s.table ∧ e.cell = c ∧ e.stage = .waiting ∧ staleWriteTo s.mport c = false ∧
      ∀ y ∈ s.table, y.cell = c → y.pastWaiting = false := by
  unfold turnOf at h
  split at h
  · cases h
  · rename_i hn
    have hm := List.mem_of_find?_eq_some h
    have hc : e.cell = c := by simpa using List.find?_some h
    simp only [Bool.or_eq_true, List.any_eq_true, Bool.and_eq_true, beq_iff_eq, not_or, not_exists,
      not_and, Bool.not_eq_true] at hn
    refine ⟨hm, hc, ?_, hn.2, hn.1⟩
    have := hn.1 e hm hc
    simpa [Entry.pastWaiting] using this

theorem turns_keeps {s : State} (h : TrafficOk s) (n : Nat) (c : CellIx) : TrafficOk (turns n c s) := by
  induction n generalizing s with
  | zero => exact h
  | succ n ih =>
    unfold turns
    split
    · exact h
    · rename_i e he
      obtain ⟨hm, hc, hw, -, hn⟩ := turnOf_some he
      exact ih (examine_keeps h hm (by simp [Entry.undecided, hw]) (.inr (hc ▸ hn)))

theorem giveTurn_keeps {s : State} (h : TrafficOk s) (c : CellIx) : TrafficOk (giveTurn c s) :=
  turns_keeps h _ c

theorem entryOf_some {s : State} {t : Tag} {e : Entry} (h : entryOf s t = some e) :
    e ∈ s.table ∧ e.tag = t :=
  ⟨List.mem_of_find?_eq_some h, by simpa using List.find?_some h⟩

theorem entryOf_none {s : State} {t : Tag} (h : entryOf s t = none) : ∀ e ∈ s.table, e.tag ≠ t := by
  intro e he ht
  have := List.find?_eq_none.mp h e he
  simp [ht] at this

/-- With distinct tags an entry is the one its tag names. -/
theorem entryOf_mem {s : State} (h : TableOk s) {e : Entry} (he : e ∈ s.table) :
    entryOf s e.tag = some e := by
  cases hf : entryOf s e.tag with
  | none => exact absurd rfl (entryOf_none hf e he)
  | some x =>
    obtain ⟨hx, ht⟩ := entryOf_some hf
    rw [entry_eq_of_tag h.2.1 hx he ht]

/-- A choice that names undecided entries only. -/
abbrev ChoosesUndecided (p : State → Entry → Bool) : Prop := ∀ s e, p s e = true → e.undecided = true

theorem visitOne_keeps {p : State → Entry → Bool} (hp : ChoosesUndecided p) {s : State}
    (h : TrafficOk s) (t : Tag) : TrafficOk (visitOne p s t) := by
  unfold visitOne
  split
  · exact h
  · rename_i e he
    split
    · rename_i hc
      split
      · rename_i hw
        exact giveTurn_keeps (examine_keeps h (entryOf_some he).1 (hp s e hc) (.inl hw)) _
      · exact giveTurn_keeps h _
    · exact h

theorem foldl_keeps {α : Type} {P : State → Prop} (f : State → α → State) (h : ∀ s a, P s → P (f s a))
    (l : List α) {s : State} (hs : P s) : P (l.foldl f s) := by
  induction l generalizing s with
  | nil => exact hs
  | cons a l ih => exact ih (h s a hs)

theorem visit_keeps {p : State → Entry → Bool} (hp : ChoosesUndecided p) {s : State}
    (h : TrafficOk s) : TrafficOk (visit p s) :=
  foldl_keeps (P := fun s => TrafficOk s) _ (fun _ t hs => visitOne_keeps hp hs t) _ h

theorem freedChoice_undecided (cs : List CellIx) (a b : Bool) : ChoosesUndecided (freedChoice cs a b) := by
  intro s e h
  cases hs : e.stage <;> simp_all [freedChoice, Entry.undecided]

theorem stateChoice_undecided (o n : EngState) : ChoosesUndecided (fun _ e => stateChoice o n e) := by
  intro s e h
  cases hs : e.stage <;> simp_all [stateChoice, Entry.undecided]

theorem heldWith_undecided (c : HoldCause) : ChoosesUndecided (fun _ e => e.heldWith c) := by
  intro s e h
  cases hs : e.stage <;> simp_all [Entry.heldWith, Entry.undecided]

theorem atTurn_undecided : ChoosesUndecided (fun _ e => e.stage == .atTurn) := by
  intro s e h
  have hs : e.stage = .atTurn := by simpa using h
  simp [Entry.undecided, hs]

/-! ### Decided entries stay -/

/-- An examination of one entry leaves the others in the table. -/
theorem examine_others {s : State} {x e : Entry} (he : e ∈ s.table) (ht : e.tag ≠ x.tag) :
    e ∈ (examine x s).table := by
  rcases examine_cases x s with ⟨st, d, ep, h, -⟩ | ⟨h, -⟩
  · rw [h]; exact mem_putIn_other he ht
  · rw [h]; exact mem_without.mpr ⟨he, ht⟩

theorem tag_ne_of_undecided {s : State} (h : TableOk s) {x e : Entry} (hx : x ∈ s.table) (he : e ∈ s.table)
    (hu : x.undecided = true) (hd : e.undecided = false) : e.tag ≠ x.tag := by
  intro ht
  rw [entry_eq_of_tag h.2.1 he hx ht, hu] at hd
  cases hd

theorem examine_tableOk {s : State} (h : TableOk s) {e : Entry} (he : e ∈ s.table)
    (hp : e.pastWaiting = true ∨ ∀ y ∈ s.table, y.cell = e.cell → y.pastWaiting = false) :
    TableOk (examine e s) := by
  rcases examine_cases e s with ⟨st, d, ep, ht, -⟩ | ⟨ht, -⟩
  · exact tableOk_putIn h ht he rfl rfl hp
  · exact tableOk_sublist h (ht ▸ without_sublist _ _)

/-- Turns and re-examinations leave a decided entry as it is. -/
theorem turns_decided {s : State} (h : TableOk s) {e : Entry} (he : e ∈ s.table)
    (hd : e.undecided = false) (n : Nat) (c : CellIx) :
    TableOk (turns n c s) ∧ e ∈ (turns n c s).table := by
  induction n generalizing s with
  | zero => exact ⟨h, he⟩
  | succ n ih =>
    unfold turns
    split
    · exact ⟨h, he⟩
    · rename_i x hx
      obtain ⟨hm, hc, hw, -, hp⟩ := turnOf_some hx
      have hu : x.undecided = true := by simp [Entry.undecided, hw]
      exact ih (examine_tableOk h hm (.inr fun y hy hyc => hp y hy (hyc.trans hc)))
        (examine_others he (tag_ne_of_undecided h hm he hu hd))

theorem visit_decided {p : State → Entry → Bool} (hp : ChoosesUndecided p) {s : State} (h : TableOk s)
    {e : Entry} (he : e ∈ s.table) (hd : e.undecided = false) :
    TableOk (visit p s) ∧ e ∈ (visit p s).table := by
  refine foldl_keeps (P := fun t => TableOk t ∧ e ∈ t.table) _ ?_ _ ⟨h, he⟩
  intro t tag ⟨ht, hm⟩
  unfold visitOne
  split
  · exact ⟨ht, hm⟩
  · rename_i x hx
    split
    · rename_i hc
      have hu := hp t x hc
      split
      · rename_i hpw
        exact turns_decided (examine_tableOk ht (entryOf_some hx).1 (.inl hpw))
          (examine_others hm (tag_ne_of_undecided ht (entryOf_some hx).1 hm hu hd)) hd _ _
      · exact turns_decided ht hm hd _ _
    · exact ⟨ht, hm⟩

/-- A state entered leaves decided entries as they are. -/
theorem enterState_decided {n : EngState} {s : State} (h : TableOk s) {e : Entry} (he : e ∈ s.table)
    (hd : e.undecided = false) : TableOk (enterState n s) ∧ e ∈ (enterState n s).table :=
  visit_decided (stateChoice_undecided _ _) (s := { s with eng := { s.eng with state := n } }) h he hd

theorem afterFree_keeps (cs : List CellIx) (a b : Bool) {s : State} (h : TrafficOk s) :
    TrafficOk (afterFree cs a b s) := visit_keeps (freedChoice_undecided cs a b) h

/-- An entry without claim or record is answered and freed. -/
theorem without_keeps {s t : State} (h : TrafficOk s) (ho : TableOnly s t) {e : Entry}
    (he : e ∈ s.table) (hp : e.preserving = false) (ht : t.table = without e.tag s.table)
    (hc : t.pres.claims = s.pres.claims) : TrafficOk t :=
  ⟨tableOk_sublist h.1 (ht ▸ without_sublist _ _), recordOk_without h.1 h.2 ho.sameRecords ht he hp hc⟩

theorem expireHold_keeps {s : State} (h : TrafficOk s) {e : Entry} (c : HoldCause) (he : e ∈ s.table)
    (hu : e.undecided = true) : TrafficOk (expireHold e c s) :=
  giveTurn_keeps (without_keeps h ((endEntry_tableOnly e .failed s).trans (report_tableOnly _ _ _)) he
    (Entry.undecided_not_preserving hu) (by simp) (by simp)) _

theorem dueHold_some {s : State} {t : Tag} {e : Entry} {c : HoldCause} (h : dueHold s t = some (e, c)) :
    entryOf s t = some e ∧ expiredHold s e = some c := by
  unfold dueHold at h
  split at h
  · cases h
  · rename_i x hx
    split at h
    · cases h
    · rename_i c' hc
      simp only [Option.some.injEq, Prod.mk.injEq] at h
      obtain ⟨rfl, rfl⟩ := h
      exact ⟨hx, hc⟩

theorem expiredHold_some {s : State} {e : Entry} {c : HoldCause} (h : expiredHold s e = some c) :
    ∃ since, e.stage = .held c since ∧ timersRun s = true ∧ s.cfg.holdLimit ≠ 0 ∧
      elapsed s since s.cfg.holdLimit.toNat = true := by
  unfold expiredHold at h
  split at h
  · rename_i c' since hs
    split at h
    · rename_i hc
      cases h
      exact ⟨since, hs, hc⟩
    · cases h
  · cases h

theorem expireIfDue_keeps {s : State} (h : TrafficOk s) (t : Tag) : TrafficOk (expireIfDue s t) := by
  unfold expireIfDue
  split
  · exact h
  · rename_i e c hd
    obtain ⟨he, hx⟩ := dueHold_some hd
    obtain ⟨since, hs, -⟩ := expiredHold_some hx
    exact expireHold_keeps h c (entryOf_some he).1 (by simp [Entry.undecided, hs])

theorem takeRequest_keeps {s : State} (h : TrafficOk s) (r : HostRequest)
    (hroom : s.table.length < Config.tableSize) : TrafficOk (takeRequest r s) := by
  unfold takeRequest
  split
  · exact trafficOk_of_same h (refuseRequest_tableOnly r _ s) (by simp [refuseRequest])
      (by simp [refuseRequest])
  · rename_i ht
    split
    · exact trafficOk_of_same h (refuseRequest_tableOnly r _ s) (by simp [refuseRequest])
        (by simp [refuseRequest])
    · refine giveTurn_keeps ⟨⟨?_, ?_, ?_⟩, ?_⟩ _
      · simp only [List.length_append, List.length_singleton]; omega
      · have hfresh : ∀ x ∈ s.table, x.tag ≠ r.tag := by
          refine entryOf_none ?_
          simpa using ht
        simp only [List.map_append, List.map_cons, List.map_nil]
        refine List.nodup_append.mpr ⟨h.1.2.1, by simp, ?_⟩
        intro a ha b hb hab
        obtain ⟨x, hx, rfl⟩ := List.mem_map.mp ha
        simp only [List.mem_singleton] at hb
        exact hfresh x hx (hab.trans (by rw [hb, newEntry]))
      · intro x hx y hy hcell hxp hyp
        have hnew : (newEntry r s).pastWaiting = false := rfl
        simp only [List.mem_append, List.mem_singleton] at hx hy
        rcases hx with hx | rfl
        · rcases hy with hy | rfl
          · exact h.1.2.2 x hx y hy hcell hxp hyp
          · rw [hnew] at hyp; cases hyp
        · rw [hnew] at hxp; cases hxp
      · obtain ⟨hq, ⟨h1, h2, h3⟩, ⟨h4, h5⟩, h6, h7⟩ := h.2
        have hcl : (newEntry r s).claims = false := rfl
        have hst : (newEntry r s).stage = .waiting := rfl
        have hpr : (newEntry r s).preserving = false := rfl
        refine ⟨hq, ⟨?_, h2, h3⟩, ⟨?_, ?_⟩, ?_, h7⟩
        · simpa [List.countP_append, hcl] using h1
        · intro x hx
          obtain ⟨y, hy, hh⟩ := h4 x hx
          exact ⟨y, List.mem_append_left _ hy, hh⟩
        · intro x hx hs
          simp only [List.mem_append, List.mem_singleton] at hx
          rcases hx with hx | rfl
          · exact h5 x hx hs
          · rw [hst] at hs; cases hs
        · intro x hx hs
          simp only [List.mem_append, List.mem_singleton] at hx
          rcases hx with hx | rfl
          · exact h6 x hx hs
          · rw [hpr] at hs; cases hs

end Sys2Proof.Machine
end

