-- ==== Sys2Proof/Laws/Watch.lean ====
section
/-! SUPPORT. What an evaluation can change, said once: the rules' states, the classes and the notices; and
that a rule's state keeps fitting its configuration. -/

namespace Sys2Proof.Machine

/-- From s to t only the rules and the reports changed, the rules staying sound. -/
structure WatchOnly (s t : State) : Prop where
  rest : ∃ rs ev, t = { s with rules := rs, ev := ev }
  levels : t.ev.levels = s.ev.levels
  notices : NoticesOk s → NoticesOk t
  rules : RulesOk s → RulesOk t

theorem WatchOnly.refl (s : State) : WatchOnly s s := ⟨⟨s.rules, s.ev, rfl⟩, rfl, id, id⟩

theorem WatchOnly.trans {s t u : State} (h : WatchOnly s t) (k : WatchOnly t u) : WatchOnly s u := by
  obtain ⟨rs, ev, rfl⟩ := h.rest
  obtain ⟨rs', ev', rfl⟩ := k.rest
  exact ⟨⟨rs', ev', rfl⟩, k.levels.trans h.levels, fun hn => k.notices (h.notices hn),
    fun hr => k.rules (h.rules hr)⟩

theorem ruleOk_get {s : State} (h : RulesOk s) (n : RuleNo) : ruleOk s.rules[n] :=
  h _ (Vector.mem_toList_iff.mpr (Vector.getElem_mem _))

theorem rulesOk_set {rules : Vector WatchRule 8} (h : ∀ r ∈ rules.toList, ruleOk r) (n : RuleNo)
    {r : WatchRule} (hr : ruleOk r) : ∀ x ∈ (rules.set n r).toList, ruleOk x := by
  intro x hx
  rw [Vector.toList_set] at hx
  rcases List.mem_or_eq_of_mem_set hx with hx | rfl
  · exact h x hx
  · exact hr

theorem putRule_watchOnly (n : RuleNo) (r : WatchRule) (s : State) (hr : RulesOk s → ruleOk r) :
    WatchOnly s (putRule n r s) :=
  ⟨⟨_, _, rfl⟩, rfl, id, fun h => rulesOk_set h n (hr h)⟩

theorem report_watchOnly (c : EvClass) (b : NoticeBody) (s : State) : WatchOnly s (report c b s) := by
  have h := report_tableOnly c b s
  refine ⟨?_, h.levels, h.notices, fun hr => by rw [RulesOk, h.rules]; exact hr⟩
  unfold report
  rcases post_cases b s with ⟨-, hp⟩ | ⟨-, hp⟩ <;> rw [hp] <;> exact ⟨_, _, rfl⟩

/-- R120: a firing leaves the rule sound. -/
theorem ruleOk_fired {r : WatchRule} (h : ruleOk r) (he : r.enable = true) (ha : r.state = .armed)
    (n : BitVec 16) :
    ruleOk { r with hits := n, state := if r.rearmAuto then .armed else .fired } := by
  obtain ⟨h1, h2, h3, h4⟩ := h
  refine ⟨fun h => absurd (h.symm.trans he) (by simp), fun _ => ?_, fun h => ?_, fun h => ?_⟩
  · dsimp only; split <;> simp
  · dsimp only at h ⊢; simp [h]
  · exact absurd ((h4 h).symm.trans ha) (by simp)

theorem fireRule_watchOnly (n : RuleNo) (t : Tag) (o w : W64) (b : Option (Fin 64)) (s : State)
    (he : s.rules[n].enable = true) (ha : s.rules[n].state = .armed) :
    WatchOnly s (fireRule n t o w b s) :=
  (putRule_watchOnly n _ s fun h => ruleOk_fired (ruleOk_get h n) he ha _).trans
    (report_watchOnly _ _ _)

theorem overrunRule_watchOnly (n : RuleNo) (t : Tag) (s : State) (hf : s.rules[n].state = .fired) :
    WatchOnly s (overrunRule n t s) := by
  have hp : WatchOnly s (putRule n
      { s.rules[n] with hits := countHit s.rules[n].hits, overrun := true } s) := by
    refine putRule_watchOnly n _ s fun h => ?_
    obtain ⟨h1, h2, h3, h4⟩ := ruleOk_get h n
    exact ⟨h1, h2, h3, fun _ => hf⟩
  unfold overrunRule
  dsimp only
  split
  · exact hp
  · exact hp.trans (report_watchOnly _ _ _)

/-- R119: one rule of an evaluation changes at most its own state and what is reported. -/
theorem evalRule_watchOnly (e : Entry) (old : CellData) (acc : State × List Asked) (n : RuleNo) :
    WatchOnly acc.1 (evalRule e old acc n).1 := by
  unfold evalRule
  dsimp only
  split
  · rename_i hc
    split
    · exact .refl _
    · split
      · rename_i ha
        simp only [Bool.and_eq_true] at hc
        exact fireRule_watchOnly _ _ _ _ _ _ hc.1 ha
      · rename_i hf
        exact overrunRule_watchOnly _ _ _ hf
      · exact .refl _
  · exact .refl _

theorem evaluate_watchOnly (e : Entry) (old : CellData) (s : State) :
    WatchOnly s (evaluate e old s).1 := by
  unfold evaluate
  generalize e.watched = l
  suffices h : ∀ acc : State × List Asked, WatchOnly s acc.1 →
      WatchOnly s (l.foldl (evalRule e old) acc).1 from h _ (.refl s)
  induction l with
  | nil => exact fun _ h => h
  | cons n l ih => exact fun acc h => ih _ (h.trans (evalRule_watchOnly e old acc n))

/-! ### Writes of a rule's registers -/

theorem ruleOk_wctlStore {r : WatchRule} (h : ruleOk r) (v : W32) : ruleOk (wctlStore r v) := by
  unfold wctlStore
  split
  · exact h
  · rename_i he
    obtain ⟨h1, h2, h3, h4⟩ := h
    have hd := h1 (by simpa using he)
    exact ⟨fun _ => hd, fun h => absurd h he, fun _ => by simp [hd], h4⟩

theorem ruleOk_wctlEnableStore {r : WatchRule} (h : ruleOk r) (en : Bool) :
    ruleOk (wctlEnableStore r en) := by
  unfold wctlEnableStore
  split
  · exact ⟨by simp, by simp, by simp, by simp⟩
  · exact ⟨by simp, by simp, by simp, by simp⟩
  · exact h

theorem ruleOk_rearmed {r : WatchRule} (h : ruleOk r) : ruleOk (rearmed r) := by
  unfold rearmed
  split
  · exact ⟨fun h => by simp_all, by simp, by simp, by simp⟩
  · exact h

theorem ruleOk_softResetRule (r : WatchRule) : ruleOk (softResetRule r) := by
  unfold softResetRule
  split
  · exact ⟨fun h => by simp_all, by simp, by simp, by simp⟩
  · exact ⟨by simp, fun h => by simp_all, by simp, by simp⟩

end Sys2Proof.Machine
end

