-- ==== Sys2Proof/Laws/Preserve.lean ====
section
/-! SUPPORT. What the preservation unit's operations keep: the record law (R43 to R49, R58), the filter's
bound (R51, R52), and the frames of slot writes. -/

namespace Sys2Proof.Machine

/-! ### The filter -/

theorem count_eraseP_le {α : Type} (p q : α → Bool) (l : List α) :
    ((l.eraseP p).filter q).length ≤ (l.filter q).length :=
  ((List.eraseP_sublist).filter q).length_le

theorem countP_eraseP_self {α : Type} (p : α → Bool) (l : List α) (h : 0 < l.countP p) :
    (l.eraseP p).countP p + 1 = l.countP p := by
  induction l with
  | nil => simp at h
  | cons a l ih =>
    by_cases ha : p a = true
    · simp [ha]
    · rw [List.countP_cons_of_neg ha] at h
      simp [ha, ih h]

/-- R52: an insertion keeps every set at 4 entries or fewer. -/
theorem filterInsert_bound (cell : CellIx) (k : Nat) (f : List FilterEntry)
    (h : ∀ x ∈ f, (f.filter (fun y => filterSet y.cell == filterSet x.cell)).length ≤ Config.filterWays) :
    ∀ x ∈ filterInsert cell k f,
      ((filterInsert cell k f).filter (fun y => filterSet y.cell == filterSet x.cell)).length ≤
        Config.filterWays := by
  have hset : ∀ n, (f.filter (fun y => filterSet y.cell == n)).length ≤ Config.filterWays := by
    intro n
    by_cases hx : ∃ x ∈ f, filterSet x.cell = n
    · obtain ⟨x, hx, rfl⟩ := hx; exact h x hx
    · have : f.filter (fun y => filterSet y.cell == n) = [] := by
        refine List.filter_eq_nil_iff.mpr fun y hy => ?_
        simp only [beq_iff_eq]; exact fun he => hx ⟨y, hy, he⟩
      rw [this]; exact Nat.zero_le _
  intro x _
  unfold filterInsert
  dsimp only
  rw [List.filter_append, List.length_append]
  by_cases hc : filterSet cell = filterSet x.cell
  · have hone : (List.filter (fun y => filterSet y.cell == filterSet x.cell)
        [({ cell := cell, index := k } : FilterEntry)]).length = 1 := by simp [hc]
    rw [hone, ← hc]
    split
    · omega
    · rename_i hfull
      have hp : (f.filter (fun y => filterSet y.cell == filterSet cell)).length = Config.filterWays :=
        Nat.le_antisymm (hset _) (Nat.le_of_not_lt hfull)
      rw [← List.countP_eq_length_filter] at hp ⊢
      have := countP_eraseP_self (fun y : FilterEntry => filterSet y.cell == filterSet cell) f
        (by rw [hp]; decide)
      omega
  · have hone : (List.filter (fun y => filterSet y.cell == filterSet x.cell)
        [({ cell := cell, index := k } : FilterEntry)]).length = 0 := by simp [hc]
    rw [hone]
    split
    · exact hset _
    · exact le_trans (count_eraseP_le _ _ _) (hset _)

/-! ### Moves of the record law -/

/-- An entry is replaced by one with the same stage, decision, epoch and record. -/
theorem trafficOk_relabel {s t : State} (h : TrafficOk s) (hs : SameRecords s t) {x e : Entry}
    (ht : t.table = putIn e s.table) (hx : x ∈ s.table) (htag : x.tag = e.tag) (hcell : x.cell = e.cell)
    (hst : e.stage = x.stage) (hd : e.decision = x.decision) (he : e.epoch = x.epoch)
    (hr : e.record = x.record) (hc : t.pres.claims = s.pres.claims)
    (hp : x.pastWaiting = true) : TrafficOk t := by
  refine ⟨tableOk_putIn h.1 ht hx htag hcell (.inl hp), ?_⟩
  obtain ⟨hE, hg, hq, hf⟩ := hs
  obtain ⟨hql, ⟨hcount, hplaces, hcap⟩, ⟨hown, howner⟩, ⟨hep, hzero⟩⟩ := h.2
  have hcl : e.claims = x.claims := by simp [Entry.claims, hst, hd]
  have hpr : e.preserving = x.preserving := by simp [Entry.preserving, hcl, hst]
  have hcnt := countP_putIn Entry.claims h.1.2.1 hx htag
  rw [hcl] at hcnt
  refine ⟨?_, ⟨?_, ?_, ?_⟩, ⟨?_, ?_⟩, ⟨?_, ?_⟩⟩
  · rw [queueLaw, hq, hE]; exact hql
  · rw [ht, hc]; omega
  · rw [hq, hc]; exact hplaces
  · rw [hE, hg, hc]; exact hcap
  · intro r hr'
    obtain ⟨y, hy, h1, h2, h3⟩ := hown r (hq ▸ hr')
    rw [ht]
    by_cases hyt : y.tag = e.tag
    · have := entry_eq_of_tag h.1.2.1 hy hx (hyt.trans htag.symm)
      subst this
      exact ⟨e, mem_putIn_self hy hyt, hyt.symm.trans h1, hst.trans h2, hr.trans h3⟩
    · exact ⟨y, mem_putIn_other hy hyt, h1, h2, h3⟩
  · intro y hy hys
    rw [ht] at hy
    rw [hq]
    rcases mem_putIn hy with rfl | ⟨hy, -⟩
    · obtain ⟨r, hr1, hr2, hr3⟩ := howner x hx (hst.symm.trans hys)
      exact ⟨r, hr1, hr2.trans htag, hr.trans hr3⟩
    · exact howner y hy hys
  · intro y hy hyp
    rw [ht] at hy
    rw [hE]
    rcases mem_putIn hy with rfl | ⟨hy, -⟩
    · obtain ⟨h1, h2, h3⟩ := hep x hx (hpr.symm.trans hyp)
      exact ⟨hd.trans h1, he.trans h2, h3⟩
    · exact hep y hy hyp
  · rw [hE, hf]; exact hzero

/-- R44: a write that holds a claim ends without a record, and its claim is released. -/
theorem trafficOk_release {s t : State} (h : TrafficOk s) (hs : SameRecords s t) {x : Entry}
    (ht : t.table = without x.tag s.table) (hx : x ∈ s.table) (hxc : x.claims = true)
    (hc : t.pres.claims = s.pres.claims - 1) : TrafficOk t := by
  refine ⟨tableOk_sublist h.1 (ht ▸ without_sublist _ _), ?_⟩
  obtain ⟨hE, hg, hq, hf⟩ := hs
  obtain ⟨hql, ⟨hcount, hplaces, hcap⟩, ⟨hown, howner⟩, ⟨hep, hzero⟩⟩ := h.2
  have hcnt := countP_without Entry.claims h.1.2.1 hx
  rw [hxc, Bool.toNat_true] at hcnt
  have hxr : x.stage ≠ .recording := by
    intro hr; simp [Entry.claims, hr] at hxc
  refine ⟨?_, ⟨?_, ?_, ?_⟩, ⟨?_, ?_⟩, ⟨?_, ?_⟩⟩
  · rw [queueLaw, hq, hE]; exact hql
  · rw [ht, hc]; omega
  · rw [hq, hc]; omega
  · rw [hE, hg, hc]; omega
  · intro r hr
    obtain ⟨y, hy, h1, h2, h3⟩ := hown r (hq ▸ hr)
    refine ⟨y, ?_, h1, h2, h3⟩
    rw [ht]
    refine mem_without.mpr ⟨hy, fun hyt => ?_⟩
    exact hxr (entry_eq_of_tag h.1.2.1 hy hx hyt ▸ h2)
  · intro y hy hst
    rw [ht] at hy
    rw [hq]; exact howner y (mem_without.mp hy).1 hst
  · intro y hy hyp
    rw [ht] at hy
    rw [hE]; exact hep y (mem_without.mp hy).1 hyp
  · rw [hE, hf]; exact hzero

/-- Where the engine takes records it is not one that holds none. -/
theorem records_exclusive {g : Engine} (h : engineFits g) (ht : takesRecords g = true) :
    holdsNoRecords g = false := by
  have hop := h.1
  simp only [takesRecords, Bool.or_eq_true, beq_iff_eq] at ht
  unfold opFits at hop
  unfold holdsNoRecords
  rcases ht with ht | ht
  · rw [ht] at hop ⊢
    cases ho : g.op <;> rw [ho] at hop <;> simp at hop ⊢
    rename_i why b
    cases why <;> simp_all [headerFits]
  · rw [ht] at hop ⊢
    simp only [Bool.or_eq_true, beq_iff_eq] at hop
    rcases hop with hop | hop <;> simp [hop]

/-- R45: a claim becomes the record with index NEXT_INDEX at the tail of the queue. -/
theorem trafficOk_allocate {s t : State} (h : TrafficOk s) (hfit : engineFits s.eng) {x e : Entry} {r : RecElem}
    (hE : t.eng = { s.eng with nextIndex := s.eng.nextIndex + 1 }) (hg : t.cfg = s.cfg)
    (hq : t.pres.queue = s.pres.queue ++ [r]) (hc : t.pres.claims = s.pres.claims - 1)
    (ht : t.table = putIn e s.table) (hx : x ∈ s.table) (hxc : x.claims = true)
    (htag : x.tag = e.tag) (hcell : x.cell = e.cell) (hst : e.stage = .recording)
    (hd : e.decision = x.decision) (he : e.epoch = x.epoch) (hr : e.record = some s.eng.nextIndex)
    (hri : r.index = s.eng.nextIndex) (hrt : r.tag = e.tag) : TrafficOk t := by
  have hxf : x.stage = .fetchingOld ∧ x.decision = some .preserve := by
    simpa [Entry.claims] using hxc
  have hxp : x.preserving = true := by simp [Entry.preserving, hxc]
  refine ⟨tableOk_putIn h.1 ht hx htag hcell (.inl (by simp [Entry.pastWaiting, hxf.1])), ?_⟩
  obtain ⟨⟨hq1, hq2⟩, ⟨hcount, hplaces, hcap⟩, ⟨hown, howner⟩, ⟨hep, hzero⟩⟩ := h.2
  obtain ⟨hep1, hep2, hep3⟩ := hep x hx hxp
  have hcnt := countP_putIn Entry.claims h.1.2.1 hx htag
  have hec : e.claims = false := by simp [Entry.claims, hst]
  rw [hxc, hec, Bool.toNat_true, Bool.toNat_false] at hcnt
  have hpos : 1 ≤ s.pres.claims := by
    rw [hcount]; exact List.countP_pos_iff.mpr ⟨x, hx, hxc⟩
  have htr : takesRecords t.eng = true := by rw [hE]; exact hep3
  refine ⟨⟨?_, ?_⟩, ⟨?_, ?_, ?_⟩, ⟨?_, ?_⟩, ⟨?_, ?_⟩⟩
  · rw [hq, hE, List.map_append, List.length_append, List.length_singleton, List.range'_concat, hq1]
    simp [hri, hq2]
  · rw [hq, hE]; simp only [List.length_append, List.length_singleton]; omega
  · rw [ht, hc]; omega
  · rw [hq, hc, List.length_append, List.length_singleton]; omega
  · rw [hE, hg, hc]; dsimp only; omega
  · intro r' hr'
    rw [hq, List.mem_append, List.mem_singleton] at hr'
    rw [ht]
    rcases hr' with hr' | rfl
    · obtain ⟨y, hy, h1, h2, h3⟩ := hown r' hr'
      refine ⟨y, mem_putIn_other hy fun hyt => ?_, h1, h2, h3⟩
      rw [entry_eq_of_tag h.1.2.1 hy hx (hyt.trans htag.symm), hxf.1] at h2
      cases h2
    · exact ⟨e, mem_putIn_self hx htag, hrt.symm, hst, by rw [hr, hri]⟩
  · intro y hy hys
    rw [ht] at hy
    rw [hq]
    rcases mem_putIn hy with rfl | ⟨hy, -⟩
    · exact ⟨r, by simp, hrt, by rw [hr, hri]⟩
    · obtain ⟨r', h1, h2, h3⟩ := howner y hy hys
      exact ⟨r', List.mem_append_left _ h1, h2, h3⟩
  · intro y hy hyp
    rw [ht] at hy
    rw [htr, hE]
    rcases mem_putIn hy with rfl | ⟨hy, -⟩
    · exact ⟨hd.trans hep1, he.trans hep2, rfl⟩
    · obtain ⟨h1, h2, -⟩ := hep y hy hyp
      exact ⟨h1, h2, rfl⟩
  · intro hn
    have h1 : holdsNoRecords s.eng = true := by rw [hE] at hn; exact hn
    rw [records_exclusive hfit hep3] at h1
    cases h1

/-- A record's flags change, its index and owner stay (R47, R48). -/
theorem trafficOk_queueMap {s t : State} (h : TrafficOk s) (hE : t.eng = s.eng) (hg : t.cfg = s.cfg)
    (f : RecElem → RecElem) (hi : ∀ r, (f r).index = r.index) (ht : ∀ r, (f r).tag = r.tag)
    (hq : t.pres.queue = s.pres.queue.map f) (hf : t.pres.filter = s.pres.filter)
    (hc : t.pres.claims = s.pres.claims) (htab : t.table = s.table) : TrafficOk t := by
  refine ⟨tableOk_of_table h.1 htab, ?_⟩
  obtain ⟨hql, ⟨hcount, hplaces, hcap⟩, ⟨hown, howner⟩, ⟨hep, hzero⟩⟩ := h.2
  have hmap : (s.pres.queue.map f).map (·.index) = s.pres.queue.map (·.index) := by
    rw [List.map_map]; exact List.map_congr_left fun r _ => hi r
  refine ⟨?_, ⟨?_, ?_, ?_⟩, ⟨?_, ?_⟩, ⟨?_, ?_⟩⟩
  · rw [queueLaw, hq, hE, hmap, List.length_map]; exact hql
  · rw [htab, hc]; exact hcount
  · rw [hq, hc, List.length_map]; exact hplaces
  · rw [hE, hg, hc]; exact hcap
  · intro r hr
    rw [hq] at hr
    obtain ⟨r', hr', rfl⟩ := List.mem_map.mp hr
    rw [htab, ht, hi]; exact hown r' hr'
  · intro e he hs
    rw [htab] at he
    obtain ⟨r, hr, h1, h2⟩ := howner e he hs
    rw [hq]
    exact ⟨f r, List.mem_map.mpr ⟨r, hr, rfl⟩, (ht r).trans h1, by rw [hi]; exact h2⟩
  · rw [htab, hE]; exact hep
  · rw [hE, hf]; exact hzero

/-- R49: the head record leaves the queue durable, and its owner leaves RECORDING. -/
theorem trafficOk_durable {s t : State} (h : TrafficOk s) (hfit : engineFits s.eng)
    {r : RecElem} {rest : List RecElem} {x e : Entry} (hq0 : s.pres.queue = r :: rest)
    (hE : t.eng = { s.eng with durableCount := s.eng.durableCount + 1 }) (hg : t.cfg = s.cfg)
    (hq : t.pres.queue = rest) (hc : t.pres.claims = s.pres.claims)
    (ht : t.table = putIn e s.table) (hx : x ∈ s.table) (htag : x.tag = e.tag)
    (hcell : x.cell = e.cell) (hxr : x.tag = r.tag) (hxs : x.stage = .recording)
    (hst : e.stage = .issued) : TrafficOk t := by
  have hxc : x.claims = false := by simp [Entry.claims, hxs]
  have hec : e.claims = false := by simp [Entry.claims, hst]
  refine ⟨tableOk_putIn h.1 ht hx htag hcell (.inl (by simp [Entry.pastWaiting, hxs])), ?_⟩
  obtain ⟨⟨hq1, hq2⟩, ⟨hcount, hplaces, hcap⟩, ⟨hown, howner⟩, ⟨hep, hzero⟩⟩ := h.2
  obtain ⟨-, -, hep3⟩ := hep x hx (by simp [Entry.preserving, hxs])
  have hcnt := countP_putIn Entry.claims h.1.2.1 hx htag
  rw [hxc, hec] at hcnt
  have htr : takesRecords t.eng = true := by rw [hE]; exact hep3
  rw [hq0, List.map_cons, List.length_cons, List.range'_succ, List.cons.injEq] at hq1
  rw [hq0, List.length_cons] at hq2 hplaces
  have hxrec : x.record = some r.index := by
    obtain ⟨y, hy, h1, -, h3⟩ := hown r (by rw [hq0]; exact List.mem_cons_self)
    rw [entry_eq_of_tag h.1.2.1 hx hy (hxr.trans h1.symm)]; exact h3
  refine ⟨⟨?_, ?_⟩, ⟨?_, ?_, ?_⟩, ⟨?_, ?_⟩, ⟨?_, ?_⟩⟩
  · rw [hq, hE]; exact hq1.2
  · rw [hq, hE]; dsimp only; omega
  · rw [ht, hc]; omega
  · rw [hq, hc]; omega
  · rw [hE, hg, hc]; exact hcap
  · intro r' hr'
    rw [hq] at hr'
    rw [ht]
    obtain ⟨y, hy, h1, h2, h3⟩ := hown r' (by rw [hq0]; exact List.mem_cons_of_mem _ hr')
    refine ⟨y, mem_putIn_other hy fun hyt => ?_, h1, h2, h3⟩
    rw [entry_eq_of_tag h.1.2.1 hy hx (hyt.trans htag.symm), hxrec, Option.some.injEq] at h3
    have hmem : r'.index ∈ rest.map (·.index) := List.mem_map.mpr ⟨r', hr', rfl⟩
    rw [hq1.2, List.mem_range'_1] at hmem
    omega
  · intro y hy hys
    rw [ht] at hy
    rw [hq]
    rcases mem_putIn hy with rfl | ⟨hy, hyt⟩
    · rw [hst] at hys; cases hys
    · obtain ⟨r', h1, h2, h3⟩ := howner y hy hys
      rw [hq0, List.mem_cons] at h1
      rcases h1 with rfl | h1
      · exact absurd (h2.symm.trans (hxr.symm.trans htag)) hyt
      · exact ⟨r', h1, h2, h3⟩
  · intro y hy hyp
    rw [ht] at hy
    rw [htr, hE]
    rcases mem_putIn hy with rfl | ⟨hy, -⟩
    · simp [Entry.preserving, hec, hst] at hyp
    · obtain ⟨h1, h2, -⟩ := hep y hy hyp
      exact ⟨h1, h2, rfl⟩
  · intro hn
    have h1 : holdsNoRecords s.eng = true := by rw [hE] at hn; exact hn
    rw [records_exclusive hfit hep3] at h1
    cases h1

theorem range'_filter_lt (d n k : Nat) (h : k ≤ d + n) :
    (List.range' d n).filter (fun i => decide (i < k)) = List.range' d (k - d) := by
  induction n generalizing d with
  | zero => simp [show k - d = 0 by omega]
  | succ n ih =>
    rw [List.range'_succ, List.filter_cons]
    by_cases hd : d < k
    · rw [if_pos (by simpa using hd), ih (d + 1) (by omega), show k - d = (k - (d + 1)) + 1 by omega,
        List.range'_succ]
    · rw [if_neg (by simpa using hd), ih (d + 1) (by omega)]
      simp [show k - d = 0 by omega, show k - (d + 1) = 0 by omega]

/-- R58: record k and the younger ones leave the queue with their owners, and NEXT_INDEX is set back. -/
theorem trafficOk_removed {s t : State} (h : TrafficOk s) (hfit : engineFits s.eng) {k : Nat}
    {r : RecElem} (hr : r ∈ s.pres.queue) (hk : r.index = k)
    (hE : t.eng = { s.eng with nextIndex := k }) (hg : t.cfg = s.cfg)
    (hq : t.pres.queue = s.pres.queue.filter (fun x => !decide (k ≤ x.index)))
    (hc : t.pres.claims = s.pres.claims)
    (ht : t.table = s.table.filter (fun e => !(e.stage == .recording &&
      (s.pres.queue.filter (fun x => decide (k ≤ x.index))).any (fun x => x.tag == e.tag)))) :
    TrafficOk t := by
  refine ⟨tableOk_sublist h.1 (ht ▸ List.filter_sublist), ?_⟩
  obtain ⟨⟨hq1, hq2⟩, ⟨hcount, hplaces, hcap⟩, ⟨hown, howner⟩, ⟨hep, hzero⟩⟩ := h.2
  obtain ⟨x0, hx0, -, hx0s, -⟩ := hown r hr
  obtain ⟨-, -, hep3⟩ := hep x0 hx0 (by simp [Entry.preserving, hx0s])
  have htr : takesRecords t.eng = true := by rw [hE]; exact hep3
  have hkm : k ∈ s.pres.queue.map (·.index) := List.mem_map.mpr ⟨r, hr, hk⟩
  rw [hq1, List.mem_range'_1] at hkm
  have hidx : t.pres.queue.map (·.index) = List.range' s.eng.durableCount (k - s.eng.durableCount) := by
    rw [hq, ← range'_filter_lt _ _ _ (le_of_lt hkm.2), ← hq1, List.filter_map]
    congr 2
    funext x
    by_cases hx : k ≤ x.index
    · simp [hx]
    · simp [hx, Nat.lt_of_not_le hx]
  have hlen : t.pres.queue.length = k - s.eng.durableCount := by
    rw [← List.length_map (f := (·.index)), hidx, List.length_range']
  refine ⟨⟨?_, ?_⟩, ⟨?_, ?_, ?_⟩, ⟨?_, ?_⟩, ⟨?_, ?_⟩⟩
  · rw [hidx, hlen, hE]
  · rw [hlen, hE]; dsimp only; omega
  · rw [ht, hc, List.countP_filter, hcount]
    refine List.countP_congr fun e _ => ?_
    cases hst : e.stage <;> simp [Entry.claims, hst]
  · rw [hlen, hc]
    have : s.pres.queue.length = s.eng.nextIndex - s.eng.durableCount := by omega
    omega
  · rw [hE, hg, hc]; dsimp only; omega
  · intro r' hr'
    rw [hq, List.mem_filter] at hr'
    obtain ⟨y, hy, h1, h2, h3⟩ := hown r' hr'.1
    refine ⟨y, ?_, h1, h2, h3⟩
    rw [ht, List.mem_filter]
    refine ⟨hy, ?_⟩
    simp only [Bool.not_eq_true', Bool.and_eq_false_iff, List.any_eq_false, List.mem_filter, beq_iff_eq]
    refine .inr fun r2 hr2 htag => ?_
    obtain ⟨z, hz, h4, -, h6⟩ := hown r2 hr2.1
    have := entry_eq_of_tag h.1.2.1 hz hy (h4.trans htag)
    subst this
    rw [h3, Option.some.injEq] at h6
    simp only [Bool.not_eq_true', decide_eq_false_iff_not, decide_eq_true_eq] at hr' hr2
    exact hr'.2 (h6 ▸ hr2.2)
  · intro y hy hys
    rw [ht, List.mem_filter] at hy
    obtain ⟨r', h1, h2, h3⟩ := howner y hy.1 hys
    refine ⟨r', ?_, h2, h3⟩
    rw [hq, List.mem_filter]
    refine ⟨h1, ?_⟩
    by_contra hb
    have hy2 := hy.2
    simp only [hys, beq_self_eq_true, Bool.true_and, Bool.not_eq_true', List.any_eq_false,
      List.mem_filter, beq_iff_eq] at hy2
    exact hy2 r' ⟨h1, by simpa using hb⟩ h2
  · intro y hy hyp
    rw [ht, List.mem_filter] at hy
    obtain ⟨h1, h2, -⟩ := hep y hy.1 hyp
    rw [htr, hE]
    exact ⟨h1, h2, rfl⟩
  · intro hn
    have h1 : holdsNoRecords s.eng = true := by rw [hE] at hn; exact hn
    rw [records_exclusive hfit hep3] at h1
    cases h1

/-! ### The operations keep the invariants -/

theorem BlocksOk.traffic {s : State} (h : BlocksOk s) : TrafficOk s := ⟨h.1, h.2.2.2.2.2⟩

/-- The fields the invariants speak of are the same. -/
theorem inv_congr {s t : State} (h : BlocksOk s) (ht : t.table = s.table) (hE : t.eng = s.eng)
    (hr : t.rules = s.rules) (hg : t.cfg = s.cfg) (hq : t.pres.queue = s.pres.queue)
    (hc : t.pres.claims = s.pres.claims) (hf : t.pres.filter = s.pres.filter)
    (hn : t.ev.notices = s.ev.notices) : BlocksOk t := by
  simp only [BlocksOk, TableOk, NoticesOk, RulesOk, FilterOk, EngineOk, RecordOk, queueLaw, claimLaw, ownerLaw,
    epochLaw, ht, hE, hr, hg, hq, hc, hf, hn] at h ⊢
  exact h

/-- What only the table moves keeps the invariants of every other block. -/
theorem inv_of_table {s t : State} (h : BlocksOk s) (ho : TableOnly s t) (ht : TrafficOk t) : BlocksOk t := by
  refine ⟨ht.1, ho.notices h.2.1, ?_, ?_, ?_, ht.2⟩
  · rw [RulesOk, ho.rules]; exact h.2.2.1
  · rw [FilterOk, ho.filter]; exact h.2.2.2.1
  · rw [EngineOk, ho.eng]; exact h.2.2.2.2.1

theorem visit_inv {p : State → Entry → Bool} (hp : ChoosesUndecided p) {s : State} (h : BlocksOk s) :
    BlocksOk (visit p s) := inv_of_table h (visit_tableOnly p s) (visit_keeps hp h.traffic)

theorem afterFree_inv (cs : List CellIx) (a b : Bool) {s : State} (h : BlocksOk s) :
    BlocksOk (afterFree cs a b s) := visit_inv (freedChoice_undecided cs a b) h

theorem giveTurn_inv {s : State} (h : BlocksOk s) (c : CellIx) : BlocksOk (giveTurn c s) :=
  inv_of_table h (giveTurn_tableOnly c s) (giveTurn_keeps h.traffic c)

theorem releaseClaim_tableOnly (s : State) : TableOnly s (releaseClaim s) := by
  constructor <;> first | rfl | exact id

/-- R44: a write that ends before its record, with its claim if it holds one. -/
theorem afterEnd_inv {s b t : State} (h : BlocksOk s) {e : Entry} (he : e ∈ s.table)
    (hst : e.stage = .fetchingOld) (ho : TableOnly s t) (ht : t.table = without e.tag s.table)
    (hc : t.pres.claims = s.pres.claims) : BlocksOk (afterEnd e b t) := by
  unfold afterEnd
  split
  · rename_i hd
    refine afterFree_inv _ _ _ (inv_of_table h (ho.trans (releaseClaim_tableOnly t)) ?_)
    exact trafficOk_release h.traffic (ho.trans (releaseClaim_tableOnly t)).sameRecords ht he
      (by simp [Entry.claims, hst, hd]) (by simp [releaseClaim, hc])
  · rename_i hd
    refine giveTurn_inv (inv_of_table h ho (without_keeps h.traffic ho he ?_ ht hc)) _
    simp [Entry.preserving, Entry.claims, hst, hd]

theorem failOldRead_inv {s : State} (h : BlocksOk s) {e : Entry} (he : e ∈ s.table)
    (hst : e.stage = .fetchingOld) : BlocksOk (failOldRead e s) :=
  afterEnd_inv h he hst (failEntry_tableOnly e _ s) (by simp [failEntry]) (by simp [failEntry])

/-- What only the watch unit moves keeps the invariants. -/
theorem inv_of_watch {s t : State} (h : BlocksOk s) (hw : WatchOnly s t) : BlocksOk t := by
  obtain ⟨rs, ev, rfl⟩ := hw.rest
  exact ⟨h.1, hw.notices h.2.1, hw.rules h.2.2.1, h.2.2.2⟩

/-- R45: the allocation of a write that holds a claim. -/
theorem allocate_inv {s : State} (h : BlocksOk s) {x e : Entry} (old : CellData) (hx : x ∈ s.table)
    (hxs : x.stage = .fetchingOld) (hxd : x.decision = some .preserve) (htag : x.tag = e.tag)
    (hcell : x.cell = e.cell) (hd : e.decision = x.decision) (he : e.epoch = x.epoch) :
    BlocksOk (allocate e old s) := by
  have ht : TrafficOk (allocate e old s) :=
    trafficOk_allocate h.traffic h.2.2.2.2.1 (x := x) rfl rfl rfl rfl rfl hx
      (by simp [Entry.claims, hxs, hxd]) htag hcell rfl hd he rfl rfl rfl
  exact ⟨ht.1, h.2.1, h.2.2.1, h.2.2.2.1, h.2.2.2.2.1, ht.2⟩

/-- R38: a write without claim or record is forwarded. -/
theorem forward_inv {s : State} (h : BlocksOk s) {x e : Entry} (hx : x ∈ s.table) (htag : x.tag = e.tag)
    (hcell : x.cell = e.cell) (hp : x.pastWaiting = true) (hxp : x.preserving = false) :
    BlocksOk (forward e s) := by
  have ho := forward_tableOnly e s
  refine inv_of_table h ho ⟨tableOk_putIn h.1 (forward_table e s) hx htag hcell (.inl hp), ?_⟩
  exact recordOk_putIn h.1 h.traffic.2 ho.sameRecords (forward_table e s) hx htag hxp (by simp)
    (.inl ⟨by simp [Entry.claims], by simp⟩)

/-- R37: the arrival of a write's old content. -/
theorem oldArrives_inv {s : State} (h : BlocksOk s) {e : Entry} (old : CellData) (he : e ∈ s.table)
    (hst : e.stage = .fetchingOld) : BlocksOk (oldArrives e old s) := by
  have ho := putEntry_tableOnly { e with old := some old } s
  have h1 : BlocksOk (putEntry { e with old := some old } s) :=
    inv_of_table h ho (trafficOk_relabel h.traffic ho.sameRecords (x := e) rfl he rfl rfl rfl rfl rfl rfl
      rfl (by simp [Entry.pastWaiting, hst]))
  have hw := evaluate_watchOnly { e with old := some old } old (putEntry { e with old := some old } s)
  have h2 := inv_of_watch h1 hw
  have hm : { e with old := some old } ∈
      (evaluate { e with old := some old } old (putEntry { e with old := some old } s)).1.table := by
    obtain ⟨rs, ev, hrest⟩ := hw.rest
    rw [hrest]; exact mem_putIn_self he rfl
  unfold oldArrives
  dsimp only
  generalize evaluate { e with old := some old } old (putEntry { e with old := some old } s) = j at h2 hm
  split
  · exact afterEnd_inv h2 hm hst (denyEntry_tableOnly _ _ _) (by simp [denyEntry]) (by simp [denyEntry])
  · split
    · exact allocate_inv h2 old hm hst ‹_› rfl rfl rfl rfl
    · exact forward_inv h2 hm rfl rfl (by simp [Entry.pastWaiting, hst])
        (by simp [Entry.preserving, Entry.claims, *])
  · split
    · exact allocate_inv h2 old hm hst ‹_› rfl rfl rfl rfl
    · exact forward_inv h2 hm rfl rfl (by simp [Entry.pastWaiting, hst])
        (by simp [Entry.preserving, Entry.claims, *])

/-- A record's flags change in the queue. -/
theorem queueMap_inv {s t : State} (h : BlocksOk s) (f : RecElem → RecElem) (hi : ∀ r, (f r).index = r.index)
    (ht : ∀ r, (f r).tag = r.tag)
    (hs : t = { s with pres := { s.pres with queue := s.pres.queue.map f } }) : BlocksOk t := by
  subst hs
  have := trafficOk_queueMap (t := { s with pres := { s.pres with queue := s.pres.queue.map f } })
    h.traffic rfl rfl f hi ht rfl rfl rfl rfl
  exact ⟨this.1, h.2.1, h.2.2.1, h.2.2.2.1, h.2.2.2.2.1, this.2⟩

/-- A request, of whatever kind, moves no block but the M-port. -/
theorem enqueue_inv {s : State} (h : BlocksOk s) (op : MemOp) (a : Addr) : BlocksOk (enqueue op a s) := by
  obtain ⟨cs, before, after, -, -, he⟩ := enqueue_cases op a s
  rw [he]; exact h

/-- R47: the requests of a record's slot writes. -/
theorem requestSlots_inv {s : State} (h : BlocksOk s) (r : RecElem) : BlocksOk (requestSlots r s) := by
  have h1 := queueMap_inv h (fun x => if x.index = r.index then { x with requested := true } else x)
    (fun x => by split <;> rfl) (fun x => by split <;> rfl) rfl
  unfold requestSlots
  dsimp only
  refine enqueue_inv (enqueue_inv ?_ _ _) _ _
  exact h1

theorem requestIfClear_inv {s : State} (h : BlocksOk s) (r : RecElem) : BlocksOk (requestIfClear s r) := by
  unfold requestIfClear
  split
  · exact requestSlots_inv h r
  · exact h

theorem recordStep_inv {s : State} (h : BlocksOk s) : BlocksOk (recordStep s) :=
  foldl_keeps (P := fun s => BlocksOk s) _ (fun _ r hs => requestIfClear_inv hs r) _ h

/-- R49: a ready head leaves the queue. -/
theorem makeDurable_inv {s : State} (h : BlocksOk s) {r : RecElem} {rest : List RecElem}
    (hq : s.pres.queue = r :: rest) : BlocksOk (makeDurable r rest s) := by
  obtain ⟨x, hx, h1, h2, h3⟩ := h.traffic.2.2.2.1.1 r (by rw [hq]; exact List.mem_cons_self)
  have hent : entryOf s r.tag = some x := by rw [← h1]; exact entryOf_mem h.1 hx
  unfold makeDurable
  dsimp only
  generalize hs1 : ({ s with
    eng := { s.eng with durableCount := s.eng.durableCount + 1 }
    pres := { s.pres with
      queue := rest, filter := filterInsert r.cell r.index s.pres.filter } } : State) = s1
  have hent1 : entryOf s1 r.tag = some x := by rw [← hs1]; exact hent
  rw [hent1]
  simp only [h2, if_true]
  have ho := forwardInOrder_tableOnly x s1
  have ht : TrafficOk (forwardInOrder x s1) := by
    refine trafficOk_durable h.traffic h.2.2.2.2.1 hq (x := x) (e := { x with stage := .issued })
      ?_ ?_ ?_ ?_ ?_ hx rfl rfl h1 h2 rfl
    · rw [ho.eng, ← hs1]
    · rw [ho.cfg, ← hs1]
    · rw [ho.queue, ← hs1]
    · rw [forwardInOrder_pres, ← hs1]
    · rw [forwardInOrder_table, ← hs1]
  refine ⟨ht.1, ho.notices (by rw [← hs1]; exact h.2.1), ?_, ?_, ?_, ht.2⟩
  · rw [RulesOk, ho.rules, ← hs1]; exact h.2.2.1
  · rw [FilterOk, ho.filter, ← hs1]; exact filterInsert_bound _ _ _ h.2.2.2.1
  · rw [EngineOk, ho.eng, ← hs1]; exact h.2.2.2.2.1

theorem durables_inv {s : State} (h : BlocksOk s) (n : Nat) : BlocksOk (durables n s) := by
  induction n generalizing s with
  | zero => exact h
  | succ n ih =>
    unfold durables
    split
    · exact h
    · split
      · exact ih (makeDurable_inv h ‹_›)
      · exact h

/-- R48, R49: a slot write answered OK. -/
theorem slotAcked_inv {s : State} (h : BlocksOk s) (k : Nat) (half : RecHalf) : BlocksOk (slotAcked k half s) := by
  unfold slotAcked
  refine afterFree_inv _ _ _ (durables_inv (queueMap_inv h
    (fun r => if r.index = k then r.ack half else r) (fun x => ?_) (fun x => ?_) rfl) _)
  · split
    · cases half <;> rfl
    · rfl
  · split
    · cases half <;> rfl
    · rfl

/-! ### Record faults (R58) -/

/-- The owners of the removed records leave the table; the responses are all else that moves. -/
theorem failOwners_spec (gone : List RecElem) {s : State} (hn : (s.table.map (·.tag)).Nodup) :
    ∃ out, gone.foldl failOwner s = { s with
      host := { s.host with out := out }
      table := s.table.filter (fun e => !(e.stage == .recording && gone.any (fun x => x.tag == e.tag))) } := by
  induction gone generalizing s with
  | nil => exact ⟨s.host.out, by simp⟩
  | cons r gone ih =>
    rw [List.foldl_cons]
    by_cases hx : ∃ x, entryOf s r.tag = some x ∧ x.stage = .recording
    · obtain ⟨x, hx, hxs⟩ := hx
      obtain ⟨hmem, htag⟩ := entryOf_some hx
      have hf : failOwner s r = endEntry x .failed s := by simp [failOwner, hx, hxs]
      obtain ⟨out, ho⟩ := ih (s := endEntry x .failed s)
        (hn.sublist ((without_sublist x.tag s.table).map _))
      refine ⟨out, ?_⟩
      rw [hf, ho]
      simp only [endEntry_table, List.filter_filter]
      congr 1
      refine List.filter_congr fun y hy => ?_
      by_cases hyt : y.tag = r.tag
      · have : y = x := entry_eq_of_tag hn hy hmem (hyt.trans htag.symm)
        subst this
        simp [hxs, hyt]
      · have h1 : (r.tag == y.tag) = false := by simpa using fun h => hyt h.symm
        have h2 : (y.tag != x.tag) = true := by simpa [htag] using hyt
        simp [h1, h2]
    · have hf : failOwner s r = s := by
        unfold failOwner
        split
        · rename_i e he
          rw [if_neg fun hs => hx ⟨e, he, hs⟩]
        · rfl
      obtain ⟨out, ho⟩ := ih hn
      refine ⟨out, ?_⟩
      rw [hf, ho]
      congr 1
      refine List.filter_congr fun y hy => ?_
      by_cases hyt : r.tag = y.tag
      · have hys : (y.stage == .recording) = false := by
          by_contra hb
          cases hent : entryOf s r.tag with
          | none => exact entryOf_none hent y hy hyt.symm
          | some z =>
            obtain ⟨hz, hzt⟩ := entryOf_some hent
            have : z = y := entry_eq_of_tag hn hz hy (hzt.trans hyt)
            subst this
            exact hx ⟨z, hent, by simpa using hb⟩
        simp [hys]
      · have h1 : (r.tag == y.tag) = false := by simpa using hyt
        simp [h1]

/-- R58: the records from the failed one up, and their owners, are gone. -/
theorem removeFrom_inv {s : State} (h : BlocksOk s) {r : RecElem} (hr : r ∈ s.pres.queue) (half : RecHalf) :
    BlocksOk (removeFrom r half s) := by
  obtain ⟨out, ho⟩ := failOwners_spec (s.pres.queue.filter (fun x => decide (r.index ≤ x.index)))
    (s := { s with pres := { s.pres with
      queue := s.pres.queue.filter (fun x => !decide (r.index ≤ x.index)) } }) h.1.2.1
  unfold removeFrom
  dsimp only at ho ⊢
  rw [ho]
  generalize hs3 : ({ s with
    host := { s.host with out := out }
    table := s.table.filter (fun e => !(e.stage == .recording &&
      (s.pres.queue.filter (fun x => decide (r.index ≤ x.index))).any (fun x => x.tag == e.tag)))
    eng := { s.eng with nextIndex := r.index }
    pres := { s.pres with
      queue := s.pres.queue.filter (fun x => !decide (r.index ≤ x.index)) } } : State) = s3
  have hrep := report_tableOnly .fault (.journalFault (cellAddr r.cell) r.tag r.index half) s3
  have ht : TrafficOk (report .fault (.journalFault (cellAddr r.cell) r.tag r.index half) s3) := by
    refine trafficOk_removed h.traffic h.2.2.2.2.1 hr rfl ?_ ?_ ?_ ?_ ?_
    · rw [hrep.eng, ← hs3]
    · rw [hrep.cfg, ← hs3]
    · rw [hrep.queue, ← hs3]
    · rw [report_pres, ← hs3]
    · rw [report_table, ← hs3]
  have hi : BlocksOk (report .fault (.journalFault (cellAddr r.cell) r.tag r.index half) s3) := by
    refine ⟨ht.1, hrep.notices (by rw [← hs3]; exact h.2.1), ?_, ?_, ?_, ht.2⟩
    · rw [RulesOk, hrep.rules, ← hs3]; exact h.2.2.1
    · rw [FilterOk, hrep.filter, ← hs3]; exact h.2.2.2.1
    · rw [EngineOk, hrep.eng, ← hs3]; exact h.2.2.2.2.1
  exact inv_congr hi rfl rfl rfl rfl rfl rfl rfl rfl

theorem recordFault_inv {s : State} (h : BlocksOk s) {r : RecElem} (hr : r ∈ s.pres.queue) (half : RecHalf) :
    BlocksOk (recordFault r half s) := afterFree_inv _ _ _ (removeFrom_inv h hr half)

theorem slotAnswered_inv {s : State} (h : BlocksOk s) (k : Nat) (half : RecHalf) (ok : Bool) :
    BlocksOk (slotAnswered k half ok s) := by
  unfold slotAnswered
  split
  · exact h
  · rename_i r hr
    split
    · exact slotAcked_inv h k half
    · exact recordFault_inv h (List.mem_of_find?_eq_some hr) half

end Sys2Proof.Machine
end

