-- ==== Sys2Proof/Laws/Engine.lean ====
section
/-! SUPPORT. What the epoch engine's operations keep: the invariants of every block through openings,
commits, aborts, header writes, walks, recovery and resets (chapters 4, 5, 7 and 8). -/

namespace Sys2Proof.Machine

/-! ### Two ways the engine may move -/

/-- The engine moves without touching the counters of its records: claims and records that exist must
still be allowed, in the same epoch. -/
theorem inv_engine {s t : State} (h : BlocksOk s) (hfit : engineFits t.eng)
    (hni : t.eng.nextIndex = s.eng.nextIndex) (hdc : t.eng.durableCount = s.eng.durableCount)
    (hrec : ∀ e ∈ s.table, e.preserving = true → takesRecords t.eng = true ∧ t.eng.epoch = s.eng.epoch)
    (hnone : holdsNoRecords t.eng = true → holdsNoRecords s.eng = true)
    (hrest : t = { s with eng := t.eng }) : BlocksOk t := by
  obtain ⟨hT, hN, hR, hF, -, hql, hcl, hol, hep, hz⟩ := h
  generalize t.eng = g at *
  subst hrest
  refine ⟨hT, hN, hR, hF, hfit, ?_, ?_, hol, ?_, ?_⟩
  · rw [queueLaw]; dsimp only; rw [hni, hdc]; exact hql
  · rw [claimLaw]; dsimp only; rw [hni]; exact hcl
  · intro e he hp
    obtain ⟨h1, h2, -⟩ := hep e he hp
    obtain ⟨h3, h4⟩ := hrec e he hp
    exact ⟨h1, by dsimp only; rw [h4]; exact h2, h3⟩
  · intro hn
    dsimp only at hn ⊢
    rw [hni, hdc]; exact hz (hnone hn)

/-- No entry holds a claim or a record. -/
abbrev NoRecords (s : State) : Prop := ∀ e ∈ s.table, e.preserving = false

theorem noRecords_of_takes {s : State} (h : BlocksOk s) (ht : takesRecords s.eng = false) : NoRecords s := by
  intro e he
  by_contra hp
  have := (h.traffic.2.2.2.2.1 e he (by simpa using hp)).2.2
  rw [ht] at this; cases this

/-- Without records the queue is empty and no claim is counted. -/
theorem noRecords_empty {s : State} (h : BlocksOk s) (hn : NoRecords s) :
    s.pres.queue = [] ∧ s.pres.claims = 0 := by
  obtain ⟨-, ⟨hc, -, -⟩, ⟨hown, -⟩, -⟩ := h.traffic.2
  constructor
  · refine List.eq_nil_iff_forall_not_mem.mpr fun r hr => ?_
    obtain ⟨e, he, -, hs, -⟩ := hown r hr
    have := hn e he
    simp [Entry.preserving, hs] at this
  · rw [hc, List.countP_eq_zero]
    intro e he hcl
    have := hn e he
    simp [Entry.preserving, hcl] at this

/-- The engine moves to fresh counters and an empty filter while no records exist. -/
theorem inv_fresh {s t : State} (h : BlocksOk s) (hn : NoRecords s) (hfit : engineFits t.eng)
    (hni : t.eng.nextIndex = 0) (hdc : t.eng.durableCount = 0) (hf : t.pres.filter = [])
    (ht : t.table = s.table) (hr : t.rules = s.rules)
    (hq : t.pres.queue = s.pres.queue) (hc : t.pres.claims = s.pres.claims)
    (hev : NoticesOk s → NoticesOk t) : BlocksOk t := by
  obtain ⟨hq0, hc0⟩ := noRecords_empty h hn
  obtain ⟨hT, hN, hR, -, -, -, ⟨hcnt, -, -⟩, ⟨-, howner⟩, -, -⟩ := h
  refine ⟨tableOk_of_table hT ht, hev hN, ?_, ?_, hfit, ⟨?_, ?_⟩, ⟨?_, ?_, ?_⟩, ⟨?_, ?_⟩, ⟨?_, ?_⟩⟩
  · rw [RulesOk, hr]; exact hR
  · rw [FilterOk, hf]; simp
  · rw [hq, hq0]; simp
  · rw [hq, hq0, hni, hdc]; rfl
  · rw [ht, hc]; exact hcnt
  · rw [hq, hc, hq0, hc0]; decide
  · rw [hni, hc, hc0]; exact Nat.zero_le _
  · rw [hq, hq0]; simp
  · rw [ht, hq]; exact howner
  · intro e he hp
    rw [ht] at he
    rw [hn e he] at hp; cases hp
  · intro _; exact ⟨hni, hdc, hf⟩

/-- Entering a state: the values must fit it, and the table does the rest. -/
theorem enterState_inv {n : EngState} {s : State}
    (h : BlocksOk { s with eng := { s.eng with state := n } }) : BlocksOk (enterState n s) :=
  visit_inv (stateChoice_undecided _ _) h

theorem report_inv {s : State} (h : BlocksOk s) (c : EvClass) (b : NoticeBody) : BlocksOk (report c b s) :=
  inv_of_table h (report_tableOnly c b s)
    (trafficOk_of_same h.traffic (report_tableOnly c b s) (by simp) (by simp))

theorem disown_inv {s : State} (h : BlocksOk s) (p : MemOp → Bool) : BlocksOk (disown p s) :=
  inv_congr h rfl rfl rfl rfl rfl rfl rfl rfl

theorem post_inv {s : State} (h : BlocksOk s) (b : NoticeBody) : BlocksOk (post b s) :=
  inv_of_table h (post_tableOnly b s)
    (trafficOk_of_same h.traffic (post_tableOnly b s) (by simp) (by simp))


/-! ### What the engine's state says of its values -/

theorem fits_deadline {g : Engine} (h : engineFits g) (hs : g.state ≠ .opened) :
    g.deadlineRunning = false ∧ g.deadlineLeft = 0 := by
  obtain ⟨-, -, ⟨h1, h2⟩, -⟩ := h
  have : g.deadlineRunning = false := by
    by_contra hb; exact hs (h1 (by simpa using hb))
  exact ⟨this, h2 this⟩

theorem fits_closeKind {g : Engine} (h : engineFits g) (hs : g.state ≠ .closing) : g.closeKind = none := by
  have := h.2.1.1
  rw [beq_eq_false_iff_ne.mpr hs] at this
  simpa using this

theorem fits_openNumber {g : Engine} (h : engineFits g) (h1 : g.state ≠ .opening)
    (h2 : g.state ≠ .closing) : g.openNumber = none := by
  have := h.2.1.2
  rw [beq_eq_false_iff_ne.mpr h1, beq_eq_false_iff_ne.mpr h2] at this
  simpa using this

theorem fits_walk {g : Engine} (h : engineFits g) (hs : walkState g.state = false) :
    g.walk = Walk.absent := h.2.2.2.1.1 hs

theorem fits_stall {g : Engine} (h : engineFits g) (hs : g.state ≠ .stalled) : g.walk.stall = none := by
  have := h.2.2.2.1.2
  rw [beq_eq_false_iff_ne.mpr hs] at this
  simpa using this

/-- Outside OPENING, CLOSING, ROLLING and RECOVERING no operation is in progress. -/
theorem fits_op {g : Engine} (h : engineFits g) (h1 : g.state ≠ .opening) (h2 : g.state ≠ .closing)
    (h3 : g.state ≠ .rolling) (h4 : g.state ≠ .recovering) : g.op = .none := by
  have hop := h.1
  unfold opFits at hop
  cases ho : g.op with
  | none => rfl
  | headerWrite why b =>
    rw [ho] at hop
    cases why <;> simp [headerFits, *] at hop
  | _ => rw [ho] at hop; simp [*] at hop

theorem takes_of {g : Engine} (h1 : g.state ≠ .opened) (h2 : g.op ≠ .draining) : takesRecords g = false := by
  simp [takesRecords, h1, h2]

theorem NoRecords.vacuous {s : State} (hn : NoRecords s) {P : Entry → Prop} :
    ∀ e ∈ s.table, e.preserving = true → P e := fun e he hp => by rw [hn e he] at hp; cases hp

theorem fixOpenNumber_next (s : State) :
    (fixOpenNumber s).eng.nextEpoch ≠ some 0 := by
  unfold fixOpenNumber setEng
  dsimp only
  cases s.eng.nextEpoch with
  | none => simp
  | some n =>
    dsimp only
    split
    · simp
    · rename_i hl
      intro h0
      have h1 : n + 1 = 0 := by simpa using h0
      exact hl (by simp only [Config.lastEpoch]; bv_omega)

/-! ### Openings and closings -/

/-- R84, R87: an opening in IDLE. -/
theorem takeOpen_inv {s : State} (h : BlocksOk s) (hs : s.eng.state = .idle) (hn : s.eng.nextEpoch.isSome) :
    BlocksOk (takeOpen s) := by
  have hf := h.2.2.2.2.1
  have hop := fits_op hf (by simp [hs]) (by simp [hs]) (by simp [hs]) (by simp [hs])
  have hck := fits_closeKind hf (by simp [hs])
  have hd := fits_deadline hf (by simp [hs])
  have hw := fits_walk hf (by simp [hs, walkState])
  have hnr := noRecords_of_takes h (takes_of (by simp [hs]) (by simp [hop]))
  refine enterState_inv (inv_engine h ⟨?_, ⟨?_, ?_⟩, ⟨?_, ?_⟩, ⟨?_, ?_⟩, ⟨?_, ?_, ?_⟩⟩ rfl rfl
    hnr.vacuous ?_ rfl)
  · simp [needHeader, setEng, opFits, headerFits]
  · simp [needHeader, setEng, fixOpenNumber, hck]
  · simp [needHeader, setEng, fixOpenNumber, hn]
  · simp [needHeader, setEng, fixOpenNumber, hd]
  · simp [needHeader, setEng, fixOpenNumber, hd]
  · simp [needHeader, setEng, fixOpenNumber, hw]
  · simp [needHeader, setEng, fixOpenNumber, hw, Walk.absent]
  · exact fixOpenNumber_next s
  · simpa [needHeader, setEng, fixOpenNumber] using hf.2.2.2.2.1
  · simp [inEpoch, needHeader, setEng, isReassert]
  · simp [holdsNoRecords, needHeader, setEng]

/-- R89: a commit in OPEN. -/
theorem takeClose_inv {s : State} (h : BlocksOk s) (k : CloseKind) (hs : s.eng.state = .opened)
    (hn : k = .commitOpen → s.eng.nextEpoch.isSome) : BlocksOk (takeClose k s) := by
  have hf := h.2.2.2.2.1
  have hon := fits_openNumber hf (by simp [hs]) (by simp [hs])
  have hw := fits_walk hf (by simp [hs, walkState])
  have hep : s.eng.epoch ≠ 0#32 := hf.2.2.2.2.2.2 (by simp [inEpoch, hs])
  have hne : s.eng.nextEpoch ≠ some 0#32 := hf.2.2.2.2.1
  refine enterState_inv ?_
  cases k with
  | commit =>
    refine inv_engine h ⟨?_, ⟨?_, ?_⟩, ⟨?_, ?_⟩, ⟨?_, ?_⟩, ⟨?_, ?_, ?_⟩⟩ rfl rfl ?_ ?_ rfl <;>
      simp [closingNumber, stopDeadline, setEng, opFits, hon, hw, Walk.absent, hne, hep, takesRecords,
        holdsNoRecords]
  | commitOpen =>
    have := hn rfl
    refine inv_engine h ⟨?_, ⟨?_, ?_⟩, ⟨?_, ?_⟩, ⟨?_, ?_⟩, ⟨fixOpenNumber_next s, ?_, ?_⟩⟩ rfl rfl
      ?_ ?_ rfl <;>
      simp [closingNumber, stopDeadline, setEng, fixOpenNumber, opFits, hw, Walk.absent, hne, hep,
        takesRecords, holdsNoRecords, this]

/-- R97: a commit in FAULTED. -/
theorem retryClose_inv {s : State} (h : BlocksOk s) (k : CloseKind) (hs : s.eng.state = .faulted)
    (hn : k = .commitOpen → s.eng.nextEpoch.isSome) : BlocksOk (retryClose k s) := by
  have hf := h.2.2.2.2.1
  have hop := fits_op hf (by simp [hs]) (by simp [hs]) (by simp [hs]) (by simp [hs])
  have hd := fits_deadline hf (by simp [hs])
  have hon := fits_openNumber hf (by simp [hs]) (by simp [hs])
  have hw := fits_walk hf (by simp [hs, walkState])
  have hep : s.eng.epoch ≠ 0#32 := hf.2.2.2.2.2.2 (by simp [inEpoch, hs])
  have hne : s.eng.nextEpoch ≠ some 0#32 := hf.2.2.2.2.1
  have hnr := noRecords_of_takes h (takes_of (by simp [hs]) (by simp [hop]))
  refine enterState_inv ?_
  cases k with
  | commit =>
    refine inv_engine h ⟨?_, ⟨?_, ?_⟩, ⟨?_, ?_⟩, ⟨?_, ?_⟩, ⟨?_, ?_, ?_⟩⟩ rfl rfl hnr.vacuous ?_ rfl <;>
      simp [closingNumber, setEng, opFits, headerFits, closePurpose, hon, hw, Walk.absent, hne, hep, hd,
        holdsNoRecords]
  | commitOpen =>
    have := hn rfl
    refine inv_engine h ⟨?_, ⟨?_, ?_⟩, ⟨?_, ?_⟩, ⟨?_, ?_⟩, ⟨fixOpenNumber_next s, ?_, ?_⟩⟩ rfl rfl
      hnr.vacuous ?_ rfl <;>
      simp [closingNumber, setEng, fixOpenNumber, opFits, headerFits, closePurpose, hw, Walk.absent, hne,
        hep, hd, holdsNoRecords, this]

/-- R99: ABORT in OPEN. -/
theorem takeAbort_inv {s : State} (h : BlocksOk s) (hs : s.eng.state = .opened) : BlocksOk (takeAbort s) := by
  have hf := h.2.2.2.2.1
  have hon := fits_openNumber hf (by simp [hs]) (by simp [hs])
  have hck := fits_closeKind hf (by simp [hs])
  have hne : s.eng.nextEpoch ≠ some 0#32 := hf.2.2.2.2.1
  refine enterState_inv (inv_engine h ⟨?_, ⟨?_, ?_⟩, ⟨?_, ?_⟩, ⟨?_, ?_⟩, ⟨?_, ?_, ?_⟩⟩ rfl rfl ?_ ?_ rfl) <;>
    simp [stopDeadline, setEng, opFits, hon, hck, rollbackWalk, walkState, hne, inEpoch, isReassert,
      takesRecords, holdsNoRecords]

/-- R98: ABORT in FAULTED. -/
theorem abortFaulted_inv {s : State} (h : BlocksOk s) (hs : s.eng.state = .faulted) : BlocksOk (abortFaulted s) := by
  have hf := h.2.2.2.2.1
  have hop := fits_op hf (by simp [hs]) (by simp [hs]) (by simp [hs]) (by simp [hs])
  have hd := fits_deadline hf (by simp [hs])
  have hon := fits_openNumber hf (by simp [hs]) (by simp [hs])
  have hck := fits_closeKind hf (by simp [hs])
  have hep : s.eng.epoch ≠ 0#32 := hf.2.2.2.2.2.2 (by simp [inEpoch, hs])
  have hne : s.eng.nextEpoch ≠ some 0#32 := hf.2.2.2.2.1
  have hnr := noRecords_of_takes h (takes_of (by simp [hs]) (by simp [hop]))
  refine enterState_inv (inv_engine h ⟨?_, ⟨?_, ?_⟩, ⟨?_, ?_⟩, ⟨?_, ?_⟩, ⟨?_, ?_, ?_⟩⟩ rfl rfl
      hnr.vacuous ?_ rfl) <;>
    simp [setEng, opFits, headerFits, hon, hck, hd, hep, rollbackWalk, walkState, hne, holdsNoRecords]

/-! ### Walks -/

/-- The engine walks, and no record is in flight. -/
structure Walking (s : State) : Prop where
  inv : BlocksOk s
  state : s.eng.state = .rolling ∨ s.eng.state = .recovering
  none : NoRecords s

/-- A step of a walk that moves the walk values and the operation only. -/
theorem Walking.move {s : State} (h : Walking s) (w : Walk) (op : EngineOp)
    (hst : w.stall = s.eng.walk.stall)
    (hfit : opFits { s.eng with op := op } = true) (hre : isReassert op = false)
    (hhn : holdsNoRecords { s.eng with op := op } = true → holdsNoRecords s.eng = true) :
    Walking { s with eng := { s.eng with walk := w, op := op } } := by
  obtain ⟨hi, hs, hn⟩ := h
  obtain ⟨h1, h2, h3, ⟨h4, h5⟩, h6, h7, h8⟩ := hi.2.2.2.2.1
  have hw : walkState s.eng.state = true := by rcases hs with hs | hs <;> simp [hs, walkState]
  refine ⟨inv_engine hi ⟨hfit, h2, h3, ⟨?_, ?_⟩, h6, h7, ?_⟩ rfl rfl hn.vacuous hhn rfl, hs, hn⟩
  · intro hf; rw [hw] at hf; cases hf
  · rw [hst]; exact h5
  · intro hin
    rcases hs with hs | hs <;> simp [inEpoch, hs, hre] at hin

theorem Walking.enqueue {s : State} (h : Walking s) (op : MemOp) (a : Addr) : Walking (enqueue op a s) := by
  refine ⟨enqueue_inv h.inv op a, ?_, ?_⟩
  · rw [enqueue_eng]; exact h.state
  · rw [NoRecords, enqueue_table]; exact h.none

theorem Walking.report {s : State} (h : Walking s) (c : EvClass) (b : NoticeBody) : Walking (report c b s) := by
  refine ⟨report_inv h.inv c b, ?_, ?_⟩
  · rw [(report_tableOnly c b s).eng]; exact h.state
  · rw [NoRecords, report_table]; exact h.none

theorem beginRestore_walking {s : State} (h : Walking s) (k : Nat) : Walking (beginRestore k s) := by
  have h1 := h.move { s.eng.walk with phase := some .restore, index := some k } (.recordReads none none) rfl
    (by rcases h.state with hs | hs <;> simp [opFits, hs]) rfl
    (by rcases h.state with hs | hs <;> simp [holdsNoRecords, hs])
  unfold beginRestore
  dsimp only
  exact (h1.enqueue _ _).enqueue _ _

theorem beginScan_walking {s : State} (h : Walking s) (k : Nat) : Walking (beginScan k s) := by
  have h1 := h.move { s.eng.walk with phase := some .scan, index := some k } (.recordReads none none) rfl
    (by rcases h.state with hs | hs <;> simp [opFits, hs]) rfl
    (by rcases h.state with hs | hs <;> simp [holdsNoRecords, hs])
  unfold beginScan
  dsimp only
  exact (h1.enqueue _ _).enqueue _ _

theorem beginFinal_walking {s : State} (h : Walking s) : Walking (beginFinal s) :=
  h.move { s.eng.walk with phase := some .final, index := none } (.headerWrite .walkFinal false) rfl
    (by rcases h.state with hs | hs <;> simp [opFits, headerFits, hs]) rfl
    (by rcases h.state with hs | hs <;> simp [holdsNoRecords, hs])

theorem walkBelow_walking {s : State} (h : Walking s) (n : Nat) : Walking (walkBelow n s) := by
  cases n with
  | zero => exact beginFinal_walking h
  | succ k => exact beginRestore_walking h k

theorem beginWalk_walking {s : State} (h : Walking s) : Walking (beginWalk s) := walkBelow_walking h _

/-- A report does not look at the engine's state. -/
theorem report_setState (c : EvClass) (b : NoticeBody) (n : EngState) (s : State) :
    report c b { s with eng := { s.eng with state := n } } =
      { report c b s with eng := { (report c b s).eng with state := n } } := by
  unfold report post setClass
  dsimp only
  split <;> rfl

/-- R142: a stall leaves the walk values where they stand. -/
theorem stallWalk_inv {s : State} (h : Walking s) (c : StallCause) (a : Addr) : BlocksOk (stallWalk c a s) := by
  have hf := h.inv.2.2.2.2.1
  have hck := fits_closeKind hf (by rcases h.state with hs | hs <;> simp [hs])
  have hon := fits_openNumber hf (by rcases h.state with hs | hs <;> simp [hs])
    (by rcases h.state with hs | hs <;> simp [hs])
  have hd := fits_deadline hf (by rcases h.state with hs | hs <;> simp [hs])
  have hne : s.eng.nextEpoch ≠ some 0#32 := hf.2.2.2.2.1
  unfold stallWalk
  dsimp only
  refine enterState_inv ?_
  rw [← report_setState]
  refine report_inv ?_ _ _
  refine inv_engine h.inv ⟨?_, ⟨?_, ?_⟩, ⟨?_, ?_⟩, ⟨?_, ?_⟩, ⟨?_, ?_, ?_⟩⟩ rfl rfl
    h.none.vacuous ?_ rfl <;>
    simp [setEng, opFits, hck, hon, hd, walkState, hne, inEpoch, isReassert, holdsNoRecords]

theorem restored_walking {s : State} (h : Walking s) : Walking (restored s) := walkBelow_walking h _

theorem endScan_walking {s : State} (h : Walking s) (k : Nat)
    (hop : holdsNoRecords s.eng = false) (hfit : opFits s.eng = true)
    (hre : isReassert s.eng.op = false) : Walking (endScan k s) := by
  have h1 := h.move { s.eng.walk with scanCount := some k } s.eng.op rfl hfit hre
    (fun hn => by rw [hop] at hn; cases hn)
  exact beginWalk_walking h1

/-- A walk's operation puts the engine in a walk. -/
theorem walking_of_op {s : State} (h : BlocksOk s)
    (hop : (∃ a b, s.eng.op = .recordReads a b) ∨ (∃ a b, s.eng.op = .restoreWait a b) ∨
      (∃ a, s.eng.op = .restoreIssued a) ∨ (∃ b, s.eng.op = .headerWrite .walkFinal b) ∨
      (∃ b, s.eng.op = .headerWrite .reassert b)) : Walking s := by
  have hf := h.2.2.2.2.1.1
  have hs : s.eng.state = .rolling ∨ s.eng.state = .recovering := by
    unfold opFits at hf
    rcases hop with ⟨a, b, ho⟩ | ⟨a, b, ho⟩ | ⟨a, ho⟩ | ⟨b, ho⟩ | ⟨b, ho⟩ <;> rw [ho] at hf <;>
      simp [headerFits] at hf <;> tauto
  refine ⟨h, hs, noRecords_of_takes h (takes_of ?_ ?_)⟩
  · rcases hs with hs | hs <;> simp [hs]
  · rcases hop with ⟨a, b, ho⟩ | ⟨a, b, ho⟩ | ⟨a, ho⟩ | ⟨b, ho⟩ | ⟨b, ho⟩ <;> simp [ho]

theorem holdsNoRecords_recordReads {s : State} (h : Walking s) {a b : Option CellData}
    (ho : s.eng.op = .recordReads a b) : holdsNoRecords s.eng = false := by
  rcases h.state with hs | hs <;> simp [holdsNoRecords, hs, ho]

/-- R138, R151: a record's pair has been read. -/
theorem recordRead_inv {s : State} (h : BlocksOk s) {a b : Option CellData}
    (ho : s.eng.op = .recordReads a b) (k : Nat) (x d : CellData) : BlocksOk (recordRead k x d s) := by
  have hw := walking_of_op h (.inl ⟨a, b, ho⟩)
  have hn := holdsNoRecords_recordReads hw ho
  have he : ∀ n, BlocksOk (endScan n s) := fun n =>
    (endScan_walking hw n hn h.2.2.2.2.1.1 (by simp [ho, isReassert])).inv
  unfold recordRead
  dsimp only
  split
  · split
    · split
      · exact (beginScan_walking hw _).inv
      · exact he _
    · exact he _
  · split
    · exact (hw.move s.eng.walk (.restoreWait (recordCell x) d) rfl
        (by rcases hw.state with hs | hs <;> simp [opFits, hs]) rfl
        (by rcases hw.state with hs | hs <;> simp [holdsNoRecords, hs])).inv
    · exact stallWalk_inv hw _ _

theorem recordReadOk_inv {s : State} (h : BlocksOk s) (k : Nat) (half : RecHalf) (bytes : CellData) :
    BlocksOk (recordReadOk k half bytes s) := by
  unfold recordReadOk
  split
  · rename_i a b ho
    have hw := walking_of_op h (.inl ⟨a, b, ho⟩)
    have hmove : ∀ x y, BlocksOk { s with eng := { s.eng with op := .recordReads x y } } := fun x y =>
      (hw.move s.eng.walk (.recordReads x y) rfl
        (by rcases hw.state with hs | hs <;> simp [opFits, hs]) rfl
        (by rcases hw.state with hs | hs <;> simp [holdsNoRecords, hs])).inv
    dsimp only
    split
    · exact recordRead_inv h ho _ _ _
    · exact hmove _ _
  · exact h

theorem disown_walking {s : State} (h : Walking s) (p : MemOp → Bool) : Walking (disown p s) :=
  ⟨disown_inv h.inv p, h.state, h.none⟩

theorem recordReadAnswered_inv {s : State} (h : BlocksOk s) (k : Nat) (half : RecHalf) (r : Answer) :
    BlocksOk (recordReadAnswered k half r s) := by
  unfold recordReadAnswered
  split
  · exact recordReadOk_inv h _ _ _
  · split
    · rename_i hr
      unfold Engine.readsRecord at hr
      split at hr
      · rename_i a b ho
        exact stallWalk_inv (disown_walking (walking_of_op h (.inl ⟨a, b, ho⟩)) _) _ _
      · cases hr
    · exact h

theorem restoreAnswered_inv {s : State} (h : BlocksOk s) (c : CellIx) (ok : Bool) :
    BlocksOk (restoreAnswered c ok s) := by
  unfold restoreAnswered
  split
  · rename_i a ho
    have hw := walking_of_op h (.inr (.inr (.inl ⟨a, ho⟩)))
    split
    · exact (restored_walking hw).inv
    · exact stallWalk_inv hw _ _
  · exact h

theorem restoreStep_inv {s : State} (h : BlocksOk s) : BlocksOk (restoreStep s) := by
  unfold restoreStep
  split
  · rename_i c b ho
    have hw := walking_of_op h (.inr (.inl ⟨c, b, ho⟩))
    split
    · have h1 := hw.move s.eng.walk (.restoreIssued c) rfl
        (by rcases hw.state with hs | hs <;> simp [opFits, hs]) rfl
        (by rcases hw.state with hs | hs <;> simp [holdsNoRecords, hs])
      exact (h1.enqueue _ _).inv
    · exact h
  · exact h

/-! ### The drain -/

/-- R90: a complete drain leaves no claim and no record. -/
theorem noRecords_of_drain {s : State} (h : BlocksOk s) (hd : drainDone s = true) : NoRecords s := by
  intro e he
  by_contra hp
  have hp : e.preserving = true := by simpa using hp
  obtain ⟨h1, h2, -⟩ := h.traffic.2.2.2.2.1 e he hp
  have hst : e.stage = .fetchingOld ∨ e.stage = .recording := by
    simp only [Entry.preserving, Entry.claims, Bool.or_eq_true, Bool.and_eq_true, beq_iff_eq] at hp
    tauto
  simp only [drainDone, Bool.not_eq_true', List.any_eq_false] at hd
  refine hd e he ?_
  rcases hst with hst | hst <;> simp [Entry.inDrain, h1, h2, hst]

theorem drainStep_inv {s : State} (h : BlocksOk s) : BlocksOk (drainStep s) := by
  unfold drainStep
  split
  · rename_i ho
    split
    · rename_i hd
      have hn := noRecords_of_drain h hd
      obtain ⟨h1, ⟨h2, h3⟩, h4, ⟨h5, h6⟩, h7, h8, h9⟩ := h.2.2.2.2.1
      split
      · rename_i hs
        have hk : ∃ k, s.eng.closeKind = some k := by
          rw [hs] at h2; exact Option.isSome_iff_exists.mp (by simpa using h2)
        obtain ⟨k, hk⟩ := hk
        refine inv_engine h ⟨?_, ⟨h2, h3⟩, h4, ⟨h5, h6⟩, h7, h8, ?_⟩ rfl rfl hn.vacuous ?_ rfl
        · cases k <;> simp [needHeader, setEng, opFits, headerFits, hs, hk, closePurpose]
        · intro _; exact h9 (by simp [inEpoch, hs])
        · cases k <;> simp [holdsNoRecords, needHeader, setEng, hs, hk, closePurpose]
      · rename_i hs
        have hr : s.eng.state = .rolling := by
          simp only [opFits, ho, Bool.or_eq_true, beq_iff_eq] at h1; tauto
        exact (beginWalk_walking ⟨h, .inl hr, hn⟩).inv
    · exact h
  · exact h

/-! ### Entering IDLE, OPEN, UNRECOVERED and FAULTED -/

/-- R94. -/
theorem enterIdle_inv {s : State} (h : BlocksOk s) (hn : NoRecords s) (hep : s.eng.nextEpoch ≠ some 0#32) :
    BlocksOk (enterIdle s) := by
  refine enterState_inv (inv_fresh h hn ⟨?_, ⟨?_, ?_⟩, ⟨?_, ?_⟩, ⟨?_, ?_⟩, ⟨hep, ?_, ?_⟩⟩ rfl rfl rfl rfl
    rfl rfl rfl id) <;>
    simp [idleValues, opFits, Walk.absent, inEpoch, isReassert]

/-- R88. -/
theorem enterOpen_inv {s : State} (h : BlocksOk s) (hn : NoRecords s) (why : EpochReport)
    (hs : s.eng.state = .opening ∨ (s.eng.state = .closing ∧ s.eng.closeKind = some .commitOpen)) :
    BlocksOk (enterOpen why s) := by
  have hf := h.2.2.2.2.1
  have hw := fits_walk hf (by rcases hs with hs | ⟨hs, -⟩ <;> simp [hs, walkState])
  have hne : s.eng.nextEpoch ≠ some 0#32 := hf.2.2.2.2.1
  have hon : s.eng.openNumber.getD s.eng.epoch ≠ 0#32 := by
    have h1 : s.eng.openNumber.isSome = true := by
      rw [hf.2.1.2]; rcases hs with hs | ⟨hs, hk⟩ <;> simp [*]
    obtain ⟨n, hn⟩ := Option.isSome_iff_exists.mp h1
    have h2 : s.eng.openNumber ≠ some 0#32 := hf.2.2.2.2.2.1
    rw [hn] at h2 ⊢
    simpa using h2
  refine enterState_inv ?_
  rw [← report_setState]
  refine report_inv ?_ _ _
  refine inv_fresh h hn ⟨?_, ⟨?_, ?_⟩, ⟨?_, ?_⟩, ⟨?_, ?_⟩, ⟨?_, ?_, ?_⟩⟩ rfl rfl rfl rfl rfl rfl rfl id <;>
    simp [openValues, loadDeadline, setEng, opFits, hw, Walk.absent, hne, hon]

/-- R149: back to UNRECOVERED from an operation that holds no records. -/
theorem toUnrecovered {s : State} (h : BlocksOk s) (hs : s.eng.state = .recovering)
    (hop : s.eng.op ≠ .draining) (hn : holdsNoRecords s.eng = true) :
    BlocksOk { s with eng := { s.eng with state := .unrecovered, walk := Walk.absent, op := .none } } := by
  have hf := h.2.2.2.2.1
  have hck := fits_closeKind hf (by simp [hs])
  have hon := fits_openNumber hf (by simp [hs]) (by simp [hs])
  have hd := fits_deadline hf (by simp [hs])
  have hne : s.eng.nextEpoch ≠ some 0#32 := hf.2.2.2.2.1
  have hnr := noRecords_of_takes h (takes_of (by simp [hs]) hop)
  refine inv_engine h ⟨?_, ⟨?_, ?_⟩, ⟨?_, ?_⟩, ⟨?_, ?_⟩, ⟨?_, ?_, ?_⟩⟩ rfl rfl hnr.vacuous (fun _ => hn)
    rfl <;>
    simp [opFits, hck, hon, hd, Walk.absent, hne, inEpoch, isReassert]

theorem reportHeaderFault_inv {s : State} (h : BlocksOk s) (why : HeaderFaultReason) :
    BlocksOk (reportHeaderFault why s) := report_inv h _ _

theorem enterUnrecovered_inv {s : State} (h : BlocksOk s) (hs : s.eng.state = .recovering)
    (hop : s.eng.op ≠ .draining) (hn : holdsNoRecords s.eng = true) : BlocksOk (enterUnrecovered s) := by
  have h1 := toUnrecovered h hs hop hn
  exact enterState_inv h1

/-- R96. -/
theorem enterFaulted_inv {s : State} (h : BlocksOk s) (hn : NoRecords s) (why : HeaderFaultReason)
    (hs : (s.eng.state = .closing) ∨ isReassert s.eng.op = true)
    (hso : s.eng.state ≠ .opened) : BlocksOk (enterFaulted why s) := by
  have hf := h.2.2.2.2.1
  have hd := fits_deadline hf hso
  have hne : s.eng.nextEpoch ≠ some 0#32 := hf.2.2.2.2.1
  have hep : s.eng.epoch ≠ 0#32 := hf.2.2.2.2.2.2 (by rcases hs with hs | hs <;> simp [inEpoch, hs])
  unfold enterFaulted
  refine enterState_inv ?_
  unfold reportHeaderFault
  rw [← report_setState]
  refine report_inv ?_ _ _
  refine inv_engine h ⟨?_, ⟨?_, ?_⟩, ⟨?_, ?_⟩, ⟨?_, ?_⟩, ⟨?_, ?_, ?_⟩⟩ rfl rfl hn.vacuous ?_ rfl <;>
    simp [setEng, opFits, hd, Walk.absent, hne, hep, holdsNoRecords]

/-! ### Outcomes of header writes -/

/-- A header write in progress: no record is in flight. -/
theorem noRecords_of_header {s : State} (h : BlocksOk s) {why : HdrPurpose} {b : Bool}
    (ho : s.eng.op = .headerWrite why b) : NoRecords s := by
  have hf := h.2.2.2.2.1.1
  refine noRecords_of_takes h (takes_of ?_ (by simp [ho]))
  intro hs
  rw [opFits, ho] at hf
  cases why <;> simp [headerFits, hs] at hf

/-- R77: an acknowledged header moves GENERATION and NEXT_COPY only. -/
theorem headerLanded_inv {s : State} (h : BlocksOk s) (hn : NoRecords s) : BlocksOk (headerLanded s) :=
  inv_engine h h.2.2.2.2.1 rfl rfl hn.vacuous id rfl

theorem headerOk_inv {s : State} (h : BlocksOk s) {why : HdrPurpose} {b : Bool}
    (ho : s.eng.op = .headerWrite why b) : BlocksOk (headerOk why s) := by
  have hn := noRecords_of_header h ho
  have h1 := headerLanded_inv h hn
  have hn1 : NoRecords (headerLanded s) := hn
  have hne : s.eng.nextEpoch ≠ some 0#32 := h.2.2.2.2.1.2.2.2.2.1
  have hfit := h.2.2.2.2.1.1
  rw [opFits, ho] at hfit
  have hrep : ∀ b, BlocksOk (enterIdle (report .epochDone b (headerLanded s))) := fun b => by
    refine enterIdle_inv (report_inv h1 _ _) ?_ ?_
    · rw [NoRecords, report_table]; exact hn1
    · rw [(report_tableOnly _ _ _).eng]; exact hne
  unfold headerOk
  dsimp only
  cases why with
  | opening =>
    exact enterOpen_inv h1 hn1 _ (.inl (by simpa [headerFits, headerLanded, setEng] using hfit))
  | closeCommit => exact hrep _
  | closeCommitOpen =>
    exact enterOpen_inv h1 hn1 _ (.inr (by simpa [headerFits, headerLanded, setEng] using hfit))
  | reassert =>
    exact (beginWalk_walking ⟨h1, (walking_of_op h (.inr (.inr (.inr (.inr ⟨b, ho⟩))))).state, hn1⟩).inv
  | walkFinal => exact hrep _
  | discard => exact hrep _
  | formatFirst =>
    have hs : s.eng.state = .recovering := by simpa [headerFits] using hfit
    obtain ⟨h2, h3, h4, h5, h6, h7, -⟩ := h1.2.2.2.2.1
    refine inv_engine h1 ⟨?_, h3, h4, h5, h6, h7, ?_⟩ rfl rfl hn1.vacuous ?_ rfl
    · simp [needHeader, setEng, headerLanded, opFits, headerFits, hs]
    · simp [needHeader, setEng, headerLanded, inEpoch, isReassert, hs]
    · simp [setEng, headerLanded, holdsNoRecords, ho]
  | formatSecond => exact hrep _

theorem headerFailed_inv {s : State} (h : BlocksOk s) {why : HdrPurpose} {b : Bool}
    (ho : s.eng.op = .headerWrite why b) : BlocksOk (headerFailed why s) := by
  have hn := noRecords_of_header h ho
  have hne : s.eng.nextEpoch ≠ some 0#32 := h.2.2.2.2.1.2.2.2.2.1
  have hf := h.2.2.2.2.1
  have hfit := hf.1
  rw [opFits, ho] at hfit
  have hun : ∀ why', s.eng.state = .recovering → holdsNoRecords s.eng = true →
      BlocksOk (enterUnrecovered (reportHeaderFault why' s)) := fun why' hs hh => by
    have he : (reportHeaderFault why' s).eng = s.eng := (report_tableOnly _ _ _).eng
    exact enterUnrecovered_inv (reportHeaderFault_inv h why') (by rw [he]; exact hs)
      (by rw [he, ho]; simp) (by rw [he]; exact hh)
  unfold headerFailed
  cases why with
  | opening =>
    have hs : s.eng.state = .opening := by simpa [headerFits] using hfit
    unfold failOpening
    generalize hs1 : setEng (fun g => { g with epoch := g.openNumber.getD g.epoch, openNumber := none }) s
      = s1
    have hrt : reportHeaderFault .openHeader s1 = report .fault (.headerFault
        (slotAddr s1.cfg (copySlot s1.eng.nextCopy)) .openHeader) s1 := rfl
    have ho := report_tableOnly .fault (.headerFault
        (slotAddr s1.cfg (copySlot s1.eng.nextCopy)) .openHeader) s1
    rw [hrt]
    have ht : (report .fault (.headerFault (slotAddr s1.cfg (copySlot s1.eng.nextCopy)) .openHeader)
        s1).table = s1.table := report_table _ _ _
    have hp : (report .fault (.headerFault (slotAddr s1.cfg (copySlot s1.eng.nextCopy)) .openHeader)
        s1).pres = s1.pres := report_pres _ _ _
    generalize report .fault (.headerFault (slotAddr s1.cfg (copySlot s1.eng.nextCopy)) .openHeader)
      s1 = r at *
    have he : r.eng.nextEpoch = s.eng.nextEpoch := by rw [ho.eng, ← hs1]; rfl
    refine enterState_inv (inv_fresh h hn ⟨?_, ⟨?_, ?_⟩, ⟨?_, ?_⟩, ⟨?_, ?_⟩, ⟨?_, ?_, ?_⟩⟩ rfl rfl rfl
      ?_ ?_ ?_ ?_ ?_)
    · simp [idleValues, opFits]
    · simp [idleValues]
    · simp [idleValues]
    · simp [idleValues]
    · simp [idleValues]
    · simp [idleValues]
    · simp [idleValues, Walk.absent]
    · simpa [idleValues, he] using hne
    · simp [idleValues]
    · simp [idleValues, inEpoch, isReassert]
    · show r.table = s.table
      rw [ht, ← hs1]; rfl
    · show r.rules = s.rules
      rw [ho.rules, ← hs1]; rfl
    · show r.pres.queue = s.pres.queue
      rw [hp, ← hs1]; rfl
    · show r.pres.claims = s.pres.claims
      rw [hp, ← hs1]; rfl
    · intro hN; exact ho.notices (by rw [← hs1]; exact hN)
  | closeCommit =>
    have hs : s.eng.state = .closing := by simp [headerFits] at hfit; exact hfit.1
    exact enterFaulted_inv h hn _ (.inl hs) (by simp [hs])
  | closeCommitOpen =>
    have hs : s.eng.state = .closing := by simp [headerFits] at hfit; exact hfit.1
    exact enterFaulted_inv h hn _ (.inl hs) (by simp [hs])
  | reassert =>
    have hs : s.eng.state = .rolling := by simpa [headerFits] using hfit
    exact enterFaulted_inv h hn _ (.inr (by simp [ho, isReassert])) (by simp [hs])
  | walkFinal => exact stallWalk_inv (walking_of_op h (.inr (.inr (.inr (.inl ⟨b, ho⟩))))) _ _
  | discard =>
    exact hun _ (by simpa [headerFits] using hfit) (by simp [holdsNoRecords, ho])
  | formatFirst =>
    exact hun _ (by simpa [headerFits] using hfit) (by simp [holdsNoRecords, ho])
  | formatSecond =>
    exact hun _ (by simpa [headerFits] using hfit) (by simp [holdsNoRecords, ho])

theorem headerAnswered_inv {s : State} (h : BlocksOk s) (ok : Bool) : BlocksOk (headerAnswered ok s) := by
  unfold headerAnswered
  split
  · rename_i why ho
    split
    · exact headerOk_inv h ho
    · exact headerFailed_inv h ho
  · exact h

/-! ### Issuing header accesses -/

theorem headerWrite_inv {s : State} (h : BlocksOk s) {why : HdrPurpose} {b b' : Bool}
    (ho : s.eng.op = .headerWrite why b) :
    BlocksOk { s with eng := { s.eng with op := .headerWrite why b' } } := by
  have hn := noRecords_of_header h ho
  obtain ⟨h1, h2, h3, h4, h5, h6, h7⟩ := h.2.2.2.2.1
  refine inv_engine h ⟨?_, h2, h3, h4, h5, h6, ?_⟩ rfl rfl hn.vacuous ?_ rfl
  · rw [opFits, ho] at h1; exact h1
  · intro hin
    refine h7 ?_
    cases why <;> simp_all [inEpoch, isReassert]
  · intro hh
    cases why <;> simp_all [holdsNoRecords]

theorem headerReads_inv {s : State} (h : BlocksOk s) {why : HdrReader} {a b a' b' : HdrRead}
    (ho : s.eng.op = .headerReads why a b) :
    BlocksOk { s with eng := { s.eng with op := .headerReads why a' b' } } := by
  obtain ⟨h1, h2, h3, h4, h5, h6, h7⟩ := h.2.2.2.2.1
  have hs : s.eng.state = .recovering := by rw [opFits, ho] at h1; simpa using h1
  have hn := noRecords_of_takes h (takes_of (by simp [hs]) (by simp [ho]))
  refine inv_engine h ⟨?_, h2, h3, h4, h5, h6, ?_⟩ rfl rfl hn.vacuous ?_ rfl
  · simp [opFits, hs]
  · simp [inEpoch, isReassert, hs]
  · intro _; simp [holdsNoRecords, ho]

theorem requestHeaderRead_inv {s : State} (h : BlocksOk s) (c : Copy) : BlocksOk (requestHeaderRead c s) :=
  enqueue_inv h _ _

theorem headerStep_inv {s : State} (h : BlocksOk s) : BlocksOk (headerStep s) := by
  unfold headerStep
  split
  · rename_i why ho
    split
    · exact enqueue_inv (headerWrite_inv (b' := true) h ho) _ _
    · exact h
  · rename_i why a b ho
    dsimp only
    have h1 : ∀ x y, BlocksOk (setEng (fun g => { g with op := .headerReads why x y }) s) :=
      fun x y => headerReads_inv h ho
    split
    · split
      · exact requestHeaderRead_inv (requestHeaderRead_inv (h1 _ _) _) _
      · exact requestHeaderRead_inv (h1 _ _) _
    · split
      · exact requestHeaderRead_inv (h1 _ _) _
      · exact h1 _ _
  · exact h

/-! ### Header reads: RECOVER and DISCARD -/

/-- From UNRECOVERED into RECOVERING, with an operation that holds no records. -/
theorem toRecovering {s : State} (h : BlocksOk s) (hs : s.eng.state = .unrecovered) (w : Walk) (op : EngineOp)
    (jid ep : W32) (gen : W32) (nc : Copy) (ne : Option W32) (hne : ne ≠ some 0#32)
    (hw : w.stall = none) (hfit : opFits { s.eng with state := .recovering, op := op } = true)
    (hre : isReassert op = false) :
    BlocksOk { s with eng := { s.eng with
      state := .recovering, walk := w, op := op, journalId := jid, epoch := ep, generation := gen,
      nextCopy := nc, nextEpoch := ne } } := by
  have hf := h.2.2.2.2.1
  have hop := fits_op hf (by simp [hs]) (by simp [hs]) (by simp [hs]) (by simp [hs])
  have hck := fits_closeKind hf (by simp [hs])
  have hon := fits_openNumber hf (by simp [hs]) (by simp [hs])
  have hd := fits_deadline hf (by simp [hs])
  have hnr := noRecords_of_takes h (takes_of (by simp [hs]) (by simp [hop]))
  refine inv_engine h ⟨?_, ⟨?_, ?_⟩, ⟨?_, ?_⟩, ⟨?_, ?_⟩, ⟨hne, ?_, ?_⟩⟩ rfl rfl hnr.vacuous ?_ rfl
  · unfold opFits headerFits at hfit ⊢; exact hfit
  all_goals simp [hck, hon, hd, hw, walkState, inEpoch, hre, holdsNoRecords, hs]

theorem beginHeaderReads_inv {s : State} (h : BlocksOk s) (hs : s.eng.state = .unrecovered) (why : HdrReader)
    (w : Walk) (hw : w.stall = none) : BlocksOk (beginHeaderReads why w s) := by
  have h1 := toRecovering h hs w (.headerReads why .waiting .waiting) s.eng.journalId s.eng.epoch
    s.eng.generation s.eng.nextCopy s.eng.nextEpoch h.2.2.2.2.1.2.2.2.2.1 hw (by simp [opFits]) rfl
  exact enterState_inv h1

theorem takeFormat_inv {s : State} (h : BlocksOk s) (hs : s.eng.state = .unrecovered) : BlocksOk (takeFormat s) := by
  have h1 := toRecovering h hs Walk.absent (.headerWrite .formatFirst false) s.port.arg 0 0 .a (some 1)
    (by decide) rfl (by simp [opFits, headerFits]) rfl
  exact enterState_inv h1

/-- The engine reads the headers. -/
structure Reading (s : State) : Prop where
  inv : BlocksOk s
  state : s.eng.state = .recovering
  op : ∃ why a b, s.eng.op = .headerReads why a b

theorem reading_of_op {s : State} (h : BlocksOk s) {why : HdrReader} {a b : HdrRead}
    (ho : s.eng.op = .headerReads why a b) : Reading s := by
  have h1 := h.2.2.2.2.1.1
  rw [opFits, ho] at h1
  exact ⟨h, by simpa using h1, why, a, b, ho⟩

/-- A recovery or DISCARD that ends in UNRECOVERED with a report. -/
theorem Reading.giveUp {s : State} (h : Reading s) (b : NoticeBody) :
    BlocksOk (enterState .unrecovered (report .fault b
      (setEng (fun g => { g with walk := Walk.absent, op := .none }) s))) := by
  obtain ⟨why, x, y, ho⟩ := h.op
  refine enterState_inv ?_
  rw [← report_setState]
  have h1 := toUnrecovered h.inv h.state (by simp [ho]) (by simp [holdsNoRecords, ho])
  exact report_inv h1 _ _

theorem headerReadFailed_inv {s : State} (h : Reading s) (c : Copy) : BlocksOk (headerReadFailed c s) :=
  Reading.giveUp (s := disown MemOp.isHeaderRead s) ⟨disown_inv h.inv _, h.state, h.op⟩ _

/-- R150: adoption while the headers are read. -/
theorem adopt_reading {s : State} (h : Reading s) (c : Copy) (x : CellData) : Reading (adopt c x s) := by
  obtain ⟨why, a, b, ho⟩ := h.op
  have hs := h.state
  have hn := noRecords_of_takes h.inv (takes_of (by simp [hs]) (by simp [ho]))
  obtain ⟨h1, h2, h3, h4, h5, h6, h7⟩ := h.inv.2.2.2.2.1
  refine ⟨inv_engine h.inv ⟨h1, h2, h3, h4, ?_, h6, ?_⟩ rfl rfl hn.vacuous ?_ rfl, hs, why, a, b, ho⟩
  · show (if hdrEpoch x = Config.lastEpoch then none else some (hdrEpoch x + 1)) ≠ some 0
    split
    · simp
    · rename_i hl
      intro h0
      have h1 : hdrEpoch x + 1 = 0 := by simpa using h0
      exact hl (by simp only [Config.lastEpoch]; bv_omega)
  · simp [inEpoch, setEng, adopt, hs, ho, isReassert]
  · intro _; simp [holdsNoRecords, ho]

theorem Reading.noRecords {s : State} (h : Reading s) : NoRecords s := by
  obtain ⟨why, a, b, ho⟩ := h.op
  exact noRecords_of_takes h.inv (takes_of (by simp [h.state]) (by simp [ho]))

/-- R158: a DISCARD in UNRECOVERED goes on to its header write. -/
theorem Reading.toDiscard {s : State} (h : Reading s) : BlocksOk (needHeader .discard s) := by
  obtain ⟨why, a, b, ho⟩ := h.op
  have hs := h.state
  obtain ⟨h1, h2, h3, h4, h5, h6, h7⟩ := h.inv.2.2.2.2.1
  refine inv_engine h.inv ⟨?_, h2, h3, h4, h5, h6, ?_⟩ rfl rfl h.noRecords.vacuous ?_ rfl
  · simp [needHeader, setEng, opFits, headerFits, hs]
  · simp [needHeader, setEng, inEpoch, isReassert, hs]
  · intro _; simp [holdsNoRecords, ho]

theorem selectHeader_inv {s : State} (h : Reading s) (why : HdrReader) (a b : CellData) :
    BlocksOk (selectHeader why a b s) := by
  unfold selectHeader
  split
  · exact h.giveUp _
  · rename_i c hc
    dsimp only
    have key : ∀ t, Reading t → ∀ st : HdrState, BlocksOk (match why with
        | .discard => needHeader .discard t
        | .recover =>
          match st with
          | .clean => enterIdle (report .epochDone (.recoveryResult .clean) t)
          | .active => beginScan 0 t) := by
      intro t h0 st
      cases why with
      | discard => exact h0.toDiscard
      | recover =>
        cases st with
        | clean =>
          refine enterIdle_inv (report_inv h0.inv _ _) ?_ ?_
          · rw [NoRecords, report_table]; exact h0.noRecords
          · rw [(report_tableOnly _ _ _).eng]; exact h0.inv.2.2.2.2.1.2.2.2.2.1
        | active => exact (beginScan_walking ⟨h0.inv, .inr h0.state, h0.noRecords⟩ 0).inv
    exact key _ (adopt_reading h c _) _

theorem headerReadOk_inv {s : State} (h : BlocksOk s) (c : Copy) (bytes : CellData) :
    BlocksOk (headerReadOk c bytes s) := by
  unfold headerReadOk
  split
  · rename_i why a b ho
    dsimp only
    split
    · exact selectHeader_inv (reading_of_op h ho) _ _ _
    · exact headerReads_inv h ho
  · exact h

theorem headerReadAnswered_inv {s : State} (h : BlocksOk s) (c : Copy) (r : Answer) :
    BlocksOk (headerReadAnswered c r s) := by
  unfold headerReadAnswered
  split
  · exact headerReadOk_inv h _ _
  · split
    · rename_i hr
      unfold Engine.readsHeaders at hr
      split at hr
      · rename_i ho
        exact headerReadFailed_inv (reading_of_op h ho) _
      · cases hr
    · exact h

/-! ### RESUME and DISCARD of a stalled walk -/

theorem walkRunState_cases (k : Option WalkKind) :
    walkRunState k = .rolling ∨ walkRunState k = .recovering := by
  unfold walkRunState; split <;> simp

/-- R144, R145: a stalled walk runs again, with other walk values and an operation of the walk. -/
theorem toWalking {s : State} (h : BlocksOk s) (hs : s.eng.state = .stalled) (n : EngState)
    (hn : n = .rolling ∨ n = .recovering) (w : Walk) (hw : w.stall = none) (op : EngineOp)
    (hop : op = .none ∨ op = .headerWrite .walkFinal false) :
    BlocksOk { s with eng := { s.eng with state := n, walk := w, op := op } } ∧ NoRecords s := by
  have hf := h.2.2.2.2.1
  have ho := fits_op hf (by simp [hs]) (by simp [hs]) (by simp [hs]) (by simp [hs])
  have hck := fits_closeKind hf (by simp [hs])
  have hon := fits_openNumber hf (by simp [hs]) (by simp [hs])
  have hd := fits_deadline hf (by simp [hs])
  have hne : s.eng.nextEpoch ≠ some 0#32 := hf.2.2.2.2.1
  have hnr := noRecords_of_takes h (takes_of (by simp [hs]) (by simp [ho]))
  refine ⟨inv_engine h ⟨?_, ⟨?_, ?_⟩, ⟨?_, ?_⟩, ⟨?_, ?_⟩, ⟨hne, ?_, ?_⟩⟩ rfl rfl hnr.vacuous ?_ rfl, hnr⟩ <;>
    rcases hn with rfl | rfl <;> rcases hop with rfl | rfl <;>
    simp [opFits, headerFits, hck, hon, hd, hw, walkState, inEpoch, isReassert, holdsNoRecords]

/-- A state entered with no record in flight has none after. -/
theorem enterState_noRecords {n : EngState} {s : State}
    (h : BlocksOk { s with eng := { s.eng with state := n } })
    (ht : takesRecords { s.eng with state := n } = false) : NoRecords (enterState n s) :=
  noRecords_of_takes (enterState_inv h) (by rw [enterState_eng]; exact ht)

theorem needFinal_walking {s : State} (h : Walking s) : Walking (needHeader .walkFinal s) :=
  h.move s.eng.walk (.headerWrite .walkFinal false) rfl
    (by rcases h.state with hs | hs <;> simp [opFits, headerFits, hs]) rfl
    (by rcases h.state with hs | hs <;> simp [holdsNoRecords, hs])

theorem resumeWalk_inv {s : State} (h : BlocksOk s) (hs : s.eng.state = .stalled) : BlocksOk (resumeWalk s) := by
  have ho := fits_op h.2.2.2.2.1 (by simp [hs]) (by simp [hs]) (by simp [hs]) (by simp [hs])
  obtain ⟨h1, -⟩ := toWalking h hs (walkRunState s.eng.walk.kind) (walkRunState_cases _)
    { s.eng.walk with stall := none } rfl .none (.inl rfl)
  have h2 : BlocksOk { (setEng (fun g => { g with walk := { g.walk with stall := none } }) s) with
      eng := { (setEng (fun g => { g with walk := { g.walk with stall := none } }) s).eng with
        state := walkRunState s.eng.walk.kind } } := by
    rw [← ho] at h1; exact h1
  have hw : Walking (enterState (walkRunState s.eng.walk.kind)
      (setEng (fun g => { g with walk := { g.walk with stall := none } }) s)) := by
    refine ⟨enterState_inv h2, ?_, enterState_noRecords h2 ?_⟩
    · rw [enterState_eng]; exact walkRunState_cases _
    · refine takes_of ?_ ?_
      · rcases walkRunState_cases s.eng.walk.kind with hr | hr <;> simp [hr]
      · simp [setEng, ho]
  have key : ∀ t, Walking t → BlocksOk (match s.eng.walk.phase with
      | some .scan => beginScan (s.eng.walk.index.getD 0) t
      | some .restore => beginRestore (s.eng.walk.index.getD 0) t
      | _ => needHeader .walkFinal t) := by
    intro t ht
    split
    · exact (beginScan_walking ht _).inv
    · exact (beginRestore_walking ht _).inv
    · exact (needFinal_walking ht).inv
  exact key _ hw

theorem discardWalk_inv {s : State} (h : BlocksOk s) (hs : s.eng.state = .stalled) : BlocksOk (discardWalk s) := by
  unfold discardWalk
  generalize s.eng.walk.discardCount.getD (restoredSoFar s.eng) = n
  generalize hw : walkRunState s.eng.walk.kind = st
  have hst : st = .rolling ∨ st = .recovering := hw ▸ walkRunState_cases _
  have h1 := (toWalking h hs st hst
    { s.eng.walk with phase := some .final, index := none, stall := none, discardCount := some n } rfl
    (.headerWrite .walkFinal false) (.inr rfl)).1
  refine enterState_inv ?_
  simp only [beginFinal, needHeader, setEng]
  exact h1

/-! ### Watch actions and the deadline -/

theorem dropAction_inv {s : State} (h : BlocksOk s) (e : Entry) (r : RuleNo) (w : DropReason) :
    BlocksOk (dropAction e r w s) := post_inv h _

theorem takeAction_inv {s : State} (h : BlocksOk s) (e : Entry) (a : EpochAction) (r : RuleNo) :
    BlocksOk (takeAction e a r s) := by
  unfold takeAction
  split
  · exact takeClose_inv h .commit ‹_› (by simp)
  · split
    · exact takeClose_inv h .commitOpen ‹_› (fun _ => ‹_›)
    · exact dropAction_inv h _ _ _
  · exact takeAbort_inv h ‹_›
  · exact h
  · split
    · exact takeOpen_inv h ‹_› ‹_›
    · exact dropAction_inv h _ _ _
  · exact h
  · exact dropAction_inv h _ _ _

/-- R104: a delivery leaves the decided entries as they are. -/
theorem takeAction_decided {s : State} (h : TableOk s) (e : Entry) (a : EpochAction) (r : RuleNo)
    {x : Entry} (hx : x ∈ s.table) (hd : x.undecided = false) : x ∈ (takeAction e a r s).table := by
  have hclose : ∀ k, x ∈ (takeClose k s).table := fun k => by
    refine (enterState_decided ?_ ?_ hd).2
    · cases k <;> exact h
    · cases k <;> exact hx
  have hdrop : ∀ w, x ∈ (dropAction e r w s).table := fun w => by
    rw [dropAction, post_table]; exact hx
  unfold takeAction
  split
  · exact hclose _
  · split
    · exact hclose _
    · exact hdrop _
  · exact (enterState_decided (s := setEng (fun g => { g with walk := rollbackWalk, op := .draining })
      (stopDeadline s)) h hx hd).2
  · exact hx
  · split
    · exact (enterState_decided (s := needHeader .opening (fixOpenNumber s)) h hx hd).2
    · exact hdrop _
  · exact hx
  · exact hdrop _

/-- R102. -/
theorem deadlineExpires_inv {s : State} (h : BlocksOk s) (hs : s.eng.state = .opened) :
    BlocksOk (deadlineExpires s) := by
  unfold deadlineExpires
  dsimp only
  generalize deadlineReason s.cfg.deadlineAction = act
  have hr := report_inv h .deadline (.deadlineExpired act)
  have hse : (report .deadline (.deadlineExpired act) s).eng = s.eng := (report_tableOnly _ _ _).eng
  generalize report .deadline (.deadlineExpired act) s = r at hr hse
  have hf := hr.2.2.2.2.1
  have h1 : BlocksOk (stopDeadline r) := by
    obtain ⟨h1, h2, -, h4, h5⟩ := hf
    refine inv_engine hr ⟨h1, h2, ⟨?_, ?_⟩, h4, h5⟩ rfl rfl ?_ id rfl
    · simp [stopDeadline, setEng]
    · simp [stopDeadline, setEng]
    · intro e he hp
      exact ⟨(hr.traffic.2.2.2.2.1 e he hp).2.2, rfl⟩
  have hs1 : (stopDeadline r).eng.state = .opened := by
    show r.eng.state = .opened
    rw [hse]; exact hs
  split
  · exact h1
  · exact takeClose_inv h1 .commit hs1 (by simp)
  · exact takeAbort_inv h1 hs1

end Sys2Proof.Machine
end

