-- ==== Sys2Proof/Laws/Mport.lean ====
section
/-! SUPPORT. What the memory-side port and the settling of an event keep: the invariants, and everything
host traffic leaves alone (chapter 9). -/

namespace Sys2Proof.Machine

/-! ### The untouched part -/

theorem untouched_of_table {s t : State} (h : TableOnly s t) : t.untouched = s.untouched := by
  simp only [State.untouched, h.pending, h.guards, h.rules, h.cfg, h.clock, h.port, h.pfw, h.held, h.levels,
    h.eng, h.filter, h.orphans]

theorem enqueue_untouched (op : MemOp) (a : Addr) (s : State) :
    (enqueue op a s).untouched = s.untouched := by
  obtain ⟨cs, before, after, -, -, he⟩ := enqueue_cases op a s
  rw [he]; rfl

theorem beginRestore_untouched (k : Nat) (s : State) : (beginRestore k s).untouched = s.untouched := by
  unfold beginRestore
  dsimp only
  rw [enqueue_untouched, enqueue_untouched]
  rfl

theorem walkBelow_untouched (n : Nat) (s : State) : (walkBelow n s).untouched = s.untouched := by
  cases n with
  | zero => rfl
  | succ k => exact beginRestore_untouched k s

theorem drainStep_untouched (s : State) : (drainStep s).untouched = s.untouched := by
  unfold drainStep
  split
  · split
    · split
      · rfl
      · exact walkBelow_untouched _ s
    · rfl
  · rfl

theorem headerStep_untouched (s : State) : (headerStep s).untouched = s.untouched := by
  unfold headerStep requestHeaderRead
  split
  · split
    · rw [enqueue_untouched]; rfl
    · rfl
  · dsimp only
    split <;> split <;> first | rfl | (simp only [enqueue_untouched]; rfl)
  · rfl

theorem requestIfClear_untouched (s : State) (r : RecElem) :
    (requestIfClear s r).untouched = s.untouched := by
  unfold requestIfClear requestSlots
  split
  · dsimp only
    rw [enqueue_untouched, enqueue_untouched]; rfl
  · rfl

theorem foldl_untouched {α : Type} (f : State → α → State) (h : ∀ s a, (f s a).untouched = s.untouched)
    (l : List α) (s : State) : (l.foldl f s).untouched = s.untouched := by
  induction l generalizing s with
  | nil => rfl
  | cons a l ih => rw [List.foldl_cons, ih, h]

theorem recordStep_untouched (s : State) : (recordStep s).untouched = s.untouched :=
  foldl_untouched _ requestIfClear_untouched _ s

theorem restoreStep_untouched (s : State) : (restoreStep s).untouched = s.untouched := by
  unfold restoreStep
  split
  · split
    · rw [enqueue_untouched]; rfl
    · rfl
  · rfl

/-! ### Grants -/

theorem denyAtGrant_tableOnly (t : Tag) (s : State) : TableOnly s (denyAtGrant t s) := by
  unfold denyAtGrant
  split
  · split
    · exact (denyEntry_tableOnly _ _ s).trans (giveTurn_tableOnly _ _)
    · exact .refl s
  · exact .refl s

theorem countIssued_untouched (op : MemOp) (s : State) : (countIssued op s).untouched = s.untouched := by
  unfold countIssued
  split
  · rename_i c _; cases c <;> rfl
  · rfl
  · rfl

theorem issueIn_untouched (i : LinkNo) (r : MemRequest) (s : State) :
    (issueIn i r s).untouched = s.untouched := by
  unfold issueIn
  dsimp only
  rw [countIssued_untouched]; rfl

theorem pick_untouched (n : Nat) (s : State) : (pick n s).2.untouched = s.untouched := by
  obtain ⟨cs, h⟩ := pick_state n s; rw [h]; rfl

theorem grantOne_untouched (s : State) : (grantOne s).untouched = s.untouched := by
  unfold grantOne
  split
  · dsimp only
    split
    · rw [untouched_of_table (denyAtGrant_tableOnly _ _)]; rfl
    · rfl
    · rw [issueIn_untouched, pick_untouched]; rfl
  · rfl

theorem grants_untouched (n : Nat) (s : State) : (grants n s).untouched = s.untouched := by
  induction n generalizing s with
  | zero => rfl
  | succ n ih => exact (ih _).trans (grantOne_untouched s)

theorem intakeStep_untouched (s : State) : (intakeStep s).untouched = s.untouched := by
  unfold intakeStep
  split
  · rfl
  · split
    · rw [untouched_of_table (takeRequest_tableOnly _ _)]; rfl
    · rfl

theorem settleRound_untouched (s : State) : (settleRound s).untouched = s.untouched := by
  have hg : ∀ n, (grants n (restoreStep (recordStep (headerStep (drainStep s))))).untouched = s.untouched := fun n => by
    rw [grants_untouched, restoreStep_untouched, recordStep_untouched, headerStep_untouched, drainStep_untouched]
  unfold settleRound
  dsimp only
  split
  · rw [intakeStep_untouched, hg]
  · rw [hg]

theorem settleRounds_untouched (n : Nat) (s : State) : (settleRounds n s).untouched = s.untouched := by
  induction n generalizing s with
  | zero => rfl
  | succ n ih =>
    unfold settleRounds
    split
    · rfl
    · rw [ih, settleRound_untouched]

/-- What settling leaves alone. -/
theorem settle_untouched (s : State) : (settle s).untouched = s.untouched :=
  settleRounds_untouched _ s

/-- Where nothing is left to happen at once, settling only closes the event. -/
theorem settle_of_settled {s : State} (h : settled s = true) : settle s = closeEvent s := by
  unfold settle settleBound
  have : ∀ n, settleRounds n s = s := fun n => by
    cases n with
    | zero => rfl
    | succ n => simp [settleRounds, h]
  rw [this]

theorem closeEvent_of_nil {s : State} (h : s.mport.queue = []) : closeEvent s = s := by
  unfold closeEvent
  rw [h, List.map_nil, ← h]

/-- A state at rest stays as it is. -/
theorem settle_of_atRest {s : State} (h : AtRest s) : settle s = s := by
  rw [settle_of_settled h.1, closeEvent_of_nil h.2.1]

/-- A visit that chooses no entry does nothing. -/
theorem visit_of_none {p : State → Entry → Bool} {s : State} (h : ∀ e ∈ s.table, p s e = false) :
    visit p s = s := by
  unfold visit
  generalize s.table.map (·.tag) = l
  induction l with
  | nil => rfl
  | cons t l ih =>
    have ht : visitOne p s t = s := by
      unfold visitOne
      split
      · rfl
      · rw [h _ (entryOf_some ‹_›).1]; rfl
    rw [List.foldl_cons, ht, ih]

theorem enterState_untouched (n : EngState) (s : State) : (enterState n s).untouched =
    { s.untouched with engine := { s.untouched.engine with state := n } } := by
  rw [untouched_of_table (enterState_tableOnly n s)]; rfl

/-- A change of state that re-examines no entry. -/
theorem enterState_of_unmoved {n : EngState} {s : State} (h : Unmoved s s.eng.state n) :
    enterState n s = { s with eng := { s.eng with state := n } } :=
  visit_of_none (s := { s with eng := { s.eng with state := n } }) h

/-! ### One request on a quiet port -/

theorem mem_freeSlots {m : MPort} {i : LinkNo} : i ∈ freeSlots m ↔ m.slots[i] = .free := by
  unfold freeSlots
  rw [List.mem_filter]
  constructor
  · rintro ⟨-, h⟩
    cases hl : m.slots[i] with
    | free => rfl
    | _ => rw [hl] at h; cases h
  · intro h; exact ⟨List.mem_finRange i, by rw [h]; rfl⟩

/-- A FREE link slot that becomes BUSY changes no stale one. -/
theorem staleAny_set_busy (p : MemOp → Bool) (v : Vector LinkSlot 32) (i : LinkNo) (r : LinkRec)
    (h : v[i] = .free) :
    (v.set i (.busy r)).toList.any (LinkSlot.isStaleWith p) = v.toList.any (LinkSlot.isStaleWith p) := by
  rw [Bool.eq_iff_iff, List.any_eq_true, List.any_eq_true]
  simp only [Vector.mem_toList_iff]
  constructor
  · rintro ⟨x, hx, hp⟩
    obtain ⟨j, hj, rfl⟩ := Vector.mem_iff_getElem.mp hx
    rw [Vector.getElem_set] at hp
    split at hp
    · cases hp
    · exact ⟨v[j], Vector.getElem_mem _, hp⟩
  · rintro ⟨x, hx, hp⟩
    obtain ⟨j, hj, rfl⟩ := Vector.mem_iff_getElem.mp hx
    refine ⟨v[j], ?_, hp⟩
    rw [Vector.mem_iff_getElem]
    refine ⟨j, hj, ?_⟩
    rw [Vector.getElem_set]
    split
    · rename_i hij
      subst hij
      have h' : v[i.val] = .free := h
      rw [h'] at hp; cases hp
    · rfl

theorem settled_eq (s : State) : settled s = (engineSettled s &&
    (s.mport.queue.isEmpty || (freeSlots s.mport).isEmpty) &&
    (s.host.link.isEmpty || !decide (s.table.length < Config.tableSize))) := rfl

theorem drainStep_engineSettled {s : State} (h : engineSettled s = true) : drainStep s = s := by
  unfold drainStep
  split
  · rename_i ho
    simp only [engineSettled, ho, Bool.and_eq_true] at h
    have hd : drainDone s = false := by simpa using h.1.1
    rw [hd]; rfl
  · rfl

theorem headerStep_engineSettled {s : State} (h : engineSettled s = true) : headerStep s = s := by
  unfold headerStep
  split
  · rename_i why ho
    simp only [engineSettled, ho, Bool.and_eq_true, bne_iff_ne] at h
    rw [if_neg h.1.2]
  · rename_i why a b ho
    simp only [engineSettled, ho, Bool.and_eq_true, Bool.not_eq_true', Bool.and_eq_false_iff, beq_eq_false_iff_ne] at h
    obtain ⟨⟨-, h1, h2⟩, -⟩ := h
    have ha : ¬ (a = .waiting ∧ s.eng.hdrOutA = 0) := by tauto
    have hb : ¬ (b = .waiting ∧ s.eng.hdrOutB = 0) := by tauto
    simp only [if_neg ha, if_neg hb, setEng]
    cases s with
    | mk _ _ _ _ _ _ eng => cases eng; simp_all
  · rfl

theorem recordStep_engineSettled {s : State} (h : engineSettled s = true) : recordStep s = s := by
  simp only [engineSettled, Bool.and_eq_true, Bool.not_eq_true', List.any_eq_false] at h
  have key : ∀ l : List RecElem, (∀ r ∈ l, ¬ mayRequest s.pres r = true) → l.foldl requestIfClear s = s := by
    intro l hl
    induction l with
    | nil => rfl
    | cons r l ih =>
      have hr : requestIfClear s r = s := by
        unfold requestIfClear
        rw [if_neg (hl r List.mem_cons_self)]
      rw [List.foldl_cons, hr]
      exact ih fun x hx => hl x (List.mem_cons_of_mem _ hx)
  exact key _ h.2

theorem restoreStep_engineSettled {s : State} (h : engineSettled s = true) : restoreStep s = s := by
  unfold restoreStep
  split
  · rename_i cell bytes ho
    simp only [engineSettled, ho, Bool.and_eq_true, Bool.or_eq_true, bne_iff_ne] at h
    rw [if_neg]
    rintro ⟨h1, h2⟩
    rcases h.1.2 with h3 | h3
    · exact h3 h1
    · rw [h2] at h3; cases h3
  · rfl

/-- A change of the table, the claims or the filter leaves the engine settled, unless it completes a drain. -/
theorem engineSettled_of {s t : State} (h : engineSettled s = true) (he : t.eng = s.eng)
    (hs : t.mport.slots = s.mport.slots) (hq : t.pres.queue = s.pres.queue)
    (ho : t.pres.orphans = s.pres.orphans)
    (hd : s.eng.op = .draining → drainDone t = true → drainDone s = true) : engineSettled t = true := by
  have hm : ∀ r, mayRequest t.pres r = mayRequest s.pres r := fun r => by
    simp only [mayRequest, slotsClear, ho]
  have hst : ∀ c, staleForwardTo t.mport c = staleForwardTo s.mport c := fun c => by
    simp only [staleForwardTo, hs]
  simp only [engineSettled, Bool.and_eq_true, Bool.not_eq_true', List.any_eq_false,
    Bool.and_eq_false_iff, beq_eq_false_iff_ne] at h ⊢
  obtain ⟨⟨h1, h2⟩, h3⟩ := h
  refine ⟨⟨?_, ?_⟩, ?_⟩
  · rw [he]
    by_cases hop : s.eng.op = .draining
    · refine .inr ?_
      rcases h1 with h1 | h1
      · exact absurd hop h1
      · by_contra hb
        rw [hd hop (by simpa using hb)] at h1; cases h1
    · exact .inl hop
  · rw [he]
    cases hop : s.eng.op with
    | restoreWait cell bytes => rw [hop] at h2; simp only [hst]; exact h2
    | headerWrite why b => rw [hop] at h2; cases b <;> exact h2
    | headerReads why a b => rw [hop] at h2; exact h2
    | _ => rfl
  · rw [hq]; intro r hr; rw [hm]; exact h3 r hr

theorem atRest_engine {s : State} (h : AtRest s) : engineSettled s = true := by
  have := h.1
  rw [settled_eq] at this
  simp only [Bool.and_eq_true] at this
  exact this.1.1

theorem atRest_of_engine {s : State} (h : engineSettled s = true) (hq : s.mport.queue = [])
    (hl : s.host.link = []) (hr : Running s) : AtRest s := by
  refine ⟨?_, hq, hl, hr⟩
  rw [settled_eq, h, hq, hl]; rfl

/-- What the grant of one request on a quiet port leaves. -/
def issuedState (s : State) (op : MemOp) (addr : Addr) (i : LinkNo) (cs : Choices) : State :=
  countIssued op { s with
    choices := cs
    mport :=
      { slots := s.mport.slots.set i (.busy (granted s op addr)), queue := [],
        out := s.mport.out ++ [{ slot := i, op := op, addr := addr }] } }

theorem grantOne_single {s : State} {r : MemRequest} (hq : s.mport.queue = [r])
    (hf : freeSlots s.mport ≠ []) (hd : deniedAtGrant s.cfg r.op = none)
    (hw : waitsAtGrant s r.op = none := by rfl) :
    ∃ i cs, s.mport.slots[i] = .free ∧ grantOne s = issuedState s r.op r.addr i cs := by
  obtain ⟨f, fs, hfs⟩ := List.exists_cons_of_ne_nil hf
  have hlt := pick_lt (n := (f :: fs).length) (by simp)
    { s with mport := { s.mport with queue := [] } }
  obtain ⟨cs, hcs⟩ := pick_state (f :: fs).length { s with mport := { s.mport with queue := [] } }
  refine ⟨(f :: fs).getD (pick (f :: fs).length { s with mport := { s.mport with queue := [] } }).1 f,
    cs, ?_, ?_⟩
  · refine mem_freeSlots.mp ?_
    rw [List.getD_eq_getElem _ _ hlt, hfs]
    exact List.getElem_mem _
  · unfold grantOne
    rw [hq, hfs]
    dsimp only
    rw [hd, hw]
    dsimp only
    rw [hcs]
    rfl

/-- An issue leaves the engine as settled as it was. -/
theorem engineSettled_issued {s : State} (h : engineSettled s = true) {op : MemOp} {addr : Addr}
    {i : LinkNo} {cs : Choices} (hi : s.mport.slots[i] = .free) :
    engineSettled (issuedState s op addr i cs) = true := by
  have hst : ∀ c, staleForwardTo
      { slots := s.mport.slots.set i (.busy (granted s op addr))
        queue := []
        out := s.mport.out ++ [{ slot := i, op := op, addr := addr }] } c = staleForwardTo s.mport c :=
    fun c => staleAny_set_busy _ _ _ _ hi
  simp only [engineSettled, Bool.and_eq_true] at h
  obtain ⟨⟨h1, h2⟩, h3⟩ := h
  unfold issuedState countIssued
  split
  · rename_i c _
    simp only [engineSettled, setEng, Bool.and_eq_true]
    refine ⟨⟨?_, ?_⟩, h3⟩
    · cases c <;> exact h1
    · cases ho : s.eng.op with
      | headerWrite why b =>
        rw [ho] at h2
        cases b <;> cases c <;> cases hc : s.eng.nextCopy <;>
          simp_all [Engine.mapHdrOut, Engine.hdrOut]
      | headerReads why a b =>
        rw [ho] at h2
        cases c <;> simp_all [Engine.mapHdrOut]
      | restoreWait cell bytes =>
        rw [ho] at h2
        cases c <;> simp_all [Engine.mapHdrOut]
      | _ => cases c <;> simp_all [Engine.mapHdrOut]
  · simp only [engineSettled, setEng, Bool.and_eq_true]
    refine ⟨⟨h1, ?_⟩, h3⟩
    cases ho : s.eng.op with
    | headerWrite why b => rw [ho] at h2; cases b <;> exact h2
    | headerReads why a b => rw [ho] at h2; exact h2
    | _ => simp
  · simp only [engineSettled, Bool.and_eq_true]
    refine ⟨⟨h1, ?_⟩, h3⟩
    cases ho : s.eng.op with
    | headerWrite why b => rw [ho] at h2; cases b <;> exact h2
    | headerReads why a b => rw [ho] at h2; exact h2
    | restoreWait cell bytes => rw [ho] at h2; simp only [hst]; exact h2
    | _ => simp

theorem issuedState_rest (s : State) (op : MemOp) (addr : Addr) (i : LinkNo) (cs : Choices) :
    (issuedState s op addr i cs).mport.queue = [] ∧ (issuedState s op addr i cs).host = s.host ∧
      (issuedState s op addr i cs).table = s.table := by
  unfold issuedState countIssued
  split <;> exact ⟨rfl, rfl, rfl⟩

/-- A single request on a quiet port is granted at once, and nothing else happens. -/
theorem settle_single {s : State} {r : MemRequest} (he : engineSettled s = true)
    (hq : s.mport.queue = [r]) (hl : s.host.link = []) (hf : freeSlots s.mport ≠ [])
    (hd : deniedAtGrant s.cfg r.op = none) (hw : waitsAtGrant s r.op = none := by rfl) :
    ∃ i cs, s.mport.slots[i] = .free ∧ settle s = issuedState s r.op r.addr i cs := by
  obtain ⟨i, cs, hi, hg⟩ := grantOne_single hq hf hd hw
  refine ⟨i, cs, hi, ?_⟩
  have hround : settleRound s = issuedState s r.op r.addr i cs := by
    unfold settleRound
    dsimp only
    rw [drainStep_engineSettled he, headerStep_engineSettled he, recordStep_engineSettled he,
      restoreStep_engineSettled he, hq]
    show (if eventDone (grantOne s) = true then intakeStep (grantOne s) else grantOne s) = _
    rw [hg]
    split
    swap
    · rfl
    unfold intakeStep
    rw [(issuedState_rest _ _ _ _ _).2.1, hl]
  have hns : settled s = false := by
    rw [settled_eq, hq]
    simp [hf]
  have hset : settled (issuedState s r.op r.addr i cs) = true := by
    rw [settled_eq, engineSettled_issued he hi, (issuedState_rest _ _ _ _ _).1,
      (issuedState_rest _ _ _ _ _).2.1, hl]
    rfl
  unfold settle
  have hb : settleBound s = (settleBound s - 1) + 1 := by unfold settleBound; omega
  rw [hb, settleRounds, hns, hround]
  have hr : ∀ n, settleRounds n (issuedState s r.op r.addr i cs) = issuedState s r.op r.addr i cs := by
    intro n
    cases n with
    | zero => rfl
    | succ n => simp [settleRounds, hset]
  simp only [Bool.false_eq_true, if_false, hr]
  exact closeEvent_of_nil (issuedState_rest _ _ _ _ _).1

/-- The same, said of a request that is made now. -/
theorem settle_enqueue {s : State} (op : MemOp) (addr : Addr) (he : engineSettled s = true)
    (hq : s.mport.queue = []) (hl : s.host.link = []) (hf : freeSlots s.mport ≠ [])
    (hd : deniedAtGrant s.cfg op = none) (hw : waitsAtGrant s op = none := by rfl) :
    ∃ i cs, s.mport.slots[i] = .free ∧ settle (enqueue op addr s) = issuedState s op addr i cs := by
  rw [enqueue_nil op addr s hq]
  exact settle_single (s := { s with mport := { s.mport with
    queue := [{ op := op, addr := addr, fresh := true }] } }) he rfl hl hf hd hw

/-! ### The invariants through settling -/

/-- The counts of outstanding writes are of no invariant. -/
theorem counts_inv {s : State} (h : BlocksOk s) (a b c : Nat) :
    BlocksOk { s with eng := { s.eng with hdrOutA := a, hdrOutB := b, restoreOut := c } } := by
  refine inv_engine h h.2.2.2.2.1 rfl rfl (fun e he hp => ?_) id rfl
  exact ⟨(h.traffic.2.2.2.2.1 e he hp).2.2, rfl⟩

theorem mport_inv {s : State} (h : BlocksOk s) (m : MPort) : BlocksOk { s with mport := m } :=
  inv_congr h rfl rfl rfl rfl rfl rfl rfl rfl

theorem choices_inv {s : State} (h : BlocksOk s) (cs : Choices) : BlocksOk { s with choices := cs } :=
  inv_congr h rfl rfl rfl rfl rfl rfl rfl rfl

theorem pending_inv {s : State} (h : BlocksOk s) (q : List Instr) : BlocksOk { s with pending := q } :=
  inv_congr h rfl rfl rfl rfl rfl rfl rfl rfl

theorem host_inv {s : State} (h : BlocksOk s) (p : HostPort) : BlocksOk { s with host := p } :=
  inv_congr h rfl rfl rfl rfl rfl rfl rfl rfl

theorem countIssued_inv {s : State} (h : BlocksOk s) (op : MemOp) : BlocksOk (countIssued op s) := by
  unfold countIssued
  split
  · rename_i c _
    cases c
    · exact counts_inv h _ s.eng.hdrOutB s.eng.restoreOut
    · exact counts_inv h s.eng.hdrOutA _ s.eng.restoreOut
  · exact counts_inv h s.eng.hdrOutA s.eng.hdrOutB _
  · exact h

theorem issueIn_inv {s : State} (h : BlocksOk s) (i : LinkNo) (r : MemRequest) : BlocksOk (issueIn i r s) :=
  countIssued_inv (mport_inv h _) _

theorem denyAtGrant_inv {s : State} (h : BlocksOk s) (t : Tag) : BlocksOk (denyAtGrant t s) := by
  unfold denyAtGrant
  split
  · rename_i e he
    split
    · rename_i hs
      have ho := denyEntry_tableOnly e .journalArea s
      refine giveTurn_inv (inv_of_table h ho (without_keeps h.traffic ho (entryOf_some he).1 ?_
        (by simp [denyEntry]) (by simp [denyEntry]))) _
      simp [Entry.preserving, Entry.claims, hs]
    · exact h
  · exact h

theorem waitsAtGrant_inv {s : State} (h : BlocksOk s) {r : MemOp} {op : EngineOp} (hw : waitsAtGrant s r = some op) (m : MPort) :
    BlocksOk (setEng (fun g => { g with op := op }) { s with mport := m }) := by
  unfold waitsAtGrant at hw
  split at hw
  · rename_i ho
    split at hw
    · cases hw
    · cases hw
      have hk := walking_of_op h (.inr (.inr (.inl ⟨_, ho⟩)))
      exact mport_inv (hk.move s.eng.walk (.restoreWait _ _) rfl
        (by rcases hk.state with hs | hs <;> simp [opFits, hs]) rfl
        (by rcases hk.state with hs | hs <;> simp [holdsNoRecords, hs])).inv m
  · cases hw

theorem grantOne_inv {s : State} (h : BlocksOk s) : BlocksOk (grantOne s) := by
  unfold grantOne
  split
  · dsimp only
    split
    · exact denyAtGrant_inv (mport_inv h _) _
    · exact waitsAtGrant_inv h ‹_› _
    · refine issueIn_inv ?_ _ _
      obtain ⟨cs, hp⟩ := pick_state _ { s with mport := { s.mport with queue := _ } }
      rw [hp]
      exact choices_inv (mport_inv h _) _
  · exact h

theorem grants_inv {s : State} (h : BlocksOk s) (n : Nat) : BlocksOk (grants n s) := by
  induction n generalizing s with
  | zero => exact h
  | succ n ih => exact ih (grantOne_inv h)

theorem takeRequest_inv {s : State} (h : BlocksOk s) (r : HostRequest)
    (hroom : s.table.length < Config.tableSize) : BlocksOk (takeRequest r s) :=
  inv_of_table h (takeRequest_tableOnly r s) (takeRequest_keeps h.traffic r hroom)

theorem intakeStep_inv {s : State} (h : BlocksOk s) : BlocksOk (intakeStep s) := by
  unfold intakeStep
  split
  · exact h
  · split
    · exact takeRequest_inv (mport_inv (host_inv h _) _) _ ‹_›
    · exact h

theorem settleRound_inv {s : State} (h : BlocksOk s) : BlocksOk (settleRound s) := by
  have hg := grants_inv (restoreStep_inv (recordStep_inv (headerStep_inv (drainStep_inv h))))
  unfold settleRound
  dsimp only
  split
  · exact intakeStep_inv (hg _)
  · exact hg _

theorem settleRounds_inv {s : State} (h : BlocksOk s) (n : Nat) : BlocksOk (settleRounds n s) := by
  induction n generalizing s with
  | zero => exact h
  | succ n ih =>
    unfold settleRounds
    split
    · exact h
    · exact ih (settleRound_inv h)

/-- Settling keeps every invariant. -/
theorem settle_inv {s : State} (h : BlocksOk s) : BlocksOk (settle s) := mport_inv (settleRounds_inv h _) _

/-! ### Deliveries -/

/-- An entry with neither claim nor record is answered and its cell's next takes its turn. -/
theorem ended_inv {s t : State} (h : BlocksOk s) {e : Entry} (he : entryOf s e.tag = some e)
    (hs : e.stage = .issued ∨ e.stage = .finishing) (ho : TableOnly s t)
    (ht : t.table = without e.tag s.table) (hc : t.pres.claims = s.pres.claims) :
    BlocksOk (giveTurn e.cell t) := by
  refine giveTurn_inv (inv_of_table h ho (without_keeps h.traffic ho (entryOf_some he).1 ?_ ht hc)) _
  rcases hs with hs | hs <;> simp [Entry.preserving, Entry.claims, hs]

theorem entryOf_tag {s : State} {t : Tag} {e : Entry} (h : entryOf s t = some e) :
    entryOf s e.tag = some e := by rw [(entryOf_some h).2]; exact h

theorem readAnswered_inv {s : State} (h : BlocksOk s) (t : Tag) (r : Answer) : BlocksOk (readAnswered t r s) := by
  unfold readAnswered
  split
  · exact h
  · rename_i e he
    split
    · rename_i hs
      split
      · exact ended_inv h (entryOf_tag he) (.inl hs) (endEntry_tableOnly e _ s) (by simp) (by simp)
      · exact ended_inv h (entryOf_tag he) (.inl hs) (failEntry_tableOnly e _ s) (by simp [failEntry])
          (by simp [failEntry])
    · exact h

theorem writeAnswered_inv {s : State} (h : BlocksOk s) (t : Tag) (ok : Bool) :
    BlocksOk (writeAnswered t ok s) := by
  unfold writeAnswered
  split
  · exact h
  · rename_i e he
    split
    · rename_i hs
      split
      · split
        · have ho := putEntry_tableOnly { e with stage := .finishing } s
          refine inv_of_table h ho ⟨tableOk_putIn h.1 rfl (entryOf_some he).1 rfl rfl
            (.inl (by simp [Entry.pastWaiting, hs])), ?_⟩
          exact recordOk_putIn h.1 h.traffic.2 ho.sameRecords rfl (entryOf_some he).1 rfl
            (by simp [Entry.preserving, Entry.claims, hs]) (by simp)
            (.inl ⟨by simp [Entry.claims], rfl⟩)
        · exact ended_inv h (entryOf_tag he) (.inl hs) (endEntry_tableOnly e _ s) (by simp) (by simp)
      · exact ended_inv h (entryOf_tag he) (.inl hs) (failEntry_tableOnly e _ s) (by simp [failEntry])
          (by simp [failEntry])
    · exact h

theorem oldReadAnswered_inv {s : State} (h : BlocksOk s) (t : Tag) (r : Answer) :
    BlocksOk (oldReadAnswered t r s) := by
  unfold oldReadAnswered
  split
  · exact h
  · rename_i e he
    split
    · rename_i hs
      split
      · exact oldArrives_inv h _ (entryOf_some he).1 hs
      · exact failOldRead_inv h (entryOf_some he).1 hs
    · exact h

theorem deliver_inv {s : State} (h : BlocksOk s) (op : MemOp) (r : Answer) : BlocksOk (deliver op r s) := by
  unfold deliver
  split
  · exact readAnswered_inv h _ _
  · exact writeAnswered_inv h _ _
  · exact oldReadAnswered_inv h _ _
  · exact slotAnswered_inv h _ _ _
  · exact headerReadAnswered_inv h _ _
  · exact headerAnswered_inv h _
  · exact recordReadAnswered_inv h _ _ _
  · exact recordReadAnswered_inv h _ _ _
  · exact restoreAnswered_inv h _ _

theorem deliverWanted_inv {s : State} (h : BlocksOk s) (lr : LinkRec) (r : Answer) :
    BlocksOk (deliverWanted lr r s) := by
  unfold deliverWanted
  split
  · exact deliver_inv h _ _
  · exact h

theorem leave_inv {s : State} (h : BlocksOk s) (op : MemOp) : BlocksOk (leave op s) := by
  unfold leave
  split
  · exact inv_congr h rfl rfl rfl rfl rfl rfl rfl rfl
  · rename_i c _
    cases c
    · exact counts_inv h _ s.eng.hdrOutB s.eng.restoreOut
    · exact counts_inv h s.eng.hdrOutA _ s.eng.restoreOut
  · exact counts_inv h s.eng.hdrOutA s.eng.hdrOutB _
  · exact h

theorem wakeCell_inv {s : State} (h : BlocksOk s) (op : MemOp) : BlocksOk (wakeCell op s) := by
  unfold wakeCell
  split
  · exact giveTurn_inv h _
  · exact giveTurn_inv h _
  · exact h

theorem answerBusy_inv {s : State} (h : BlocksOk s) (i : LinkNo) (lr : LinkRec) (r : Answer) :
    BlocksOk (answerBusy i lr r s) := leave_inv (deliverWanted_inv (mport_inv h _) _ _) _

theorem timeoutBusy_inv {s : State} (h : BlocksOk s) (i : LinkNo) (lr : LinkRec) :
    BlocksOk (timeoutBusy i lr s) := deliverWanted_inv (mport_inv h _) _ _

theorem releaseStale_inv {s : State} (h : BlocksOk s) (i : LinkNo) (lr : LinkRec) :
    BlocksOk (releaseStale i lr s) := wakeCell_inv (leave_inv (mport_inv h _) _) _

theorem memoryAnswer_inv {s : State} (h : BlocksOk s) (i : LinkNo) (r : Answer) : BlocksOk (memoryAnswer i r s) := by
  unfold memoryAnswer
  split
  · exact h
  · exact settle_inv (answerBusy_inv h i _ r)
  · exact settle_inv (releaseStale_inv h i _)

end Sys2Proof.Machine
end

