-- ==== Sys2Proof/Laws/Admission.lean ====
section
/-! SUPPORT. How a request that meets no other of its cell is admitted and takes its turn (R17, R20, R22). -/

namespace Sys2Proof.Machine

/-- The only entry of a cell has its turn. -/
theorem turnOf_fresh {r : HostRequest} {s : State} (hn : NoneIn s (requestCell r))
    (hst : staleWriteTo s.mport (requestCell r) = false) :
    turnOf { s with table := s.table ++ [newEntry r s] } (requestCell r) = some (newEntry r s) := by
  unfold turnOf
  have h1 : (s.table ++ [newEntry r s]).any (fun e => e.cell == requestCell r && e.pastWaiting) = false := by
    rw [List.any_eq_false]
    intro x hx
    rcases List.mem_append.mp hx with hx | hx
    · simp [hn x hx]
    · rw [List.mem_singleton] at hx
      subst hx
      show ¬((_ == _) && (Stage.waiting != Stage.waiting)) = true
      rw [bne_self_eq_false, Bool.and_false]
      exact Bool.false_ne_true
  dsimp only
  rw [h1, hst]
  simp only [Bool.or_self, Bool.false_eq_true, if_false]
  rw [List.find?_append, List.find?_eq_none.mpr (fun x hx => by simpa using hn x hx)]
  simp only [newEntry, List.find?_cons, beq_self_eq_true, Option.none_or]

theorem putIn_append {s : State} {e e' : Entry} (h : ∀ x ∈ s.table, x.tag ≠ e.tag) (ht : e'.tag = e.tag) :
    putIn e' (s.table ++ [e]) = s.table ++ [e'] := by
  rw [putIn, List.map_append]
  congr 1
  · exact putIn_absent (fun x hx => by rw [ht]; exact h x hx)
  · simp [ht]

theorem without_append {s : State} {e : Entry} (h : ∀ x ∈ s.table, x.tag ≠ e.tag) :
    without e.tag (s.table ++ [e]) = s.table := by
  rw [without, List.filter_append]
  simp
  exact fun x hx => h x hx

/-- Without a turn to give nothing happens. -/
theorem turns_stop (n : Nat) (c : CellIx) (s : State) (h : turnOf s c = none) : turns n c s = s := by
  cases n with
  | zero => rfl
  | succ n => simp [turns, h]

/-- R17, R20, R22: an admissible request joins the table and is examined at once. -/
theorem take_eq {r : HostRequest} {s : State} (hA : Admissible r s)
    (hstop : turnOf (examine (newEntry r s) { s with table := s.table ++ [newEntry r s] }) (requestCell r) = none) :
    takeRequest r s = examine (newEntry r s) { s with table := s.table ++ [newEntry r s] } := by
  obtain ⟨h1, h2, h3, h4, h5⟩ := hA
  unfold takeRequest
  have : entryOf s r.tag = none := by
    unfold entryOf; exact List.find?_eq_none.mpr (fun x hx => by simpa using h2 x hx)
  rw [this, h3]
  simp only [Option.isSome_none, Bool.false_eq_true, if_false, Bool.not_true]
  unfold giveTurn
  have hlen : ({ s with table := s.table ++ [newEntry r s] } : State).table.length = s.table.length + 1 := by simp
  rw [hlen, turns, turnOf_fresh h4 h5]
  exact turns_stop _ _ _ hstop

/-- A cell with an entry past WAITING gives no turn. -/
theorem turnOf_past {s : State} {c : CellIx} {e : Entry} (he : e ∈ s.table) (hc : e.cell = c)
    (hp : e.pastWaiting = true) : turnOf s c = none := by
  unfold turnOf
  rw [if_pos]
  rw [Bool.or_eq_true]
  left
  rw [List.any_eq_true]
  exact ⟨e, he, by simp [hc, hp]⟩

/-- A cell without entries gives no turn. -/
theorem turnOf_none_in {s : State} {c : CellIx} (h : NoneIn s c) : turnOf s c = none := by
  unfold turnOf
  split
  · rfl
  · exact List.find?_eq_none.mpr (fun x hx => by simpa using h x hx)

/-- HOST_REQUEST with a free entry and nothing waiting on the link. -/
theorem exec_hostRequest {r : HostRequest} {s : State} (hlen : s.table.length < 16)
    (hl : s.host.link = []) (hr : Running s) :
    exec (.hostRequest r) s = .next (settle (takeRequest r s)) := by
  simp only [exec, execHostRequest, unlessHeld_running hr]
  rw [if_pos ⟨hlen, hl⟩]

/-- An entry that joins the table completes no drain. -/
theorem engineSettled_append {s : State} {es : List Entry} (h : AtRest s) {t : State}
    (ht : t.table = s.table ++ es) (he : t.eng = s.eng) (hs : t.mport.slots = s.mport.slots)
    (hq : t.pres.queue = s.pres.queue) (ho : t.pres.orphans = s.pres.orphans) :
    engineSettled t = true := by
  refine engineSettled_of (atRest_engine h) he hs hq ho ?_
  intro _ hd
  simp only [drainDone, ht, he, List.any_append, Bool.not_eq_true', Bool.or_eq_false_iff] at hd ⊢
  exact hd.1

end Sys2Proof.Machine
end

