-- ==== Sys2Proof/Laws/Port.lean ====
section
/-! SUPPORT. What the laws of R47, R61, R78 and R139 look at: the outstanding and queued writes of the M-port, the
records that wait for them, the orphans and the engine's counts; and the operations that leave it alone. -/

namespace Sys2Proof.Machine

/-! ### What the laws look at -/

/-- All that the laws of the M-port look at. -/
structure PortView where
  wanted : List (Nat × RecHalf)
  unwanted : List (Nat × RecHalf)
  queued : List (Nat × RecHalf)
  headersA : Nat
  headersB : Nat
  restores : Nat
  stale : Bool
  queue : List RecElem
  orphans : List Nat
  countA : Nat
  countB : Nat
  countR : Nat

/-- The view of a state. -/
def portView (s : State) : PortView :=
  { wanted := slotWritesOut true s.mport, unwanted := slotWritesOut false s.mport
    queued := slotWritesQueued s.mport
    headersA := outstanding (MemOp.isHeaderWriteTo .a) s.mport
    headersB := outstanding (MemOp.isHeaderWriteTo .b) s.mport
    restores := outstanding MemOp.isRestoreWrite s.mport
    stale := s.mport.slots.toList.any LinkSlot.staleWanted
    queue := s.pres.queue, orphans := s.pres.orphans
    countA := s.eng.hdrOutA, countB := s.eng.hdrOutB, countR := s.eng.restoreOut }

/-- The laws of the M-port, said of a view, with one transaction that has left its link slot and is not yet
accounted for. -/
structure PortView.Lawful (left : Option LinkRec) (v : PortView) : Prop where
  countA : v.countA = v.headersA + (left.toList.countP (fun r => r.op.isHeaderWriteTo .a))
  countB : v.countB = v.headersB + (left.toList.countP (fun r => r.op.isHeaderWriteTo .b))
  countR : v.countR = v.restores + (left.toList.countP (fun r => r.op.isRestoreWrite))
  orphans : v.orphans.Perm ((left.toList.filterMap (fun r => if r.wanted then none else r.op.slotWrite?) ++
    v.unwanted).map (fun x => recordSlot x.1 x.2))
  awaited : (left.toList.filterMap (fun r => if r.wanted then r.op.slotWrite? else none) ++
    (v.wanted ++ v.queued)).Perm (slotWritesAwaited v.queue)
  stale : v.stale = false
  clear : ∀ r ∈ v.queue, r.requested = true →
    recordSlot r.index .header ∉ v.orphans ∧ recordSlot r.index .data ∉ v.orphans
  fresh : ∀ r ∈ v.queue, r.requested = false → r.headerAck = false ∧ r.dataAck = false

theorem slotsClear_iff (p : Preservation) (k : Nat) : slotsClear p k = true ↔
    recordSlot k .header ∉ p.orphans ∧ recordSlot k .data ∉ p.orphans := by
  simp [slotsClear]

/-- The laws of a state are those of its view. -/
theorem portOk_iff (s : State) : PortOk s ↔ (portView s).Lawful none := by
  constructor
  · rintro ⟨⟨a, b, c⟩, o, w, st, cl, fr⟩
    exact ⟨a, b, c, o, w, st, fun r hr h => (slotsClear_iff _ _).mp (cl r hr h), fr⟩
  · rintro ⟨a, b, c, o, w, st, cl, fr⟩
    exact ⟨⟨a, b, c⟩, o, w, st, fun r hr h => (slotsClear_iff _ _).mpr (cl r hr h), fr⟩

/-- States of one view have the laws together. -/
theorem portOk_of_view {s t : State} (h : PortOk s) (hv : portView t = portView s) : PortOk t := by
  rw [portOk_iff] at h ⊢
  rw [hv]; exact h

theorem TableOnly.view {s t : State} (h : TableOnly s t) : portView t = portView s := by
  simp only [portView, slotWritesOut, outstanding, h.slots, h.queued, h.queue, h.orphans, h.eng]

/-! ### Operations that leave the view alone -/

@[simp] theorem view_report (c : EvClass) (b : NoticeBody) (s : State) : portView (report c b s) = portView s :=
  (report_tableOnly c b s).view

@[simp] theorem view_post (b : NoticeBody) (s : State) : portView (post b s) = portView s :=
  (post_tableOnly b s).view

@[simp] theorem view_giveTurn (c : CellIx) (s : State) : portView (giveTurn c s) = portView s :=
  (giveTurn_tableOnly c s).view

@[simp] theorem view_afterFree (cs : List CellIx) (a b : Bool) (s : State) :
    portView (afterFree cs a b s) = portView s := (afterFree_tableOnly cs a b s).view

theorem view_enqueue (op : MemOp) (a : Addr) (s : State) (ho : op.slotWrite? = none := by rfl) :
    portView (enqueue op a s) = portView s := (enqueue_tableOnly op a s ho).view

@[simp] theorem view_enterState (n : EngState) (s : State) : portView (enterState n s) = portView s :=
  (enterState_tableOnly n s).view

@[simp] theorem view_needHeader (why : HdrPurpose) (s : State) : portView (needHeader why s) = portView s := rfl

@[simp] theorem view_enterIdle (s : State) : portView (enterIdle s) = portView s := by
  simp only [enterIdle, view_enterState]; rfl

@[simp] theorem view_enterOpen (why : EpochReport) (s : State) : portView (enterOpen why s) = portView s := by
  simp only [enterOpen, view_enterState, view_report]; rfl

@[simp] theorem view_enterUnrecovered (s : State) : portView (enterUnrecovered s) = portView s := by
  simp only [enterUnrecovered, view_enterState]; rfl

@[simp] theorem view_takeOpen (s : State) : portView (takeOpen s) = portView s := by
  simp only [takeOpen, view_enterState]; rfl

@[simp] theorem view_takeClose (k : CloseKind) (s : State) : portView (takeClose k s) = portView s := by
  simp only [takeClose, view_enterState]; cases k <;> rfl

@[simp] theorem view_retryClose (k : CloseKind) (s : State) : portView (retryClose k s) = portView s := by
  simp only [retryClose, view_enterState]; cases k <;> rfl

@[simp] theorem view_takeAbort (s : State) : portView (takeAbort s) = portView s := by
  simp only [takeAbort, view_enterState]; rfl

@[simp] theorem view_abortFaulted (s : State) : portView (abortFaulted s) = portView s := by
  simp only [abortFaulted, view_enterState]; rfl

@[simp] theorem view_beginRestore (k : Nat) (s : State) : portView (beginRestore k s) = portView s :=
  (view_enqueue _ _ _).trans (view_enqueue _ _ _)

@[simp] theorem view_beginScan (k : Nat) (s : State) : portView (beginScan k s) = portView s :=
  (view_enqueue _ _ _).trans (view_enqueue _ _ _)

@[simp] theorem view_walkBelow (n : Nat) (s : State) : portView (walkBelow n s) = portView s := by
  cases n with
  | zero => rfl
  | succ k => exact view_beginRestore k s

@[simp] theorem view_beginWalk (s : State) : portView (beginWalk s) = portView s := view_walkBelow _ s

@[simp] theorem view_stallWalk (c : StallCause) (a : Addr) (s : State) :
    portView (stallWalk c a s) = portView s := by
  simp only [stallWalk, view_enterState, view_report]; rfl

theorem view_recordRead (k : Nat) (h d : CellData) (s : State) : portView (recordRead k h d s) = portView s := by
  unfold recordRead endScan
  dsimp only
  split
  · split
    · split
      · exact view_beginScan _ s
      · exact view_beginWalk _
    · exact view_beginWalk _
  · split
    · rfl
    · exact view_stallWalk _ _ s

theorem view_recordReadOk (k : Nat) (half : RecHalf) (x : CellData) (s : State) :
    portView (recordReadOk k half x s) = portView s := by
  unfold recordReadOk
  split
  · dsimp only
    split
    · exact view_recordRead _ _ _ s
    · rfl
  · rfl

theorem view_restoreStep (s : State) : portView (restoreStep s) = portView s := by
  unfold restoreStep
  split
  · split
    · exact view_enqueue _ _ _
    · rfl
  · rfl

theorem view_drainStep (s : State) : portView (drainStep s) = portView s := by
  unfold drainStep
  split
  · split
    · split
      · rfl
      · exact view_beginWalk s
    · rfl
  · rfl

theorem view_requestHeaderRead (c : Copy) (s : State) : portView (requestHeaderRead c s) = portView s :=
  view_enqueue _ _ s

theorem view_headerStep (s : State) : portView (headerStep s) = portView s := by
  unfold headerStep
  split
  · split
    · exact view_enqueue _ _ _
    · rfl
  · dsimp only
    generalize hu : setEng _ s = u
    have h1 : portView u = portView s := by rw [← hu]; rfl
    split
    · split
      · exact (view_requestHeaderRead _ _).trans ((view_requestHeaderRead _ _).trans h1)
      · exact (view_requestHeaderRead _ _).trans h1
    · split
      · exact (view_requestHeaderRead _ _).trans h1
      · exact h1
  · rfl

@[simp] theorem view_enterFaulted (why : HeaderFaultReason) (s : State) :
    portView (enterFaulted why s) = portView s := by
  simp only [enterFaulted, reportHeaderFault, view_enterState, view_report]; rfl

theorem view_headerOk (why : HdrPurpose) (s : State) : portView (headerOk why s) = portView s := by
  have hl : portView (headerLanded s) = portView s := rfl
  cases why <;> simp [headerOk, hl]

theorem view_headerFailed (why : HdrPurpose) (s : State) : portView (headerFailed why s) = portView s := by
  cases why <;> simp only [headerFailed, failOpening, reportHeaderFault, view_enterIdle, view_enterFaulted,
    view_enterUnrecovered, view_stallWalk, view_report]
  rfl

theorem view_headerAnswered (ok : Bool) (s : State) : portView (headerAnswered ok s) = portView s := by
  unfold headerAnswered
  split
  · split
    · exact view_headerOk _ s
    · exact view_headerFailed _ s
  · rfl

@[simp] theorem view_beginHeaderReads (why : HdrReader) (w : Walk) (s : State) :
    portView (beginHeaderReads why w s) = portView s := by
  simp only [beginHeaderReads, view_enterState]; rfl

@[simp] theorem view_takeFormat (s : State) : portView (takeFormat s) = portView s := by
  simp only [takeFormat, view_enterState]; rfl

theorem view_selectHeader (why : HdrReader) (a b : CellData) (s : State) :
    portView (selectHeader why a b s) = portView s := by
  unfold selectHeader
  split
  · simp only [view_enterState, view_report]; rfl
  · dsimp only
    split
    · rfl
    · split
      · exact (view_enterIdle _).trans ((view_report _ _ _).trans rfl)
      · exact (view_beginScan _ _).trans rfl

theorem view_headerReadOk (c : Copy) (x : CellData) (s : State) : portView (headerReadOk c x s) = portView s := by
  unfold headerReadOk
  split
  · dsimp only
    split
    · exact view_selectHeader _ _ _ s
    · rfl
  · rfl

theorem view_restoreAnswered (c : CellIx) (ok : Bool) (s : State) :
    portView (restoreAnswered c ok s) = portView s := by
  unfold restoreAnswered restored
  split
  · split
    · exact view_walkBelow _ s
    · exact view_stallWalk _ _ s
  · rfl

theorem view_resumeWalk (s : State) : portView (resumeWalk s) = portView s := by
  have h1 : ∀ n, portView (enterState n (setEng (fun g => { g with walk := { g.walk with stall := none } }) s)) =
      portView s := fun n => by simp only [view_enterState]; rfl
  unfold resumeWalk
  dsimp only
  split <;> simp [h1]

theorem view_discardWalk (s : State) : portView (discardWalk s) = portView s := by
  simp only [discardWalk, view_enterState]; rfl

theorem view_takeAction (e : Entry) (a : EpochAction) (r : RuleNo) (s : State) :
    portView (takeAction e a r s) = portView s := by
  unfold takeAction dropAction
  split <;> first | rfl | simp | (split <;> simp)

theorem view_deadlineExpires (s : State) : portView (deadlineExpires s) = portView s := by
  have h1 : ∀ b, portView (stopDeadline (report .deadline b s)) = portView s := fun b =>
    show portView (report .deadline b s) = _ from view_report _ _ _
  unfold deadlineExpires
  dsimp only
  split <;> simp [h1]

/-! ### The list of link slots -/

@[simp] theorem toList_mapSlots (f : LinkSlot → LinkSlot) (v : Vector LinkSlot 32) :
    (mapSlots f v).toList = v.toList.map f := by
  simp [mapSlots, Vector.toList]

/-- One link slot among the others, and what replacing it leaves. -/
theorem slots_split (v : Vector LinkSlot 32) (i : LinkNo) : ∃ pre post,
    v.toList = pre ++ v[i] :: post ∧ ∀ x, (v.set i x).toList = pre ++ x :: post := by
  have hi : i.val < v.toList.length := by simp
  refine ⟨v.toList.take i.val, v.toList.drop (i.val + 1), ?_, fun x => ?_⟩
  · have h1 : v[i] = v.toList[i.val] := by simp
    rw [h1, List.getElem_cons_drop, List.take_append_drop]
  · rw [Vector.toList_set, List.set_eq_take_append_cons_drop, if_pos hi]

/-- Giving up results that are no slot writes' leaves the view alone. -/
theorem view_disown (p : MemOp → Bool) (hp : ∀ op, p op = true → op.slotWrite? = none) (s : State) :
    portView (disown p s) = portView s := by
  have hq : slotWritesQueued (disown p s).mport = slotWritesQueued s.mport := by
    simp only [slotWritesQueued, disown]
    induction s.mport.queue with
    | nil => rfl
    | cons x l ih =>
      rw [List.filter_cons]
      split
      · rw [List.filterMap_cons, List.filterMap_cons, ih]
      · rename_i hx
        simp [hp x.op (by simpa using hx), ih]
  have hs : ∀ w, slotWritesOut w (disown p s).mport = slotWritesOut w s.mport := fun w => by
    simp only [slotWritesOut, disown, toList_mapSlots, List.filterMap_map]
    refine List.filterMap_congr fun l _ => ?_
    cases l <;> simp only [Function.comp, LinkSlot.record?]
    all_goals
      split <;> rename_i hx
      · rw [hp _ hx]; simp
      · rfl
  have ho : ∀ f, outstanding f (disown p s).mport = outstanding f s.mport := fun f => by
    simp only [outstanding, disown, toList_mapSlots, List.countP_map]
    congr 1
    funext l
    cases l <;> simp only [Function.comp, LinkSlot.record?] <;> split <;> rfl
  have hst : (disown p s).mport.slots.toList.any LinkSlot.staleWanted =
      s.mport.slots.toList.any LinkSlot.staleWanted := by
    simp only [disown, toList_mapSlots, List.any_map]
    congr 1
    funext l
    cases l <;> simp only [Function.comp, LinkSlot.staleWanted]
    split <;> rename_i hx
    · rw [hp _ hx]; simp
    · rfl
  simp only [portView, hq, hs, ho, hst]
  rfl

theorem view_headerReadAnswered (c : Copy) (r : Answer) (s : State) :
    portView (headerReadAnswered c r s) = portView s := by
  unfold headerReadAnswered
  split
  · exact view_headerReadOk _ _ s
  · split
    · refine (view_enterState _ _).trans ((view_report _ _ _).trans ?_)
      refine Eq.trans ?_ (view_disown MemOp.isHeaderRead (fun op h => ?_) s)
      · rfl
      · cases op <;> first | rfl | cases h
    · rfl

theorem view_recordReadAnswered (k : Nat) (half : RecHalf) (r : Answer) (s : State) :
    portView (recordReadAnswered k half r s) = portView s := by
  unfold recordReadAnswered
  split
  · exact view_recordReadOk _ _ _ s
  · split
    · refine (view_stallWalk _ _ _).trans (view_disown MemOp.isRecordRead (fun op h => ?_) s)
      cases op <;> first | rfl | cases h
    · rfl

/-! ### Records come and go -/

/-- The queue may change as long as what it waits for stays and no requested record is new. -/
theorem PortView.Lawful.requeue {left : Option LinkRec} {v : PortView} (h : v.Lawful left) (q : List RecElem)
    (ha : slotWritesAwaited q = slotWritesAwaited v.queue)
    (hm : ∀ r ∈ q, r ∈ v.queue ∨ r.requested = false ∧ r.headerAck = false ∧ r.dataAck = false) :
    { v with queue := q }.Lawful left where
  countA := h.countA
  countB := h.countB
  countR := h.countR
  orphans := h.orphans
  awaited := ha ▸ h.awaited
  stale := h.stale
  clear := fun r hr hq => by
    rcases hm r hr with hv | ⟨hn, -⟩
    · exact h.clear r hv hq
    · rw [hn] at hq; cases hq
  fresh := fun r hr hq => by
    rcases hm r hr with hv | ⟨-, ha, hd⟩
    · exact h.fresh r hv hq
    · exact ⟨ha, hd⟩

theorem lawful_allocate {left : Option LinkRec} {s : State} (h : (portView s).Lawful left) (e : Entry)
    (old : CellData) : (portView (allocate e old s)).Lawful left := by
  refine h.requeue (s.pres.queue ++ [_]) ?_ ?_
  · simp [slotWritesAwaited, portView]
  · intro r hr
    rcases List.mem_append.mp hr with hr | hr
    · exact .inl hr
    · rw [List.mem_singleton.mp hr]; exact .inr ⟨rfl, rfl, rfl⟩

theorem view_forwardInOrder (e : Entry) (s : State) : portView (forwardInOrder e s) = portView s :=
  (forwardInOrder_tableOnly e s).view

theorem view_forward (e : Entry) (s : State) : portView (forward e s) = portView s := (forward_tableOnly e s).view

theorem view_afterEnd (e : Entry) (b t : State) : portView (afterEnd e b t) = portView t := by
  unfold afterEnd
  split
  · exact (view_afterFree _ _ _ _).trans rfl
  · exact view_giveTurn _ t

theorem lawful_oldArrives {left : Option LinkRec} {s : State} (h : (portView s).Lawful left) (e : Entry)
    (old : CellData) : (portView (oldArrives e old s)).Lawful left := by
  have hj : portView (evaluate { e with old := some old } old (putEntry { e with old := some old } s)).1 =
      portView s := by
    obtain ⟨⟨rs, ev, he⟩, -⟩ := evaluate_watchOnly { e with old := some old } old
      (putEntry { e with old := some old } s)
    rw [he]; rfl
  unfold oldArrives
  dsimp only
  split
  · rw [view_afterEnd, (denyEntry_tableOnly _ _ _).view, hj]; exact h
  · split
    · exact lawful_allocate (hj ▸ h) _ _
    · rw [view_forward, hj]; exact h
  · split
    · exact lawful_allocate (hj ▸ h) _ _
    · rw [view_forward, hj]; exact h

/-- A ready head waits for nothing. -/
theorem lawful_makeDurable {left : Option LinkRec} {s : State} (h : (portView s).Lawful left) {r : RecElem}
    {rest : List RecElem} (hq : s.pres.queue = r :: rest) (hr : r.ready = true) :
    (portView (makeDurable r rest s)).Lawful left := by
  have key : ∀ s1 : State, portView s1 = { portView s with queue := rest } → (portView s1).Lawful left := by
    intro s1 hs
    rw [hs]
    refine h.requeue rest ?_ fun x hx => .inl ?_
    · have : (portView s).queue = r :: rest := hq
      simp only [RecElem.ready, Bool.and_eq_true] at hr
      rw [this]
      simp [slotWritesAwaited, hr.1, hr.2]
    · show x ∈ s.pres.queue
      rw [hq]; exact List.mem_cons_of_mem _ hx
  unfold makeDurable
  dsimp only
  split
  · split
    · rw [view_forwardInOrder]; exact key _ rfl
    · exact key _ rfl
  · exact key _ rfl

theorem lawful_durables {left : Option LinkRec} (n : Nat) {s : State} (h : (portView s).Lawful left) :
    (portView (durables n s)).Lawful left := by
  induction n generalizing s with
  | zero => exact h
  | succ n ih =>
    unfold durables
    split
    · exact h
    · split
      · exact ih (lawful_makeDurable h ‹_› ‹_›)
      · exact h

/-- What a result that is no slot write's does. -/
theorem lawful_deliver {left : Option LinkRec} {s : State} (h : (portView s).Lawful left) {op : MemOp}
    (r : Answer) (ho : op.slotWrite? = none) : (portView (deliver op r s)).Lawful left := by
  have he : ∀ (e : Entry) (x : HostResult), portView (giveTurn e.cell (endEntry e x s)) = portView s := fun e x =>
    (view_giveTurn _ _).trans (endEntry_tableOnly e x s).view
  have hf : ∀ (e : Entry) (x : ForwardFault), portView (giveTurn e.cell (failEntry e x s)) = portView s :=
    fun e x => (view_giveTurn _ _).trans (failEntry_tableOnly e x s).view
  unfold deliver
  split
  · unfold readAnswered
    split
    · exact h
    · split
      · split
        · rw [he]; exact h
        · rw [hf]; exact h
      · exact h
  · unfold writeAnswered
    split
    · exact h
    · split
      · split
        · split
          · exact h
          · rw [he]; exact h
        · rw [hf]; exact h
      · exact h
  · unfold oldReadAnswered
    split
    · exact h
    · split
      · split
        · exact lawful_oldArrives h _ _
        · unfold failOldRead
          rw [view_afterEnd, (failEntry_tableOnly _ _ _).view]; exact h
      · exact h
  · cases ho
  · rw [view_headerReadAnswered]; exact h
  · rw [view_headerAnswered]; exact h
  · rw [view_recordReadAnswered]; exact h
  · rw [view_recordReadAnswered]; exact h
  · rw [view_restoreAnswered]; exact h

/-! ### Link slots taken and released -/

/-- The slot write of a link slot whose result is wanted, or is not. -/
def slotWriteIn (wanted : Bool) (l : LinkSlot) : Option (Nat × RecHalf) :=
  match l.record? with
  | some r => if r.wanted = wanted then r.op.slotWrite? else none
  | none => none

/-- The link slot holds a transaction of a kind. -/
def holdsOp (p : MemOp → Bool) (l : LinkSlot) : Bool :=
  match l.record? with
  | some r => p r.op
  | none => false

theorem slotWritesOut_eq (w : Bool) (m : MPort) : slotWritesOut w m = m.slots.toList.filterMap (slotWriteIn w) := rfl

theorem outstanding_eq (p : MemOp → Bool) (m : MPort) : outstanding p m = m.slots.toList.countP (holdsOp p) := rfl

/-- The view of a state whose link slots are these, in some order. -/
def viewWith (l : List LinkSlot) (s : State) : PortView :=
  { portView s with
    wanted := l.filterMap (slotWriteIn true), unwanted := l.filterMap (slotWriteIn false)
    headersA := l.countP (holdsOp (MemOp.isHeaderWriteTo .a))
    headersB := l.countP (holdsOp (MemOp.isHeaderWriteTo .b))
    restores := l.countP (holdsOp MemOp.isRestoreWrite)
    stale := l.any LinkSlot.staleWanted }

/-- The laws do not look at the order of the link slots. -/
theorem lawful_perm {left : Option LinkRec} {s : State} {l l' : List LinkSlot} (hp : l.Perm l')
    (h : (viewWith l s).Lawful left) : (viewWith l' s).Lawful left where
  countA := by rw [show (viewWith l' s).headersA = _ from (hp.countP_eq _).symm]; exact h.countA
  countB := by rw [show (viewWith l' s).headersB = _ from (hp.countP_eq _).symm]; exact h.countB
  countR := by rw [show (viewWith l' s).restores = _ from (hp.countP_eq _).symm]; exact h.countR
  orphans := h.orphans.trans (((hp.filterMap _).append_left _).map _)
  awaited := (((hp.filterMap _).symm.append_right _).append_left _).trans h.awaited
  stale := (hp.any_eq (f := LinkSlot.staleWanted)).symm.trans h.stale
  clear := h.clear
  fresh := h.fresh

theorem holdsOp_some {x : LinkSlot} {lr : LinkRec} (hx : x.record? = some lr) (p : MemOp → Bool) :
    holdsOp p x = p lr.op := by simp only [holdsOp, hx]

theorem slotWriteIn_some {x : LinkSlot} {lr : LinkRec} (hx : x.record? = some lr) (w : Bool) :
    slotWriteIn w x = if lr.wanted = w then lr.op.slotWrite? else none := by simp only [slotWriteIn, hx]

@[simp] theorem holdsOp_free (p : MemOp → Bool) : holdsOp p .free = false := rfl

@[simp] theorem slotWriteIn_free (w : Bool) : slotWriteIn w .free = none := rfl

/-- A link slot that is freed leaves its transaction to be accounted for. -/
theorem lawful_pop {s : State} {l : List LinkSlot} {x : LinkSlot} {lr : LinkRec} (hx : x.record? = some lr)
    (h : (viewWith (x :: l) s).Lawful none) : (viewWith (.free :: l) s).Lawful (some lr) := by
  obtain ⟨a, b, c, o, w, st, cl, fr⟩ := h
  simp only [viewWith, List.countP_cons, List.filterMap_cons, holdsOp_some hx, slotWriteIn_some hx, List.any_cons,
    Bool.or_eq_false_iff] at a b c o w st
  refine ⟨?_, ?_, ?_, ?_, ?_, ?_, cl, fr⟩ <;>
    simp only [viewWith, List.countP_cons, List.filterMap_cons, holdsOp_free, slotWriteIn_free, List.any_cons,
      Option.toList_some, Option.toList_none, List.countP_nil, List.filterMap_nil] at a b c o w ⊢
  · simp only [Bool.false_eq_true, if_false]; omega
  · simp only [Bool.false_eq_true, if_false]; omega
  · simp only [Bool.false_eq_true, if_false]; omega
  · cases hw : lr.wanted <;> cases hs : lr.op.slotWrite? <;> simpa [hw, hs] using o
  · cases hw : lr.wanted <;> cases hs : lr.op.slotWrite? <;> simpa [hw, hs] using w
  · rw [st.2]; rfl

/-- The link slots with one of them in front. -/
theorem slots_perm (v : Vector LinkSlot 32) (i : LinkNo) : ∃ rest,
    v.toList.Perm (v[i] :: rest) ∧ ∀ x, (v.set i x).toList.Perm (x :: rest) := by
  obtain ⟨pre, post, h1, h2⟩ := slots_split v i
  exact ⟨pre ++ post, h1 ▸ List.perm_middle, fun x => h2 x ▸ List.perm_middle⟩

theorem lawful_freed {s : State} {i : LinkNo} {lr : LinkRec} (h : PortOk s)
    (hl : s.mport.slots[i].record? = some lr) : (portView (putSlot i .free s)).Lawful (some lr) := by
  obtain ⟨rest, h1, h2⟩ := slots_perm s.mport.slots i
  exact lawful_perm (s := putSlot i .free s) (h2 .free).symm
    (lawful_pop (s := s) hl (lawful_perm h1 ((portOk_iff s).mp h)))

/-- What has left its link slot is accounted for by its leave report (R165, R167). -/
theorem lawful_leave {s : State} {lr : LinkRec} (h : (portView s).Lawful (some lr))
    (hw : lr.wanted = true → lr.op.slotWrite? = none) : PortOk (leave lr.op s) := by
  rw [portOk_iff]
  obtain ⟨a, b, c, o, w, st, cl, fr⟩ := h
  simp only [Option.toList_some, List.countP_cons, List.countP_nil, List.filterMap_cons, List.filterMap_nil,
    Nat.zero_add] at a b c o w
  unfold leave
  split
  · rename_i k half bytes hop
    have hnw : lr.wanted = false := by
      by_contra hc
      have := hw (by simpa using hc)
      rw [hop] at this; cases this
    simp only [hop, hnw, MemOp.slotWrite?, MemOp.isHeaderWriteTo, MemOp.isRestoreWrite] at a b c o w
    have hsub : ∀ x, x ∈ s.pres.orphans.erase (recordSlot k half) → x ∈ s.pres.orphans :=
      fun x => List.mem_of_mem_erase
    refine ⟨a, b, c, ?_, w, st, fun r hr hq => ?_, fr⟩
    · have := o.erase (recordSlot k half)
      simp only [Bool.false_eq_true, if_false, List.cons_append, List.map_cons, List.erase_cons_head,
        List.nil_append] at this
      exact this
    · exact ⟨fun hm => (cl r hr hq).1 (hsub _ hm), fun hm => (cl r hr hq).2 (hsub _ hm)⟩
  · rename_i c' bytes hop
    simp only [hop, MemOp.slotWrite?, MemOp.isHeaderWriteTo, MemOp.isRestoreWrite, ite_self] at a b c o w
    refine ⟨?_, ?_, ?_, o, w, st, cl, fr⟩ <;> cases c' <;>
      simp [portView, setEng, Engine.mapHdrOut] at a b c ⊢ <;> omega
  · rename_i cell bytes hop
    simp only [hop, MemOp.slotWrite?, MemOp.isHeaderWriteTo, MemOp.isRestoreWrite, ite_self] at a b c o w
    refine ⟨?_, ?_, ?_, o, w, st, cl, fr⟩ <;> simp [portView, setEng] at a b c ⊢ <;> omega
  · rename_i h1 h2 h3
    cases hop : lr.op <;> simp only [hop, MemOp.slotWrite?, MemOp.isHeaderWriteTo, MemOp.isRestoreWrite,
      ite_self] at a b c o w <;> first | exact ⟨a, b, c, o, w, st, cl, fr⟩ | skip
    · exact absurd hop (h1 _ _ _)
    · exact absurd hop (h2 _ _)
    · exact absurd hop (h3 _ _)

/-- A TIMEOUT of what is no wanted slot write leaves the laws as they are; of a wanted one, all but the last. -/
theorem lawful_staled {s : State} {i : LinkNo} {lr : LinkRec} (h : PortOk s) (hl : s.mport.slots[i] = .busy lr) :
    { portView (putSlot i (.stale lr) s) with stale := false }.Lawful none ∧
      (∀ x ∈ (putSlot i (.stale lr) s).mport.slots.toList, x.staleWanted = true → x = .stale lr) ∧
      ((lr.wanted = true → lr.op.slotWrite? = none) → PortOk (putSlot i (.stale lr) s)) := by
  obtain ⟨rest, h1, h2⟩ := slots_perm s.mport.slots i
  rw [hl] at h1
  have h0 := lawful_perm h1 ((portOk_iff s).mp h)
  obtain ⟨a, b, c, o, w, st, cl, fr⟩ := h0
  have st' : rest.any LinkSlot.staleWanted = false := by
    have st0 : (LinkSlot.busy lr :: rest).any LinkSlot.staleWanted = false := st
    rw [List.any_cons, Bool.or_eq_false_iff] at st0
    exact st0.2
  have hall : ∀ x ∈ (putSlot i (.stale lr) s).mport.slots.toList, x.staleWanted = true → x = .stale lr := by
    intro x hx hs
    rcases List.mem_cons.mp ((h2 (.stale lr)).mem_iff.mp hx) with hx | hx
    · exact hx
    · exact absurd hs (List.any_eq_false.mp st' x hx)
  have hlaw : { viewWith (.stale lr :: rest) s with stale := false }.Lawful none :=
    ⟨a, b, c, o, w, rfl, cl, fr⟩
  have hv : { portView (putSlot i (.stale lr) s) with stale := false }.Lawful none := by
    obtain ⟨a, b, c, o, w, -, cl, fr⟩ := hlaw
    have hp := (h2 (.stale lr)).symm
    refine ⟨?_, ?_, ?_, ?_, ?_, rfl, cl, fr⟩
    · exact a.trans (congrArg (· + 0) (hp.countP_eq _))
    · exact b.trans (congrArg (· + 0) (hp.countP_eq _))
    · exact c.trans (congrArg (· + 0) (hp.countP_eq _))
    · exact o.trans (((hp.filterMap _).append_left _).map _)
    · exact (((hp.filterMap _).symm.append_right _).append_left _).trans w
  refine ⟨hv, hall, fun hw => (portOk_iff _).mpr ?_⟩
  obtain ⟨a, b, c, o, w, -, cl, fr⟩ := hv
  refine ⟨a, b, c, o, w, ?_, cl, fr⟩
  refine List.any_eq_false.mpr fun x hx hs => ?_
  rw [hall x hx hs] at hs
  simp only [LinkSlot.staleWanted, Bool.and_eq_true] at hs
  rw [hw hs.1] at hs
  cases hs.2

/-! ### Record faults and resets -/

/-- A link slot whose result, if of this kind, is given up. -/
def dropSlot (p : MemOp → Bool) (l : LinkSlot) : LinkSlot :=
  match l with
  | .free => .free
  | .busy r => .busy (if p r.op then { r with wanted := false } else r)
  | .stale r => .stale (if p r.op then { r with wanted := false } else r)

theorem disown_slots (p : MemOp → Bool) (s : State) :
    (disown p s).mport.slots.toList = s.mport.slots.toList.map (dropSlot p) := toList_mapSlots _ _

/-- A record's index is below k. -/
abbrev below (k : Nat) (x : Nat × RecHalf) : Bool := !decide (k ≤ x.1)

theorem slotWriteIn_dropSlot (k : Nat) (x : LinkSlot) :
    slotWriteIn true (dropSlot (MemOp.isSlotWriteFrom k) x) = (slotWriteIn true x).filter (below k) ∧
      ((slotWriteIn false (dropSlot (MemOp.isSlotWriteFrom k) x)).toList.Perm
        ((slotWriteIn false x).toList ++ ((slotWriteIn true x).filter (fun y => decide (k ≤ y.1))).toList)) := by
  have key : ∀ r : LinkRec,
      (let d := if MemOp.isSlotWriteFrom k r.op then { r with wanted := false } else r
       let f (w : Bool) (y : LinkRec) := if y.wanted = w then y.op.slotWrite? else none
       f true d = (f true r).filter (below k) ∧
         (f false d).toList.Perm ((f false r).toList ++ ((f true r).filter (fun y => decide (k ≤ y.1))).toList)) := by
    rintro ⟨op, addr, issued, limit, wanted⟩
    cases op <;> cases wanted <;> simp [MemOp.isSlotWriteFrom, MemOp.slotWrite?, Option.filter]
    all_goals split <;> simp_all
  cases x with
  | free => exact ⟨rfl, .refl _⟩
  | busy r => exact key r
  | stale r => exact key r

theorem holdsOp_dropSlot (p q : MemOp → Bool) (x : LinkSlot) : holdsOp p (dropSlot q x) = holdsOp p x := by
  cases x with
  | free => rfl
  | busy r => simp only [holdsOp, dropSlot, LinkSlot.record?]; split <;> rfl
  | stale r => simp only [holdsOp, dropSlot, LinkSlot.record?]; split <;> rfl

theorem wanted_dropped (k : Nat) (l : List LinkSlot) :
    (l.map (dropSlot (MemOp.isSlotWriteFrom k))).filterMap (slotWriteIn true) =
      (l.filterMap (slotWriteIn true)).filter (below k) := by
  rw [List.filterMap_map, List.filter_filterMap]
  exact List.filterMap_congr fun x _ => (slotWriteIn_dropSlot k x).1

theorem unwanted_dropped (k : Nat) (l : List LinkSlot) :
    ((l.map (dropSlot (MemOp.isSlotWriteFrom k))).filterMap (slotWriteIn false)).Perm
      (l.filterMap (slotWriteIn false) ++ (l.filterMap (slotWriteIn true)).filter (fun y => decide (k ≤ y.1))) := by
  induction l with
  | nil => exact .refl _
  | cons x l ih =>
    have hx := (slotWriteIn_dropSlot k x).2
    have hc : ∀ (f : LinkSlot → Option (Nat × RecHalf)) (y : LinkSlot) (t : List LinkSlot),
        (y :: t).filterMap f = (f y).toList ++ t.filterMap f := fun f y t => by
      rw [List.filterMap_cons]; cases f y <;> rfl
    have hf : ((slotWriteIn true x).toList).filter (fun y => decide (k ≤ y.1)) =
        ((slotWriteIn true x).filter (fun y => decide (k ≤ y.1))).toList := by
      cases slotWriteIn true x with
      | none => rfl
      | some y => simp only [Option.toList_some, Option.filter, List.filter_cons, List.filter_nil]; split <;> rfl
    rw [List.map_cons, hc, hc, hc, List.filter_append, hf]
    refine (hx.append ih).trans ?_
    rw [List.perm_iff_count]
    intro a
    simp only [List.count_append]
    omega

theorem outstandingSlots_eq (k : Nat) (m : MPort) : outstandingSlots k m =
    ((slotWritesOut true m).filter (fun y => decide (k ≤ y.1))).map (fun x => recordSlot x.1 x.2) := by
  rw [slotWritesOut_eq, List.filter_filterMap, List.map_filterMap]
  refine List.filterMap_congr fun x _ => ?_
  simp only [slotWriteIn]
  cases hr : x.record? with
  | none => rfl
  | some r =>
    obtain ⟨op, addr, issued, limit, wanted⟩ := r
    cases op <;> cases wanted <;> simp [MemOp.isSlotWriteFrom, MemOp.slotWrite?, MemOp.journalSlot, Option.filter]

theorem queued_disowned (k : Nat) (s : State) : slotWritesQueued (disown (MemOp.isSlotWriteFrom k) s).mport =
    (slotWritesQueued s.mport).filter (below k) := by
  simp only [slotWritesQueued, disown]
  rw [List.filter_filterMap, List.filterMap_filter]
  refine List.filterMap_congr fun x _ => ?_
  obtain ⟨op, addr, fresh⟩ := x
  cases op with
  | slotWrite j half bytes =>
    by_cases hj : k ≤ j <;> simp [MemOp.isSlotWriteFrom, MemOp.slotWrite?, Option.filter, below, hj]
  | _ => rfl

theorem awaited_filter (k : Nat) (q : List RecElem) :
    slotWritesAwaited (q.filter (fun x => !decide (k ≤ x.index))) = (slotWritesAwaited q).filter (below k) := by
  induction q with
  | nil => rfl
  | cons r q ih =>
    have hc : ∀ t : List RecElem, slotWritesAwaited (r :: t) = slotWritesAwaited [r] ++ slotWritesAwaited t :=
      fun t => by simp [slotWritesAwaited]
    rw [List.filter_cons, hc q, List.filter_append, ← ih]
    have hr : ∀ x ∈ slotWritesAwaited [r], x.1 = r.index := fun x hx => by
      simp only [slotWritesAwaited, List.flatMap_cons, List.flatMap_nil, List.append_nil] at hx
      split at hx
      · rcases List.mem_append.mp hx with hx | hx <;> split at hx <;> simp_all
      · cases hx
    by_cases hk : k ≤ r.index
    · have he : (slotWritesAwaited [r]).filter (below k) = [] :=
        List.filter_eq_nil_iff.mpr fun x hx => by simp [below, hr x hx, hk]
      simp [he, hk]
    · have he : (slotWritesAwaited [r]).filter (below k) = slotWritesAwaited [r] :=
        List.filter_eq_self.mpr fun x hx => by simp [below, hr x hx, hk]
      simp only [he, hk, decide_false, Bool.not_false, if_true, ← hc]

end Sys2Proof.Machine
end

