-- ==== Sys2Proof/Laws/SlotWrites.lean ====
section
/-! SUPPORT. What requests, grants, acknowledgements, record faults and resets do to the slot writes and the
counts of the M-port: each keeps the laws of R47, R61, R78 and R139. -/

namespace Sys2Proof.Machine

theorem recordSlot_inj {j k : Nat} {h h' : RecHalf} (e : recordSlot j h = recordSlot k h') : j = k ∧ h = h' := by
  cases h <;> cases h' <;> simp only [recordSlot] at e <;> first | omega | exact ⟨by omega, rfl⟩

/-! ### What the records wait for -/

theorem awaited_cons (r : RecElem) (q : List RecElem) :
    slotWritesAwaited (r :: q) = slotWritesAwaited [r] ++ slotWritesAwaited q := by
  simp [slotWritesAwaited]

theorem awaited_one {r : RecElem} {x : Nat × RecHalf} (h : x ∈ slotWritesAwaited [r]) :
    x.1 = r.index ∧ r.requested = true := by
  simp only [slotWritesAwaited, List.flatMap_cons, List.flatMap_nil, List.append_nil] at h
  split at h
  · rename_i hr
    rcases List.mem_append.mp h with h | h <;> split at h <;> simp_all
  · cases h

/-- What is awaited is awaited by a requested record of the queue. -/
theorem awaited_mem {q : List RecElem} {x : Nat × RecHalf} (h : x ∈ slotWritesAwaited q) :
    ∃ r ∈ q, r.index = x.1 ∧ r.requested = true := by
  induction q with
  | nil => cases h
  | cons r q ih =>
    rw [awaited_cons, List.mem_append] at h
    rcases h with h | h
    · exact ⟨r, List.mem_cons_self .., (awaited_one h).1.symm, (awaited_one h).2⟩
    · obtain ⟨y, hy, he⟩ := ih h
      exact ⟨y, List.mem_cons_of_mem _ hy, he⟩

theorem awaited_one_nodup (r : RecElem) : (slotWritesAwaited [r]).Nodup := by
  simp only [slotWritesAwaited, List.flatMap_cons, List.flatMap_nil, List.append_nil]
  split <;> [split <;> split <;> simp; simp]

/-- No slot write is awaited twice. -/
theorem awaited_nodup {q : List RecElem} (h : (q.map (·.index)).Nodup) : (slotWritesAwaited q).Nodup := by
  induction q with
  | nil => exact List.nodup_nil
  | cons r q ih =>
    rw [List.map_cons, List.nodup_cons] at h
    rw [awaited_cons, List.nodup_append]
    refine ⟨awaited_one_nodup r, ih h.2, fun a ha b hb hab => ?_⟩
    obtain ⟨y, hy, he, -⟩ := awaited_mem hb
    exact h.1 (List.mem_map.mpr ⟨y, hy, by rw [he, ← hab]; exact (awaited_one ha).1⟩)

/-- An acknowledgement is awaited no more. -/
theorem awaited_acked (k : Nat) (half : RecHalf) (q : List RecElem) :
    slotWritesAwaited (q.map (fun r => if r.index = k then r.ack half else r)) =
      (slotWritesAwaited q).filter (fun x => decide (x ≠ (k, half))) := by
  induction q with
  | nil => rfl
  | cons r q ih =>
    rw [List.map_cons, awaited_cons, awaited_cons r, List.filter_append, ih]
    congr 1
    obtain ⟨idx, cell, d, ep, t, jid, rq, ha, da⟩ := r
    by_cases hk : idx = k <;> cases half <;> cases rq <;> cases ha <;> cases da <;>
      simp [slotWritesAwaited, RecElem.ack, hk]

/-- A record that requests its writes awaits both. -/
theorem awaited_requested {k : Nat} {q : List RecElem} (hn : (q.map (·.index)).Nodup) {r : RecElem} (hr : r ∈ q)
    (hk : r.index = k) (hu : r.requested = false) (ha : r.headerAck = false) (hd : r.dataAck = false) :
    (slotWritesAwaited (markRequested k q)).Perm ([(k, .header), (k, .data)] ++ slotWritesAwaited q) := by
  induction q with
  | nil => cases hr
  | cons y q ih =>
    rw [List.map_cons, List.nodup_cons] at hn
    have hm : markRequested k (y :: q) = (if y.index = k then { y with requested := true } else y) ::
      markRequested k q := rfl
    rw [hm, awaited_cons, awaited_cons y]
    rcases List.mem_cons.mp hr with rfl | hr
    · have hq : markRequested k q = q := by
        refine (List.map_congr_left fun x hx => ?_).trans (List.map_id q)
        rw [if_neg fun hc => hn.1 (List.mem_map.mpr ⟨x, hx, hc.trans hk.symm⟩)]; rfl
      rw [hq, if_pos hk]
      refine List.Perm.of_eq ?_
      simp [slotWritesAwaited, hu, ha, hd, hk]
    · have hy : y.index ≠ k := fun hc => hn.1 (List.mem_map.mpr ⟨r, hr, hk.trans hc.symm⟩)
      rw [if_neg hy]
      refine ((ih hn.2 hr).append_left _).trans ?_
      rw [← List.append_assoc, ← List.append_assoc]
      exact List.perm_append_comm.append_right _

/-! ### Acknowledgements (R48, R49) -/

/-- No two records of the queue have one index (R49). -/
abbrev DistinctRecords (s : State) : Prop := (s.pres.queue.map (·.index)).Nodup

theorem distinct_of_blocks {s : State} (h : BlocksOk s) : DistinctRecords s := by
  obtain ⟨-, -, -, -, -, hq, -⟩ := h
  rw [DistinctRecords, hq.1]
  exact List.nodup_range'

/-- Of two records of the queue with one index there is one. -/
theorem record_unique {s : State} (h : DistinctRecords s) {x y : RecElem} (hx : x ∈ s.pres.queue)
    (hy : y ∈ s.pres.queue) (he : x.index = y.index) : x = y :=
  List.inj_on_of_nodup_map h hx hy he

/-- The transaction that has left its link slot is a wanted write of this slot. -/
abbrev LeftWrite (lr : LinkRec) (k : Nat) (half : RecHalf) : Prop :=
  lr.wanted = true ∧ lr.op.slotWrite? = some (k, half)

theorem leftWrite_op {lr : LinkRec} {k : Nat} {half : RecHalf} (h : LeftWrite lr k half) :
    ∃ bytes, lr.op = .slotWrite k half bytes := by
  have h2 := h.2
  cases hop : lr.op <;> rw [hop] at h2 <;> simp only [MemOp.slotWrite?, reduceCtorEq] at h2
  cases h2
  exact ⟨_, rfl⟩

/-- The record of a wanted slot write that has left its link slot is in the queue and waits for it; the slot is
no orphan. -/
theorem leftWrite_record {v : PortView} {lr : LinkRec} {k : Nat} {half : RecHalf} (h : v.Lawful (some lr))
    (hl : LeftWrite lr k half) : (k, half) ∈ slotWritesAwaited v.queue ∧ recordSlot k half ∉ v.orphans := by
  have hm : (k, half) ∈ slotWritesAwaited v.queue := by
    refine h.awaited.mem_iff.mp ?_
    simp [hl.1, hl.2]
  refine ⟨hm, ?_⟩
  obtain ⟨r, hr, hk, hq⟩ := awaited_mem hm
  have := h.clear r hr hq
  rw [hk] at this
  cases half
  · exact this.1
  · exact this.2

/-- An OK answer to a wanted slot write is accounted for by its record. -/
theorem lawful_slotAcked {s : State} {lr : LinkRec} {k : Nat} {half : RecHalf}
    (h : (portView s).Lawful (some lr)) (hl : LeftWrite lr k half) (hd : DistinctRecords s) :
    (portView (slotAcked k half s)).Lawful none ∧
      recordSlot k half ∉ (slotAcked k half s).pres.orphans := by
  obtain ⟨hm, ho⟩ := leftWrite_record h hl
  obtain ⟨bytes, hop⟩ := leftWrite_op hl
  obtain ⟨y, hy, hyk, hyq⟩ := awaited_mem hm
  have key : PortView.Lawful none { portView s with
      queue := (s.pres.queue.map (fun r => if r.index = k then r.ack half else r)) } := by
    obtain ⟨a, b, c, o, w, st, cl, fr⟩ := h
    simp only [Option.toList_some, List.countP_cons, List.countP_nil, List.filterMap_cons, List.filterMap_nil, hl.1,
      hop, MemOp.isHeaderWriteTo, MemOp.isRestoreWrite, if_true] at a b c o w
    have hack : ∀ r : RecElem, (if r.index = k then r.ack half else r).index = r.index ∧
        (if r.index = k then r.ack half else r).requested = r.requested := fun r => by
      split <;> [cases half <;> exact ⟨rfl, rfl⟩; exact ⟨rfl, rfl⟩]
    refine ⟨a, b, c, o, ?_, st, ?_, ?_⟩
    · show ((portView s).wanted ++ (portView s).queued).Perm (slotWritesAwaited (s.pres.queue.map _))
      rw [awaited_acked]
      have w : ((k, half) :: ((portView s).wanted ++ (portView s).queued)).Perm
          (slotWritesAwaited (portView s).queue) := w
      have hn : ((k, half) :: ((portView s).wanted ++ (portView s).queued)).Nodup :=
        w.nodup_iff.mpr (awaited_nodup hd)
      have hf := w.filter (fun x => decide (x ≠ (k, half)))
      have he : List.filter (fun x => decide (x ≠ (k, half)))
          ((k, half) :: ((portView s).wanted ++ (portView s).queued)) =
          (portView s).wanted ++ (portView s).queued := by
        rw [List.filter_cons_of_neg (by simp), List.filter_eq_self]
        intro x hx
        have : x ≠ (k, half) := fun hc => (List.nodup_cons.mp hn).1 (hc ▸ hx)
        simpa using this
      rw [he] at hf
      exact hf
    · intro r hr hq
      obtain ⟨x, hx, rfl⟩ := List.mem_map.mp hr
      rw [(hack x).2] at hq
      rw [(hack x).1]
      exact cl x hx hq
    · intro r hr hq
      obtain ⟨x, hx, rfl⟩ := List.mem_map.mp hr
      rw [(hack x).2] at hq
      by_cases hxk : x.index = k
      · rw [record_unique hd hx hy (hxk.trans hyk.symm), hyq] at hq; cases hq
      · rw [if_neg hxk]; exact fr x hx hq
  have hpv : ∀ n (t : State), (durables n t).pres.orphans = t.pres.orphans := by
    intro n
    induction n with
    | zero => intro t; rfl
    | succ n ih =>
      intro t
      unfold durables
      split
      · rfl
      · split
        · rw [ih]
          unfold makeDurable
          dsimp only
          split <;> [split <;> [exact (forwardInOrder_tableOnly _ _).orphans; rfl]; rfl]
        · rfl
  refine ⟨?_, ?_⟩
  · unfold slotAcked
    dsimp only
    rw [view_afterFree]
    exact lawful_durables _ key
  · unfold slotAcked
    dsimp only
    rw [(afterFree_tableOnly _ _ _ _).orphans, hpv]
    exact ho

/-! ### Record faults (R58, R61) -/

theorem failOwner_tableOnly (s : State) (r : RecElem) : TableOnly s (failOwner s r) := by
  unfold failOwner
  split
  · split
    · exact endEntry_tableOnly _ _ _
    · exact .refl s
  · exact .refl s

/-- What a record fault does to the M-port, the records and the engine. -/
theorem removeFrom_eq (r : RecElem) (half : RecHalf) (s : State) : ∃ s3 : State,
    removeFrom r half s = disown (MemOp.isSlotWriteFrom r.index) { s3 with pres := { s3.pres with
      orphans := s.pres.orphans ++ outstandingSlots r.index s.mport } } ∧
      s3.pres.queue = s.pres.queue.filter (fun x => !decide (r.index ≤ x.index)) ∧
      s3.mport.slots = s.mport.slots ∧ slotWritesQueued s3.mport = slotWritesQueued s.mport ∧
      s3.eng = { s.eng with nextIndex := r.index } := by
  obtain ⟨s2, hs2, ht⟩ : ∃ s2, s2 = (s.pres.queue.filter (fun x => decide (r.index ≤ x.index))).foldl failOwner
      { s with pres := { s.pres with queue := (s.pres.queue.filter (fun x => !decide (r.index ≤ x.index))) } } ∧
      TableOnly { s with pres := { s.pres with
        queue := (s.pres.queue.filter (fun x => !decide (r.index ≤ x.index))) } } s2 :=
    ⟨_, rfl, foldl_tableOnly failOwner failOwner_tableOnly _ _⟩
  have h3 := report_tableOnly .fault (.journalFault (cellAddr r.cell) r.tag r.index half)
    { s2 with eng := { s2.eng with nextIndex := r.index } }
  refine ⟨report .fault (.journalFault (cellAddr r.cell) r.tag r.index half)
    { s2 with eng := { s2.eng with nextIndex := r.index } }, ?_, h3.queue.trans ht.queue, h3.slots.trans ht.slots,
    h3.queued.trans ht.queued, h3.eng.trans ?_⟩
  · have ho : (report .fault (.journalFault (cellAddr r.cell) r.tag r.index half)
        { s2 with eng := { s2.eng with nextIndex := r.index } }).pres.orphans = s.pres.orphans :=
      h3.orphans.trans ht.orphans
    have hm : outstandingSlots r.index (report .fault (.journalFault (cellAddr r.cell) r.tag r.index half)
        { s2 with eng := { s2.eng with nextIndex := r.index } }).mport = outstandingSlots r.index s.mport := by
      rw [outstandingSlots, h3.slots.trans ht.slots]; rfl
    rw [← ho, ← hm, hs2]
    rfl
  · show { s2.eng with nextIndex := r.index } = _
    rw [show s2.eng = s.eng from ht.eng]

/-- A record fault gives up the slot writes from the record up: the outstanding ones become orphans, and one that
has left its link slot is accounted for. A timed-out slot write may still be marked wanted before it. -/
theorem lawful_removeFrom {s : State} {left : Option LinkRec} (r : RecElem) (half half' : RecHalf)
    (h : PortView.Lawful left { portView s with stale := false })
    (hs : ∀ x ∈ s.mport.slots.toList, x.staleWanted = true →
      ∃ lr, x.record? = some lr ∧ lr.op.isSlotWriteFrom r.index = true)
    (hl : ∀ lr, left = some lr → LeftWrite lr r.index half') :
    (portView (removeFrom r half s)).Lawful none ∧
      (left.isSome = true → DistinctRecords s → recordSlot r.index half' ∉ (removeFrom r half s).pres.orphans) := by
  obtain ⟨s3, hr, hq, hsl, hqd, he⟩ := removeFrom_eq r half s
  rw [hr]
  clear hr
  have hsl' : s3.mport.slots.toList = s.mport.slots.toList := by rw [hsl]
  have hout : outstandingSlots r.index s.mport =
      ((portView s).wanted.filter (fun y => decide (r.index ≤ y.1))).map (fun x => recordSlot x.1 x.2) :=
    outstandingSlots_eq _ _
  have hvs : ∀ p, outstanding p (disown (MemOp.isSlotWriteFrom r.index) { s3 with pres := { s3.pres with
      orphans := s.pres.orphans ++ outstandingSlots r.index s.mport } }).mport = outstanding p s.mport := fun p => by
    rw [outstanding_eq, disown_slots, hsl', outstanding_eq, List.countP_map]
    exact List.countP_congr fun x _ => by simp only [Function.comp, holdsOp_dropSlot]
  have hleft : ∀ p : MemOp → Bool, (∀ k hf x, p (.slotWrite k hf x) = false) →
      left.toList.countP (fun r => p r.op) = 0 := fun p hp => by
    rw [List.countP_eq_zero]
    intro lr hlr
    obtain ⟨x, hx⟩ := leftWrite_op (hl lr (by simpa using hlr))
    rw [hx, hp]; simp
  have hun : left.toList.filterMap (fun r => if r.wanted then none else r.op.slotWrite?) = [] := by
    rw [List.filterMap_eq_nil_iff]
    intro lr hlr
    rw [if_pos (hl lr (by simpa using hlr)).1]
  have hwa : (left.toList.filterMap (fun r => if r.wanted then r.op.slotWrite? else none)).filter (below r.index) = [] := by
    rw [List.filter_eq_nil_iff]
    intro x hx
    obtain ⟨lr, hlr, hx⟩ := List.mem_filterMap.mp hx
    have hw := hl lr (by simpa using hlr)
    rw [if_pos hw.1, hw.2] at hx
    cases hx
    simp
  obtain ⟨a, b, c, o, w, -, cl, fr⟩ := h
  have hbelow : ∀ x ∈ s3.pres.queue, x ∈ s.pres.queue ∧ x.index < r.index := fun x hx => by
    rw [hq] at hx
    simpa using hx
  have hnot : ∀ x : RecElem, x.index < r.index → ∀ hf, recordSlot x.index hf ∉ s.pres.orphans →
      recordSlot x.index hf ∉ s.pres.orphans ++ outstandingSlots r.index s.mport := fun x hx hf hn hm => by
    rcases List.mem_append.mp hm with hm | hm
    · exact hn hm
    · rw [hout] at hm
      obtain ⟨y, hy, hye⟩ := List.mem_map.mp hm
      have := (List.mem_filter.mp hy).2
      have := (recordSlot_inj hye).1
      simp_all
      omega
  refine ⟨⟨?_, ?_, ?_, ?_, ?_, ?_, ?_, ?_⟩, ?_⟩
  · show s3.eng.hdrOutA = outstanding _ _ + 0
    rw [hvs, he]
    exact a.trans (congrArg _ (hleft _ fun _ _ _ => rfl))
  · show s3.eng.hdrOutB = outstanding _ _ + 0
    rw [hvs, he]
    exact b.trans (congrArg _ (hleft _ fun _ _ _ => rfl))
  · show s3.eng.restoreOut = outstanding _ _ + 0
    rw [hvs, he]
    exact c.trans (congrArg _ (hleft _ fun _ _ _ => rfl))
  · show (s.pres.orphans ++ outstandingSlots r.index s.mport).Perm _
    rw [hun] at o
    have hu := unwanted_dropped r.index s.mport.slots.toList
    have hu' : (slotWritesOut false (disown (MemOp.isSlotWriteFrom r.index) { s3 with pres := { s3.pres with
        orphans := s.pres.orphans ++ outstandingSlots r.index s.mport } }).mport).Perm
        ((portView s).unwanted ++ (portView s).wanted.filter (fun y => decide (r.index ≤ y.1))) := by
      rw [slotWritesOut_eq, disown_slots, hsl']
      exact hu
    refine ((o.append_right _).trans ?_).trans (hu'.symm.map _)
    rw [hout, List.nil_append, List.map_append]
  · show (slotWritesOut true _ ++ slotWritesQueued _).Perm (slotWritesAwaited s3.pres.queue)
    rw [slotWritesOut_eq, disown_slots, hsl', wanted_dropped, queued_disowned, hqd, hq, awaited_filter]
    have := w.filter (below r.index)
    rw [List.filter_append, hwa, List.filter_append] at this
    exact this
  · refine List.any_eq_false.mpr fun x hx hst => ?_
    rw [disown_slots, hsl'] at hx
    obtain ⟨y, hy, rfl⟩ := List.mem_map.mp hx
    cases y with
    | free => cases hst
    | busy lr => cases hst
    | stale lr =>
      simp only [dropSlot] at hst
      split at hst
      · cases hst
      · rename_i hp
        obtain ⟨lr', hlr, hop⟩ := hs _ hy hst
        cases hlr
        exact hp hop
  · intro x hx hxq
    obtain ⟨hx1, hx2⟩ := hbelow x hx
    exact ⟨hnot x hx2 _ (cl x hx1 hxq).1, hnot x hx2 _ (cl x hx1 hxq).2⟩
  · intro x hx hxq
    exact fr x (hbelow x hx).1 hxq
  · intro hsome hd
    obtain ⟨lr, rfl⟩ := Option.isSome_iff_exists.mp hsome
    have hlw := hl lr rfl
    obtain ⟨hm, hno⟩ := leftWrite_record (v := { portView s with stale := false })
      ⟨a, b, c, o, w, rfl, cl, fr⟩ hlw
    intro hc
    rcases List.mem_append.mp hc with hc | hc
    · exact hno hc
    · rw [hout] at hc
      obtain ⟨y, hy, hye⟩ := List.mem_map.mp hc
      have hy' := (List.mem_filter.mp hy).1
      have hye' : y = (r.index, half') := Prod.ext (recordSlot_inj hye).1 (recordSlot_inj hye).2
      have hn := w.nodup_iff.mpr (awaited_nodup hd)
      simp only [Option.toList_some, List.filterMap_cons, List.filterMap_nil, hlw.1, if_true, hlw.2,
        List.singleton_append, List.nodup_cons] at hn
      exact hn.1 (List.mem_append_left _ (hye' ▸ hy'))

theorem view_recordFault (r : RecElem) (half : RecHalf) (s : State) :
    portView (recordFault r half s) = portView (removeFrom r half s) := view_afterFree _ _ _ _

/-! ### The result of a slot write -/

/-- A wanted slot write that has left its link slot is accounted for by its record (R48, R58, R165). -/
theorem lawful_slotAnswered {s : State} {lr : LinkRec} {k : Nat} {half : RecHalf}
    (h : (portView s).Lawful (some lr)) (hl : LeftWrite lr k half) (hd : DistinctRecords s) (ok : Bool) :
    (portView (slotAnswered k half ok s)).Lawful none ∧
      recordSlot k half ∉ (slotAnswered k half ok s).pres.orphans := by
  obtain ⟨y, hy, hyk, -⟩ := awaited_mem (leftWrite_record h hl).1
  unfold slotAnswered
  split
  · rename_i hf
    exact absurd (List.find?_eq_none.mp hf y hy) (by simpa using hyk)
  · rename_i r hf
    have hk : r.index = k := by simpa using List.find?_some hf
    subst hk
    split
    · exact lawful_slotAcked h hl hd
    · have hst : (portView s).stale = false := h.stale
      have hr := lawful_removeFrom (s := s) (left := some lr) r half half
        (by obtain ⟨a, b, c, o, w, -, cl, fr⟩ := h; exact ⟨a, b, c, o, w, rfl, cl, fr⟩)
        (fun x hx hs => absurd hs (List.any_eq_false.mp hst x hx))
        (fun lr' he => by cases he; exact hl)
      refine ⟨view_recordFault r half s ▸ hr.1, ?_⟩
      rw [show (recordFault r half s).pres.orphans = (removeFrom r half s).pres.orphans from
        (afterFree_tableOnly _ _ _ _).orphans]
      exact hr.2 rfl hd

theorem distinct_putSlot {s : State} (h : DistinctRecords s) (i : LinkNo) (l : LinkSlot) :
    DistinctRecords (putSlot i l s) := h

/-- An answer to a BUSY link slot keeps the laws (R165). -/
theorem answerBusy_portOk {s : State} (h : PortOk s) (hd : DistinctRecords s) {i : LinkNo} {lr : LinkRec}
    (hs : s.mport.slots[i] = .busy lr) (r : Answer) : PortOk (answerBusy i lr r s) := by
  have hf := lawful_freed (i := i) (lr := lr) h (by rw [hs]; rfl)
  unfold answerBusy deliverWanted
  split
  · rename_i hw
    cases hop : lr.op.slotWrite? with
    | none => exact lawful_leave (lawful_deliver hf r hop) fun _ => hop
    | some x =>
      obtain ⟨bytes, hb⟩ := leftWrite_op (k := x.1) (half := x.2) ⟨hw, hop⟩
      rw [hb]
      have ha := lawful_slotAnswered hf ⟨hw, hop⟩ (distinct_putSlot hd i .free) (answerOk r)
      rw [portOk_iff]
      have he : leave (.slotWrite x.1 x.2 bytes) (slotAnswered x.1 x.2 (answerOk r) (putSlot i .free s)) =
          slotAnswered x.1 x.2 (answerOk r) (putSlot i .free s) := by
        simp only [leave, List.erase_of_not_mem ha.2]
      show (portView (leave (.slotWrite x.1 x.2 bytes) (slotAnswered x.1 x.2 (answerOk r) (putSlot i .free s)))).Lawful none
      rw [he]
      exact ha.1
  · rename_i hw
    exact lawful_leave hf fun h => absurd h hw

/-- A timeout keeps the laws (R166). -/
theorem timeoutBusy_portOk {s : State} (h : PortOk s) {i : LinkNo} {lr : LinkRec}
    (hs : s.mport.slots[i] = .busy lr) : PortOk (timeoutBusy i lr s) := by
  obtain ⟨h1, h2, h3⟩ := lawful_staled h hs
  unfold timeoutBusy deliverWanted
  split
  · rename_i hw
    cases hop : lr.op.slotWrite? with
    | none => exact (portOk_iff _).mpr (lawful_deliver ((portOk_iff _).mp (h3 fun _ => hop)) .error hop)
    | some x =>
      obtain ⟨bytes, hb⟩ := leftWrite_op (k := x.1) (half := x.2) ⟨hw, hop⟩
      rw [hb]
      show PortOk (slotAnswered x.1 x.2 false (putSlot i (.stale lr) s))
      have hm : (x.1, x.2) ∈ slotWritesAwaited s.pres.queue := by
        refine h.2.2.1.mem_iff.mp (List.mem_append_left _ ?_)
        rw [slotWritesOut_eq]
        exact List.mem_filterMap.mpr ⟨.busy lr, hs ▸ Vector.mem_toList_iff.mpr (Vector.getElem_mem _), by
          rw [slotWriteIn_some (x := .busy lr) rfl, if_pos hw, hop]⟩
      obtain ⟨y, hy, hyk, -⟩ := awaited_mem hm
      unfold slotAnswered
      split
      · rename_i hf
        exact absurd (List.find?_eq_none.mp hf y hy) (by simpa using hyk)
      · rename_i r hf
        have hk : r.index = x.1 := by simpa using List.find?_some hf
        rw [if_neg Bool.false_ne_true, portOk_iff, view_recordFault]
        refine (lawful_removeFrom (left := none) r x.2 x.2 h1 (fun z hz hzs => ?_) (fun _ he => by cases he)).1
        refine ⟨lr, by rw [h2 z hz hzs]; rfl, ?_⟩
        rw [hb, MemOp.isSlotWriteFrom, hk]
        simp
  · rename_i hw
    exact h3 fun h => absurd h hw

theorem view_wakeCell (op : MemOp) (s : State) : portView (wakeCell op s) = portView s := by
  unfold wakeCell
  split <;> first | exact view_giveTurn _ s | rfl

/-- The release of a STALE link slot keeps the laws (R167). -/
theorem releaseStale_portOk {s : State} (h : PortOk s) {i : LinkNo} {lr : LinkRec}
    (hs : s.mport.slots[i] = .stale lr) : PortOk (releaseStale i lr s) := by
  refine portOk_of_view (lawful_leave (lawful_freed h (by rw [hs]; rfl)) fun hw => ?_) (view_wakeCell lr.op _)
  have := List.any_eq_false.mp h.2.2.2.1 _ (hs ▸ Vector.mem_toList_iff.mpr (Vector.getElem_mem i.isLt))
  simp only [LinkSlot.staleWanted, hw, Bool.true_and, Option.isSome_iff_ne_none, ne_eq, not_not] at this
  exact this

/-! ### Requests and grants (R47, R164) -/

theorem slotWritesQueued_enqueue (op : MemOp) (a : Addr) (s : State) :
    (slotWritesQueued (enqueue op a s).mport).Perm (op.slotWrite?.toList ++ slotWritesQueued s.mport) := by
  have hc : ∀ (x : MemRequest) (l : List MemRequest), (x :: l).filterMap (fun y => y.op.slotWrite?) =
      x.op.slotWrite?.toList ++ l.filterMap (fun y => y.op.slotWrite?) := fun x l => by
    rw [List.filterMap_cons]; cases x.op.slotWrite? <;> rfl
  show (List.filterMap _ (List.take _ s.mport.queue ++ _ :: List.drop _ s.mport.queue)).Perm _
  refine (List.Perm.filterMap _ List.perm_middle).trans ?_
  rw [List.take_append_drop, hc]
  rfl

/-- A record requests its header's slot write, then its data's. -/
theorem requestSlots_eq (r : RecElem) (s : State) : ∃ x y a b, requestSlots r s =
    enqueue (.slotWrite r.index .data x) a (enqueue (.slotWrite r.index .header y) b
      { s with pres := { s.pres with queue := markRequested r.index s.pres.queue } }) :=
  ⟨recordBytes r .data, recordBytes r .header, slotAddr s.cfg (recordSlot r.index .data),
    slotAddr s.cfg (recordSlot r.index .header), rfl⟩

/-- The two slot writes of a record are requested: the laws are kept (R47). -/
theorem requestIfClear_portOk {s : State} (h : PortOk s) (hd : DistinctRecords s) {r : RecElem}
    (hr : r ∈ s.pres.queue) : PortOk (requestIfClear s r) := by
  unfold requestIfClear
  split
  · rename_i hm
    simp only [mayRequest, Bool.and_eq_true, Bool.not_eq_true'] at hm
    obtain ⟨⟨a, b, c⟩, o, w, st, cl, fr⟩ := h
    obtain ⟨hha, hda⟩ := fr r hr hm.1
    have hw := awaited_requested hd hr rfl hm.1 hha hda
    obtain ⟨x, y, a1, b1, hreq⟩ := requestSlots_eq r s
    have hp : (requestSlots r s).pres = { s.pres with queue := markRequested r.index s.pres.queue } := by
      rw [hreq, enqueue_pres, enqueue_pres]
    have he : (requestSlots r s).eng = s.eng := by rw [hreq, enqueue_eng, enqueue_eng]
    have hs : (requestSlots r s).mport.slots = s.mport.slots := by rw [hreq]; rfl
    have hmem : ∀ x ∈ markRequested r.index s.pres.queue, ∃ y ∈ s.pres.queue,
        x = if y.index = r.index then { y with requested := true } else y := fun x hx => by
      obtain ⟨y, hy, hx⟩ := List.mem_map.mp hx
      exact ⟨y, hy, hx.symm⟩
    have hq : (slotWritesQueued (requestSlots r s).mport).Perm
        ([(r.index, .header), (r.index, .data)] ++ slotWritesQueued s.mport) := by
      rw [hreq]
      refine (slotWritesQueued_enqueue _ _ _).trans ?_
      refine ((slotWritesQueued_enqueue _ _ _).append_left _).trans ?_
      exact List.Perm.swap _ _ _
    clear hreq
    have hout : ∀ p, outstanding p (requestSlots r s).mport = outstanding p s.mport := fun p => by
      rw [outstanding_eq, hs]; rfl
    have hsw : ∀ w, slotWritesOut w (requestSlots r s).mport = slotWritesOut w s.mport := fun w => by
      rw [slotWritesOut_eq, hs]; rfl
    refine ⟨⟨?_, ?_, ?_⟩, ?_, ?_, ?_, ?_, ?_⟩
    · rw [he, hout]; exact a
    · rw [he, hout]; exact b
    · rw [he, hout]; exact c
    · rw [orphanLaw, hp, hsw]; exact o
    · rw [hp, hsw]
      refine ((hq.append_left _).trans ?_).trans hw.symm
      refine (List.perm_append_comm_assoc _ _ _).trans ?_
      exact w.append_left _
    · rw [hs]; exact st
    · rw [hp]
      intro x hx hxq
      obtain ⟨y, hy, rfl⟩ := hmem x hx
      by_cases hk : y.index = r.index
      · rw [if_pos hk]; rw [← hk] at hm; exact hm.2
      · rw [if_neg hk] at hxq ⊢; exact cl y hy hxq
    · rw [hp]
      intro x hx hxq
      obtain ⟨y, hy, rfl⟩ := hmem x hx
      by_cases hk : y.index = r.index
      · rw [if_pos hk] at hxq; cases hxq
      · rw [if_neg hk] at hxq ⊢; exact fr y hy hxq
  · exact h

theorem requestIfClear_queue (s : State) (r : RecElem) : (requestIfClear s r).pres.queue.map (·.index) =
    s.pres.queue.map (·.index) ∧
    ∀ x ∈ s.pres.queue, x.index ≠ r.index → x ∈ (requestIfClear s r).pres.queue := by
  unfold requestIfClear
  split
  · obtain ⟨x, y, a, b, hreq⟩ := requestSlots_eq r s
    rw [hreq, enqueue_pres, enqueue_pres]
    clear hreq
    refine ⟨?_, fun x hx hn => List.mem_map.mpr ⟨x, hx, if_neg hn⟩⟩
    rw [markRequested, List.map_map]
    refine List.map_congr_left fun x _ => ?_
    simp only [Function.comp]
    split <;> rfl
  · exact ⟨rfl, fun x hx _ => hx⟩

theorem requests_portOk (l : List RecElem) (hl : (l.map (·.index)).Nodup) {s : State} (h : PortOk s)
    (hd : DistinctRecords s) (hm : ∀ r ∈ l, r ∈ s.pres.queue) : PortOk (l.foldl requestIfClear s) := by
  induction l generalizing s with
  | nil => exact h
  | cons r l ih =>
    rw [List.map_cons, List.nodup_cons] at hl
    obtain ⟨h1, h2⟩ := requestIfClear_queue s r
    refine ih hl.2 (requestIfClear_portOk h hd (hm r (List.mem_cons_self ..))) (by rw [DistinctRecords, h1]; exact hd)
      fun x hx => h2 x (hm x (List.mem_cons_of_mem _ hx)) fun he => ?_
    exact hl.1 (List.mem_map.mpr ⟨x, hx, he⟩)

/-- Every record of the queue requests its slot writes if it may (R47). -/
theorem recordStep_portOk {s : State} (h : PortOk s) (hd : DistinctRecords s) : PortOk (recordStep s) :=
  requests_portOk _ hd h hd fun _ hr => hr

/-- A request handed to a FREE link slot is outstanding and, where the engine counts it, counted (R164). -/
theorem issueIn_portOk {s : State} (h : PortOk s) {r : MemRequest} {rest : List MemRequest} (cs : Choices)
    (hq : s.mport.queue = r :: rest) {i : LinkNo} (hi : s.mport.slots[i] = .free) :
    PortOk (issueIn i r { s with choices := cs, mport := { s.mport with queue := rest } }) := by
  obtain ⟨rl, h1, h2⟩ := slots_perm s.mport.slots i
  rw [hi] at h1
  obtain ⟨a, b, c, o, w, st, cl, fr⟩ := lawful_perm h1 ((portOk_iff s).mp h)
  obtain ⟨lr, hlr⟩ : ∃ lr : LinkRec, lr = (⟨r.op, r.addr, s.clock.timebase, grantLimit s.cfg, true⟩ : LinkRec) :=
    ⟨_, rfl⟩
  have hqd : (slotWritesQueued s.mport) = r.op.slotWrite?.toList ++ rest.filterMap (fun y => y.op.slotWrite?) := by
    rw [slotWritesQueued, hq, List.filterMap_cons]; cases r.op.slotWrite? <;> rfl
  have hview : portView (issueIn i r { s with choices := cs, mport := { s.mport with queue := rest } }) =
      { viewWith (s.mport.slots.set i (.busy lr)).toList s with
        queued := rest.filterMap (fun y => y.op.slotWrite?)
        countA := s.eng.hdrOutA + (if r.op.isHeaderWriteTo .a then 1 else 0)
        countB := s.eng.hdrOutB + (if r.op.isHeaderWriteTo .b then 1 else 0)
        countR := s.eng.restoreOut + (if r.op.isRestoreWrite then 1 else 0) } := by
    rw [hlr]
    unfold issueIn countIssued
    dsimp only
    split
    · rename_i c bytes hop
      rw [hop]
      cases c <;> rfl
    · rename_i hop
      rw [hop]; rfl
    · rename_i n1 n2
      cases hop : r.op <;> first | rfl | exact absurd hop (n1 _ _) | exact absurd hop (n2 _ _)
  rw [portOk_iff, hview]
  have hp := (h2 (.busy lr)).symm
  have hop : lr.op = r.op := by rw [hlr]
  have hwn : lr.wanted = true := by rw [hlr]
  have hcount : ∀ p, (s.mport.slots.set i (.busy lr)).toList.countP (holdsOp p) =
      (LinkSlot.free :: rl).countP (holdsOp p) + (if p r.op then 1 else 0) := fun p => by
    rw [← hp.countP_eq, List.countP_cons, List.countP_cons, holdsOp_free,
      holdsOp_some (x := .busy lr) rfl, hop]
    simp
  have hwr : ∀ w, ((s.mport.slots.set i (.busy lr)).toList.filterMap (slotWriteIn w)).Perm
      ((if w then r.op.slotWrite?.toList else []) ++ (LinkSlot.free :: rl).filterMap (slotWriteIn w)) := fun w => by
    refine (hp.symm.filterMap _).trans (.of_eq ?_)
    rw [List.filterMap_cons, List.filterMap_cons, slotWriteIn_free, slotWriteIn_some (x := .busy lr) rfl, hop, hwn]
    cases w <;> cases r.op.slotWrite? <;> rfl
  refine ⟨?_, ?_, ?_, ?_, ?_, ?_, cl, fr⟩
  · exact (congrArg (· + _) a).trans ((hcount _).symm.trans rfl)
  · exact (congrArg (· + _) b).trans ((hcount _).symm.trans rfl)
  · exact (congrArg (· + _) c).trans ((hcount _).symm.trans rfl)
  · exact o.trans (((hwr false).symm.append_left _).map _)
  · refine List.Perm.trans ?_ w
    show (_ ++ rest.filterMap _).Perm (_ ++ slotWritesQueued s.mport)
    rw [hqd]
    refine ((hwr true).append_right _).trans ?_
    rw [if_pos rfl, List.append_assoc]
    exact List.perm_append_comm_assoc _ _ _
  · refine (hp.any_eq (f := LinkSlot.staleWanted)).symm.trans ?_
    have st0 : (LinkSlot.free :: rl).any LinkSlot.staleWanted = false := st
    rw [List.any_cons, Bool.or_eq_false_iff] at st0
    rw [List.any_cons, st0.2]; rfl

/-- A request that gives up no slot write may leave the queue. -/
theorem dropRequest_portOk {s : State} (h : PortOk s) {r : MemRequest} {rest : List MemRequest}
    (hq : s.mport.queue = r :: rest) (hr : r.op.slotWrite? = none) :
    PortOk { s with mport := { s.mport with queue := rest } } := by
  refine portOk_of_view h ?_
  simp only [portView, slotWritesQueued, hq, List.filterMap_cons, hr]
  rfl

/-- A grant keeps the laws (R9, R164). -/
theorem grantOne_portOk {s : State} (h : PortOk s) : PortOk (grantOne s) := by
  unfold grantOne
  split
  · rename_i r rest f fs hq hf
    dsimp only
    split
    · rename_i tag hd
      refine portOk_of_view (dropRequest_portOk h hq ?_) (denyAtGrant_tableOnly _ _).view
      unfold deniedAtGrant at hd
      split at hd
      · rename_i hop; rw [hop]; rfl
      · cases hd
    · rename_i ho
      refine portOk_of_view (dropRequest_portOk h hq ?_) rfl
      unfold waitsAtGrant at ho
      split at ho
      · rename_i hop _; rw [hop]; rfl
      · cases ho
    · obtain ⟨cs, hcs⟩ := pick_state (f :: fs).length { s with mport := { s.mport with queue := rest } }
      rw [hcs]
      refine issueIn_portOk h cs hq ?_
      have hlt := pick_lt (n := (f :: fs).length) (by simp) { s with mport := { s.mport with queue := rest } }
      rw [List.getD_eq_getElem _ _ hlt]
      refine mem_freeSlots.mp ?_
      rw [hf]; exact List.getElem_mem hlt
  · exact h

theorem grants_portOk {s : State} (h : PortOk s) (n : Nat) : PortOk (grants n s) := by
  induction n generalizing s with
  | zero => exact h
  | succ n ih => exact ih (grantOne_portOk h)

/-! ### Settling -/

theorem link_portOk {s : State} (h : PortOk s) (hp : HostPort) : PortOk { s with host := hp } := h

theorem closeEvent_portOk {s : State} (h : PortOk s) : PortOk (closeEvent s) := by
  refine portOk_of_view h ?_
  simp only [portView, closeEvent, slotWritesQueued, List.filterMap_map]
  rfl

theorem intakeStep_portOk {s : State} (h : PortOk s) : PortOk (intakeStep s) := by
  unfold intakeStep
  split
  · exact h
  · split
    · exact portOk_of_view (closeEvent_portOk (link_portOk h _)) (takeRequest_tableOnly _ _).view
    · exact h

/-- A round of settling keeps the laws, in a state whose blocks are in order. -/
theorem settleRound_portOk {s : State} (h : PortOk s) (hb : BlocksOk s) : PortOk (settleRound s) := by
  suffices hp : ∀ n, PortOk (grants n (restoreStep (recordStep (headerStep (drainStep s))))) by
    unfold settleRound
    dsimp only
    split
    · exact intakeStep_portOk (hp _)
    · exact hp _
  refine grants_portOk ?_
  have h1 : PortOk (headerStep (drainStep s)) :=
    portOk_of_view h ((view_headerStep _).trans (view_drainStep _))
  have hd : DistinctRecords (headerStep (drainStep s)) := distinct_of_blocks (headerStep_inv (drainStep_inv hb))
  exact portOk_of_view (recordStep_portOk h1 hd) (view_restoreStep _)

theorem settleRounds_portOk (n : Nat) {s : State} (h : PortOk s) (hb : BlocksOk s) : PortOk (settleRounds n s) := by
  induction n generalizing s with
  | zero => exact h
  | succ n ih =>
    unfold settleRounds
    split
    · exact h
    · exact ih (settleRound_portOk h hb) (settleRound_inv hb)

/-- Settling keeps the laws, in a state whose blocks are in order. -/
theorem settle_portOk {s : State} (h : PortOk s) (hb : BlocksOk s) : PortOk (settle s) :=
  closeEvent_portOk (settleRounds_portOk _ h hb)

/-- An answer from memory keeps the laws (R165, R167). -/
theorem memoryAnswer_portOk {s : State} (h : PortOk s) (hb : BlocksOk s) (i : LinkNo) (r : Answer) :
    PortOk (memoryAnswer i r s) := by
  unfold memoryAnswer
  split
  · exact h
  · exact settle_portOk (answerBusy_portOk h (distinct_of_blocks hb) ‹_› r) (answerBusy_inv hb _ _ _)
  · exact settle_portOk (releaseStale_portOk h ‹_›) (releaseStale_inv hb _ _)

/-! ### Resets (R63, R170, R193) -/

theorem coldReset_portOk (held : Bool) (s : State) : PortOk (coldReset held s) := by
  have h : PortOk State.reset := by decide
  exact portOk_of_view h rfl

theorem staleSlot_facts (x : LinkSlot) :
    slotWriteIn true (staleSlot x) = none ∧ (staleSlot x).staleWanted = false ∧
      (∀ p, holdsOp p (staleSlot x) = holdsOp p x) ∧
      (slotWriteIn false (staleSlot x)).toList.Perm ((slotWriteIn false x).toList ++ (slotWriteIn true x).toList) := by
  have key : ∀ r : LinkRec, slotWriteIn true (.stale { r with wanted := false }) = none ∧
      (LinkSlot.stale { r with wanted := false }).staleWanted = false := fun r => ⟨rfl, rfl⟩
  have key2 : ∀ (r : LinkRec), (if r.wanted = false then r.op.slotWrite? else none).toList ++
      (if r.wanted = true then r.op.slotWrite? else none).toList = r.op.slotWrite?.toList := fun r => by
    cases r.wanted <;> simp
  cases x with
  | free => exact ⟨rfl, rfl, fun _ => rfl, .refl _⟩
  | busy r => exact ⟨(key r).1, (key r).2, fun _ => rfl, .of_eq (key2 r).symm⟩
  | stale r => exact ⟨(key r).1, (key r).2, fun _ => rfl, .of_eq (key2 r).symm⟩

theorem staled_writes (l : List LinkSlot) : ((l.map staleSlot).filterMap (slotWriteIn false)).Perm
    (l.filterMap (slotWriteIn false) ++ l.filterMap (slotWriteIn true)) := by
  have hc : ∀ (f : LinkSlot → Option (Nat × RecHalf)) (y : LinkSlot) (t : List LinkSlot),
      (y :: t).filterMap f = (f y).toList ++ t.filterMap f := fun f y t => by
    rw [List.filterMap_cons]; cases f y <;> rfl
  induction l with
  | nil => exact .refl _
  | cons x l ih =>
    rw [List.map_cons, hc, hc, hc]
    refine ((staleSlot_facts x).2.2.2.append ih).trans ?_
    rw [List.perm_iff_count]
    intro a
    simp only [List.count_append]
    omega

/-- A soft reset makes every outstanding slot write an orphan (R63, R170). -/
theorem softReset_portOk {s : State} (h : PortOk s) : PortOk (softReset s) := by
  obtain ⟨⟨a, b, c⟩, o, -, -, -, -⟩ := h
  have hsl : (softReset s).mport.slots.toList = s.mport.slots.toList.map staleSlot := toList_mapSlots _ _
  have hout : ∀ p, outstanding p (softReset s).mport = outstanding p s.mport := fun p => by
    rw [outstanding_eq, hsl, outstanding_eq, List.countP_map]
    exact List.countP_congr fun x _ => by simp only [Function.comp, (staleSlot_facts x).2.2.1]
  have h0 : outstandingSlots 0 s.mport = (slotWritesOut true s.mport).map (fun x => recordSlot x.1 x.2) := by
    rw [outstandingSlots_eq, List.filter_eq_self.mpr fun _ _ => by simp]
  refine ⟨⟨?_, ?_, ?_⟩, ?_, ?_, ?_, fun r hr => (List.not_mem_nil hr).elim, fun r hr => (List.not_mem_nil hr).elim⟩
  · rw [hout]; exact a
  · rw [hout]; exact b
  · rw [hout]; exact c
  · show (s.pres.orphans ++ outstandingSlots 0 s.mport).Perm _
    rw [slotWritesOut_eq, hsl, h0]
    refine List.Perm.trans ?_ ((staled_writes _).symm.map _)
    rw [List.map_append]
    exact o.append_right _
  · show (slotWritesOut true (softReset s).mport ++ []).Perm []
    rw [slotWritesOut_eq, hsl, List.filterMap_map, List.append_nil]
    refine .of_eq (List.filterMap_eq_nil_iff.mpr fun x _ => (staleSlot_facts x).1)
  · rw [hsl, List.any_map]
    exact List.any_eq_false.mpr fun x _ => by simp [(staleSlot_facts x).2.1]

end Sys2Proof.Machine
end

