-- ==== Sys2Proof/WellFormed.lean ====
section
/-! DEFINITION. Which commands the part's links can carry. exec gives every command of the type a
meaning; the checks here say which of them an interface can present. -/

namespace Sys2Proof

/-- The low three bits of a request's address are zero (R16). -/
def HostRequest.wordAligned (r : HostRequest) : Bool := r.addr.extractLsb' 0 3 == 0#3

/-- The count field names 1 to 8 (R16). -/
def HostRequest.countInRange (r : HostRequest) : Bool := decide (1 ≤ r.count) && decide (r.count ≤ 8)

/-- A write carries enables and data for its COUNT words only, a read carries none (R16). -/
def HostRequest.carriesOnlyItsWords (r : HostRequest) : Bool :=
  match r.kind with
  | .read => r.enables == 0 && r.data == 0
  | .write => (r.enables >>> (8 * r.count)) == 0 && (r.data >>> (64 * r.count)) == 0

def HostRequest.wellFormed (r : HostRequest) : Bool :=
  r.wordAligned && r.countInRange && r.carriesOnlyItsWords

/-- The port ignores a write at this offset (R185). -/
def ignoredOffset (offset : BitVec 10) : Bool :=
  decide (decodePortWrite offset 0 = .registerWrite (.ignored offset) 0)

/-- A record index the journal can have: below the largest capacity (R55). -/
def recordIndexInRange (k : Nat) : Bool := decide (k < 524287)

/-- The commands the part's interfaces can present. -/
def Instr.wellFormed : Instr → Bool
  | .hostRequest r => r.wellFormed
  | .registerWrite (.ignored offset) _ => ignoredOffset offset
  | .recordSlotWritesRequest k => recordIndexInRange k
  | _ => true

end Sys2Proof
end

