-- ==== Sys2Proof/Tests/Slice0.lean ====
section
/-! SUPPORT. The model's own tests: what WellFormed refuses, a few single steps whose results are worked
out from the rules, and for each statement a state and operands that meet its hypotheses, clause by
clause and at the ends of their ranges. -/

open Sys2Proof Sys2Proof.Machine

namespace Sys2Proof.Tests

set_option Elab.async false

/-! ### States and operands -/

/-- A write of one whole word, every byte enabled. -/
def wr (tag : Tag) (addr : Addr) : HostRequest :=
  { tag := tag, kind := .write, addr := addr, count := 1, enables := 0xFF#64, data := 0xAB#512 }

def rd (tag : Tag) (addr : Addr) : HostRequest :=
  { tag := tag, kind := .read, addr := addr, count := 1, enables := 0, data := 0 }

/-- Cells 0 to 15 JOURNAL, 16 READONLY, 17 EXEMPT; the journal area is cells 32 to 37, two records. -/
def guards : Vector GuardEntry 16 :=
  ((State.reset.guards.set 0 { valid := true, mode := 0, base := 0, count := 16 }).set 1
    { valid := true, mode := 1, base := 16, count := 1 }).set 2
    { valid := true, mode := 2, base := 17, count := 1 }

def cfg : Settings :=
  { Settings.reset with tickdiv := 1, respLimit := 5, holdLimit := 4, jbaseCell := 32, jslots := 6 }

/-- A part configured so, its engine in a given state of epoch 7; every choice falls on the first. -/
def inState (st : EngState) : State :=
  { State.reset with
    choices := { given := List.replicate 8 0, drawn := 0 }, guards := guards, cfg := cfg
    eng := { Engine.reset with
      state := st, epoch := 7, nextEpoch := some 8, generation := 57, journalId := 5 } }

def opened : State := inState .opened

def setOp (op : EngineOp) (s : State) : State := { s with eng := { s.eng with op := op } }

def setWalk (k : WalkKind) (p : WalkPhase) (i : Option Nat) (s : State) : State :=
  { s with eng := { s.eng with
    walk := { kind := some k, phase := some p, index := i, stall := none, scanCount := none,
              discardCount := none } } }

/-- The entry a request is given, in a given stage. -/
def ent (r : HostRequest) (st : Stage) (d : Option Decision) (s : State) : Entry :=
  { newEntry r s with stage := st, decision := d, epoch := some 7 }

def withEntry (e : Entry) (s : State) : State := { s with table := s.table ++ [e] }

/-- A transaction granted at time 0 in link slot 0. -/
def lr (op : MemOp) : LinkRec := { op := op, addr := 0, issued := 0, limit := 5, wanted := true }

def busy (op : MemOp) (s : State) : State :=
  { s with mport := { s.mport with slots := s.mport.slots.set 0 (.busy (lr op)) } }

def stale (op : MemOp) (s : State) : State :=
  { s with mport := { s.mport with slots := s.mport.slots.set 0 (.stale (lr op)) } }

def at_ (t : W32) (s : State) : State := { s with clock := { s.clock with timebase := t } }

def rule (cell : CellIx) (action : BitVec 3) (st : RuleState) : WatchRule :=
  { WatchRule.reset with
    enable := true, waddr := cell ++ 0#3, conds := 1, mode := 1, action := action, state := st }

def withRule (r : WatchRule) (s : State) : State := { s with rules := s.rules.set 2 r }

/-- The record an entry's write owns. -/
def recElem (k : Nat) (e : Entry) (req h d : Bool) : RecElem :=
  { index := k, cell := e.cell, data := 0, tag := e.tag, epoch := 7, journalId := 5, requested := req,
    headerAck := h, dataAck := d }

def withQueue (q : List RecElem) (s : State) : State :=
  { s with
    pres := { s.pres with queue := q }
    eng := { s.eng with nextIndex := s.eng.durableCount + q.length } }

/-- The state a command leaves; every command has one. -/
def after (c : Instr) (s : State) : State :=
  match exec c s with
  | .next t => t
  | .fault _ => s
  | .refused _ => s

/-- The state a step leaves. -/
def stepped (s : State) : State :=
  match step s with
  | .next t => t
  | .fault _ => s
  | .refused _ => s

/-! ### WellFormed refuses each kind of ill-formed command -/

theorem test_wf_accepts : (Instr.hostRequest (wr 1 0)).wellFormed = true := by decide +kernel

theorem test_wf_unaligned_address : (Instr.hostRequest (wr 1 1)).wellFormed = false := by decide +kernel

theorem test_wf_count_zero :
    (Instr.hostRequest { rd 1 0 with count := 0 }).wellFormed = false := by decide +kernel

theorem test_wf_count_nine :
    (Instr.hostRequest { rd 1 0 with count := 9 }).wellFormed = false := by decide +kernel

theorem test_wf_read_carries_data :
    (Instr.hostRequest { rd 1 0 with data := 1 }).wellFormed = false := by decide +kernel

theorem test_wf_write_carries_too_much :
    (Instr.hostRequest { wr 1 0 with enables := 0x100#64 }).wellFormed = false := by decide +kernel

theorem test_wf_offset_of_a_register :
    (Instr.registerWrite (.ignored 0x030) 0).wellFormed = false := by decide +kernel

theorem test_wf_record_index : (Instr.recordSlotWritesRequest 524287).wellFormed = false := by
  decide +kernel

/-! ### Decoding a write of the register window (R184, R186) -/

theorem test_decode_command_ignores_high_bits :
    decodePortWrite 0x02C 0xFFFFFFF1#32 = .openCmd := by decide +kernel

theorem test_decode_last_guard : decodePortWrite 0x17C 5 = .guardBWrite 15 5 := by decide +kernel

theorem test_decode_last_condition : decodePortWrite 0x3DC 5 = .condWrite 7 5 5 := by decide +kernel

theorem test_decode_read_only : decodePortWrite 0x038 5 = .registerWrite (.ignored 0x038) 5 := by
  decide +kernel

/-! ### Single results worked out from the rules -/

/-- R74: the check value of the nine bytes of the string 123456789. -/
theorem test_check_value :
    checkValue [0x31, 0x32, 0x33, 0x34, 0x35, 0x36, 0x37, 0x38, 0x39] = 0xCBF43926#32 := by
  decide +kernel

/-- R71: the generation counts modulo 2^32, so 0 follows 0xFFFF_FFFF. -/
theorem test_generation_wraps : higherCopy 0xFFFFFFFF#32 0 = .b := by decide +kernel

/-- R71: at a distance of 0x8000_0000 copy A is the higher. -/
theorem test_generation_far : higherCopy 0 0x80000000#32 = .a := by decide +kernel

/-- R84: the last number leaves no next one. -/
theorem test_open_takes_the_last_number :
    let s := inState .idle
    (after .openCmd { s with eng := { s.eng with nextEpoch := some 0xFFFFFFFF#32 } }).eng.nextEpoch = none := by
  decide +kernel

/-- R110: HITS stops at 65535. -/
theorem test_hits_saturate : countHit 65535 = 65535 ∧ countHit 65534 = 65535 := by decide +kernel

/-- R115: only the enabled bytes of the old content change. -/
theorem test_merge_cell : mergeCell 0x11223344#512 0xAABBCCDD#512 0b0101#64 = 0x11BB33DD#512 := by
  decide +kernel

/-- R2: a geometry that ends at the last cell is in range, one cell more is not. -/
theorem test_geometry_edge :
    geometryOk { cfg with jbaseCell := 0x3FFFFFFC#30, jslots := 4 } = true ∧
      geometryOk { cfg with jbaseCell := 0x3FFFFFFD#30, jslots := 4 } = false := by decide +kernel

/-- R52: a full set loses its oldest entry. -/
theorem test_filter_full_set :
    (filterInsert 2049 9 [⟨1, 0⟩, ⟨513, 1⟩, ⟨2, 2⟩, ⟨1025, 3⟩, ⟨1537, 4⟩]).map (·.index) = [1, 2, 3, 4, 9] := by
  decide +kernel

/-- R191: STATUS of an OPEN part with its geometry in range. -/
theorem test_read_status : readReg opened 0x020 = 0x00040003#32 := by decide +kernel

/-- R41, R194: a soft reset answers every entry ABORTED. -/
theorem test_soft_reset_aborts :
    (after .softResetCmd (withEntry (ent (wr 3 0) .issued none opened) opened)).host.out =
      [{ tag := 3, result := .aborted }] := by decide +kernel

/-! ### Witnesses: the machine -/

theorem witness_IdleStepPassesTime :
    let quiet (s : State) : Prop := Running s ∧ s.pending = [] ∧ ∀ e ∈ s.table, e.stage ≠ .finishing
    let s (div pre : BitVec 8) : State :=
      { opened with cfg := { cfg with tickdiv := div }, clock := { timebase := 0, prescale := pre } }
    (quiet (s 0 0) ∧ (s 0 0).cfg.tickdiv = 0) ∧
      (quiet (s 255 253) ∧ (s 255 253).clock.prescale.toNat + 1 < (s 255 253).cfg.tickdiv.toNat) ∧
      (quiet (s 255 254) ∧ (s 255 254).cfg.tickdiv ≠ 0 ∧
        (s 255 254).cfg.tickdiv.toNat ≤ (s 255 254).clock.prescale.toNat + 1) := by decide +kernel

/-- Two writes FINISHING; and a period at whose end a hold, the deadline, a response timer and a quarantine are due. -/
theorem witness_IdleStepHandsOver :
    let fin (r : HostRequest) : Entry := ent r .finishing (some .bare) opened
    let ends := withEntry (fin (wr 2 64)) (withEntry (fin (wr 1 0)) opened)
    let held := ent (wr 1 0) (.held .power 0) none opened
    let dues (t : W32) : State :=
      let u := at_ t (busy (.oldRead 3 9) (withEntry held opened))
      { u with
        eng := { u.eng with deadlineRunning := true, deadlineLeft := 1 }
        mport := { u.mport with slots := u.mport.slots.set 31 (.stale (lr (.oldRead 3 9))) } }
    let quiet (s : State) : Prop := Running s ∧ s.pending = [] ∧ (∀ e ∈ s.table, e.stage ≠ .finishing) ∧
      s.cfg.tickdiv.toNat ≤ s.clock.prescale.toNat + 1
    (Running ends ∧ ends.pending = [] ∧ ∃ e ∈ ends.table, e.stage = .finishing) ∧ quiet (dues 9) ∧
      (stepped (dues 9)).pending.length = 4 ∧ (stepped (dues 2)).pending = [.deadlineExpiry] := by decide +kernel

theorem reset_blocks : BlocksOk State.reset :=
  ⟨by decide +kernel, by decide +kernel, by decide +kernel, by decide +kernel, by decide +kernel,
    by decide +kernel, by decide +kernel, by decide +kernel, by decide +kernel⟩

theorem reset_inv : Inv State.reset := ⟨reset_blocks, by decide +kernel, nofun⟩

/-- A part held in cold reset, with the trace of what it has done before. -/
def inReset : State := coldReset true (after .openCmd (inState .idle))

/-- A busy part: an epoch OPEN, one record with one slot write answered and one outstanding, a write that
fetches its old content, and a header write of an earlier life gone stale. -/
def working : State :=
  let e := { ent (wr 1 0) .recording (some .preserve) opened with record := some 0 }
  let f := ent (wr 2 64) .fetchingOld (some .bare) opened
  let s := withQueue [recElem 0 e true true false] (withEntry f (withEntry e opened))
  { s with
    eng := { s.eng with hdrOutB := 1 }
    mport := { s.mport with
      slots := s.mport.slots.set 0 (.busy (lr (.oldRead 2 1))) |>.set 1 (.busy (lr (.slotWrite 0 .data 0)))
        |>.set 2 (.stale (lr (.headerWrite .b 0))) } }

theorem working_inv : Inv working :=
  ⟨⟨by decide +kernel, by decide +kernel, by decide +kernel, by decide +kernel, by decide +kernel,
    by decide +kernel, by decide +kernel, by decide +kernel, by decide +kernel⟩, by decide +kernel, nofun⟩

theorem witness_StepKeepsTheInvariants :
    (∃ t, step State.reset = .next t) ∧ (∃ t, step { working with pending := [.mportAnswer 1 .error] } = .next t) ∧
      (∃ t, step inReset = .next t) ∧ inReset.host.resetHeld = true ∧ inReset = coldReset true inReset :=
  ⟨⟨_, rfl⟩, ⟨_, rfl⟩, ⟨_, rfl⟩, rfl, rfl⟩

theorem witness_NextGenerationIsCurrent : headerValid 6 0 = false := by decide +kernel

/-! ### Witnesses: registers -/

theorem witness_ClassOfACell :
    let inArea (cell : CellIx) : Prop := 4 ≤ cfg.jslots.toNat ∧ cfg.jslots.toNat ≤ 1048576 ∧
      cfg.jbaseCell.toNat + cfg.jslots.toNat ≤ 1073741824 ∧ cfg.jbaseCell.toNat ≤ cell.toNat ∧
      cell.toNat < cfg.jbaseCell.toNat + cfg.jslots.toNat
    let decides (cell : CellIx) (n : Fin 16) : Prop := guards[n].valid = true ∧
      1 ≤ guards[n].count.toNat ∧ guards[n].base.toNat + guards[n].count.toNat ≤ 1073741824 ∧
      guards[n].mode ≠ 3#2 ∧ guards[n].base.toNat ≤ cell.toNat ∧
      cell.toNat < guards[n].base.toNat + guards[n].count.toNat
    inArea 32 ∧ inArea 37 ∧ (¬ inArea 31 ∧ ∀ n, ¬ decides 31 n) ∧ (¬ inArea 38 ∧ ∀ n, ¬ decides 38 n) ∧
      (decides 15 0 ∧ guards[0].mode = 0#2) ∧ (decides 16 1 ∧ guards[1].mode = 1#2) ∧
      (decides 17 2 ∧ guards[2].mode = 2#2) := by decide +kernel

theorem witness_GuardWrites :
    Running opened ∧ opened.guards[3].valid = false ∧ opened.guards[0].valid = true := by decide +kernel

/-- A full journal, two writes held for it in admission order, and a third transaction elsewhere. -/
def heldFull : State :=
  let held (r : HostRequest) := ent r (.held .journalFull 0) none opened
  let s := withEntry (held (wr 4 64)) (withEntry (ent (rd 7 576) .issued none opened)
    (withEntry (held (wr 9 0)) opened))
  { s with eng := { s.eng with nextIndex := 2 }, pres := { s.pres with fullReported := true } }

theorem witness_Config0Write :
    let denies : State := { opened with cfg := { cfg with fullPolicy := .deny } }
    (Running denies ∧ denies.cfg.fullPolicy = .deny ∧ (0x100#32).getLsbD 9 = false) ∧
      (AtRest opened ∧ ∀ e ∈ opened.table, e.heldWith .journalFull = false) ∧
      (heldFull.cfg.fullPolicy = .hold ∧ (0x200#32).getLsbD 9 = true ∧ AtRest heldFull ∧ TableOk heldFull) ∧
      (heldFull.host.pfw = false ∧ heldFull.eng.state = .opened ∧ heldFull.pres.fullReported = true ∧
        (heldFull.cfg.jslots.toNat - 2) / 2 ≤ heldFull.eng.nextIndex + heldFull.pres.claims) ∧
      (∀ e ∈ heldFull.table, e.heldWith .journalFull = true → e.kind = .write ∧ e.cls = .journal ∧
        Alone heldFull e ∧ ∀ f ∈ heldFull.pres.filter, f.cell ≠ e.cell) := by decide +kernel

/-- The two writes of heldFull are answered in admission order (R27). -/
theorem test_full_policy_deny :
    (after (.config0Write 0x200) heldFull).host.out =
      [{ tag := 9, result := .denied }, { tag := 4, result := .denied }] := by decide +kernel

theorem witness_HoldLimitWrite :
    let e := ent (wr 1 0) (.held .power 0) none opened
    let s (div : BitVec 8) : State := at_ 3 (withEntry e { opened with cfg := { cfg with tickdiv := div } })
    let due (div : BitVec 8) (v : W32) : Prop := (s div).cfg.tickdiv ≠ 0 ∧ v.extractLsb' 0 16 ≠ 0#16 ∧
      (v.extractLsb' 0 16).toNat ≤ ((s div).clock.timebase - 0#32).toNat
    (AtRest (s 1) ∧ TableOk (s 1) ∧ e ∈ (s 1).table ∧ e.stage = .held .power 0) ∧
      ¬ due 1 4 ∧ due 1 3 ∧ (AtRest (s 0) ∧ ¬ due 0 3) := by decide +kernel

/-- Two holds that a new limit ends, each alone in its cell, a third that it does not; the answers come in admission
order (R28). -/
theorem witness_HoldsEndTogether :
    let held (r : HostRequest) (t : W32) : Entry := ent r (.held .power t) none opened
    let s := at_ 3 (withEntry (held (rd 2 128) 2) (withEntry (held (wr 4 64) 1) (withEntry (held (wr 9 0) 0) opened)))
    (AtRest s ∧ TableOk s ∧ s.eng.op ≠ .draining ∧ s.cfg.tickdiv ≠ 0 ∧ ∀ e ∈ s.table, Alone s e) ∧
      (after (.holdLimitWrite 2) s).host.out = [{ tag := 9, result := .failed }, { tag := 4, result := .failed }] := by
  decide +kernel

/-- R173: with the timebase stopped, a new limit ends no hold. -/
theorem test_stopped_timers_end_no_hold :
    let e := ent (wr 1 0) (.held .power 0) none opened
    let s (div : BitVec 8) : State := at_ 3 (withEntry e { opened with cfg := { cfg with tickdiv := div } })
    (after (.holdLimitWrite 3) (s 0)).host.out = [] ∧
      (after (.holdLimitWrite 3) (s 1)).host.out = [{ tag := 1, result := .failed }] := by decide +kernel

theorem witness_GeometryWrite :
    let blocked (s : State) : Prop := ∃ i : LinkNo, ∃ r, s.mport.slots[i].record? = some r ∧
      ((∃ k h d, r.op = .slotWrite k h d) ∨ (∃ c d, r.op = .headerWrite c d) ∨
        (∃ c d, r.op = .restoreWrite c d))
    (∀ st, ¬ blocked (inState st)) ∧
      (Running (inState .unrecovered) ∧ (inState .unrecovered).eng.state = .unrecovered) ∧
      ((inState .idle).eng.state = .idle ∧ AtRest (inState .idle) ∧ Unmoved (inState .idle) .idle .unrecovered) ∧
      blocked (stale (.slotWrite 0 .header 0) (inState .idle)) ∧
      (opened.eng.state ≠ .unrecovered ∧ opened.eng.state ≠ .idle) :=
  ⟨by rintro st ⟨i, r, h, -⟩; simp [inState, State.reset, MPort.reset, LinkSlot.record?] at h,
    by decide +kernel, by decide +kernel, ⟨0, _, rfl, .inl ⟨_, _, _, rfl⟩⟩, by decide +kernel⟩

theorem witness_StoredRegisters : Running opened ∧ (0x10000#32).getLsbD 16 = true := by decide +kernel

theorem witness_WatchAddressAndConditionWrites :
    let s := withRule (rule 0 0 .armed) opened
    Running s ∧ s.rules[7].enable = false ∧ s.rules[2].enable = true ∧
      undefinedCondIn 0 6 = true ∧ undefinedCondIn 0 5 = false := by decide +kernel

theorem witness_WatchControlWrite :
    let s := withRule (rule 0 0 .armed) opened
    Running s ∧ s.rules[7].enable = false ∧ s.rules[2].enable = true := by decide +kernel

/-! ### Witnesses: commands -/

theorem witness_CommandAcceptance :
    Running opened ∧ commandCode (.undefinedCmd .code0) = some 0 ∧ commandCode .openCmd = some 1 ∧
      commandCode .softResetCmd = some 12 := by decide +kernel

theorem witness_RefusedCommandChangesOnlyItsResult :
    (Running (inState .closing) ∧ acceptance .openCmd (inState .closing) = .refused .busy) ∧
      (Running opened ∧ acceptance .openCmd opened = .refused .state) ∧
      (Running State.reset ∧ acceptance .recoverCmd State.reset = .refused .unconfigured) := by decide +kernel

/-- A forwarded write of the epoch held, which a drain waits for. -/
def undrained : State := withEntry (ent (wr 1 0) .issued (some .preserve) opened) opened

theorem witness_OpenAndCommitTaken :
    (Running (inState .idle) ∧ (inState .idle).eng.state = .idle ∧ (inState .idle).eng.nextEpoch = some 8) ∧
      (opened.eng.state = .opened ∧ opened.eng.nextEpoch = some 8 ∧ AtRest opened ∧
        Unmoved opened .opened .closing ∧ Drained opened) ∧
      (undrained.eng.state = .opened ∧ undrained.eng.nextEpoch = some 8 ∧ AtRest undrained ∧
        Unmoved undrained .opened .closing ∧ ¬ Drained undrained) ∧
      (Running (inState .faulted) ∧ (inState .faulted).eng.state = .faulted ∧
        (inState .faulted).eng.nextEpoch = some 8) := by
  decide +kernel

/-- A state at rest in which the engine comes to a header write while an earlier one to NEXT_COPY is outstanding, and
one in which no link slot is FREE: the request is put off, or waits (R78, R164). -/
theorem witness_HeaderIsSent :
    let late : State := { inState .idle with eng := { (inState .idle).eng with hdrOutA := 1 } }
    let full : State := { inState .idle with mport := { (inState .idle).mport with
      slots := Vector.replicate 32 (.busy (lr (.headerRead .a))) } }
    let meets (s : State) : Prop := Running s ∧ s.eng.state = .idle ∧ s.eng.nextEpoch = some 8 ∧ AtRest s ∧
      Unmoved s .idle .opening
    (meets late ∧ late.eng.hdrOut late.eng.nextCopy ≠ 0 ∧ (after .openCmd late).mport.queue = []) ∧
      (meets full ∧ freeSlots full.mport = [] ∧ full.eng.hdrOut full.eng.nextCopy = 0 ∧
        (after .openCmd full).mport.queue =
          [waits (.headerWrite .a (headerBytes 5 58 .active 8 6), slotAddr cfg 0)]) ∧
      (meets (inState .idle) ∧ freeSlots (inState .idle).mport ≠ []) ∧
      ((inState .unrecovered).eng.hdrOutA = 0 ∧ AtRest (inState .unrecovered) ∧
        Unmoved (inState .unrecovered) .unrecovered .recovering) := by decide +kernel

/-- An epoch with this many durable records. -/
def durable (d : Nat) (s : State) : State := { s with eng := { s.eng with durableCount := d, nextIndex := d } }

theorem witness_AbortTaken :
    let meets (s : State) : Prop := s.eng.state = .opened ∧ AtRest s ∧ Unmoved s .opened .rolling
    (meets undrained ∧ ¬ Drained undrained) ∧
      (meets opened ∧ Drained opened ∧ opened.eng.durableCount = 0) ∧
      (meets (durable 1 opened) ∧ Drained (durable 1 opened) ∧ (durable 1 opened).eng.durableCount = 0 + 1) ∧
      (Running (inState .faulted) ∧ (inState .faulted).eng.state = .faulted) := by decide +kernel

theorem witness_ExtendReloadsTheDeadline :
    (Running opened ∧ opened.eng.state = .opened) ∧
      (Running (inState .closing) ∧ (inState .closing).eng.state ≠ .opened) := by decide +kernel

theorem witness_RecoveryCommandsTaken :
    let s (n : W32) : State := { inState .unrecovered with cfg := { cfg with jslots := n } }
    (Running (s 4) ∧ (s 4).eng.state = .unrecovered ∧ geometryOk (s 4).cfg = true) ∧
      (Running (s 1048576) ∧ (s 1048576).eng.state = .unrecovered ∧ geometryOk (s 1048576).cfg = true) := by
  decide +kernel

theorem witness_StalledWalkCommands :
    let s (k : WalkKind) (p : WalkPhase) (i : Option Nat) : State := setWalk k p i (inState .stalled)
    let meets (s : State) (p : WalkPhase) (i : Option Nat) (runs : EngState) : Prop :=
      s.eng.state = .stalled ∧ s.eng.walk.phase = some p ∧ s.eng.walk.index = i ∧ AtRest s ∧
        Unmoved s .stalled runs
    meets (s .recovery .scan (some 0)) .scan (some 0) .recovering ∧
      meets (s .recovery .restore (some 1)) .restore (some 1) .recovering ∧
      meets (s .rollback .restore (some 0)) .restore (some 0) .rolling ∧
      meets (s .rollback .final none) .final none .rolling := by decide +kernel

/-- R145, R157: of three records found, the walk stalled at index 0 has restored two. -/
theorem test_discard_counts_the_restored :
    let s := setWalk .recovery .restore (some 0) (inState .stalled)
    (after .discardCmd { s with eng := { s.eng with walk := { s.eng.walk with scanCount := some 3 } } }).eng.walk =
      { Walk.absent with kind := some .recovery, phase := some .final, scanCount := some 3
                         discardCount := some 2 } := by decide +kernel

theorem witness_RearmArmsTheRule :
    let s (a : W32) : State := { opened with
      rules := opened.rules.set 7 (rule 0 0 .fired), port := { opened.port with arg := a } }
    (∀ a, Running (s a)) ∧ ((s 7).port.arg.toNat = (7 : RuleNo).val ∧ (s 7).rules[7].enable = true) ∧
      ((s 0).port.arg.toNat = (0 : RuleNo).val ∧ (s 0).rules[0].enable = false) ∧
      7 < (s 8).port.arg.toNat :=
  ⟨fun _ => rfl, by decide +kernel⟩

theorem witness_NoticePop :
    let fired : NoticeBody := .watchFired 7 0x48 15 1 2 (some 63)
    let s := post fired opened
    Running s ∧ s.ev.notices = { time := 0, epoch := 7, body := fired } :: [] ∧
      (noticeView fired).values = some (1, 2) ∧ (noticeView (.powerChange true)).values = none ∧
      opened.ev.notices = [] := by decide +kernel

theorem witness_SoftResetEndsEverything :
    let s := busy (.oldRead 1 0) (withEntry (ent (wr 1 0) .fetchingOld none opened) opened)
    Running s ∧ s.host.link = [] := by decide +kernel

theorem witness_ColdResetLeavesTheResetState :
    Running opened ∧ inReset.host.resetHeld = true ∧ inReset.pending = [] ∧
      (∀ edge, Instr.registerWrite .arg 5 ≠ .coldReset edge) ∧ Instr.registerWrite .arg 5 ≠ .pfwAssert ∧
      Instr.registerWrite .arg 5 ≠ .pfwDeassert := ⟨rfl, rfl, rfl, nofun, nofun, nofun⟩

/-! ### Witnesses: host requests -/

theorem witness_EntryOfARequest :
    requestFits (wr 1 56) = true ∧ requestFits { wr 1 0 with count := 8 } = true := by decide +kernel

theorem witness_RequestRefusedOrWaiting :
    let s := withEntry (ent (wr 1 0) .issued none opened) opened
    let full : State := { opened with
      table := (List.finRange 16).map (fun t => ent (wr t 0) .issued none opened) }
    (AtRest s ∧ s.table.length < 16 ∧ ∃ e ∈ s.table, e.tag = (wr 1 64).tag) ∧
      (AtRest opened ∧ opened.table.length < 16 ∧ (∀ e ∈ opened.table, e.tag ≠ (wr 2 0).tag) ∧
        8 < ((wr 2 56).addr.extractLsb' 3 3).toNat + { wr 2 56 with count := 2 }.count) ∧
      (Running full ∧ settled full = true ∧ full.mport.queue = [] ∧ 16 ≤ full.table.length) := by decide +kernel

/-- An admission from the link is an event of its own: whatever is drawn, its request waits behind the one that the event
before it made (R18, R164). Of the writes PFW held one is DENIED, which frees the entry, and one asks for its forward. -/
theorem test_admission_joins_the_tail :
    let s (drawn : Nat) : State :=
      let u : State := { opened with host := { opened.host with pfw := true, link := [rd 14 576] } }
      { u with
        choices := { given := List.replicate 8 drawn, drawn := 0 }
        table := (List.finRange 14).map (fun t => ent (rd (t.castLE (by decide)) 0) .waiting none u) ++
          [ent (wr 14 1024) (.held .power 0) none u, ent (wr 15 1088) (.held .power 0) none u]
        mport := { u.mport with slots := Vector.replicate 32 (.busy (lr (.headerRead .a))) } }
    let ordered (t : State) : Prop := t.host.link = [] ∧ t.mport.queue.map (·.addr) = [1088, 576]
    ordered (after .pfwDeassert (s 0)) ∧ ordered (after .pfwDeassert (s 1)) := by decide +kernel

theorem witness_ReadIsIssued :
    let r := rd 1 0
    Calm opened ∧ Admissible r opened ∧ r.kind = .read ∧
      ¬ (classify opened.cfg opened.guards (requestCell r) = .journal ∧
        (opened.eng.state = .rolling ∨ opened.eng.state = .recovering ∨ opened.eng.state = .stalled)) := by
  decide +kernel

theorem witness_BareWriteGoesOn :
    let s := withRule (rule 17 0 .armed) (inState .idle)
    let admits (r : HostRequest) : Prop :=
      Calm s ∧ Admissible r s ∧ r.kind = .write ∧ s.host.pfw = false
    (admits (wr 1 1088) ∧ (newEntry (wr 1 1088) s).cls = .exempt ∧ (newEntry (wr 1 1088) s).watched ≠ []) ∧
      (admits (wr 1 1152) ∧ (newEntry (wr 1 1152) s).cls = .unguarded ∧
        (newEntry (wr 1 1152) s).watched = []) ∧
      (admits (wr 1 0) ∧ (newEntry (wr 1 0) s).cls = .journal ∧ s.eng.state = .idle ∧
        s.cfg.barePolicy = .pass) := by decide +kernel

theorem witness_WriteInAnOpenEpoch :
    let r := wr 1 0
    let base (s : State) : Prop := Calm s ∧ Admissible r s ∧ r.kind = .write ∧ s.host.pfw = false ∧
      s.eng.state = .opened ∧ (newEntry r s).cls = .journal
    let room (s : State) : Prop := s.eng.nextIndex + s.pres.claims < (s.cfg.jslots.toNat - 2) / 2
    let hit (s : State) : Prop := ∃ f ∈ s.pres.filter, f.cell = (newEntry r s).cell
    let s (claims : Nat) (slots : W32) (f : List FilterEntry) : State := { opened with
      cfg := { cfg with jslots := slots }, pres := { opened.pres with claims := claims, filter := f } }
    (base (s 0 4 [⟨0, 0⟩]) ∧ hit (s 0 4 [⟨0, 0⟩])) ∧
      (base (s 7 18 []) ∧ ¬ hit (s 7 18 []) ∧ room (s 7 18 []) ∧
        (s 7 18 []).pres.queue.length + (s 7 18 []).pres.claims < 8) ∧
      (base (s 8 20 []) ∧ ¬ hit (s 8 20 []) ∧ room (s 8 20 []) ∧
        8 ≤ (s 8 20 []).pres.queue.length + (s 8 20 []).pres.claims) := by decide +kernel

theorem witness_WriteMeetsAFullJournal :
    let r := wr 1 0
    let s (p : FullPolicy) : State := { opened with
      cfg := { cfg with fullPolicy := p }, eng := { opened.eng with nextIndex := 2 } }
    let meets (s : State) : Prop := AtRest s ∧ Admissible r s ∧ r.kind = .write ∧ s.host.pfw = false ∧
      s.eng.state = .opened ∧ (newEntry r s).cls = .journal ∧
      (∀ f ∈ s.pres.filter, f.cell ≠ (newEntry r s).cell) ∧
      (s.cfg.jslots.toNat - 2) / 2 ≤ s.eng.nextIndex + s.pres.claims
    (meets (s .hold) ∧ (s .hold).cfg.fullPolicy = .hold) ∧
      (meets (s .deny) ∧ (s .deny).cfg.fullPolicy = .deny) := by decide +kernel

/-- IDLE under policy DENY. -/
def denies : State := { inState .idle with cfg := { cfg with barePolicy := .deny } }

theorem witness_WriteIsDenied :
    let base (r : HostRequest) (s : State) (c : CellClass) : Bool :=
      decide (AtRest s) && decide (Admissible r s) && decide (r.kind = .write) && !s.host.pfw &&
        decide ((newEntry r s).cls = c)
    base (wr 1 2048) opened .journalArea = true ∧ base (wr 1 2368) opened .journalArea = true ∧
      base (wr 1 1024) opened .readonly = true ∧
      base (wr 1 0) (inState .unrecovered) .journal = true ∧
      (base (wr 1 960) denies .journal = true ∧ denies.eng.state = .idle ∧ denies.cfg.barePolicy = .deny) := by
  decide +kernel

theorem witness_RequestIsHeldOrWaits :
    let base (r : HostRequest) (s : State) : Bool := decide (AtRest s) && decide (s.table.length < 16) &&
      decide (∀ e ∈ s.table, e.tag ≠ r.tag) && requestFits r
    let free (r : HostRequest) (s : State) (c : CellClass) : Bool :=
      base r s && decide (NoneIn s (requestCell r)) && !staleWriteTo s.mport (requestCell r) &&
        decide ((newEntry r s).cls = c)
    let pfw : State := { opened with host := { opened.host with pfw := true } }
    let taken := withEntry (ent (rd 1 0) .issued none opened) opened
    let left := stale (.restoreWrite 0 0) opened
    free (wr 2 0) pfw .journal = true ∧ free (wr 2 1088) pfw .exempt = true ∧ pfw.host.pfw = true ∧
      free (wr 2 0) (inState .rolling) .journal = true ∧ free (wr 2 0) (inState .faulted) .journal = true ∧
      free (rd 2 0) (inState .stalled) .journal = true ∧
      (base (wr 2 8) taken = true ∧ ∃ x ∈ taken.table, x.cell = requestCell (wr 2 8) ∧ x.stage ≠ .waiting) ∧
      (base (rd 2 0) left = true ∧ staleWriteTo left.mport (requestCell (rd 2 0)) = true) := by decide +kernel

theorem witness_TrafficLeavesTheRestAlone : ∃ t, exec .mportGrant State.reset = .next t := ⟨_, rfl⟩

/-! ### Witnesses: pins and timers -/

/-- Entries under PFW: one held POWER, one held WALK, one AT_TURN, in cells of their own. -/
def underPfw (st : EngState) (pfw : Bool) : State :=
  let s := inState st
  let t := withEntry (ent (wr 3 128) .atTurn none s) (withEntry (ent (rd 2 64) (.held .walk 5) none s)
    (withEntry (ent (wr 1 0) (.held .power 9) none s) s))
  { t with host := { t.host with pfw := pfw } }

theorem witness_PfwChanges :
    let pfw : State := { opened with host := { opened.host with pfw := true } }
    let powerOk (s : State) : Prop := ∀ e ∈ s.table, e.heldWith .power = true → e.kind = .write ∧ e.cls = .journal
    (Running opened ∧ opened.host.pfw = false ∧ AtRest opened ∧ ∀ e ∈ opened.table, e.stage ≠ .atTurn) ∧
      (AtRest (underPfw .opened false) ∧ TableOk (underPfw .opened false) ∧
        (∀ e ∈ (underPfw .opened false).table, e.stage = .atTurn → e.kind = .write) ∧
        ∃ e ∈ (underPfw .opened false).table, e.stage = .atTurn) ∧
      (Running pfw ∧ pfw.host.pfw = true ∧ AtRest pfw ∧ ∀ e ∈ pfw.table, e.heldWith .power = false) ∧
      (AtRest (underPfw .stalled true) ∧ TableOk (underPfw .stalled true) ∧ powerOk (underPfw .stalled true) ∧
        ∃ e ∈ (underPfw .stalled true).table, e.heldWith .power = true) ∧
      (AtRest (underPfw .faulted true) ∧ TableOk (underPfw .faulted true) ∧ powerOk (underPfw .faulted true)) ∧
      (∃ e ∈ (underPfw .opened true).table, ∀ x ∈ (underPfw .opened true).table, x.cell = e.cell →
        x.heldWith .power = false) :=
  ⟨by decide +kernel, by decide +kernel, by decide +kernel, by decide +kernel, by decide +kernel, by
    decide +kernel⟩

theorem witness_HoldExpires :
    let e := ent (wr 1 0) (.held .walk 0xFFFFFFFE#32) none opened
    let s (t : W32) : State := at_ t (withEntry e opened)
    let due (t : W32) : Prop := (s t).cfg.tickdiv ≠ 0 ∧ (s t).cfg.holdLimit ≠ 0 ∧
      (s t).cfg.holdLimit.toNat ≤ ((s t).clock.timebase - 0xFFFFFFFE#32).toNat
    (entryOf (s 2) e.tag = some e ∧ due 2 ∧ AtRest (s 2) ∧ (s 2).eng.op ≠ .draining ∧ Alone (s 2) e) ∧
      (entryOf (s 1) e.tag = some e ∧ ¬ due 1) := by decide +kernel

theorem witness_DeadlineExpires :
    let s (u : State) (left : BitVec 24) (act : BitVec 2) : State := { u with
      cfg := { cfg with deadlineAction := act }
      eng := { u.eng with deadlineRunning := true, deadlineLeft := left } }
    let due (s : State) : Prop := s.cfg.tickdiv ≠ 0 ∧ s.eng.state = .opened ∧
      s.eng.deadlineRunning = true ∧ s.eng.deadlineLeft = 0
    let ends (s : State) (new : EngState) : Prop := due s ∧ AtRest s ∧ Unmoved s .opened new
    ¬ due (s opened 1 0) ∧ (AtRest (s opened 0 0) ∧ due (s opened 0 0)) ∧
      (AtRest (s opened 0 3) ∧ due (s opened 0 3)) ∧
      (ends (s opened 0 1) .closing ∧ Drained (s opened 0 1)) ∧
      (ends (s undrained 0 1) .closing ∧ ¬ Drained (s undrained 0 1)) ∧
      (ends (s (durable 1 opened) 0 2) .rolling ∧ Drained (s (durable 1 opened) 0 2) ∧
        (s (durable 1 opened) 0 2).eng.durableCount = 0 + 1) ∧
      (ends (s opened 0 2) .rolling ∧ (s opened 0 2).eng.durableCount = 0) ∧
      (ends (s undrained 0 2) .rolling ∧ ¬ Drained (s undrained 0 2)) :=
  ⟨by decide +kernel, by decide +kernel, by decide +kernel, by decide +kernel, by decide +kernel, by
    decide +kernel, by decide +kernel, by decide +kernel⟩

/-- A write in FINISHING with this action, alone in a part whose engine is in this state. -/
def finishing (a : EpochAction) : Entry :=
  { ent (wr 1 0) .finishing none opened with action := some (a, 2) }

def delivering (st : EngState) (a : EpochAction) : State := withEntry (finishing a) (inState st)

/-- The same write, with a forwarded write of the epoch in another cell. -/
def deliveringUndrained (a : EpochAction) : State :=
  withEntry (ent (wr 2 64) .issued (some .filterHit) opened) (delivering .opened a)

theorem witness_WatchActionIsDelivered :
    let meets (s : State) (a : EpochAction) (fate : ActionFate) : Bool :=
      decide (TableOk s) && decide (entryOf s 1 = some (finishing a)) && decide (AtRest s) &&
        decide (s.eng.op ≠ .draining) && decide (Alone s (finishing a)) && decide (actionFate s.eng a = fate)
    let moves (s : State) (old new : EngState) : Bool := decide (Unmoved s old new)
    (meets (delivering .opened .commit) .commit .commit && moves (delivering .opened .commit) .opened .closing &&
        decide (Drained (delivering .opened .commit))) = true ∧
      (meets (deliveringUndrained .commit) .commit .commit &&
        moves (deliveringUndrained .commit) .opened .closing &&
        !decide (Drained (deliveringUndrained .commit))) = true ∧
      (meets (delivering .opened .commitOpen) .commitOpen (.commitOpen 8) &&
        moves (delivering .opened .commitOpen) .opened .closing) = true ∧
      (meets (delivering .opened .abort) .abort .abort && moves (delivering .opened .abort) .opened .rolling) = true ∧
      (meets (durable 1 (delivering .opened .abort)) .abort .abort &&
        moves (durable 1 (delivering .opened .abort)) .opened .rolling) = true ∧
      (meets (delivering .idle .commitOpen) .commitOpen (.opening 8) &&
        moves (delivering .idle .commitOpen) .idle .opening) = true ∧
      meets (delivering .idle .abort) .abort .silent = true ∧
      meets (delivering .faulted .commit) .commit (.dropped (.inState .faulted)) = true := by
  decide +kernel

/-! ### Witnesses: answers from memory -/

theorem witness_ForwardIsAnswered :
    let base (s : State) (e : Entry) : Prop := AtRest s ∧ entryOf s e.tag = some e ∧ e.stage = .issued ∧ Alone s e
    let er := ent (rd 1 0) .issued none opened
    let ew := ent (wr 1 0) .issued (some .bare) opened
    let ea : Entry := { ew with action := some (.commit, 2) }
    let sr := busy (.forwardRead 1 0 0 1) (withEntry er opened)
    let sw (e : Entry) : State := busy (.forwardWrite 1 0 e.strobes e.data) (withEntry e opened)
    (base sr er ∧ Answering sr 0 (lr (.forwardRead 1 0 0 1)) (.forwardRead er.tag 0 0 1)) ∧
      (base (sw ew) ew ∧ ew.action = none ∧ Answering (sw ew) 0 (lr (.forwardWrite 1 0 ew.strobes ew.data))
        (.forwardWrite ew.tag 0 ew.strobes ew.data)) ∧
      (base (sw ea) ea ∧ ea.action ≠ none ∧ Answering (sw ea) 0 (lr (.forwardWrite 1 0 ea.strobes ea.data))
        (.forwardWrite ea.tag 0 ea.strobes ea.data)) := by decide +kernel

/-- The answer that ends an entry gives the turn to the oldest WAITING read of the cell, and one that ends the last write
a drain waits for comes before the ending header (R22, R90, R93). -/
theorem witness_AnswerLetsGoOn :
    let er := ent (rd 1 0) .issued none opened
    let next := ent (rd 2 8) .waiting none opened
    let last := ent (rd 3 16) .waiting none opened
    let turn := busy (.forwardRead 1 0 0 1) (withEntry last (withEntry next (withEntry er opened)))
    let ew := ent (wr 1 0) .issued (some .filterHit) opened
    let drain : State :=
      let u := busy (.forwardWrite 1 0 ew.strobes ew.data) (withEntry ew (setOp .draining (inState .closing)))
      { u with eng := { u.eng with closeKind := some .commitOpen, openNumber := some 8 } }
    (AtRest turn ∧ entryOf turn 1 = some er ∧ er.stage = .issued ∧ TableOk turn ∧ NextReader turn er next ∧
        Answering turn 0 (lr (.forwardRead 1 0 0 1)) (.forwardRead er.tag 0 0 1) ∧
        (after (.mportAnswer 0 (.ok 5)) turn).mport.out.map (·.op) = [.forwardRead 2 0 1 1]) ∧
      (AtRest drain ∧ entryOf drain 1 = some ew ∧ ew.action = none ∧ Alone drain ew ∧ drain.eng.op = .draining ∧
        drain.eng.state = .closing ∧ (∀ x ∈ drain.table, DrainWaitsFor drain x → x.tag = ew.tag) ∧
        (after (.mportAnswer 0 (.ok 0)) drain).mport.out.map (·.op) =
          [.headerWrite .a (headerBytes 5 58 .active 8 6)]) := by decide +kernel

theorem witness_OldContentBecomesARecord :
    let e := ent (wr 1 0) .fetchingOld (some .preserve) opened
    let s (o : List Nat) : State := busy (.oldRead 1 0) (withEntry e
      { opened with pres := { opened.pres with claims := 1, orphans := o } })
    let base (o : List Nat) : Prop := AtRest (s o) ∧ Answering (s o) 0 (lr (.oldRead 1 0)) (.oldRead e.tag 0) ∧
      entryOf (s o) e.tag = some e ∧ e.stage = .fetchingOld ∧ e.decision = some .preserve ∧ e.watched = [] ∧
      NoneWaits (s o) ∧ Alone (s o) e ∧ ∀ r ∈ (s o).pres.queue, r.index ≠ (s o).eng.nextIndex
    let clear (o : List Nat) : Prop := recordSlot (s o).eng.nextIndex .header ∉ (s o).pres.orphans ∧
      recordSlot (s o).eng.nextIndex .data ∉ (s o).pres.orphans
    (base [] ∧ clear []) ∧ (base [4] ∧ clear [4]) ∧ (base [3] ∧ ¬ clear [3]) :=
  ⟨by decide +kernel, by decide +kernel, by decide +kernel⟩

/-- A watched PRESERVE write whose old content is not read, alone and with a write AT_TURN that takes its place (R34,
R36). -/
theorem witness_OldContentIsNotRead :
    let e := { ent (wr 1 0) .fetchingOld (some .preserve) opened with watched := [2] }
    let next := ent (wr 2 64) .atTurn none opened
    let s (l : List Entry) (n : Nat) : State := busy (.oldRead 1 0) { opened with
      table := e :: l, pres := { opened.pres with claims := n }, cfg := { cfg with jslots := 20 } }
    let base (l : List Entry) (n : Nat) : Prop := AtRest (s l n) ∧
      Answering (s l n) 0 (lr (.oldRead 1 0)) (.oldRead e.tag 0) ∧ entryOf (s l n) e.tag = some e ∧ Alone (s l n) e
    (base [] 1 ∧ NoneWaits (s [] 1)) ∧
      (base [next] 8 ∧ TableOk (s [next] 8) ∧ next ∈ (s [next] 8).table ∧ next.cls = .journal ∧ next.kind = .write ∧
        (s [next] 8).host.pfw = false ∧ (s [next] 8).eng.state = .opened ∧
        (s [next] 8).pres.queue.length + ((s [next] 8).pres.claims - 1) < 8 ∧
        (s [next] 8).eng.nextIndex + ((s [next] 8).pres.claims - 1) < ((s [next] 8).cfg.jslots.toNat - 2) / 2 ∧
        (∀ x ∈ (s [next] 8).table, x ≠ next → x.stage ≠ .waiting ∧ x.stage ≠ .atTurn ∧
          x.heldWith .journalFull = false)) := by decide +kernel

/-- R46, R47, R67: record 0 goes to slots 2 and 3 of the journal, its data as it was read. -/
theorem test_old_content_is_written :
    let e := ent (wr 1 0) .fetchingOld (some .preserve) opened
    let s : State := busy (.oldRead 1 0) (withEntry e { opened with pres := { opened.pres with claims := 1 } })
    (after (.mportAnswer 0 (.ok 0x77)) s).mport.out.map (fun x => (x.addr, x.op)) =
      [(0x880, .slotWrite 0 .header (recordHeaderBytes 5 7 0 0 0x77)), (0x8C0, .slotWrite 0 .data 0x77)] ∨
    (after (.mportAnswer 0 (.ok 0x77)) s).mport.out.map (fun x => (x.addr, x.op)) =
      [(0x8C0, .slotWrite 0 .data 0x77), (0x880, .slotWrite 0 .header (recordHeaderBytes 5 7 0 0 0x77))] := by
  decide +kernel

theorem witness_WatchedWriteIsJudged :
    let u (a : BitVec 3) : State := withRule (rule 0 a .armed) opened
    let e (a : BitVec 3) (d : Decision) : Entry := ent (wr 1 0) .fetchingOld (some d) (u a)
    let s (a : BitVec 3) (d : Decision) : State := busy (.oldRead 1 0) (withEntry (e a d) { u a with
      pres := { (u a).pres with claims := if d = .preserve then 1 else 0 } })
    let base (a : BitVec 3) (d : Decision) : Prop := AtRest (s a d) ∧
      Answering (s a d) 0 (lr (.oldRead 1 0)) (.oldRead (e a d).tag 0) ∧ entryOf (s a d) (e a d).tag = some (e a d) ∧
      (e a d).stage = .fetchingOld ∧ (e a d).decision = some d ∧ Alone (s a d) (e a d) ∧
      inJournalArea (s a d).cfg (e a d).cell = false ∧ NoneWaits (s a d) ∧ (s a d).pres.queue = [] ∧
      (s a d).pres.orphans = []
    let judged (a : BitVec 3) (d : Decision) : Merge := merge (evaluate { e a d with old := some 0 } 0 (s a d)).2
    (base 1 .bare ∧ judged 1 .bare = .refuse) ∧ (base 0 .filterHit ∧ judged 0 .filterHit = .pass) ∧
      (base 4 .bare ∧ judged 4 .bare = .act .abort 2) ∧ (base 1 .preserve ∧ judged 1 .preserve = .refuse) ∧
      (base 0 .preserve ∧ judged 0 .preserve = .pass) ∧
      (base 2 .preserve ∧ judged 2 .preserve = .act .commit 2) :=
  ⟨by decide +kernel, by decide +kernel, by decide +kernel, by decide +kernel, by decide +kernel, by
    decide +kernel⟩

/-- A watched PRESERVE write whose record's slots are orphans', or another record's only (R47). -/
theorem witness_WatchedRecordWaitsForOrphans :
    let u : State := withRule (rule 0 0 .armed) opened
    let e : Entry := ent (wr 1 0) .fetchingOld (some .preserve) u
    let s (o : List Nat) : State := busy (.oldRead 1 0) (withEntry e { u with
      pres := { u.pres with claims := 1, orphans := o } })
    let base (o : List Nat) : Prop := AtRest (s o) ∧ Answering (s o) 0 (lr (.oldRead 1 0)) (.oldRead e.tag 0) ∧
      entryOf (s o) e.tag = some e ∧ Alone (s o) e ∧ NoneWaits (s o) ∧
      merge (evaluate { e with old := some 0 } 0 (s o)).2 = .pass
    base [4] ∧ (base [3] ∧ recordSlot (s [3]).eng.nextIndex .data ∈ (s [3]).pres.orphans ∧
      (after (.mportAnswer 0 (.ok 0)) (s [3])).mport.out = []) := by decide +kernel

theorem witness_RecordBecomesDurable :
    let e := { ent (wr 1 0) .recording (some .preserve) opened with record := some 0 }
    let r (ack : Bool) : RecElem := recElem 0 e true ack false
    let s (ack : Bool) (half : RecHalf) : State :=
      busy (.slotWrite 0 half 0) (withQueue [r ack] (withEntry e opened))
    let base (ack : Bool) (half : RecHalf) : Prop := AtRest (s ack half) ∧
      Answering (s ack half) 0 (lr (.slotWrite 0 half 0)) (.slotWrite (r ack).index half 0) ∧
      (s ack half).pres.queue = [r ack] ∧ (r ack).requested = true ∧ NoneWaits (s ack half) ∧
      recordSlot (r ack).index half ∉ (s ack half).pres.orphans
    (base false .header ∧ ((r false).ack .header).ready = false) ∧
      (base true .data ∧ ((r true).ack .data).ready = true ∧ entryOf (s true .data) (r true).tag = some e ∧
        e.stage = .recording ∧ inJournalArea (s true .data).cfg e.cell = false) := by decide +kernel

/-- The last acknowledgement of record 0 finds record 1 ready: with the freed link slot alone, and whatever is drawn,
forward 0 leaves and forward 1 waits (R49). -/
theorem witness_ForwardsLeaveInIndexOrder :
    let e1 := { ent (wr 1 0) .recording (some .preserve) opened with record := some 0 }
    let e2 := { ent (wr 2 64) .recording (some .preserve) opened with record := some 1 }
    let s (drawn : Nat) : State :=
      let u := withQueue [recElem 0 e1 true true false, recElem 1 e2 true true true] (withEntry e2 (withEntry e1 opened))
      { u with
        choices := { given := List.replicate 8 drawn, drawn := 0 }
        mport := { u.mport with
          slots := (Vector.replicate 32 (.busy (lr (.headerRead .a)))).set 0 (.busy (lr (.slotWrite 0 .data 0))) } }
    let fw (e : Entry) : MemOp := .forwardWrite e.tag e.cell e.strobes e.data
    let base (d : Nat) : Prop := AtRest (s d) ∧ Answering (s d) 0 (lr (.slotWrite 0 .data 0)) (.slotWrite 0 .data 0) ∧
      NoneWaits (s d) ∧ entryOf (s d) 1 = some e1 ∧ entryOf (s d) 2 = some e2 ∧
      ((recElem 0 e1 true true false).ack .data).ready = true ∧ (recElem 1 e2 true true true).ready = true ∧
      inJournalArea (s d).cfg e1.cell = false ∧ inJournalArea (s d).cfg e2.cell = false
    let ordered (t : State) : Prop := t.mport.out.map (·.op) = [fw e1] ∧ t.mport.queue.map (·.op) = [fw e2]
    (base 0 ∧ ordered (after (.mportAnswer 0 (.ok 0)) (s 0))) ∧
      (base 1 ∧ ordered (after (.mportAnswer 0 (.ok 0)) (s 1))) := by decide +kernel

/-- Two records in flight, and a slot write of one of them outstanding. -/
def twoRecords (k : Nat) : State :=
  let e1 := { ent (wr 1 0) .recording (some .preserve) opened with record := some 0 }
  let e2 := { ent (wr 2 64) .recording (some .preserve) opened with record := some 1 }
  busy (.slotWrite k .data 0) (withQueue [recElem 0 e1 true false false, recElem 1 e2 true false false]
    (withEntry e2 (withEntry e1 opened)))

theorem twoRecords_blocksOk : BlocksOk (twoRecords 0) ∧ BlocksOk (twoRecords 1) :=
  ⟨⟨by decide +kernel, by decide +kernel, by decide +kernel, by decide +kernel, by decide +kernel,
    by decide +kernel, by decide +kernel, by decide +kernel, by decide +kernel⟩,
    by decide +kernel, by decide +kernel, by decide +kernel, by decide +kernel, by decide +kernel,
    by decide +kernel, by decide +kernel, by decide +kernel, by decide +kernel⟩

theorem witness_RecordFaultRemovesTheTail :
    let s (k : Nat) : State := twoRecords k
    let base (k : Nat) : Prop := AtRest (s k) ∧
      Answering (s k) 0 (lr (.slotWrite k .data 0)) (.slotWrite k .data 0) ∧ NoneWaits (s k) ∧
      (∃ r ∈ (s k).pres.queue, r.index = k) ∧
      recordSlot k .data ∉ (s k).pres.orphans ++ outstandingSlots k ((s k).mport.freed 0)
    base 0 ∧ base 1 := by decide +kernel

/-! ### Witnesses: the engine's own transactions -/

theorem witness_HeaderAcknowledged : (∀ why : HdrPurpose,
    let s := busy (.headerWrite .a 0) (setOp (.headerWrite why true) (inState .recovering))
    s.mport.slots[(0 : LinkNo)] = .busy (lr (.headerWrite .a 0)) ∧ s.eng.op = .headerWrite why true ∧
      s.ev.notices.length < 16 ∧ AtRest s) ∧
    (durable 0 (inState .rolling)).eng.durableCount = 0 ∧ (durable 1 (inState .rolling)).eng.durableCount = 0 + 1 :=
  ⟨by intro why; cases why <;> decide +kernel, rfl, rfl⟩

/-- The entry that is re-examined where the engine enters OPEN or IDLE: a write held TRANSITION, or a read held WALK, alone
(R25, R26). -/
theorem witness_HeldEntryIsReexamined :
    let ew := ent (wr 1 0) (.held .transition 0) none opened
    let er := ent (rd 1 0) (.held .walk 0) none opened
    let s (e : Entry) (why : HdrPurpose) (st : EngState) : State :=
      let u := busy (.headerWrite .a 0) (withEntry e (setOp (.headerWrite why true) (inState st)))
      { u with eng := { u.eng with hdrOutA := 1 }, cfg := { u.cfg with barePolicy := .deny, jslots := 4 } }
    let only (e : Entry) (u : State) (new : EngState) : Bool := decide (AtRest u) && decide (TableOk u) &&
      decide (e ∈ u.table) && decide (Alone u e) && !u.host.pfw && u.pres.queue.isEmpty && u.pres.claims == 0 &&
      u.table.all (fun x => x == e || !stateChoice u.eng.state new x)
    ew.kind = .write ∧ ew.cls = .journal ∧ er.kind = .read ∧ only ew (s ew .opening .opening) .opened = true ∧
      only ew (s ew .closeCommitOpen .closing) .opened = true ∧ only ew (s ew .closeCommit .closing) .idle = true ∧
      only er (s er .walkFinal .rolling) .idle = true := by decide +kernel

/-- At an entry into OPEN the journal is reported full no more (R56, R88). -/
theorem witness_OpeningClearsFullReported :
    let s : State :=
      let u := busy (.headerWrite .a 0) (setOp (.headerWrite .opening true) (inState .opening))
      { u with pres := { u.pres with fullReported := true } }
    AtRest s ∧ Unmoved s s.eng.state .opened ∧ (after (.mportAnswer 0 (.ok 0)) s).pres.fullReported = false := by
  decide +kernel

/-- R98, R135, R138: after the re-assert, the two reads of the highest of two durable indices. -/
theorem test_reassert_begins_the_walk :
    let s := busy (.headerWrite .a 0) (setOp (.headerWrite .reassert true)
      (setWalk .rollback .restore none (durable 2 (inState .rolling))))
    (after (.mportAnswer 0 (.ok 0)) s).mport.out.map (·.addr) = [0x900, 0x940] ∨
      (after (.mportAnswer 0 (.ok 0)) s).mport.out.map (·.addr) = [0x940, 0x900] := by decide +kernel

theorem witness_HeaderFailed : ∀ why : HdrPurpose,
    let full : State := { opened with ev := { opened.ev with
      notices := List.replicate 15 { time := 0, epoch := 7, body := .powerChange true } } }
    let s := busy (.headerWrite .a 0) (setOp (.headerWrite why true) full)
    Running s ∧ s.mport.slots[(0 : LinkNo)] = .busy (lr (.headerWrite .a 0)) ∧
      s.eng.op = .headerWrite why true ∧ s.ev.notices.length < 16 := by
  intro why; cases why <;> decide +kernel

theorem witness_HeadersAreRead :
    let x (st : HdrState) : CellData := headerBytes 5 57 st 7 6
    let s (c : Copy) (why : HdrReader) (a b : HdrRead) : State :=
      busy (.headerRead c) (setOp (.headerReads why a b) (inState .recovering))
    let meets (c : Copy) (why : HdrReader) (a b : HdrRead) : Prop :=
      (s c why a b).mport.slots[(0 : LinkNo)] = .busy (lr (.headerRead c)) ∧
        (s c why a b).eng.op = .headerReads why a b ∧ AtRest (s c why a b)
    meets .b .recover .requested .requested ∧ meets .b .recover (.got 0) .requested ∧ meets .a .discard .requested (.got (x .active)) ∧
      currentHeader 6 0 0 = none ∧ currentHeader 6 (x .clean) 0 = some .a ∧
      currentHeader 6 0 (x .active) = some .b ∧ fieldOf (x .clean) 3 = 1 ∧ fieldOf (x .active) 3 ≠ 1 := by
  decide +kernel

theorem witness_RecordIsTested :
    let h (k : W32) : CellData := recordHeaderBytes 5 7 k 0 0
    let op (p : WalkPhase) (k : Nat) (half : RecHalf) : MemOp :=
      if p = .scan then .scanRead k half else .restoreRead k half
    let s (p : WalkPhase) (k : Nat) (half : RecHalf) (x y : Option CellData) : State := busy (op p k half)
      (setOp (.recordReads x y) (setWalk .recovery p (some k) (inState .recovering)))
    let meets (p : WalkPhase) (k : Nat) (half : RecHalf) (x y : Option CellData) : Prop :=
      (s p k half x y).mport.slots[(0 : LinkNo)] = .busy (lr (op p k half)) ∧
        (s p k half x y).eng.op = .recordReads x y ∧ (s p k half x y).eng.walk.phase = some p ∧
        AtRest (s p k half x y)
    meets .scan 0 .data (some (h 0)) none ∧ meets .scan 1 .data none none ∧
      meets .restore 1 .header none (some 0) ∧
      recordValid 5 7 0 (h 0) 0 = true ∧ recordValid 5 7 0 (h 0) 1 = false ∧
      recordValid 5 7 1 (h 1) 0 = true ∧ 0 + 1 < (cfg.jslots.toNat - 2) / 2 ∧
      (cfg.jslots.toNat - 2) / 2 ≤ 1 + 1 ∧
      (let r := s .restore 1 .header none (some 0)
       (r.eng.restoreOut = 0 ∧ staleForwardTo r.mport (recordCell (h 1)) = false) ∧
         staleForwardTo (r.mport.freed 0) 0 = false) ∧
      (let r (n : Nat) : State := { inState .recovering with
        eng := { (s .restore 1 .header none (some 0)).eng with restoreOut := n }
        mport := { MPort.reset with
          slots := MPort.reset.slots.set 0 (.busy (lr (.restoreRead 1 .header)))
            |>.set 1 (.stale (lr (.forwardWrite 3 0 0 0))) } }
       (r 0).mport.slots[(0 : LinkNo)] = .busy (lr (.restoreRead 1 .header)) ∧ AtRest (r 0) ∧
         staleForwardTo (r 0).mport (recordCell (h 1)) = true ∧
         AtRest (r 1) ∧ (r 1).eng.restoreOut ≠ 0) := by decide +kernel

theorem witness_RestorationIsAnswered :
    let s (k : Nat) : State :=
      busy (.restoreWrite 3 0) (setOp (.restoreIssued 3) (setWalk .rollback .restore (some k) (inState .rolling)))
    (s 0).mport.slots[(0 : LinkNo)] = .busy (lr (.restoreWrite 3 0)) ∧ (s 0).eng.op = .restoreIssued 3 ∧
      (s 0).eng.walk.index = some 0 ∧ (s 1).eng.walk.index = some (0 + 1) ∧ AtRest (s 1) ∧
      (s 0).ev.notices.length < 16 := by
  decide +kernel

theorem witness_EngineGoesOn :
    let closing := setOp .draining (inState .closing)
    let rolling (d : Nat) : State := setWalk .rollback .restore none (setOp .draining (durable d (inState .rolling)))
    let writes := setOp (.headerWrite .closeCommit false) (inState .closing)
    let reads (a b : HdrRead) : State := setOp (.headerReads .recover a b) (inState .recovering)
    let restores := setOp (.restoreWait 3 0) (inState .rolling)
    (Running closing ∧ closing.eng.op = .draining ∧ Drained closing ∧ closing.eng.state = .closing) ∧
      (Drained (rolling 0) ∧ (rolling 0).eng.state ≠ .closing ∧ (rolling 0).eng.durableCount = 0) ∧
      (Drained (rolling 1) ∧ (rolling 1).eng.durableCount = 0 + 1 ∧ Clear (rolling 1)) ∧
      (writes.eng.op = .headerWrite .closeCommit false ∧ writes.eng.hdrOut writes.eng.nextCopy = 0 ∧ Clear writes) ∧
      ((reads .waiting .requested).eng.hdrOutA = 0 ∧ Clear (reads .waiting .requested)) ∧
      ((reads .requested .waiting).eng.hdrOutB = 0 ∧ Clear (reads .requested .waiting)) ∧
      ((reads .waiting .waiting).eng.hdrOutB = 0 ∧ Clear (reads .waiting .waiting)) ∧
      (restores.eng.op = .restoreWait 3 0 ∧ restores.eng.restoreOut = 0 ∧
        staleForwardTo restores.mport 3 = false ∧ Clear restores) ∧
      AtRest opened :=
  ⟨by decide +kernel, by decide +kernel, by decide +kernel, by decide +kernel, by decide +kernel, by
    decide +kernel, by decide +kernel, by decide +kernel, by decide +kernel⟩

theorem witness_SlotWritesAreRequested :
    let e := { ent (wr 1 0) .recording (some .preserve) opened with record := some 0 }
    let r := recElem 0 e false false false
    let u := withQueue [r] (withEntry e opened)
    let s (free : List LinkNo) : State := { u with mport := { u.mport with
      slots := Vector.ofFn (fun i => if i ∈ free then .free else .busy (lr (.headerRead .a))) } }
    let meets (n : Nat) (s : State) : Prop := Running s ∧
      s.mport.queue = [] ∧ s.host.link = [] ∧ (freeSlots s.mport).length = n ∧ s.eng.op = .none ∧
      s.pres.queue.find? (fun x => x.index == r.index) = some r ∧ r.requested = false ∧
      recordSlot r.index .header ∉ s.pres.orphans ∧ recordSlot r.index .data ∉ s.pres.orphans ∧
      (∀ x ∈ s.pres.queue, x.index ≠ r.index → x.requested = true)
    meets 0 (s []) ∧ meets 1 (s [31]) ∧ meets 2 (s [4, 31]) ∧ AtRest opened := by decide +kernel

theorem witness_OldestRequestIsGranted :
    let e := ent (wr 1 2048) .issued (some .bare) opened
    let wait (ops : List MemOp) (s : State) : State :=
      { s with mport := { s.mport with queue := ops.map (fun op => { op := op, addr := 0, fresh := false }) } }
    let oneFree (s : State) : State := { s with mport := { s.mport with
      slots := (Vector.replicate 32 (.busy (lr (.headerRead .a)))).set 31 .free } }
    let base (s : State) : Prop := Running s ∧ s.mport.queue ≠ [] ∧ s.host.link = [] ∧ freeSlots s.mport ≠ [] ∧
      settled { s with mport := { s.mport with queue := [] } } = true
    (base (wait [.headerRead .a] opened) ∧ inJournalArea cfg 31 = false) ∧
      (base (oneFree (wait [.headerWrite .a 0, .oldRead 1 0, .headerRead .b] opened)) ∧
        (freeSlots (oneFree (wait [.headerWrite .a 0, .oldRead 1 0, .headerRead .b] opened)).mport).length = 1) ∧
      (base (wait [.forwardWrite 1 32 0 0] (withEntry e opened)) ∧ inJournalArea cfg 32 = true ∧
        entryOf (withEntry e opened) e.tag = some e ∧ e.stage = .issued ∧ Alone (withEntry e opened) e ∧
        (withEntry e opened).eng.op ≠ .draining) := by decide +kernel

/-- A restoration write whose cell a stale forward still holds, or behind an earlier one, waits at the grant, alone or
before another request (R139, R164). -/
theorem witness_RestorationWaitsAtTheGrant :
    let wait (ops : List MemOp) (out : Nat) (s : State) : State :=
      let u := setOp (.restoreIssued 3) { s with mport := { s.mport with
        queue := ops.map (fun op => { op := op, addr := 0, fresh := false }) } }
      { u with eng := { u.eng with restoreOut := out } }
    let base (s : State) : Prop := Running s ∧ s.mport.queue ≠ [] ∧ s.host.link = [] ∧ freeSlots s.mport ≠ [] ∧
      settled { s with mport := { s.mport with queue := [] } } = true ∧ s.eng.op = .restoreIssued 3
    let blocked := stale (.forwardWrite 9 3 0 0) (inState .rolling)
    let oneFree : State := { blocked with mport := { blocked.mport with
      slots := ((Vector.replicate 32 (.busy (lr (.headerRead .a)))).set 0 (.stale (lr (.forwardWrite 9 3 0 0)))).set 31
        .free } }
    let waitsOn (s : State) (issued : List MemOp) : Prop :=
      (after .mportGrant s).eng.op = .restoreWait 3 7 ∧ (after .mportGrant s).mport.out.map (·.op) = issued
    (base (wait [.restoreWrite 3 7] 0 blocked) ∧ staleForwardTo blocked.mport 3 = true ∧
        waitsOn (wait [.restoreWrite 3 7] 0 blocked) []) ∧
      (base (wait [.restoreWrite 3 7] 1 (inState .rolling)) ∧ waitsOn (wait [.restoreWrite 3 7] 1 (inState .rolling)) []) ∧
      (base (wait [.restoreWrite 3 7, .headerRead .b, .headerRead .a] 0 oneFree) ∧
        (freeSlots oneFree.mport).length = 1 ∧
        waitsOn (wait [.restoreWrite 3 7, .headerRead .b, .headerRead .a] 0 oneFree) [.headerRead .b]) ∧
      (base (wait [.restoreWrite 3 7] 0 (inState .rolling)) ∧
        (after .mportGrant (wait [.restoreWrite 3 7] 0 (inState .rolling))).mport.out.map (·.op) =
          [.restoreWrite 3 7]) := by decide +kernel

theorem witness_LinkSlotTimers :
    let op : MemOp := .oldRead 1 0
    let er := ent (rd 1 0) .issued none opened
    let fr : MemOp := .forwardRead 1 0 0 1
    let late (t : W32) : Nat := (t - (lr op).issued).toNat
    opened.mport.slots[(0 : LinkNo)] = .free ∧
      ((busy op (at_ 4 opened)).mport.slots[(0 : LinkNo)] = .busy (lr op) ∧ ¬ (lr op).limit.toNat ≤ late 4) ∧
      ((stale op (at_ 9 opened)).mport.slots[(0 : LinkNo)] = .stale (lr op) ∧
        ¬ 2 * (lr op).limit.toNat ≤ late 9) ∧
      (opened.cfg.tickdiv ≠ 0 ∧ (lr op).limit.toNat ≤ late 5 ∧ 2 * (lr op).limit.toNat ≤ late 10) ∧
      (let s := busy fr (withEntry er (at_ 5 opened))
       s.mport.slots[(0 : LinkNo)] = .busy (lr fr) ∧ AtRest s ∧ entryOf s er.tag = some er ∧ Alone s er ∧
         s.eng.op ≠ .draining) := by
  decide +kernel

/-- A TIMEOUT that is due, of an old-content read and of a slot write, in a part at work (its invariants:
working_inv, whose time alone differs). -/
theorem witness_TimeoutActsAsAnError :
    let s := at_ 5 working
    AtRest s ∧ s.mport.slots[(0 : LinkNo)] = .busy (lr (.oldRead 2 1)) ∧
      s.mport.slots[(1 : LinkNo)] = .busy (lr (.slotWrite 0 .data 0)) ∧ s.cfg.tickdiv ≠ 0 ∧
      (∀ e ∈ s.table, e.stage = .fetchingOld ∨ e.stage = .recording ∨ e.stage = .issued ∨
        e.stage = .finishing) ∧ s.eng.op = .none := by decide +kernel

theorem late_working_inv : Inv (at_ 5 working) := ⟨working_inv.1, working_inv.2.1, nofun⟩

/-- A release that ends each of the four waits. -/
theorem witness_ReleaseEndsTheWait :
    let quiet (s : State) : Prop := Running s ∧ s.mport.queue = [] ∧ s.host.link = [] ∧ s.eng.op ≠ .draining
    let fw : MemOp := .forwardWrite 9 0 0 0
    let er := ent (rd 1 0) .waiting none opened
    let ew := { ent (wr 1 0) .recording (some .preserve) opened with record := some 0 }
    let r := recElem 0 ew false false false
    let reads := stale fw (at_ 10 (withEntry er opened))
    let records : State :=
      let u := stale (.slotWrite 0 .data 0) (at_ 10 (withQueue [r] (withEntry ew opened)))
      { u with pres := { u.pres with orphans := [3] } }
    let header : State :=
      let u := stale (.headerWrite .a 0) (at_ 10 (setOp (.headerWrite .closeCommit false) (inState .closing)))
      { u with eng := { u.eng with hdrOutA := 1 } }
    let restore : State :=
      let u := stale (.restoreWrite 7 0) (at_ 10 (setOp (.restoreWait 3 0) (inState .rolling)))
      { u with eng := { u.eng with restoreOut := 1 } }
    (quiet (stale (.oldRead 1 0) (at_ 10 opened)) ∧ opened.eng.op = .none ∧ opened.pres.queue = [] ∧
        opened.table = []) ∧
      (quiet reads ∧ reads.eng.op = .none ∧ TableOk reads ∧ er ∈ reads.table ∧ fw.isWriteTo er.cell = true ∧
        staleWriteTo (reads.mport.freed 0) er.cell = false ∧
        reads.table.find? (fun x => x.cell == er.cell) = some er ∧ er.kind = .read) ∧
      (quiet records ∧ records.pres.queue.find? (fun x => x.index == r.index) = some r ∧
        recordSlot 0 .header ∉ records.pres.orphans.erase (recordSlot 0 .data) ∧
        recordSlot 0 .data ∉ records.pres.orphans.erase (recordSlot 0 .data)) ∧
      (quiet header ∧ header.eng.nextCopy = .a ∧ header.eng.hdrOutA - 1 = 0) ∧
      (quiet restore ∧ restore.eng.restoreOut - 1 = 0 ∧ staleForwardTo (restore.mport.freed 0) 3 = false) := by
  decide +kernel

/-! ### Witnesses: rules, events, registers -/

theorem witness_WatchConditionsAndModes :
    let r (m : BitVec 2) (c : BitVec 192) : WatchRule := { rule 0 0 .armed with mode := m, conds := c }
    (r 0 1).compare 0 1 = .matched none ∧ (r 1 1).compare 0 1 = .matched none ∧
      (r 2 (3#192 <<< 189)).compare 0 (1#64 <<< 63) = .matched (some 63) ∧ (r 3 1).compare 0 1 = .noMatch ∧
      (r 2 (3#192 <<< 189)).compare 0 0 = .noMatch ∧
      ∀ b : Fin 64, considered ((r 1 0).conds.extractLsb' (3 * b.val) 3) = false := by decide +kernel

theorem witness_WatchRuleFires :
    let s (st : RuleState) (o : Bool) : State := withRule { rule 0 0 st with overrun := o } opened
    let e := newEntry (wr 1 0) (s .armed false)
    let both : State := { s .armed false with rules := (s .armed false).rules.set 5 (rule 0 4 .armed) }
    e.watched = [2] ∧ (newEntry (wr 1 0) both).watched = 2 :: [5] ∧ (s .armed false).rules[2].enable = true ∧
      (s .armed false).rules[2].touchedBy e.cell e.strobes = true ∧
      (s .armed false).rules[2].compare (wordOf 0 0) (wordOf (mergeCell 0 e.data e.strobes) 0) = .matched none ∧
      (s .fired false).rules[2].state = .fired ∧ (s .fired true).rules[2].overrun = true ∧
      (s .armed false).rules[2].compare (wordOf 1 0) (wordOf (mergeCell 1 e.data e.strobes) 0) = .noMatch := by
  decide +kernel

/-- R119: two rules of one write fire in ascending number, the lower notice first. -/
theorem test_rules_in_order :
    let s : State := { opened with rules := (opened.rules.set 2 (rule 0 0 .armed)).set 5 (rule 0 4 .armed) }
    let j := evaluate (newEntry (wr 1 0) s) 0 s
    j.2 = [(0, 2), (4, 5)] ∧ j.1.ev.notices.map (fun n => (noticeView n.body).rule) = [some 2, some 5] := by
  decide +kernel

/-- The results of the clauses of WatchRuleFires that a run reaches last: the first overrun and the next. -/
theorem test_overruns :
    let s (o : Bool) : State := withRule { rule 0 2 .fired with overrun := o, hits := 4 } opened
    let e := newEntry (wr 1 0) (s false)
    ((evaluate e 0 (s false)).1.ev.notices.length = 1 ∧ (evaluate e 0 (s true)).1.ev.notices = []) ∧
      (evaluate e 0 (s true)).1.rules[2].hits = 5 ∧ (evaluate e 0 (s true)).2 = [] := by decide +kernel

theorem witness_MergeTakesTheStrongest :
    let asked : List Asked := [(4, 0), (3, 1), (2, 2), (1, 7)]
    asked.Pairwise (fun a b => a.2 < b.2) ∧ (∃ r, (1, r) ∈ asked) ∧
      (asked.take 3).Pairwise (fun a b => a.2 < b.2) ∧ (4, 0) ∈ asked.take 3 ∧
      (∀ r : RuleNo, (1, r) ∉ asked.take 3) ∧ (∀ r : RuleNo, (4, r) ∉ [(3, 1), (2, 2)]) := by decide +kernel

theorem witness_NoticesJoinOrAreLost :
    let s (n : Nat) : State := { opened with ev := { opened.ev with
      notices := List.replicate n { time := 0, epoch := 7, body := .powerChange true } } }
    Running (s 15) ∧ (s 15).ev.notices.length < 16 ∧ 16 ≤ (s 16).ev.notices.length := by decide +kernel

theorem witness_CurrentClassIsTheMostUrgent : Running opened ∧ readReg opened 0x05C = 0 := by decide +kernel

theorem witness_RegistersReadBack :
    (Running (inState .unrecovered) ∧ (inState .unrecovered).eng.state = .unrecovered ∧
        geometryBlocked (inState .unrecovered).mport = false) ∧
      opened.guards[15].valid = false ∧ opened.rules[7].enable = false := by decide +kernel

end Sys2Proof.Tests
end

