-- ==== Sys2Proof/Proofs/Guard.lean ====
section
/-! The guard table's two writes (chapter 1): what each stores and flags on an entry that was invalid and on one
that was valid, and the obligation about them. -/

namespace Sys2Proof.Machine

/-! ### State operations that change nothing -/

/-- A check that passes leaves CONFIG_ERROR as it was. -/
@[simp] theorem raiseConfigError_false (s : State) : raiseConfigError false s = s := by
  simp [raiseConfigError]

/-- An entry put back where it stands changes nothing. -/
@[simp] theorem putGuard_getElem_self (n : Fin 16) (s : State) : putGuard n s.guards[n] s = s := by
  simp [putGuard]

/-! ### Well-formedness -/

/-- MODE 3 is the one that names no class (R3, R189). -/
theorem modeClass_isSome_iff (m : BitVec 2) : (modeClass m).isSome = true ↔ m ≠ 3#2 := by
  revert m; decide

/-- R3, as arithmetic on the fields. -/
theorem GuardEntry.formed_iff (g : GuardEntry) :
    g.formed = true ↔
      1 ≤ g.count.toNat ∧ g.base.toNat + g.count.toNat ≤ 1073741824 ∧ g.mode ≠ 3#2 := by
  have hcells : Config.cellCount = 1073741824 := rfl
  simp only [GuardEntry.formed, Bool.and_eq_true, decide_eq_true_eq, modeClass_isSome_iff, and_assoc, ← hcells]

/-! ### A write of BASE and MODE -/

section
variable {g : GuardEntry} (v : W32)

theorem guardAfterA_of_invalid (h : g.valid = false) :
    guardAfterA g v = { g with base := v.extractLsb' 0 30, mode := v.extractLsb' 30 2 } :=
  if_neg (by simp [h])

theorem guardAfterA_of_valid (h : g.valid = true) : guardAfterA g v = g := if_pos h

theorem guardAError_of_invalid (h : g.valid = false) : guardAError g v = false := by
  simp [guardAError, h]

theorem guardAError_of_valid (h : g.valid = true) :
    guardAError g v = decide (v.extractLsb' 0 30 ≠ g.base ∨ v.extractLsb' 30 2 ≠ g.mode) := by
  simp [guardAError, h, guardBase, guardMode, bne, Bool.beq_eq_decide_eq]

/-! ### A write of COUNT and VALID -/

theorem guardAfterB_of_invalid (h : g.valid = false) :
    guardAfterB g v = { g with count := v.extractLsb' 0 31, valid := v.getLsbD 31 } :=
  if_neg (by simp [h])

theorem guardAfterB_of_valid (h : g.valid = true) :
    guardAfterB g v = { g with valid := v.getLsbD 31 } := if_pos h

/-- R4: the test reads the COUNT just carried with the BASE and MODE stored before. -/
theorem guardBError_of_invalid (h : g.valid = false) :
    guardBError g v = decide (v.getLsbD 31 = true ∧
      ¬ (1 ≤ (v.extractLsb' 0 31).toNat ∧ g.base.toNat + (v.extractLsb' 0 31).toNat ≤ 1073741824 ∧
        g.mode ≠ 3#2)) := by
  have hformed := GuardEntry.formed_iff (guardAfterB g v)
  simp only [guardAfterB_of_invalid v h] at hformed
  rw [Bool.eq_iff_iff, decide_eq_true_eq, ← hformed]
  simp [guardBError, h, guardValid, guardAfterB_of_invalid v h]

theorem guardBError_of_valid (h : g.valid = true) :
    guardBError g v = decide (v.extractLsb' 0 31 ≠ g.count) := by
  simp [guardBError, h, guardCount, bne, Bool.beq_eq_decide_eq]

end

/-! ### The two commands while the part runs -/

section
variable {s : State} (hr : Running s) (n : Fin 16) (v : W32)
include hr

theorem exec_guardAWrite :
    exec (.guardAWrite n v) s = .next (raiseConfigError (guardAError s.guards[n] v)
      (putGuard n (guardAfterA s.guards[n] v) s)) :=
  unlessHeld_running hr _

theorem exec_guardBWrite :
    exec (.guardBWrite n v) s = .next (raiseConfigError (guardBError s.guards[n] v)
      (putGuard n (guardAfterB s.guards[n] v) s)) :=
  unlessHeld_running hr _

end

/-- Settles O10, by VALID as it stood before each of the two writes (R5). -/
theorem guardWrites : Obligations.GuardWrites := by
  intro n v s hr
  rw [exec_guardAWrite hr, exec_guardBWrite hr]
  refine ⟨fun h => ?baseInvalid, fun h => ?baseValid, fun h => ?countInvalid, fun h => ?countValid⟩
  case baseInvalid =>
    rw [guardAError_of_invalid v h, guardAfterA_of_invalid v h, raiseConfigError_false]
    rfl
  case baseValid =>
    rw [guardAError_of_valid v h, guardAfterA_of_valid v h, putGuard_getElem_self]
    rfl
  case countInvalid =>
    rw [guardBError_of_invalid v h, guardAfterB_of_invalid v h]
    rfl
  case countValid =>
    rw [guardBError_of_valid v h, guardAfterB_of_valid v h]
    rfl

end Sys2Proof.Machine
end

