-- ==== Sys2Proof/Proofs/Commands.lean ====
section
/-! The management commands against the acceptance table (R85, R86): how the part answers each of them, said once,
with the outcome it records; and EXTEND (R101). -/

namespace Sys2Proof.Machine

/-! ### What the effect of a command leaves of the management port -/

section
variable (s : State)

theorem port_of_untouched {s t : State} (h : t.untouched = s.untouched) : t.port = s.port :=
  congrArg Untouched.port h

@[simp] theorem settle_port : (settle s).port = s.port := port_of_untouched (settle_untouched s)

@[simp] theorem enterState_port (n : EngState) : (enterState n s).port = s.port :=
  (enterState_tableOnly n s).port

@[simp] theorem enqueue_port (op : MemOp) (a : Addr) : (enqueue op a s).port = s.port :=
  port_of_untouched (enqueue_untouched op a s)

@[simp] theorem beginRestore_port (k : Nat) : (beginRestore k s).port = s.port :=
  port_of_untouched (beginRestore_untouched k s)

@[simp] theorem beginScan_port (k : Nat) : (beginScan k s).port = s.port := by simp [beginScan]

@[simp] theorem closingNumber_port (k : CloseKind) : (closingNumber k s).port = s.port := by
  cases k <;> rfl

@[simp] theorem takeOpen_port : (takeOpen s).port = s.port := by simp [takeOpen]

@[simp] theorem takeClose_port (k : CloseKind) : (takeClose k s).port = s.port := by simp [takeClose]

@[simp] theorem retryClose_port (k : CloseKind) : (retryClose k s).port = s.port := by simp [retryClose]

@[simp] theorem takeAbort_port : (takeAbort s).port = s.port := by simp [takeAbort]

@[simp] theorem abortFaulted_port : (abortFaulted s).port = s.port := by simp [abortFaulted]

@[simp] theorem beginHeaderReads_port (why : HdrReader) (w : Walk) :
    (beginHeaderReads why w s).port = s.port := by simp [beginHeaderReads]

@[simp] theorem takeFormat_port : (takeFormat s).port = s.port := by simp [takeFormat]

@[simp] theorem discardWalk_port : (discardWalk s).port = s.port := by simp [discardWalk, beginFinal]

@[simp] theorem resumeWalk_port : (resumeWalk s).port = s.port := by
  unfold resumeWalk
  dsimp only
  split <;> simp

@[simp] theorem softReset_port : (softReset s).port = s.port := rfl

end

/-! ### Acceptance as the commands test it -/

section
variable (s : State)

theorem refusedHere_eq (st : EngState) : refusedHere st = .refused (busyOrState st) := by
  cases st <;> rfl

/-- RECOVER and FORMAT (R86). -/
theorem recoverOutcome_eq : recoverOutcome s =
    if configured s then .accepted
    else if unconfigured s then .refused .unconfigured
    else .refused (busyOrState s.eng.state) := by
  by_cases hs : s.eng.state = .unrecovered <;> cases hg : geometryOk s.cfg <;>
    simp [recoverOutcome, configured, unconfigured, refusedHere_eq, hs, hg]

theorem acceptance_discardCmd : acceptance .discardCmd s =
    if configured s then .accepted
    else if unconfigured s then .refused .unconfigured
    else if s.eng.state = .stalled then .accepted
    else .refused .state := by
  by_cases hs : s.eng.state = .unrecovered <;> cases hg : geometryOk s.cfg <;>
    simp [acceptance, configured, unconfigured, hs, hg]

theorem commandCode_undefinedCmd (u : UndefCode) : commandCode (.undefinedCmd u) = some (undefCodeBits u) := by
  cases u <;> rfl

end

/-! ### The answer to a command -/

/-- How the part answers a COMMAND write: refused, which changes nothing but CMD_RESULT; EMPTY, likewise; or
taken, and then CMD_RESULT is all that moves of the management port (R85, R86, R186). -/
inductive CommandAnswer (s : State) (code : BitVec 4) : CmdOutcome → Host.Outcome State Fault Refusal → Prop
  | refused (why : RefuseReason) : CommandAnswer s code (.refused why) (.next (refuseCmd code why s))
  | empty : CommandAnswer s code .empty (.next (recordResult code .empty s))
  | taken {t : State} (hport : t.port = (recordResult code .accepted s).port) :
      CommandAnswer s code .accepted (.next t)

section
variable {s : State} {code : BitVec 4}

/-- Whatever the answer, CMD_RESULT records the code and the outcome. -/
theorem CommandAnswer.port_eq {o : CmdOutcome} {out : Host.Outcome State Fault Refusal}
    (h : CommandAnswer s code o out) :
    ∃ t, out = .next t ∧ t.port = { s.port with cmdResult := { code := code, outcome := o } } := by
  cases h with
  | refused why => exact ⟨_, rfl, rfl⟩
  | empty => exact ⟨_, rfl, rfl⟩
  | taken hport => exact ⟨_, rfl, hport⟩

/-- A command whose effect leaves the management port alone. -/
theorem CommandAnswer.of_takeCmd {effect : State → State} (h : ∀ s, (effect s).port = s.port) :
    CommandAnswer s code .accepted (.next (takeCmd code effect s)) :=
  .taken (by rw [takeCmd, settle_port, h])

/-- The refusal that COMMIT and its like give: BUSY while an operation is in progress, else STATE. -/
theorem CommandAnswer.of_refusedHere :
    CommandAnswer s code (refusedHere s.eng.state) (.next (refuseCmd code (busyOrState s.eng.state) s)) :=
  refusedHere_eq s.eng.state ▸ .refused _

/-- The shape that RECOVER and FORMAT share. -/
theorem CommandAnswer.of_recoverOutcome {effect : State → State} (h : ∀ s, (effect s).port = s.port) :
    CommandAnswer s code (recoverOutcome s)
      (if configured s then .next (takeCmd code effect s)
      else if unconfigured s then .next (refuseCmd code .unconfigured s)
      else .next (refuseCmd code (busyOrState s.eng.state) s)) := by
  rw [recoverOutcome_eq]
  split_ifs
  · exact .of_takeCmd h
  · exact .refused .unconfigured
  · exact .refused _

variable (hr : Running s)
include hr

/-- The meaning of a command while the part runs. -/
theorem CommandAnswer.of_unlessHeld {o : CmdOutcome} {out : Host.Outcome State Fault Refusal}
    (h : CommandAnswer s code o out) : CommandAnswer s code o (unlessHeld s out) :=
  (unlessHeld_running hr out).symm ▸ h

theorem exec_openCmd_answer : CommandAnswer s 1 (acceptance .openCmd s) (exec .openCmd s) := by
  refine .of_unlessHeld hr ?_
  simp only [acceptance, ← Option.isSome_iff_ne_none]
  split
  · exact .of_takeCmd takeOpen_port
  · exact .of_refusedHere

theorem exec_commitCmd_answer : CommandAnswer s 2 (acceptance .commitCmd s) (exec .commitCmd s) := by
  refine .of_unlessHeld hr ?_
  split
  next hs => simpa [acceptance, hs] using .of_takeCmd (takeClose_port · .commit)
  next hs => simpa [acceptance, hs] using .of_takeCmd (retryClose_port · .commit)
  next ho hf => simpa only [acceptance, if_neg (not_or.mpr ⟨ho, hf⟩)] using .of_refusedHere

theorem exec_commitOpenCmd_answer :
    CommandAnswer s 3 (acceptance .commitOpenCmd s) (exec .commitOpenCmd s) := by
  refine .of_unlessHeld hr ?_
  split
  next n hs hn => simpa [acceptance, hs, hn] using .of_takeCmd (takeClose_port · .commitOpen)
  next n hs hn => simpa [acceptance, hs, hn] using .of_takeCmd (retryClose_port · .commitOpen)
  next ho hf =>
    have hnot : ¬ ((s.eng.state = .opened ∨ s.eng.state = .faulted) ∧ s.eng.nextEpoch ≠ none) := by
      rintro ⟨hs, hn⟩
      obtain ⟨n, hn⟩ := Option.ne_none_iff_exists'.mp hn
      exact hs.elim (ho n · hn) (hf n · hn)
    simpa only [acceptance, if_neg hnot] using .of_refusedHere

theorem exec_abortCmd_answer : CommandAnswer s 4 (acceptance .abortCmd s) (exec .abortCmd s) := by
  refine .of_unlessHeld hr ?_
  split
  next hs => simpa [acceptance, hs] using .of_takeCmd takeAbort_port
  next hs => simpa [acceptance, hs] using .of_takeCmd abortFaulted_port
  next ho hf => simpa only [acceptance, if_neg (not_or.mpr ⟨ho, hf⟩)] using .of_refusedHere

theorem exec_extendCmd : exec .extendCmd s =
    if s.eng.state = .opened then .next (loadDeadline (recordResult 5 .accepted s))
    else .next (refuseCmd 5 .state s) :=
  unlessHeld_running hr _

theorem exec_extendCmd_answer : CommandAnswer s 5 (acceptance .extendCmd s) (exec .extendCmd s) := by
  rw [exec_extendCmd hr, acceptance]
  split
  · exact .taken rfl
  · exact .refused .state

theorem exec_recoverCmd_answer : CommandAnswer s 6 (acceptance .recoverCmd s) (exec .recoverCmd s) :=
  .of_unlessHeld hr (.of_recoverOutcome (beginHeaderReads_port · .recover recoveryWalk))

theorem exec_formatCmd_answer : CommandAnswer s 7 (acceptance .formatCmd s) (exec .formatCmd s) :=
  .of_unlessHeld hr (.of_recoverOutcome takeFormat_port)

theorem exec_discardCmd_answer : CommandAnswer s 8 (acceptance .discardCmd s) (exec .discardCmd s) := by
  refine .of_unlessHeld hr ?_
  rw [acceptance_discardCmd]
  split_ifs
  · exact .of_takeCmd (beginHeaderReads_port · .discard Walk.absent)
  · exact .refused .unconfigured
  · exact .of_takeCmd discardWalk_port
  · exact .refused .state

theorem exec_resumeCmd_answer : CommandAnswer s 9 (acceptance .resumeCmd s) (exec .resumeCmd s) := by
  refine .of_unlessHeld hr ?_
  rw [acceptance]
  split
  · exact .of_takeCmd resumeWalk_port
  · exact .refused .state

theorem exec_rearmCmd_answer : CommandAnswer s 10 (acceptance .rearmCmd s) (exec .rearmCmd s) := by
  refine .of_unlessHeld hr ?_
  simp only [acceptance, ← Nat.lt_succ_iff]
  split
  · exact .taken rfl
  · exact .refused .state

theorem exec_noticePopCmd_answer :
    CommandAnswer s 11 (acceptance .noticePopCmd s) (exec .noticePopCmd s) := by
  refine .of_unlessHeld hr ?_
  split
  next hq => simpa [acceptance, hq] using .empty
  next n rest hq => simpa [acceptance, hq] using .taken rfl

theorem exec_softResetCmd_answer :
    CommandAnswer s 12 (acceptance .softResetCmd s) (exec .softResetCmd s) :=
  .of_unlessHeld hr (.of_takeCmd softReset_port)

theorem exec_undefinedCmd_answer (u : UndefCode) :
    CommandAnswer s (undefCodeBits u) (acceptance (.undefinedCmd u) s) (exec (.undefinedCmd u) s) :=
  .of_unlessHeld hr (.refused .state)

/-- Every command of COMMAND is answered with the outcome the table of R86 gives it. -/
theorem exec_command_answer {c : Instr} (hc : commandCode c = some code) :
    CommandAnswer s code (acceptance c s) (exec c s) := by
  cases c with
  | openCmd => cases hc; exact exec_openCmd_answer hr
  | commitCmd => cases hc; exact exec_commitCmd_answer hr
  | commitOpenCmd => cases hc; exact exec_commitOpenCmd_answer hr
  | abortCmd => cases hc; exact exec_abortCmd_answer hr
  | extendCmd => cases hc; exact exec_extendCmd_answer hr
  | recoverCmd => cases hc; exact exec_recoverCmd_answer hr
  | formatCmd => cases hc; exact exec_formatCmd_answer hr
  | discardCmd => cases hc; exact exec_discardCmd_answer hr
  | resumeCmd => cases hc; exact exec_resumeCmd_answer hr
  | rearmCmd => cases hc; exact exec_rearmCmd_answer hr
  | noticePopCmd => cases hc; exact exec_noticePopCmd_answer hr
  | softResetCmd => cases hc; exact exec_softResetCmd_answer hr
  | undefinedCmd u =>
    obtain rfl := Option.some.inj ((commandCode_undefinedCmd u).symm.trans hc)
    exact exec_undefinedCmd_answer hr u
  | _ => cases hc

end

/-! ### The obligations -/

/-- Settles O17: each command's answer carries the outcome of the table, and every answer records it. -/
theorem commandAcceptance : Obligations.CommandAcceptance :=
  fun _ _ _ hr hc => (exec_command_answer hr hc).port_eq

/-- Settles O21, by whether the state is OPEN. -/
theorem extendReloadsTheDeadline : Obligations.ExtendReloadsTheDeadline := by
  intro s hr
  rw [exec_extendCmd hr]
  refine ⟨fun ho => ?taken, fun hn => ?refused⟩
  case taken =>
    rw [if_pos ho]
    simp [loadDeadline, recordResult, setEng, bne, Bool.beq_eq_decide_eq]
  case refused =>
    rw [if_neg hn]
    rfl

end Sys2Proof.Machine
end

