-- ==== Sys2Proof/Proofs/WatchRules.lean ====
section
/-! Watch rules (chapter 6): when a rule matches, an equation of `WatchRule.compare` for each MODE (R117, R118), and
what REARM does to the rule that ARG names (R123). -/

namespace Sys2Proof.Machine

/-! ### One bit against its condition -/

/-- A bit that takes no part satisfies nothing. -/
theorem considered_of_satisfied {code : BitVec 3} {old new : Bool} (h : satisfied code old new = true) :
    considered code = true := by
  revert code old new; decide

theorem WatchRule.considered_of_bitSatisfied {r : WatchRule} {old new : W64} {b : Nat}
    (h : r.bitSatisfied old new b = true) : considered (condCode r.conds b) = true :=
  considered_of_satisfied h

/-! ### The match in each MODE -/

section
variable {r : WatchRule} (old new : W64)

/-- R118, MODE ALL. -/
theorem WatchRule.compare_of_all (hm : r.mode = 0) : r.compare old new =
    if (∃ b : Fin 64, considered (condCode r.conds b) = true) ∧
        ∀ b : Fin 64, considered (condCode r.conds b) = true → r.bitSatisfied old new b = true
    then .matched none else .noMatch := by
  simp [WatchRule.compare, hm, Fin.exists_iff, Fin.forall_iff, or_iff_not_imp_left]

/-- R118, MODE ANY. -/
theorem WatchRule.compare_of_any (hm : r.mode = 1) : r.compare old new =
    if ∃ b : Fin 64, r.bitSatisfied old new b = true then .matched none else .noMatch := by
  simp [WatchRule.compare, hm, Fin.exists_iff]

/-- R118, MODE FIRST. -/
theorem WatchRule.compare_of_first (hm : r.mode = 2) : r.compare old new =
    (Fin.find? fun b : Fin 64 => r.bitSatisfied old new b).elim .noMatch (.matched ∘ some) := by
  simp only [WatchRule.compare, hm, Fin.find?_eq_find?_finRange]
  cases List.find? (fun b : Fin 64 => r.bitSatisfied old new b) (List.finRange 64) <;> rfl

/-- R118, the code that names no mode. -/
theorem WatchRule.compare_of_undefined (hm : r.mode = 3) : r.compare old new = .noMatch := by
  simp [WatchRule.compare, hm]

/-- The four codes of MODE (R189). -/
theorem mode_cases (m : BitVec 2) : m = 0 ∨ m = 1 ∨ m = 2 ∨ m = 3 := by
  revert m; decide

variable {old new}

/-- In MODE FIRST a match reports the lowest bit that satisfies its condition. -/
theorem WatchRule.compare_of_first_eq_some_iff (hm : r.mode = 2) {b : Fin 64} :
    r.compare old new = .matched (some b) ↔
      r.bitSatisfied old new b = true ∧ ∀ c < b, r.bitSatisfied old new c = false := by
  rw [← Fin.find?_eq_some_iff (p := fun b : Fin 64 => r.bitSatisfied old new b),
    r.compare_of_first old new hm]
  cases Fin.find? (fun b : Fin 64 => r.bitSatisfied old new b) <;> simp

theorem WatchRule.compare_of_first_ne_none (hm : r.mode = 2) : r.compare old new ≠ .matched none := by
  rw [r.compare_of_first old new hm]
  cases Fin.find? (fun b : Fin 64 => r.bitSatisfied old new b) <;> simp

/-- R118: a rule with every bit IGNORE never matches, whatever its MODE. -/
theorem WatchRule.compare_of_none_considered
    (h : ∀ b : Fin 64, considered (condCode r.conds b) = false) : r.compare old new = .noMatch := by
  have hsat (b : Fin 64) : r.bitSatisfied old new b = false := by
    rw [Bool.eq_false_iff]
    exact fun hs => by simpa [h b] using considered_of_bitSatisfied hs
  rcases mode_cases r.mode with hm | hm | hm | hm
  · simp [r.compare_of_all old new hm, h]
  · simp [r.compare_of_any old new hm, hsat]
  · rw [r.compare_of_first old new hm, Fin.find?_eq_none_iff.mpr (by simpa using hsat)]
    rfl
  · exact r.compare_of_undefined old new hm

/-- Only MODE FIRST reports a bit. -/
theorem WatchRule.mode_eq_of_compare_eq_some {b : Fin 64}
    (h : r.compare old new = .matched (some b)) : r.mode = 2 := by
  rcases mode_cases r.mode with hm | hm | hm | hm
  · rw [r.compare_of_all old new hm] at h
    split at h <;> cases h
  · rw [r.compare_of_any old new hm] at h
    split at h <;> cases h
  · exact hm
  · rw [r.compare_of_undefined old new hm] at h
    cases h

end

/-! ### REARM -/

/-- A rule put back where it stands changes nothing. -/
@[simp] theorem putRule_getElem_self (n : RuleNo) (s : State) : putRule n s.rules[n] s = s := by
  simp [putRule]

theorem rearmed_of_enabled {r : WatchRule} (h : r.enable = true) :
    rearmed r = { r with state := .armed, overrun := false } := if_pos h

theorem rearmed_of_disabled {r : WatchRule} (h : r.enable = false) : rearmed r = r :=
  if_neg (by simp [h])

section
variable {s : State} (hr : Running s)
include hr

theorem exec_rearmCmd_of_names_rule {n : RuleNo} (hn : s.port.arg.toNat = n.val) :
    exec .rearmCmd s = .next (putRule n (rearmed s.rules[n]) (recordResult 10 .accepted s)) := by
  obtain ⟨k, hk⟩ := n
  obtain rfl : s.port.arg.toNat = k := hn
  exact (unlessHeld_running hr _).trans (dif_pos _)

theorem exec_rearmCmd_of_names_none (h : 7 < s.port.arg.toNat) :
    exec .rearmCmd s = .next (refuseCmd 10 .state s) :=
  (unlessHeld_running hr _).trans (dif_neg (Nat.not_lt.mpr h))

end

/-! ### The obligations -/

/-- Settles O24, by whether ARG names a rule and whether that rule is enabled. -/
theorem rearmArmsTheRule : Obligations.RearmArmsTheRule := by
  intro s hr
  refine ⟨fun n hn he => ?enabled, fun n hn hd => ?disabled, fun h => ?refused⟩
  case enabled =>
    rw [exec_rearmCmd_of_names_rule hr hn, rearmed_of_enabled he]
    rfl
  case disabled =>
    rw [exec_rearmCmd_of_names_rule hr hn, rearmed_of_disabled hd]
    exact congrArg _ (putRule_getElem_self n (recordResult 10 .accepted s))
  case refused => exact exec_rearmCmd_of_names_none hr h

/-- Settles O55: each code on its own, then each MODE by its equation of `WatchRule.compare`. -/
theorem watchConditionsAndModes : Obligations.WatchConditionsAndModes := by
  refine ⟨by decide, fun r old new => ?_⟩
  have hcons {b : Fin 64} (h : r.bitSatisfied old new b = true) : considered (condCode r.conds b) = true :=
    WatchRule.considered_of_bitSatisfied h
  have hne : Match.matched none ≠ .noMatch := nofun
  refine ⟨fun hm => ?all, fun hm => ?any, fun hm b => ?first, WatchRule.compare_of_first_ne_none,
    r.compare_of_undefined old new, WatchRule.compare_of_none_considered,
    fun _ => WatchRule.mode_eq_of_compare_eq_some⟩
  case all =>
    rw [r.compare_of_all old new hm]
    exact hne.ite_eq_left_iff
  case any =>
    rw [r.compare_of_any old new hm]
    exact hne.ite_eq_left_iff.trans (exists_congr fun _ => (and_iff_right_of_imp hcons).symm)
  case first =>
    rw [WatchRule.compare_of_first_eq_some_iff hm]
    exact (and_iff_right_of_imp fun ⟨hsat, _⟩ => hcons hsat).symm

end Sys2Proof.Machine
end

