-- ==== Sys2Proof/Proofs/Events.lean ====
section
/-! The event unit's summary of its classes (chapter 10): which class CURRENT_CLASS names (R177) and when EVT is
asserted (R176). -/

namespace Sys2Proof.Machine

/-! ### The classes that call for service, and the most urgent of them -/

/-- The class in bit position i is pending with LEVEL 1 to 3 (R176). -/
def EventUnit.Calls (ev : EventUnit) (i : Fin 11) : Prop :=
  ev.flags.getLsbD i.val = true ∧ 1 ≤ (levelAt ev i.val).toNat

/-- The class in bit position i is pending at this LEVEL. -/
def EventUnit.PendingAt (ev : EventUnit) (level : BitVec 2) (i : Fin 11) : Prop :=
  ev.flags.getLsbD i.val = true ∧ levelAt ev i.val = level

/-- No class calls at a LEVEL above n. -/
def EventUnit.CallsUpTo (ev : EventUnit) (n : Nat) : Prop :=
  ∀ i, ev.Calls i → (levelAt ev i.val).toNat ≤ n

/-- R177: class c calls, none calls at a higher LEVEL, and none at the same LEVEL comes before it. -/
def EventUnit.MostUrgent (ev : EventUnit) (c : Fin 11) : Prop :=
  ev.Calls c ∧ ∀ i, ev.Calls i → (levelAt ev i.val).toNat < (levelAt ev c.val).toNat ∨
    ((levelAt ev i.val).toNat = (levelAt ev c.val).toNat ∧ c ≤ i)

section
variable {ev : EventUnit}

/-- Two bits hold no LEVEL above 3. -/
theorem callsUpTo_three : ev.CallsUpTo 3 := fun i _ => Nat.le_of_lt_succ (levelAt ev i.val).isLt

theorem callsUpTo_zero_iff : ev.CallsUpTo 0 ↔ ∀ i, ¬ ev.Calls i :=
  ⟨fun h i hi => absurd (h i hi) (Nat.not_le.mpr hi.2), fun h i hi => absurd hi (h i)⟩

theorem EventUnit.MostUrgent.unique {c d : Fin 11} (hc : ev.MostUrgent c) (hd : ev.MostUrgent d) : c = d := by
  obtain ⟨hcalls, hcmax⟩ := hc
  obtain ⟨hdalls, hdmax⟩ := hd
  have hcd := hcmax d hdalls
  have hdc := hdmax c hcalls
  omega

/-! ### The search at one LEVEL -/

theorem firstPendingAt_eq_some {level : BitVec 2} {k : Nat} (h : firstPendingAt ev level = some k) :
    ∃ c : Fin 11, c.val = k ∧ ev.PendingAt level c ∧ ∀ i < c, ¬ ev.PendingAt level i := by
  obtain ⟨hk, hmem, hfirst⟩ := List.find?_range_eq_some.mp h
  refine ⟨⟨k, List.mem_range.mp hmem⟩, rfl, ?found, fun i hi => ?earlier⟩
  case found => simpa [EventUnit.PendingAt] using hk
  case earlier => simpa [EventUnit.PendingAt, imp_iff_not_or] using hfirst i.val hi

theorem firstPendingAt_eq_none {level : BitVec 2} (h : firstPendingAt ev level = none) (i : Fin 11) :
    ¬ ev.PendingAt level i := by
  simpa [EventUnit.PendingAt, imp_iff_not_or] using List.find?_range_eq_none.mp h i.val i.isLt

/-- A search at the highest LEVEL that can call finds the most urgent class. -/
theorem mostUrgent_of_firstPendingAt {level : BitVec 2} {n k : Nat} (hlevel : level.toNat = n + 1)
    (hmax : ev.CallsUpTo (n + 1)) (h : firstPendingAt ev level = some k) :
    ∃ c : Fin 11, k + 1 = c.val + 1 ∧ ev.MostUrgent c := by
  obtain ⟨c, rfl, ⟨hflag, rfl⟩, hfirst⟩ := firstPendingAt_eq_some h
  refine ⟨c, rfl, ⟨hflag, by omega⟩, fun i hi => ?_⟩
  obtain hlt | heq := (hlevel ▸ hmax i hi).lt_or_eq
  · exact .inl hlt
  · exact .inr ⟨heq, not_lt.mp fun hic => hfirst i hic ⟨hi.1, BitVec.eq_of_toNat_eq heq⟩⟩

/-- A search that finds nothing lowers the highest LEVEL that can call. -/
theorem callsUpTo_of_firstPendingAt_eq_none {level : BitVec 2} {n : Nat} (hlevel : level.toNat = n + 1)
    (hmax : ev.CallsUpTo (n + 1)) (h : firstPendingAt ev level = none) : ev.CallsUpTo n := by
  intro i hi
  have hne : (levelAt ev i.val).toNat ≠ n + 1 := fun heq =>
    firstPendingAt_eq_none h i ⟨hi.1, BitVec.eq_of_toNat_eq (heq.trans hlevel.symm)⟩
  exact Nat.le_of_lt_succ ((hmax i hi).lt_of_ne hne)

end

/-! ### CURRENT_CLASS and EVT -/

section
variable (ev : EventUnit)

/-- CURRENT_CLASS is NONE while no class calls, and otherwise the number of the most urgent class. -/
theorem currentClass_cases :
    (currentClass ev = 0 ∧ ∀ i, ¬ ev.Calls i) ∨ ∃ c : Fin 11, currentClass ev = c.val + 1 ∧ ev.MostUrgent c := by
  unfold currentClass
  split
  next h3 => exact .inr (mostUrgent_of_firstPendingAt (n := 2) rfl callsUpTo_three h3)
  next h3 =>
    have upTo2 : ev.CallsUpTo 2 := callsUpTo_of_firstPendingAt_eq_none rfl callsUpTo_three h3
    split
    next h2 => exact .inr (mostUrgent_of_firstPendingAt (n := 1) rfl upTo2 h2)
    next h2 =>
      have upTo1 : ev.CallsUpTo 1 := callsUpTo_of_firstPendingAt_eq_none rfl upTo2 h2
      split
      next h1 => exact .inr (mostUrgent_of_firstPendingAt (n := 0) rfl upTo1 h1)
      next h1 =>
        have upTo0 : ev.CallsUpTo 0 := callsUpTo_of_firstPendingAt_eq_none rfl upTo1 h1
        exact .inl ⟨rfl, callsUpTo_zero_iff.mp upTo0⟩

theorem currentClass_eq_succ_iff (c : Fin 11) : currentClass ev = c.val + 1 ↔ ev.MostUrgent c := by
  obtain ⟨hzero, hnone⟩ | ⟨d, hd, hurgent⟩ := currentClass_cases ev
  · exact iff_of_false (by simp [hzero]) fun hc => hnone c hc.1
  · rw [hd, Nat.add_right_cancel_iff, Fin.val_inj]
    exact ⟨fun h => h ▸ hurgent, hurgent.unique⟩

theorem currentClass_eq_zero_iff : currentClass ev = 0 ↔ ∀ i, ¬ ev.Calls i := by
  obtain ⟨hzero, hnone⟩ | ⟨d, hd, hurgent⟩ := currentClass_cases ev
  · exact iff_of_true hzero hnone
  · exact iff_of_false (by simp [hd]) fun h => h d hurgent.1

theorem currentClass_le : currentClass ev ≤ 11 := by
  obtain ⟨hzero, _⟩ | ⟨d, hd, _⟩ := currentClass_cases ev <;> omega

end

/-- The register's four bits hold every value of CURRENT_CLASS, so it reads n just when the value is n (R191). -/
theorem readReg_currentClass_eq_iff {s : State} (hr : Running s) {n : Nat} (hn : n ≤ 11) :
    readReg s 0x05C = BitVec.ofNat 32 n ↔ currentClass s.ev = n := by
  have hle := currentClass_le s.ev
  have hread : readReg s 0x05C = BitVec.ofNat 32 (currentClass s.ev) :=
    calc readReg s 0x05C = field 0 4 (currentClass s.ev) := readReg_running hr 0x05C
      _ = (BitVec.ofNat 4 (currentClass s.ev)).setWidth 32 := BitVec.shiftLeft_zero _
      _ = BitVec.ofNat 32 (currentClass s.ev) := BitVec.setWidth_ofNat_of_le_of_lt (by decide) (by omega)
  rw [hread, ← BitVec.toNat_inj, BitVec.toNat_ofNat, BitVec.toNat_ofNat]
  omega

theorem evtLine_iff (s : State) : evtLine s = true ↔ s.cfg.eventEnable = true ∧ ∃ i, s.ev.Calls i := by
  have hlevel (i : Nat) : levelAt s.ev i ≠ 0#2 ↔ 1 ≤ (levelAt s.ev i).toNat := by
    rw [Nat.one_le_iff_ne_zero, ne_eq, ← BitVec.toNat_inj]
    rfl
  simp only [evtLine, EventUnit.Calls, Bool.and_eq_true, List.any_eq_true, List.mem_range, bne_iff_ne, hlevel,
    Fin.exists_iff, exists_prop]

/-! ### The obligation -/

/-- Settles O59: the register shows `currentClass`, whose value tells the most urgent class, and `evtLine` asks for
a class that calls. -/
theorem currentClassIsTheMostUrgent : Obligations.CurrentClassIsTheMostUrgent := by
  intro s c hr
  have hclass := (readReg_currentClass_eq_iff hr c.isLt).trans (currentClass_eq_succ_iff s.ev c)
  have hnone := (readReg_currentClass_eq_iff hr (Nat.zero_le 11)).trans (currentClass_eq_zero_iff s.ev)
  exact ⟨hclass, hnone, evtLine_iff s⟩

end Sys2Proof.Machine
end

