-- ==== Sys2Proof/Proofs/Hold.lean ====
section
/-! A cold reset is held or ended by COLD_RESET alone (R193): every operation of the part leaves the hold as it is. -/

namespace Sys2Proof.Machine

section
variable (s : State)

/-! ### The table and the preservation unit -/

@[simp] theorem report_resetHeld (c : EvClass) (b : NoticeBody) :
    (report c b s).host.resetHeld = s.host.resetHeld := (report_tableOnly c b s).held

@[simp] theorem giveTurn_resetHeld (c : CellIx) : (giveTurn c s).host.resetHeld = s.host.resetHeld :=
  (giveTurn_tableOnly c s).held

@[simp] theorem visit_resetHeld (p : State → Entry → Bool) : (visit p s).host.resetHeld = s.host.resetHeld :=
  (visit_tableOnly p s).held

@[simp] theorem afterFree_resetHeld (cs : List CellIx) (a b : Bool) :
    (afterFree cs a b s).host.resetHeld = s.host.resetHeld := (afterFree_tableOnly cs a b s).held

@[simp] theorem takeRequest_resetHeld (r : HostRequest) :
    (takeRequest r s).host.resetHeld = s.host.resetHeld := (takeRequest_tableOnly r s).held

@[simp] theorem expireHold_resetHeld (e : Entry) (c : HoldCause) :
    (expireHold e c s).host.resetHeld = s.host.resetHeld := (expireHold_tableOnly e c s).held

@[simp] theorem denyEntry_resetHeld (e : Entry) (w : DenyReason) :
    (denyEntry e w s).host.resetHeld = s.host.resetHeld := (denyEntry_tableOnly e w s).held

@[simp] theorem failEntry_resetHeld (e : Entry) (w : ForwardFault) :
    (failEntry e w s).host.resetHeld = s.host.resetHeld := (failEntry_tableOnly e w s).held

@[simp] theorem endEntry_resetHeld (e : Entry) (r : HostResult) :
    (endEntry e r s).host.resetHeld = s.host.resetHeld := rfl

@[simp] theorem enterState_resetHeld (n : EngState) :
    (enterState n s).host.resetHeld = s.host.resetHeld := (enterState_tableOnly n s).held

@[simp] theorem disown_host (p : MemOp → Bool) : (disown p s).host = s.host := rfl

@[simp] theorem evaluate_host (e : Entry) (d : CellData) : (evaluate e d s).1.host = s.host := by
  obtain ⟨rs, ev, h⟩ := (evaluate_watchOnly e d s).rest
  rw [h]

@[simp] theorem forward_host (e : Entry) : (forward e s).host = s.host := by simp [forward]

@[simp] theorem forwardInOrder_host (e : Entry) : (forwardInOrder e s).host = s.host := rfl

@[simp] theorem allocate_host (e : Entry) (d : CellData) : (allocate e d s).host = s.host := rfl

@[simp] theorem afterEnd_resetHeld (e : Entry) (b : State) :
    (afterEnd e b s).host.resetHeld = s.host.resetHeld := by
  unfold afterEnd; split <;> simp

@[simp] theorem oldArrives_resetHeld (e : Entry) (d : CellData) :
    (oldArrives e d s).host.resetHeld = s.host.resetHeld := by
  unfold oldArrives
  dsimp only
  split <;> (try split) <;> simp

@[simp] theorem makeDurable_host (r : RecElem) (rest : List RecElem) :
    (makeDurable r rest s).host = s.host := by
  unfold makeDurable
  dsimp only
  split <;> (try split) <;> rfl

@[simp] theorem durables_host (n : Nat) : (durables n s).host = s.host := by
  induction n generalizing s with
  | zero => rfl
  | succ n ih =>
    unfold durables
    split
    · rfl
    · split
      · rw [ih, makeDurable_host]
      · rfl

@[simp] theorem removeFrom_resetHeld (r : RecElem) (half : RecHalf) :
    (removeFrom r half s).host.resetHeld = s.host.resetHeld := by
  simp only [removeFrom, disown_host, report_resetHeld]
  exact (foldl_tableOnly failOwner failOwner_tableOnly _ _).held

@[simp] theorem slotAnswered_resetHeld (k : Nat) (half : RecHalf) (ok : Bool) :
    (slotAnswered k half ok s).host.resetHeld = s.host.resetHeld := by
  unfold slotAnswered
  split
  · rfl
  · split <;> simp [slotAcked, recordFault]

/-! ### The engine -/

@[simp] theorem enterIdle_resetHeld : (enterIdle s).host.resetHeld = s.host.resetHeld := by
  simp [enterIdle, idleValues]

@[simp] theorem enterOpen_resetHeld (why : EpochReport) :
    (enterOpen why s).host.resetHeld = s.host.resetHeld := by simp [enterOpen, openValues]

@[simp] theorem enterUnrecovered_resetHeld : (enterUnrecovered s).host.resetHeld = s.host.resetHeld := by
  simp [enterUnrecovered]

@[simp] theorem enterFaulted_resetHeld (why : HeaderFaultReason) :
    (enterFaulted why s).host.resetHeld = s.host.resetHeld := by simp [enterFaulted, reportHeaderFault]

@[simp] theorem closingNumber_host (k : CloseKind) : (closingNumber k s).host = s.host := by cases k <;> rfl

@[simp] theorem takeOpen_resetHeld : (takeOpen s).host.resetHeld = s.host.resetHeld := by simp [takeOpen]

@[simp] theorem takeClose_resetHeld (k : CloseKind) : (takeClose k s).host.resetHeld = s.host.resetHeld := by
  simp [takeClose]

@[simp] theorem retryClose_resetHeld (k : CloseKind) :
    (retryClose k s).host.resetHeld = s.host.resetHeld := by simp [retryClose]

@[simp] theorem takeAbort_resetHeld : (takeAbort s).host.resetHeld = s.host.resetHeld := by simp [takeAbort]

@[simp] theorem abortFaulted_resetHeld : (abortFaulted s).host.resetHeld = s.host.resetHeld := by
  simp [abortFaulted]

@[simp] theorem beginRestore_host (k : Nat) : (beginRestore k s).host = s.host := by simp [beginRestore]

@[simp] theorem beginScan_host (k : Nat) : (beginScan k s).host = s.host := by simp [beginScan]

@[simp] theorem beginFinal_host : (beginFinal s).host = s.host := rfl

@[simp] theorem walkBelow_host (n : Nat) : (walkBelow n s).host = s.host := by
  cases n <;> simp [walkBelow]

@[simp] theorem stallWalk_resetHeld (c : StallCause) (a : Addr) :
    (stallWalk c a s).host.resetHeld = s.host.resetHeld := by simp [stallWalk]

@[simp] theorem beginWalk_host : (beginWalk s).host = s.host := walkBelow_host s _

@[simp] theorem endScan_host (k : Nat) : (endScan k s).host = s.host := by simp [endScan]

@[simp] theorem recordRead_resetHeld (k : Nat) (h d : CellData) :
    (recordRead k h d s).host.resetHeld = s.host.resetHeld := by
  unfold recordRead
  dsimp only
  repeat' split
  all_goals simp

@[simp] theorem beginHeaderReads_resetHeld (why : HdrReader) (w : Walk) :
    (beginHeaderReads why w s).host.resetHeld = s.host.resetHeld := by simp [beginHeaderReads]

@[simp] theorem takeFormat_resetHeld : (takeFormat s).host.resetHeld = s.host.resetHeld := by
  simp [takeFormat]

@[simp] theorem discardWalk_resetHeld : (discardWalk s).host.resetHeld = s.host.resetHeld := by
  simp [discardWalk]

@[simp] theorem resumeWalk_resetHeld : (resumeWalk s).host.resetHeld = s.host.resetHeld := by
  unfold resumeWalk
  dsimp only
  split <;> simp

@[simp] theorem takeAction_resetHeld (e : Entry) (a : EpochAction) (r : RuleNo) :
    (takeAction e a r s).host.resetHeld = s.host.resetHeld := by
  unfold takeAction
  repeat' split
  all_goals simp [dropAction]

@[simp] theorem deadlineExpires_resetHeld : (deadlineExpires s).host.resetHeld = s.host.resetHeld := by
  unfold deadlineExpires
  dsimp only
  split <;> simp

/-! ### Results of header writes, header reads and record reads -/

@[simp] theorem headerOk_resetHeld (why : HdrPurpose) :
    (headerOk why s).host.resetHeld = s.host.resetHeld := by cases why <;> simp [headerOk]

@[simp] theorem headerFailed_resetHeld (why : HdrPurpose) :
    (headerFailed why s).host.resetHeld = s.host.resetHeld := by
  cases why <;> simp [headerFailed, failOpening, reportHeaderFault]

@[simp] theorem selectHeader_resetHeld (why : HdrReader) (a b : CellData) :
    (selectHeader why a b s).host.resetHeld = s.host.resetHeld := by
  unfold selectHeader
  dsimp only
  repeat' split
  all_goals simp [adopt]

@[simp] theorem headerReadOk_resetHeld (c : Copy) (d : CellData) :
    (headerReadOk c d s).host.resetHeld = s.host.resetHeld := by
  unfold headerReadOk
  dsimp only
  repeat' split
  all_goals simp

@[simp] theorem recordReadOk_resetHeld (k : Nat) (half : RecHalf) (d : CellData) :
    (recordReadOk k half d s).host.resetHeld = s.host.resetHeld := by
  unfold recordReadOk
  dsimp only
  repeat' split
  all_goals simp

/-! ### The memory-side port -/

@[simp] theorem deliver_resetHeld (op : MemOp) (r : Answer) :
    (deliver op r s).host.resetHeld = s.host.resetHeld := by
  cases op <;> simp only [deliver, readAnswered, writeAnswered, oldReadAnswered, headerReadAnswered,
    headerAnswered, recordReadAnswered, restoreAnswered, slotAnswered_resetHeld]
  all_goals repeat' split
  all_goals simp [failOldRead, headerReadFailed, restored]

@[simp] theorem deliverWanted_resetHeld (lr : LinkRec) (r : Answer) :
    (deliverWanted lr r s).host.resetHeld = s.host.resetHeld := by
  unfold deliverWanted; split <;> simp

@[simp] theorem leave_host (op : MemOp) : (leave op s).host = s.host := by cases op <;> rfl

@[simp] theorem wakeCell_resetHeld (op : MemOp) : (wakeCell op s).host.resetHeld = s.host.resetHeld := by
  cases op <;> simp [wakeCell]

@[simp] theorem settle_resetHeld : (settle s).host.resetHeld = s.host.resetHeld :=
  congrArg Untouched.resetHeld (settle_untouched s)

@[simp] theorem memoryAnswer_resetHeld (i : LinkNo) (r : Answer) :
    (memoryAnswer i r s).host.resetHeld = s.host.resetHeld := by
  unfold memoryAnswer
  split <;> simp [answerBusy, releaseStale]

@[simp] theorem timeoutBusy_resetHeld (i : LinkNo) (lr : LinkRec) :
    (timeoutBusy i lr s).host.resetHeld = s.host.resetHeld := by simp [timeoutBusy]

@[simp] theorem releaseStale_resetHeld (i : LinkNo) (lr : LinkRec) :
    (releaseStale i lr s).host.resetHeld = s.host.resetHeld := by simp [releaseStale]

end

end Sys2Proof.Machine
end

