-- ==== Sys2Proof/Proofs/Invariant.lean ====
section
/-! Every step keeps the invariants: for each kind of event, what it does to the blocks and to the M-port's laws is
put together from the lemmas of Laws/, and the hold of a cold reset is left to COLD_RESET. -/

namespace Sys2Proof.Machine

/-- The invariants of the blocks and the laws of the M-port: `Inv` but for the items of a held cold reset. -/
structure Sound (s : State) : Prop where
  blocks : BlocksOk s
  port : PortOk s

/-! ### Sound states -/

theorem Sound.of_view {s t : State} (h : Sound s) (hb : BlocksOk t) (hv : portView t = portView s) : Sound t :=
  ⟨hb, portOk_of_view h.port hv⟩

theorem Sound.settle {s : State} (h : Sound s) : Sound (settle s) :=
  ⟨settle_inv h.blocks, settle_portOk h.port h.blocks⟩

/-- A change of the entries that keeps the table's own invariants. -/
theorem Sound.of_table {s t : State} (h : Sound s) (ho : TableOnly s t) (ht : TrafficOk t) : Sound t :=
  h.of_view (inv_of_table h.blocks ho ht) ho.view

theorem Sound.visit {s : State} (h : Sound s) {p : State → Entry → Bool} (hp : ChoosesUndecided p) :
    Sound (visit p s) := h.of_table (visit_tableOnly p s) (visit_keeps hp h.blocks.traffic)

theorem Sound.report {s : State} (h : Sound s) (c : EvClass) (b : NoticeBody) : Sound (report c b s) :=
  h.of_view (report_inv h.blocks c b) (view_report c b s)

/-- A change of fields no invariant speaks of. -/
theorem Sound.of_fields {s t : State} (h : Sound s) (ht : t.table = s.table) (hE : t.eng = s.eng)
    (hr : t.rules = s.rules) (hg : t.cfg = s.cfg) (hp : t.pres = s.pres) (hm : t.mport = s.mport)
    (hn : t.ev.notices = s.ev.notices) : Sound t :=
  h.of_view (inv_congr h.blocks ht hE hr hg (by rw [hp]) (by rw [hp]) (by rw [hp]) hn)
    (by simp only [portView, hm, hp, hE])

/-- Of the configuration the invariants see the capacity of the journal alone. -/
theorem Sound.of_cfg {s : State} (h : Sound s) {c : Settings}
    (hc : s.eng.nextIndex + s.pres.claims ≤ capacity c) : Sound { s with cfg := c } := by
  obtain ⟨hT, hN, hR, hF, hE, hq, ⟨hn, hp, -⟩, ho, he⟩ := h.blocks
  exact ⟨⟨hT, hN, hR, hF, hE, hq, ⟨hn, hp, hc⟩, ho, he⟩, h.port⟩

theorem Sound.capacity {s : State} (h : Sound s) : s.eng.nextIndex + s.pres.claims ≤ capacity s.cfg := by
  obtain ⟨-, -, -, -, -, -, ⟨-, -, hc⟩, -⟩ := h.blocks
  exact hc

theorem Sound.of_rules {s : State} (h : Sound s) {n : RuleNo} {r : WatchRule} (hr : ruleOk r) :
    Sound (putRule n r s) := by
  obtain ⟨hT, hN, hR, hrest⟩ := h.blocks
  exact ⟨⟨hT, hN, rulesOk_set hR n hr, hrest⟩, h.port⟩

theorem Sound.rule {s : State} (h : Sound s) (n : RuleNo) : ruleOk s.rules[n] := ruleOk_get h.blocks.2.2.1 n

/-- Where the engine holds no epoch's records, no counter stands and no claim is taken. -/
theorem Sound.counters_zero {s : State} (h : Sound s) (hn : holdsNoRecords s.eng = true)
    (ht : takesRecords s.eng = false) : s.eng.nextIndex = 0 ∧ s.eng.durableCount = 0 ∧ s.pres.filter = [] ∧
      s.pres.claims = 0 := by
  obtain ⟨-, -, -, -, -, -, -, -, -, hzero⟩ := h.blocks
  obtain ⟨h1, h2, h3⟩ := hzero hn
  exact ⟨h1, h2, h3, (noRecords_empty h.blocks (noRecords_of_takes h.blocks ht)).2⟩

/-! ### Resets (R193, R194) -/

theorem coldReset_sound (held : Bool) (s : State) : Sound (coldReset held s) := by
  have h : BlocksOk State.reset :=
    ⟨by decide, by decide, by decide, fun _ hx => (List.not_mem_nil hx).elim, by decide, ⟨rfl, rfl⟩,
      ⟨rfl, by decide, by decide⟩,
      ⟨fun _ hx => (List.not_mem_nil hx).elim, fun _ hx => (List.not_mem_nil hx).elim⟩,
      fun _ hx => (List.not_mem_nil hx).elim, fun _ => ⟨rfl, rfl, rfl⟩⟩
  exact ⟨inv_congr h rfl rfl rfl rfl rfl rfl rfl rfl, coldReset_portOk held s⟩

/-- The engine after a soft reset: IDLE or UNRECOVERED with the operation ended fits its state (R108). -/
theorem softResetEng_fits {g : Engine} (h : engineFits g) : engineFits (softResetEng g) := by
  obtain ⟨-, -, -, -, hnext, -, -⟩ := h
  refine ⟨rfl, ⟨?_, ?_⟩, ⟨?_, fun _ => rfl⟩, ⟨fun _ => rfl, ?_⟩, hnext, ?_, ?_⟩
  all_goals by_cases hi : g.state = .idle <;> simp [softResetEng, hi, inEpoch, isReassert, Walk.absent]

theorem softReset_rules (s : State) : RulesOk (softReset s) := by
  intro r hr
  obtain ⟨x, -, rfl⟩ := List.mem_map.mp (show r ∈ s.rules.toList.map softResetRule from hr)
  exact ruleOk_softResetRule x

theorem softReset_sound {s : State} (h : Sound s) : Sound (softReset s) := by
  refine ⟨⟨?table, ?notices, softReset_rules s, ?filter, softResetEng_fits h.blocks.2.2.2.2.1, ?records⟩,
    softReset_portOk h.port⟩
  case table => exact ⟨Nat.zero_le _, .nil, fun x hx => (List.not_mem_nil hx).elim⟩
  case notices => exact Nat.zero_le _
  case filter => exact fun x hx => (List.not_mem_nil hx).elim
  case records =>
    exact ⟨⟨rfl, rfl⟩, ⟨rfl, Nat.zero_le _, Nat.zero_le _⟩,
      ⟨fun r hr => (List.not_mem_nil hr).elim, fun e he => (List.not_mem_nil he).elim⟩,
      fun e he => (List.not_mem_nil he).elim, fun _ => ⟨rfl, rfl, rfl⟩⟩

/-! ### The passing of time (R100, R172) -/

/-- A running deadline timer counts down; a stopped one stands at 0. -/
theorem advance_sound {s : State} (h : Sound s) : Sound (advance s) := by
  have hclock : Sound { s with clock := { timebase := s.clock.timebase + 1, prescale := 0 } } :=
    h.of_fields rfl rfl rfl rfl rfl rfl rfl
  unfold advance
  dsimp only
  split
  · rename_i hrun
    obtain ⟨hop, hclose, ⟨hopen, -⟩, hrest⟩ := h.blocks.2.2.2.2.1
    refine hclock.of_view (inv_engine hclock.blocks ⟨hop, hclose, ⟨hopen, fun hs => ?_⟩, hrest⟩ rfl rfl
      (fun e he hp => ?_) id rfl) rfl
    · rw [show s.eng.deadlineRunning = false from hs] at hrun
      exact absurd hrun.1 Bool.false_ne_true
    · exact ⟨(h.blocks.traffic.2.2.2.2.1 e he hp).2.2, rfl⟩
  · exact hclock

/-- Merging lists of events draws choices and does nothing else. -/
theorem interleave_state (n : Nat) (gs : List (List Instr)) (s : State) :
    ∃ cs, (interleave n gs s).2 = { s with choices := cs } := by
  induction n generalizing gs s with
  | zero => exact ⟨s.choices, rfl⟩
  | succ n ih =>
    unfold interleave
    dsimp only
    split
    · exact ⟨s.choices, rfl⟩
    · exact ⟨s.choices, rfl⟩
    · obtain ⟨cs, hp⟩ := pick_state (gs.filter (fun g => !g.isEmpty)).length s
      obtain ⟨cs', hi⟩ := ih ((gs.filter (fun g => !g.isEmpty)).set
        (pick (gs.filter (fun g => !g.isEmpty)).length s).1 ‹_›) { s with choices := cs }
      exact ⟨cs', by rw [hp]; exact hi⟩

theorem raiseExpiries_eq (s : State) : ∃ q cs, raiseExpiries s = { s with pending := q, choices := cs } := by
  obtain ⟨cs, h⟩ := interleave_state _ ([dueHolds s, dueDeadline s] ++ (dueLinks s).map (fun e => [e])) s
  exact ⟨_, cs, by unfold raiseExpiries; dsimp only; rw [h]⟩

theorem tick_sound {s : State} (h : Sound s) : Sound (tick s) := by
  unfold tick
  split
  · exact h
  · split
    · exact h.of_fields rfl rfl rfl rfl rfl rfl rfl
    · obtain ⟨q, cs, hr⟩ := raiseExpiries_eq (advance s)
      rw [hr]
      exact (advance_sound h).of_fields rfl rfl rfl rfl rfl rfl rfl

theorem idleStep_sound {s : State} (h : Sound s) : Sound (idleStep s) := by
  unfold idleStep
  split
  · exact h
  · split
    · exact tick_sound h
    · obtain ⟨cs, hi⟩ := interleave_state (deliveries s).length ((deliveries s).map (fun e => [e])) s
      dsimp only
      rw [hi]
      exact h.of_fields rfl rfl rfl rfl rfl rfl rfl

theorem advance_host (s : State) : (advance s).host = s.host := by
  unfold advance
  dsimp only
  split <;> rfl

theorem idleStep_host (s : State) : (idleStep s).host = s.host := by
  unfold idleStep tick
  obtain ⟨q, cs, hr⟩ := raiseExpiries_eq (advance s)
  obtain ⟨cs', hi⟩ := interleave_state (deliveries s).length ((deliveries s).map (fun e => [e])) s
  split
  · rfl
  · split
    · split
      · rfl
      · split
        · rfl
        · rw [hr]; exact advance_host s
    · dsimp only; rw [hi]

/-! ### Events of the host side, the pins and the timers -/

section
variable {s : State} (h : Sound s)
include h

theorem Sound.takeRequest (r : HostRequest) (hroom : s.table.length < Config.tableSize) :
    Sound (takeRequest r s) :=
  h.of_table (takeRequest_tableOnly r s) (takeRequest_keeps h.blocks.traffic r hroom)

theorem Sound.host (p : HostPort) : Sound { s with host := p } := h.of_fields rfl rfl rfl rfl rfl rfl rfl

/-- R39: the write that waited in FINISHING for its action is answered and freed. -/
theorem Sound.finishWrite {e : Entry} (he : entryOf s e.tag = some e) (hs : e.stage = .finishing) :
    Sound (finishWrite e s) :=
  h.of_view (ended_inv h.blocks he (.inr hs) (endEntry_tableOnly e .okWrite s) rfl rfl)
    (by rw [Machine.finishWrite, view_giveTurn]; exact (endEntry_tableOnly e .okWrite s).view)

theorem Sound.takeAction (e : Entry) (a : EpochAction) (r : RuleNo) : Sound (takeAction e a r s) :=
  h.of_view (takeAction_inv h.blocks e a r) (view_takeAction e a r s)

/-- R28: the hold of an undecided entry expires. -/
theorem Sound.expireHold {t : Tag} {e : Entry} {c : HoldCause} (hd : dueHold s t = some (e, c)) :
    Sound (expireHold e c s) := by
  obtain ⟨he, hx⟩ := dueHold_some hd
  obtain ⟨since, hst, -⟩ := expiredHold_some hx
  exact h.of_table (expireHold_tableOnly e c s)
    (expireHold_keeps h.blocks.traffic c (entryOf_some he).1 (by simp [Entry.undecided, hst]))

theorem Sound.expireIfDue (t : Tag) : Sound (expireIfDue s t) :=
  h.of_table (expireIfDue_tableOnly s t) (expireIfDue_keeps h.blocks.traffic t)

/-- R188: the geometry may change where the engine holds no records. -/
theorem Sound.geometry (c : Settings) (hs : s.eng.state = .unrecovered ∨ s.eng.state = .idle) :
    Sound { s with cfg := c } := by
  have hno : holdsNoRecords s.eng = true := by rcases hs with hs | hs <;> simp [holdsNoRecords, hs]
  have hop : s.eng.op = .none := by
    refine fits_op h.blocks.2.2.2.2.1 ?_ ?_ ?_ ?_ <;> rcases hs with hs | hs <;> simp [hs]
  have htakes : takesRecords s.eng = false := by rcases hs with hs | hs <;> simp [takesRecords, hs, hop]
  obtain ⟨hi, -, -, hc⟩ := h.counters_zero hno htakes
  exact h.of_cfg (by rw [hi, hc]; exact Nat.zero_le _)

/-- R188: a geometry write takes IDLE to UNRECOVERED. -/
theorem Sound.idleToUnrecovered (hs : s.eng.state = .idle) : Sound (enterState .unrecovered s) := by
  obtain ⟨hfit⟩ : Nonempty (engineFits s.eng) := ⟨h.blocks.2.2.2.2.1⟩
  have hop : s.eng.op = .none := fits_op hfit (by simp [hs]) (by simp [hs]) (by simp [hs]) (by simp [hs])
  have hno : holdsNoRecords s.eng = true := by simp [holdsNoRecords, hs]
  have htakes : takesRecords s.eng = false := by simp [takesRecords, hs, hop]
  have hfit' : engineFits { s.eng with state := .unrecovered } := by
    obtain ⟨h1, ⟨h2, h3⟩, h4, ⟨h5, h6⟩, h7, h8, -⟩ := hfit
    rw [hs] at h2 h3 h5 h6
    refine ⟨by rw [opFits, hop], ⟨h2, h3⟩, ⟨fun hrun => ?_, h4.2⟩, ⟨fun _ => h5 rfl, h6⟩, h7, h8, ?_⟩
    · exact absurd ((h4.1 hrun).symm.trans hs) nofun
    · simp [inEpoch, isReassert, hop]
  refine h.of_view (enterState_inv (inv_engine h.blocks hfit' rfl rfl ?_ (fun _ => hno) rfl))
    (view_enterState _ s)
  exact (noRecords_of_takes h.blocks htakes).vacuous

end

/-! ### The management commands -/

/-- A command whose effect keeps what holds once its result is recorded. -/
theorem Sound.takeCmd {s : State} (h : Sound s) {code : BitVec 4} {effect : State → State}
    (he : ∀ u : State, Sound u → u.eng = s.eng → u.table = s.table → u.cfg = s.cfg → BlocksOk (effect u))
    (hv : ∀ u, portView (effect u) = portView u) : Sound (takeCmd code effect s) := by
  have hu : Sound (recordResult code .accepted s) := h.of_fields rfl rfl rfl rfl rfl rfl rfl
  exact Sound.settle (hu.of_view (he _ hu rfl rfl rfl) (hv _))

/-! ### Every command -/

/-- What an event must do: lead to a sound state in which the reset is not held either. -/
def KeepsSound (o : Host.Outcome State Fault Refusal) : Prop :=
  ∃ t, o = .next t ∧ Sound t ∧ Running t

theorem KeepsSound.of {t : State} (h : Sound t) (hr : Running t) : KeepsSound (.next t) := ⟨t, rfl, h, hr⟩

theorem KeepsSound.settle {t : State} (h : Sound t) (hr : Running t) : KeepsSound (.next (settle t)) :=
  .of h.settle ((settle_resetHeld t).trans hr)

section
variable {s : State} (h : Sound s) (hr : Running s)
include h hr

theorem execHostRequest_sound (r : HostRequest) : KeepsSound (execHostRequest r s) := by
  rw [execHostRequest, unlessHeld_running hr]
  split
  next hroom => exact .settle (h.takeRequest r hroom.1) ((takeRequest_resetHeld s r).trans hr)
  next => exact .settle (h.host _) hr

theorem execPfwAssert_sound : KeepsSound (execPfwAssert s) := by
  unfold execPfwAssert
  split
  · exact .of h hr
  · rw [if_neg (by rw [hr]; exact Bool.false_ne_true)]
    refine .settle (Sound.visit (Sound.report (h.host _) _ _) atTurn_undecided) ?_
    rw [Running, visit_resetHeld, report_resetHeld]
    exact hr

theorem execPfwDeassert_sound : KeepsSound (execPfwDeassert s) := by
  unfold execPfwDeassert
  split
  · exact .of h hr
  · rw [if_neg (by rw [hr]; exact Bool.false_ne_true)]
    refine .settle (Sound.visit (Sound.report (h.host _) _ _) (heldWith_undecided _)) ?_
    rw [Running, visit_resetHeld, report_resetHeld]
    exact hr

theorem execHoldExpiry_sound (tag : Tag) : KeepsSound (execHoldExpiry tag s) := by
  rw [execHoldExpiry, unlessHeld_running hr]
  split
  next e c hd => exact .settle (h.expireHold hd) ((expireHold_resetHeld s e c).trans hr)
  next => exact .of h hr

theorem execDeadlineExpiry_sound : KeepsSound (execDeadlineExpiry s) := by
  rw [execDeadlineExpiry, unlessHeld_running hr]
  split
  next hd =>
    have hs : s.eng.state = .opened := by
      simp only [deadlineDue, Bool.and_eq_true, decide_eq_true_eq] at hd
      exact hd.1.1.2
    exact .settle (h.of_view (deadlineExpires_inv h.blocks hs) (view_deadlineExpires s))
      ((deadlineExpires_resetHeld s).trans hr)
  next => exact .of h hr

theorem memoryAnswer_sound (i : LinkNo) (a : Answer) : KeepsSound (unlessHeld s (.next (memoryAnswer i a s))) := by
  rw [unlessHeld_running hr]
  exact .of ⟨memoryAnswer_inv h.blocks i a, memoryAnswer_portOk h.port h.blocks i a⟩
    ((memoryAnswer_resetHeld s i a).trans hr)

theorem execResponseTimeout_sound (i : LinkNo) : KeepsSound (execResponseTimeout i s) := by
  rw [execResponseTimeout, unlessHeld_running hr]
  split
  next lr hd =>
    have hb : s.mport.slots[i] = .busy lr := by
      unfold responseDue at hd
      split at hd
      · rename_i r hs
        split at hd <;> cases hd
        exact hs
      · cases hd
    exact .settle ⟨timeoutBusy_inv h.blocks i lr, timeoutBusy_portOk h.port hb⟩
      ((timeoutBusy_resetHeld s i lr).trans hr)
  next => exact .of h hr

theorem execQuarantineEnd_sound (i : LinkNo) : KeepsSound (execQuarantineEnd i s) := by
  rw [execQuarantineEnd, unlessHeld_running hr]
  split
  next lr hd =>
    have hb : s.mport.slots[i] = .stale lr := by
      unfold quarantineDue at hd
      split at hd
      · rename_i r hs
        split at hd <;> cases hd
        exact hs
      · cases hd
    exact .settle ⟨releaseStale_inv h.blocks i lr, releaseStale_portOk h.port hb⟩
      ((releaseStale_resetHeld s i lr).trans hr)
  next => exact .of h hr

omit h in
/-- The rows for what the part itself does: each does one of the steps of settling. -/
theorem ownStep_sound {f : State → State} (hb : BlocksOk (f s)) (hp : PortOk (f s))
    (hu : (f s).untouched = s.untouched) : KeepsSound (unlessHeld s (.next (settle (f s)))) := by
  rw [unlessHeld_running hr]
  exact .settle ⟨hb, hp⟩ ((congrArg Untouched.resetHeld hu).trans hr)

theorem execRecordSlotWritesRequest_sound (k : Nat) : KeepsSound (execRecordSlotWritesRequest k s) := by
  rw [execRecordSlotWritesRequest, unlessHeld_running hr]
  split
  next r hf =>
    exact .settle ⟨requestIfClear_inv h.blocks r,
      requestIfClear_portOk h.port (distinct_of_blocks h.blocks) (List.mem_of_find?_eq_some hf)⟩
      ((congrArg Untouched.resetHeld (requestIfClear_untouched s r)).trans hr)
  next => exact .of h hr

theorem execWatchActionDelivery_sound (tag : Tag) : KeepsSound (execWatchActionDelivery tag s) := by
  rw [execWatchActionDelivery, unlessHeld_running hr]
  split
  next => exact .of h hr
  next e he =>
    have he' := entryOf_tag he
    split
    next hst =>
      split
      next a rule ha =>
        have hmem := takeAction_decided h.blocks.1 e a rule (entryOf_some he).1
          (by simp [Entry.undecided, hst])
        have hk := h.takeAction e a rule
        refine .settle (hk.finishWrite (entryOf_mem hk.blocks.1 hmem) hst) ?_
        rw [finishWrite, Running, giveTurn_resetHeld, endEntry_resetHeld, takeAction_resetHeld]
        exact hr
      next =>
        refine .settle (h.finishWrite he' hst) ?_
        rw [finishWrite, Running, giveTurn_resetHeld]
        exact hr
    next => exact .of h hr

theorem refuseCmd_sound (code : BitVec 4) (why : RefuseReason) : KeepsSound (.next (refuseCmd code why s)) :=
  .of (h.of_fields rfl rfl rfl rfl rfl rfl rfl) hr

theorem takeCmd_sound {code : BitVec 4} {effect : State → State}
    (he : ∀ u : State, Sound u → u.eng = s.eng → u.table = s.table → u.cfg = s.cfg → BlocksOk (effect u))
    (hv : ∀ u, portView (effect u) = portView u)
    (hh : ∀ u : State, (effect u).host.resetHeld = u.host.resetHeld) :
    KeepsSound (.next (takeCmd code effect s)) :=
  .of (h.takeCmd he hv) ((settle_resetHeld _).trans ((hh _).trans hr))

theorem execOpen_sound : KeepsSound (execOpen s) := by
  rw [execOpen, unlessHeld_running hr]
  split
  next hs =>
    exact takeCmd_sound h hr (fun u hu hE _ _ => takeOpen_inv hu.blocks (hE ▸ hs.1) (hE ▸ hs.2))
      view_takeOpen takeOpen_resetHeld
  next => exact refuseCmd_sound h hr _ _

theorem execCommit_sound : KeepsSound (execCommit s) := by
  rw [execCommit, unlessHeld_running hr]
  split
  next hs =>
    exact takeCmd_sound h hr (fun u hu hE _ _ => takeClose_inv hu.blocks .commit (hE ▸ hs) nofun)
      (view_takeClose _) (takeClose_resetHeld · _)
  next hs =>
    exact takeCmd_sound h hr (fun u hu hE _ _ => retryClose_inv hu.blocks .commit (hE ▸ hs) nofun)
      (view_retryClose _) (retryClose_resetHeld · _)
  next => exact refuseCmd_sound h hr _ _

theorem execCommitOpen_sound : KeepsSound (execCommitOpen s) := by
  rw [execCommitOpen, unlessHeld_running hr]
  split
  next hs hn =>
    exact takeCmd_sound h hr (fun u hu hE _ _ => takeClose_inv hu.blocks .commitOpen (hE ▸ hs)
      fun _ => by rw [hE, hn]; rfl) (view_takeClose _) (takeClose_resetHeld · _)
  next hs hn =>
    exact takeCmd_sound h hr (fun u hu hE _ _ => retryClose_inv hu.blocks .commitOpen (hE ▸ hs)
      fun _ => by rw [hE, hn]; rfl) (view_retryClose _) (retryClose_resetHeld · _)
  next => exact refuseCmd_sound h hr _ _

theorem execAbort_sound : KeepsSound (execAbort s) := by
  rw [execAbort, unlessHeld_running hr]
  split
  next hs =>
    exact takeCmd_sound h hr (fun u hu hE _ _ => takeAbort_inv hu.blocks (hE ▸ hs))
      view_takeAbort takeAbort_resetHeld
  next hs =>
    exact takeCmd_sound h hr (fun u hu hE _ _ => abortFaulted_inv hu.blocks (hE ▸ hs))
      view_abortFaulted abortFaulted_resetHeld
  next => exact refuseCmd_sound h hr _ _

/-- R101: EXTEND loads the timer in OPEN. -/
theorem execExtend_sound : KeepsSound (execExtend s) := by
  rw [execExtend, unlessHeld_running hr]
  split
  next hs =>
    have hu : Sound (recordResult 5 .accepted s) := h.of_fields rfl rfl rfl rfl rfl rfl rfl
    obtain ⟨hop, hclose, -, hrest⟩ := h.blocks.2.2.2.2.1
    refine .of (hu.of_view (inv_engine hu.blocks ⟨hop, hclose, ⟨fun _ => hs, fun hd => ?_⟩, hrest⟩ rfl rfl
      (fun e he hp => ?_) id rfl) rfl) hr
    · simpa [loadDeadline, setEng] using hd
    · exact ⟨(h.blocks.traffic.2.2.2.2.1 e he hp).2.2, rfl⟩
  next => exact refuseCmd_sound h hr _ _

omit h hr in
theorem configured_unrecovered {u : State} (hc : configured s = true) (hE : u.eng = s.eng) :
    u.eng.state = .unrecovered := by
  simp only [configured, Bool.and_eq_true, decide_eq_true_eq] at hc
  rw [hE]; exact hc.1

theorem execRecover_sound : KeepsSound (execRecover s) := by
  rw [execRecover, unlessHeld_running hr]
  split
  next hc =>
    exact takeCmd_sound h hr (fun u hu hE _ _ => beginHeaderReads_inv hu.blocks
      (configured_unrecovered hc hE) _ _ rfl) (view_beginHeaderReads _ _) (beginHeaderReads_resetHeld · _ _)
  next => split <;> exact refuseCmd_sound h hr _ _

theorem execFormat_sound : KeepsSound (execFormat s) := by
  rw [execFormat, unlessHeld_running hr]
  split
  next hc =>
    exact takeCmd_sound h hr (fun u hu hE _ _ => takeFormat_inv hu.blocks (configured_unrecovered hc hE))
      view_takeFormat takeFormat_resetHeld
  next => split <;> exact refuseCmd_sound h hr _ _

theorem execDiscard_sound : KeepsSound (execDiscard s) := by
  rw [execDiscard, unlessHeld_running hr]
  split
  next hc =>
    exact takeCmd_sound h hr (fun u hu hE _ _ => beginHeaderReads_inv hu.blocks
      (configured_unrecovered hc hE) _ _ rfl) (view_beginHeaderReads _ _) (beginHeaderReads_resetHeld · _ _)
  next =>
    split
    next => exact refuseCmd_sound h hr _ _
    next =>
      split
      next hs =>
        exact takeCmd_sound h hr (fun u hu hE _ _ => discardWalk_inv hu.blocks (hE ▸ hs))
          view_discardWalk discardWalk_resetHeld
      next => exact refuseCmd_sound h hr _ _

theorem execResume_sound : KeepsSound (execResume s) := by
  rw [execResume, unlessHeld_running hr]
  split
  next hs =>
    exact takeCmd_sound h hr (fun u hu hE _ _ => resumeWalk_inv hu.blocks (hE ▸ hs))
      view_resumeWalk resumeWalk_resetHeld
  next => exact refuseCmd_sound h hr _ _

theorem execRearm_sound : KeepsSound (execRearm s) := by
  rw [execRearm, unlessHeld_running hr]
  split
  next hn =>
    have hu : Sound (recordResult 10 .accepted s) := h.of_fields rfl rfl rfl rfl rfl rfl rfl
    exact .of (hu.of_rules (ruleOk_rearmed (h.rule ⟨_, hn⟩))) hr
  next => exact refuseCmd_sound h hr _ _

/-- R181: a record leaves the notice queue. -/
theorem execNoticePop_sound : KeepsSound (execNoticePop s) := by
  rw [execNoticePop, unlessHeld_running hr]
  split
  next => exact .of (h.of_fields rfl rfl rfl rfl rfl rfl rfl) hr
  next n rest hq =>
    obtain ⟨hT, hN, hrest⟩ := h.blocks
    refine .of ⟨⟨hT, ?_, hrest⟩, h.port⟩ hr
    rw [NoticesOk, hq] at hN
    exact (Nat.le_succ _).trans hN

theorem execSoftReset_sound : KeepsSound (execSoftReset s) := by
  rw [execSoftReset, unlessHeld_running hr]
  have hu : Sound (recordResult 12 .accepted s) := h.of_fields rfl rfl rfl rfl rfl rfl rfl
  exact .settle (softReset_sound hu) hr

theorem execConfig0Write_sound (v : W32) : KeepsSound (execConfig0Write v s) := by
  rw [execConfig0Write, unlessHeld_running hr]
  dsimp only
  have hc : Sound { s with cfg := config0Store v s.cfg } := h.of_cfg h.capacity
  have hu : Sound (raiseConfigError (config0Action v == 3#2)
      (restartPrescale (setCfg (config0Store v) s))) := hc.of_fields rfl rfl rfl rfl rfl rfl rfl
  split
  · exact .settle (hu.visit (heldWith_undecided _)) ((visit_resetHeld _ _).trans hr)
  · exact .of hu hr

theorem execHoldLimitWrite_sound (v : W32) : KeepsSound (execHoldLimitWrite v s) := by
  rw [execHoldLimitWrite, unlessHeld_running hr]
  dsimp only
  have hu : Sound (setCfg (fun c => { c with holdLimit := v.extractLsb' 0 16 }) s) := h.of_cfg h.capacity
  exact .settle (foldl_keeps _ (fun _ t hs => hs.expireIfDue t) _ hu)
    ((foldl_tableOnly _ expireIfDue_tableOnly _ _).held.trans hr)

theorem execGeometryWrite_sound (reg : GeoReg) (v : W32) : KeepsSound (execGeometryWrite reg v s) := by
  rw [execGeometryWrite, unlessHeld_running hr]
  dsimp only
  have herr : KeepsSound (.next (raiseConfigError true s)) := .of (h.of_fields rfl rfl rfl rfl rfl rfl rfl) hr
  have htaken (hs : s.eng.state = .unrecovered ∨ s.eng.state = .idle) :
      Sound (raiseConfigError (geometryLowBits reg v) (setCfg (geometryStore reg v) s)) :=
    (h.geometry (geometryStore reg v s.cfg) hs).of_fields rfl rfl rfl rfl rfl rfl rfl
  split
  · exact herr
  · split
    next hs => exact .of (htaken (.inl hs)) hr
    next hs => exact .settle ((htaken (.inr hs)).idleToUnrecovered hs) ((enterState_resetHeld _ _).trans hr)
    next => exact herr

theorem raiseConfigError_sound (b : Bool) : KeepsSound (.next (raiseConfigError b s)) :=
  .of (h.of_fields rfl rfl rfl rfl rfl rfl rfl) hr

theorem putRule_sound {b : Bool} {n : RuleNo} {r : WatchRule} (hk : ruleOk r) :
    KeepsSound (.next (raiseConfigError b (putRule n r s))) :=
  raiseConfigError_sound (h.of_rules hk) hr b

theorem execWaddrWrite_sound (n : RuleNo) (half : WaddrHalf) (v : W32) :
    KeepsSound (execWaddrWrite n half v s) := by
  rw [execWaddrWrite, unlessHeld_running hr]
  dsimp only
  split
  · exact raiseConfigError_sound h hr _
  · exact putRule_sound h hr (h.rule n)

theorem execCondWrite_sound (n : RuleNo) (k : Fin 6) (v : W32) : KeepsSound (execCondWrite n k v s) := by
  rw [execCondWrite, unlessHeld_running hr]
  dsimp only
  split
  · exact raiseConfigError_sound h hr _
  · exact putRule_sound h hr (h.rule n)

theorem execWctlWrite_sound (n : RuleNo) (v : W32) : KeepsSound (execWctlWrite n v s) := by
  rw [execWctlWrite, unlessHeld_running hr]
  exact putRule_sound h hr (ruleOk_wctlEnableStore (ruleOk_wctlStore (h.rule n) v) _)

/-- Every command but COLD_RESET. -/
theorem exec_sound (c : Instr) (hc : ∀ edge, c ≠ .coldReset edge) : KeepsSound (exec c s) := by
  have hstill : ∀ {t : State}, t.table = s.table → t.eng = s.eng → t.rules = s.rules → t.cfg = s.cfg →
      t.pres = s.pres → t.mport = s.mport → t.ev.notices = s.ev.notices → t.host = s.host →
      KeepsSound (unlessHeld s (.next t)) := fun h1 h2 h3 h4 h5 h6 h7 h8 => by
    rw [unlessHeld_running hr]
    exact .of (h.of_fields h1 h2 h3 h4 h5 h6 h7) (by rw [Running, h8]; exact hr)
  cases c with
  | hostRequest r => exact execHostRequest_sound h hr r
  | pfwAssert => exact execPfwAssert_sound h hr
  | pfwDeassert => exact execPfwDeassert_sound h hr
  | coldReset edge => exact absurd rfl (hc edge)
  | holdExpiry tag => exact execHoldExpiry_sound h hr tag
  | deadlineExpiry => exact execDeadlineExpiry_sound h hr
  | mportAnswer i a => exact memoryAnswer_sound h hr i a
  | responseTimeout i => exact execResponseTimeout_sound h hr i
  | staleLateAnswer i a => exact memoryAnswer_sound h hr i a
  | quarantineEnd i => exact execQuarantineEnd_sound h hr i
  | mportGrant => exact ownStep_sound hr (grantOne_inv h.blocks) (grantOne_portOk h.port) (grantOne_untouched s)
  | drainComplete =>
    exact ownStep_sound hr (drainStep_inv h.blocks) (portOk_of_view h.port (view_drainStep s))
      (drainStep_untouched s)
  | headerAccessIssue =>
    exact ownStep_sound hr (headerStep_inv h.blocks) (portOk_of_view h.port (view_headerStep s))
      (headerStep_untouched s)
  | recordSlotWritesRequest k => exact execRecordSlotWritesRequest_sound h hr k
  | restoreWriteIssue =>
    exact ownStep_sound hr (restoreStep_inv h.blocks) (portOk_of_view h.port (view_restoreStep s))
      (restoreStep_untouched s)
  | watchActionDelivery tag => exact execWatchActionDelivery_sound h hr tag
  | openCmd => exact execOpen_sound h hr
  | commitCmd => exact execCommit_sound h hr
  | commitOpenCmd => exact execCommitOpen_sound h hr
  | abortCmd => exact execAbort_sound h hr
  | extendCmd => exact execExtend_sound h hr
  | recoverCmd => exact execRecover_sound h hr
  | formatCmd => exact execFormat_sound h hr
  | discardCmd => exact execDiscard_sound h hr
  | resumeCmd => exact execResume_sound h hr
  | rearmCmd => exact execRearm_sound h hr
  | noticePopCmd => exact execNoticePop_sound h hr
  | softResetCmd => exact execSoftReset_sound h hr
  | undefinedCmd code => exact hstill rfl rfl rfl rfl rfl rfl rfl rfl
  | config0Write v => exact execConfig0Write_sound h hr v
  | holdLimitWrite v => exact execHoldLimitWrite_sound h hr v
  | respLimitWrite v =>
    rw [exec, execRespLimitWrite, unlessHeld_running hr]
    exact raiseConfigError_sound (h.of_cfg (c := { s.cfg with respLimit := v.extractLsb' 0 16 }) h.capacity) hr _
  | geometryWrite reg v => exact execGeometryWrite_sound h hr reg v
  | configErrorClear v => exact hstill rfl rfl rfl rfl rfl rfl rfl rfl
  | eventPendingClear v => exact hstill rfl rfl rfl rfl rfl rfl rfl rfl
  | eventLevelWrite v => exact hstill rfl rfl rfl rfl rfl rfl rfl rfl
  | guardAWrite n v => exact hstill rfl rfl rfl rfl rfl rfl rfl rfl
  | guardBWrite n v => exact hstill rfl rfl rfl rfl rfl rfl rfl rfl
  | waddrWrite r half v => exact execWaddrWrite_sound h hr r half v
  | condWrite r k v => exact execCondWrite_sound h hr r k v
  | wctlWrite r v => exact execWctlWrite_sound h hr r v
  | registerWrite target v =>
    cases target with
    | deadline =>
      rw [exec, execRegisterWrite, unlessHeld_running hr]
      exact .of (h.of_cfg (c := { s.cfg with deadline := v.extractLsb' 0 24 }) h.capacity) hr
    | _ => exact hstill rfl rfl rfl rfl rfl rfl rfl rfl
  | answerToFreeLinkSlot i a => exact memoryAnswer_sound h hr i a

end

/-! ### While a cold reset is held (R193) -/

/-- A state that stands at its cold-reset values, its hold released or not. -/
theorem inv_of_coldReset {s : State} (held : Bool) (h : s = coldReset held s) : Inv s := by
  refine ⟨h ▸ (coldReset_sound held s).blocks, h ▸ (coldReset_sound held s).port, fun hh => ?_⟩
  have : held = true := by rw [h] at hh; exact hh
  exact this ▸ h

theorem coldReset_idem (held : Bool) (s : State) : coldReset held s = coldReset held (coldReset held s) := rfl

/-- What a held part does with any command: it stays at its cold-reset values, or is released with them. -/
theorem exec_held {s : State} (hs : s = coldReset true s) (c : Instr) :
    ∃ held t, exec c s = .next t ∧ t = coldReset held t := by
  have hh : s.host.resetHeld = true := by rw [hs]; rfl
  have hstill : ∀ o, ∃ held t, unlessHeld s o = .next t ∧ t = coldReset held t := fun o =>
    ⟨true, s, unlessHeld_held hh o, hs⟩
  have hpfw (level : Bool) : setPfw level s = coldReset true (setPfw level s) := by rw [hs]; rfl
  cases c with
  | pfwAssert =>
    simp only [exec, execPfwAssert, hh, if_true]
    split
    · exact ⟨true, s, rfl, hs⟩
    · exact ⟨true, _, rfl, hpfw true⟩
  | pfwDeassert =>
    simp only [exec, execPfwDeassert, hh, if_true]
    split
    · exact ⟨true, s, rfl, hs⟩
    · exact ⟨true, _, rfl, hpfw false⟩
  | coldReset edge =>
    cases edge with
    | assert => exact ⟨true, _, rfl, coldReset_idem true s⟩
    | release =>
      simp only [exec, execColdReset, hh, if_true]
      exact ⟨false, _, rfl, coldReset_idem false s⟩
  | _ => exact hstill _

theorem idleStep_held {s : State} (hh : s.host.resetHeld = true) : idleStep s = s := if_pos hh

/-! ### The obligations -/

/-- Settles O4: at reset the tables are empty and the engine is UNRECOVERED, which the cold-reset values say. -/
theorem resetMeetsTheInvariants : Obligations.ResetMeetsTheInvariants :=
  inv_of_coldReset false rfl

theorem exec_inv {s : State} (h : Inv s) (c : Instr) : ∃ t, exec c s = .next t ∧ Inv t := by
  obtain ⟨hb, hp, hreset⟩ := h
  cases hh : s.host.resetHeld with
  | true =>
    obtain ⟨held, t, he, ht⟩ := exec_held (hreset hh) c
    exact ⟨t, he, inv_of_coldReset held ht⟩
  | false =>
    by_cases hc : ∃ edge, c = .coldReset edge
    · obtain ⟨edge, rfl⟩ := hc
      cases edge with
      | assert => exact ⟨_, rfl, inv_of_coldReset true (coldReset_idem true s)⟩
      | release =>
        exact ⟨s, by simp [exec, execColdReset, hh], hb, hp, fun h => by rw [hh] at h; cases h⟩
    · obtain ⟨t, he, ht, hr⟩ := exec_sound ⟨hb, hp⟩ hh c (fun edge he => hc ⟨edge, he⟩)
      exact ⟨t, he, ht.blocks, ht.port, fun h => by rw [hr] at h; cases h⟩

/-- Settles O5, by whether a command waits and whether a cold reset is held. -/
theorem stepKeepsTheInvariants : Obligations.StepKeepsTheInvariants := by
  intro s t h hstep
  unfold step at hstep
  split at hstep
  next =>
    cases hstep
    obtain ⟨hb, hp, hreset⟩ := h
    have hs := idleStep_sound ⟨hb, hp⟩
    refine ⟨hs.blocks, hs.port, fun hh => ?_⟩
    rw [idleStep_host] at hh
    rw [idleStep_held hh]
    exact hreset hh
  next c rest hq =>
    obtain ⟨hb, hp, hreset⟩ := h
    have hrest : Inv { s with pending := rest } :=
      ⟨pending_inv hb rest, hp, fun hh => by rw [hreset hh]; rfl⟩
    obtain ⟨u, hu, hinv⟩ := exec_inv hrest c
    rw [hu] at hstep
    cases hstep
    exact hinv

end Sys2Proof.Machine
end

