-- ==== Sys2Proof/Proofs/Machine.lean ====
section
/-! The machine as a whole: every command has an outcome, a refused command changes CMD_RESULT alone, and what a cold
reset leaves and holds (R85, R193). -/

namespace Sys2Proof.Machine

/-! ### Every command has a next state -/

/-- The outcome is a next state. -/
def HasNext (o : Host.Outcome State Fault Refusal) : Prop := ∃ t, o = .next t

theorem HasNext.next (t : State) : HasNext (.next t) := ⟨t, rfl⟩

theorem HasNext.unlessHeld {o : Host.Outcome State Fault Refusal} (h : HasNext o) (s : State) :
    HasNext (unlessHeld s o) := by
  unfold Machine.unlessHeld
  split
  · exact .next s
  · exact h

theorem HasNext.ite {c : Prop} [Decidable c] {o p : Host.Outcome State Fault Refusal} (ho : HasNext o)
    (hp : HasNext p) : HasNext (if c then o else p) := by
  split
  · exact ho
  · exact hp

theorem CommandAnswer.hasNext {s : State} {code : BitVec 4} {r : CmdOutcome}
    {o : Host.Outcome State Fault Refusal} (h : CommandAnswer s code r o) : HasNext o := by
  obtain ⟨t, ht, -⟩ := h.port_eq
  exact ⟨t, ht⟩

theorem exec_command_hasNext {c : Instr} {code : BitVec 4} (s : State) (hc : commandCode c = some code) :
    HasNext (exec c s) := by
  cases hh : s.host.resetHeld with
  | false => exact (exec_command_answer hh hc).hasNext
  | true => cases c <;> first | exact ⟨s, unlessHeld_held hh _⟩ | cases hc

theorem exec_hasNext (c : Instr) (s : State) : HasNext (exec c s) := by
  cases hc : commandCode c with
  | some code => exact exec_command_hasNext s hc
  | none =>
    cases c with
    | hostRequest r => exact .unlessHeld (.ite (.next _) (.next _)) s
    | pfwAssert => exact .ite (.next s) (.ite (.next _) (.next _))
    | pfwDeassert => exact .ite (.next s) (.ite (.next _) (.next _))
    | coldReset edge =>
      cases edge with
      | assert => exact .next _
      | release => exact .ite (.next _) (.next _)
    | holdExpiry tag =>
      refine .unlessHeld ?_ s
      split <;> exact .next _
    | responseTimeout i =>
      refine .unlessHeld ?_ s
      split <;> exact .next _
    | quarantineEnd i =>
      refine .unlessHeld ?_ s
      split <;> exact .next _
    | recordSlotWritesRequest k =>
      refine .unlessHeld ?_ s
      split <;> exact .next _
    | watchActionDelivery tag =>
      refine .unlessHeld ?_ s
      split
      · exact .next s
      · refine .ite ?_ (.next s)
        split <;> exact .next _
    | deadlineExpiry => exact .unlessHeld (.ite (.next _) (.next _)) s
    | config0Write v => exact .unlessHeld (.ite (.next _) (.next _)) s
    | geometryWrite reg v =>
      refine .unlessHeld (.ite (.next _) ?_) s
      split <;> exact .next _
    | waddrWrite r half v => exact .unlessHeld (.ite (.next _) (.next _)) s
    | condWrite r k v => exact .unlessHeld (.ite (.next _) (.next _)) s
    | registerWrite t v => cases t <;> exact .unlessHeld (.next _) s
    | undefinedCmd u => exact .unlessHeld (.next _) s
    | mportAnswer i a => exact .unlessHeld (.next _) s
    | staleLateAnswer i a => exact .unlessHeld (.next _) s
    | answerToFreeLinkSlot i a => exact .unlessHeld (.next _) s
    | mportGrant => exact .unlessHeld (.next _) s
    | drainComplete => exact .unlessHeld (.next _) s
    | headerAccessIssue => exact .unlessHeld (.next _) s
    | restoreWriteIssue => exact .unlessHeld (.next _) s
    | holdLimitWrite v => exact .unlessHeld (.next _) s
    | respLimitWrite v => exact .unlessHeld (.next _) s
    | configErrorClear v => exact .unlessHeld (.next _) s
    | eventPendingClear v => exact .unlessHeld (.next _) s
    | eventLevelWrite v => exact .unlessHeld (.next _) s
    | guardAWrite n v => exact .unlessHeld (.next _) s
    | guardBWrite n v => exact .unlessHeld (.next _) s
    | wctlWrite r v => exact .unlessHeld (.next _) s
    | _ => cases hc

/-! ### The obligations -/

/-- Settles O1: `step` is this by definition. -/
theorem stepRunsFrontCommand : Obligations.StepRunsFrontCommand := fun _ _ => rfl

/-- Settles O3, command by command. -/
theorem everyCommandHasANextState : Obligations.EveryCommandHasANextState := exec_hasNext

/-- The answer to a refused command changes CMD_RESULT alone. -/
theorem CommandAnswer.of_refused {s : State} {code : BitVec 4} {r : CmdOutcome} {why : RefuseReason}
    {o : Host.Outcome State Fault Refusal} (h : CommandAnswer s code r o) (hr : r = .refused why) :
    o = .next (refuseCmd code why s) := by
  cases h with
  | refused => cases hr; rfl
  | empty => cases hr
  | taken => cases hr

/-- Settles O18: the answer of a refused command changes CMD_RESULT alone, and no code without a command is taken. -/
theorem refusedCommandChangesOnlyItsResult : Obligations.RefusedCommandChangesOnlyItsResult :=
  fun _ _ _ _ hr hc => ⟨fun ha => (exec_command_answer hr hc).of_refused ha, fun _ hu => hu ▸ rfl⟩

/-- Settles O27: a held part loses every command but the edges of the reset and of PFW, and the values it holds are
those the assertion gave. -/
theorem coldResetLeavesTheResetState : Obligations.ColdResetLeavesTheResetState := by
  intro s
  refine ⟨rfl, fun hh => ?released, fun hr => ?notHeld, fun hh => ⟨fun c ha hd hc => ?lost, ?assert, ?deassert,
    fun hq => ?idle, fun off => ?reads⟩⟩
  case released =>
    rw [exec, execColdReset, if_pos hh]
    rfl
  case notHeld =>
    simp only [exec, execColdReset]
    rw [if_neg (by rw [hr]; exact Bool.false_ne_true)]
  case lost =>
    cases c with
    | pfwAssert => exact absurd rfl ha
    | pfwDeassert => exact absurd rfl hd
    | coldReset edge => exact absurd rfl (hc edge)
    | _ => exact unlessHeld_held hh _
  case assert =>
    rw [exec, execPfwAssert]
    split
    next hp => rw [← hp]
    next => rfl
  case deassert =>
    rw [exec, execPfwDeassert]
    split
    next hp =>
      rw [Bool.not_eq_true'] at hp
      rw [← hp]
    next => rfl
  case idle =>
    rw [step, hq]
    exact congrArg _ (idleStep_held hh)
  case reads => exact if_pos hh

end Sys2Proof.Machine
end

