-- ==== Sys2Proof/Proofs/Registers.lean ====
section
/-! The register writes that store, and the writes of a watch rule (R111 to R113, R168, R175, R176, R185 to R191). -/

namespace Sys2Proof.Machine

/-- Settles O14: each of these writes moves one field, as R168, R175, R176 and R185 to R192 say. -/
theorem storedRegisters : Obligations.StoredRegisters := by
  intro v off s hr
  refine ⟨?clear, ⟨s.ev.flags &&& ~~~(v.extractLsb' 0 11), fun i => ?flags, unlessHeld_running hr _⟩,
    unlessHeld_running hr _, ?respLimit, unlessHeld_running hr _, unlessHeld_running hr _, unlessHeld_running hr _,
    unlessHeld_running hr _⟩
  case clear =>
    rw [exec, execConfigErrorClear, unlessHeld_running hr]
    cases v.getLsbD 16 <;> simp
  case flags =>
    by_cases hi : i < 11
    · simp [hi]
    · simp [BitVec.getLsbD_of_ge s.ev.flags i (Nat.le_of_not_lt hi)]
  case respLimit =>
    rw [exec, execRespLimitWrite, unlessHeld_running hr]
    rfl

/-! ### Watch rules -/

section
variable {s : State} (hr : Running s) (n : RuleNo) (v : W32)
include hr

theorem exec_waddrWrite_disabled (half : WaddrHalf) (he : s.rules[n].enable = false) :
    exec (.waddrWrite n half v) s = .next (raiseConfigError (half == .lo && v.extractLsb' 0 3 != 0#3)
      (putRule n { s.rules[n] with waddr := waddrWith half v s.rules[n].waddr } s)) := by
  rw [exec, execWaddrWrite, unlessHeld_running hr]
  exact if_neg (by rw [he]; exact Bool.false_ne_true)

theorem exec_waddrWrite_enabled (half : WaddrHalf) (he : s.rules[n].enable = true) :
    exec (.waddrWrite n half v) s =
      .next (raiseConfigError (waddrWith half v s.rules[n].waddr != s.rules[n].waddr) s) := by
  rw [exec, execWaddrWrite, unlessHeld_running hr]
  exact if_pos he

theorem exec_condWrite_disabled (k : Fin 6) (he : s.rules[n].enable = false) :
    exec (.condWrite n k v) s = .next (raiseConfigError (undefinedCondIn k (condsWith k v s.rules[n].conds))
      (putRule n { s.rules[n] with conds := condsWith k v s.rules[n].conds } s)) := by
  rw [exec, execCondWrite, unlessHeld_running hr]
  exact if_neg (by rw [he]; exact Bool.false_ne_true)

theorem exec_condWrite_enabled (k : Fin 6) (he : s.rules[n].enable = true) :
    exec (.condWrite n k v) s =
      .next (raiseConfigError (condsWith k v s.rules[n].conds != s.rules[n].conds) s) := by
  rw [exec, execCondWrite, unlessHeld_running hr]
  exact if_pos he

theorem exec_wctlWrite : exec (.wctlWrite n v) s = .next (raiseConfigError (wctlError s.rules[n] v)
    (putRule n (wctlEnableStore (wctlStore s.rules[n] v) (wctlEnable v)) s)) :=
  unlessHeld_running hr _

end

/-- R189: register k of the conditions holds the bits from 32k up; the others keep theirs. -/
theorem condsWith_getLsbD (k : Fin 6) (v : W32) (stored : BitVec 192) (b : Nat) :
    (condsWith k v stored).getLsbD b =
      if 32 * k.val ≤ b ∧ b < 32 * k.val + 32 then v.getLsbD (b - 32 * k.val) else stored.getLsbD b := by
  have hk := k.isLt
  have hmask : (0xFFFFFFFF#192).getLsbD (b - 32 * k.val) = decide (b - 32 * k.val < 32) := by
    rw [show 0xFFFFFFFF#192 = (BitVec.allOnes 32).setWidth 192 by decide, BitVec.getLsbD_setWidth,
      BitVec.getLsbD_allOnes]
    by_cases h : b - 32 * k.val < 32
    · simp [h]; omega
    · simp [h]
  by_cases hb : b < 192
  · simp only [condsWith, BitVec.getLsbD_or, BitVec.getLsbD_and, BitVec.getLsbD_not, BitVec.getLsbD_shiftLeft,
      BitVec.getLsbD_setWidth, hmask, hb, decide_true, Bool.true_and]
    by_cases h1 : b < 32 * k.val
    · simp [h1, Nat.not_le.mpr h1]
    · by_cases h2 : b - 32 * k.val < 32
      · have h3 : 32 * k.val ≤ b ∧ b < 32 * k.val + 32 := by omega
        have h4 : b - 32 * k.val < 192 := by omega
        simp [h1, h2, h3, h4]
      · have h3 : ¬ (32 * k.val ≤ b ∧ b < 32 * k.val + 32) := by omega
        simp [h1, h2, h3, BitVec.getLsbD_of_ge v _ (Nat.le_of_not_lt h2)]
  · have h3 : ¬ (32 * k.val ≤ b ∧ b < 32 * k.val + 32) := by omega
    rw [if_neg h3, BitVec.getLsbD_of_ge _ _ (Nat.le_of_not_lt hb), BitVec.getLsbD_of_ge _ _ (Nat.le_of_not_lt hb)]

/-- R113: a condition with a bit in register k holds code 6 or 7. -/
theorem undefinedCondIn_iff (k : Fin 6) (cs : BitVec 192) : undefinedCondIn k cs = true ↔
    ∃ b : Fin 64, 3 * b.val < 32 * k.val + 32 ∧ 32 * k.val < 3 * b.val + 3 ∧
      6 ≤ (cs.extractLsb' (3 * b.val) 3).toNat := by
  simp only [undefinedCondIn, List.any_eq_true, List.mem_range, Bool.and_eq_true, decide_eq_true_eq, condCode]
  constructor
  · rintro ⟨b, hb, ⟨h1, h2⟩, h3⟩
    exact ⟨⟨b, hb⟩, h1, h2, of_decide_eq_true h3⟩
  · rintro ⟨b, h1, h2, h3⟩
    exact ⟨b, b.isLt, ⟨h1, h2⟩, decide_eq_true h3⟩

/-- Settles O15, by whether the rule is enabled (R111, R113). -/
theorem watchAddressAndConditionWrites : Obligations.WatchAddressAndConditionWrites := by
  intro n k v s hr
  refine ⟨fun he => ⟨?lo, ?hi, condsWith k v s.rules[n].conds, _, condsWith_getLsbD k v _,
    exec_condWrite_disabled hr n v k he, fun hbad => ?bad, fun hgood => ?good⟩,
    fun he => ⟨exec_waddrWrite_enabled hr n v .lo he, exec_waddrWrite_enabled hr n v .hi he,
      _, condsWith_getLsbD k v _, exec_condWrite_enabled hr n v k he⟩⟩
  case lo => rw [exec_waddrWrite_disabled hr n v .lo he]; rfl
  case hi =>
    rw [exec_waddrWrite_disabled hr n v .hi he]
    exact congrArg _ (raiseConfigError_false _)
  case bad =>
    rw [(undefinedCondIn_iff k _).mpr hbad]
    rfl
  case good =>
    rw [Bool.eq_false_iff.mpr (mt (undefinedCondIn_iff k _).mp hgood), raiseConfigError_false]
    rfl

/-! ### The control register -/

section
variable {r : WatchRule} (v : W32)

theorem wctlStore_of_disabled (he : r.enable = false) : wctlStore r v =
    { r with mode := v.extractLsb' 1 2, action := v.extractLsb' 3 3, rearmAuto := v.getLsbD 6 } :=
  if_neg (by rw [he]; exact Bool.false_ne_true)

theorem wctlStore_of_enabled (he : r.enable = true) : wctlStore r v = r := if_pos he

theorem wctlEnableStore_of_disabled (he : r.enable = false) (en : Bool) : wctlEnableStore r en =
    if en then { r with enable := true, state := .armed, overrun := false, hits := 0 } else r := by
  unfold wctlEnableStore
  rw [he]
  cases en <;> rfl

theorem wctlEnableStore_of_enabled (he : r.enable = true) (en : Bool) : wctlEnableStore r en =
    if en then r else { r with enable := false, state := .disarmed, overrun := false } := by
  unfold wctlEnableStore
  rw [he]
  cases en <;> rfl

theorem wctlError_of_disabled (he : r.enable = false) :
    wctlError r v = decide (v.extractLsb' 1 2 = 3#2 ∨ 5 ≤ (v.extractLsb' 3 3).toNat) := by
  simp only [wctlError, he, Bool.false_eq_true, if_false, Bool.decide_or]
  rfl

theorem wctlError_of_enabled (he : r.enable = true) : wctlError r v = decide (v.extractLsb' 1 2 ≠ r.mode ∨
    v.extractLsb' 3 3 ≠ r.action ∨ v.getLsbD 6 ≠ r.rearmAuto) := by
  simp [wctlError, he, wctlMode, wctlAction, wctlRearmAuto, bne, Bool.beq_eq_decide_eq, Bool.or_assoc]

end

/-- Settles O16, by ENABLE as it stood (R111 to R113). -/
theorem watchControlWrite : Obligations.WatchControlWrite := by
  intro n v s hr
  rw [exec_wctlWrite hr]
  refine ⟨fun he => ?disabled, fun he => ?enabled⟩
  case disabled =>
    have hstore := wctlStore_of_disabled v he
    rw [wctlError_of_disabled v he, wctlEnableStore_of_disabled (by rw [hstore]; exact he), hstore]
    rfl
  case enabled =>
    rw [wctlError_of_enabled v he, wctlStore_of_enabled v he, wctlEnableStore_of_enabled he]
    rfl

end Sys2Proof.Machine
end

