-- ==== Sys2Proof/Proofs/Formats.lean ====
section
/-! The formats in memory (chapter 4): the fields of a laid-out slot read back, and with them header copies, records,
and the choice between two header copies. -/

namespace Sys2Proof.Machine

/-! ### Fields of a slot (R75, R195) -/

theorem packFields_cons (f : W32) (fs : List W32) :
    packFields (f :: fs) = (packFields fs <<< 32) ||| f.setWidth 512 := rfl

theorem packFields_getLsbD_cons (f : W32) (fs : List W32) (i : Nat) (hi : i < 512) :
    (packFields (f :: fs)).getLsbD i = if i < 32 then f.getLsbD i else (packFields fs).getLsbD (i - 32) := by
  rw [packFields_cons, BitVec.getLsbD_or, BitVec.getLsbD_shiftLeft, BitVec.getLsbD_setWidth]
  by_cases h : i < 32
  · simp [h, hi]
  · simp [h, hi, BitVec.getLsbD_of_ge f i (Nat.le_of_not_lt h)]

/-- Bit i of a slot is bit i mod 32 of field i / 32, and 0 past the last field. -/
theorem packFields_getLsbD (fs : List W32) (i : Nat) (hi : i < 512) :
    (packFields fs).getLsbD i = (fs.getD (i / 32) 0).getLsbD (i % 32) := by
  induction fs generalizing i with
  | nil => simp [packFields]
  | cons f fs ih =>
    rw [packFields_getLsbD_cons f fs i hi]
    by_cases h : i < 32
    · simp [h, Nat.div_eq_of_lt h, Nat.mod_eq_of_lt h]
    · obtain ⟨j, rfl⟩ := Nat.exists_eq_add_of_le (Nat.le_of_not_lt h)
      rw [if_neg h, Nat.add_sub_cancel_left, ih j (by omega), Nat.add_div_left _ (by decide), Nat.add_mod_left]
      rfl

theorem fieldOf_packFields (fs : List W32) (i : Nat) (hi : i < 16) : fieldOf (packFields fs) i = fs.getD i 0 := by
  refine BitVec.eq_of_getLsbD_eq fun j hj => ?_
  rw [fieldOf, BitVec.getLsbD_extractLsb', packFields_getLsbD _ _ (by omega)]
  simp only [hj, decide_true, Bool.true_and]
  rw [Nat.mul_add_div (by decide), Nat.div_eq_of_lt hj, Nat.add_zero, Nat.mul_add_mod, Nat.mod_eq_of_lt hj]

/-- The bytes below the fields that are appended do not change. -/
theorem byteOf_packFields_append (fs gs : List W32) (j : Nat) (hj : j < 4 * fs.length) (hlen : fs.length ≤ 16) :
    byteOf (packFields (fs ++ gs)) j = byteOf (packFields fs) j := by
  refine BitVec.eq_of_getLsbD_eq fun b hb => ?_
  have hlt : (8 * j + b) / 32 < fs.length := by omega
  simp only [byteOf, BitVec.getLsbD_extractLsb', hb, decide_true, Bool.true_and]
  rw [packFields_getLsbD _ _ (by omega), packFields_getLsbD _ _ (by omega), List.getD_append _ _ _ _ hlt]

/-- Past its fields a slot is zero. -/
theorem packFields_high (fs : List W32) (hlen : fs.length = 7) : (packFields fs).extractLsb' 224 288 = 0 := by
  refine BitVec.eq_of_getLsbD_eq fun b hb => ?_
  rw [BitVec.getLsbD_extractLsb', packFields_getLsbD _ _ (by omega),
    List.getD_eq_default _ _ (by omega)]
  simp

/-! ### Six fields with their check value (R75) -/

section
variable {fs : List W32} (hlen : fs.length = 6)
include hlen

theorem packChecked_high : (packChecked fs).extractLsb' 224 288 = 0 := packFields_high _ (by simp [hlen])

theorem fieldOf_packChecked (i : Nat) (hi : i < 6) : fieldOf (packChecked fs) i = fs.getD i 0 := by
  rw [packChecked, fieldOf_packFields _ _ (by omega), List.getD_append _ _ _ _ (by omega)]

theorem firstBytes_packChecked : firstBytes (packChecked fs) 24 = firstBytes (packFields fs) 24 :=
  List.map_congr_left fun j hj =>
    byteOf_packFields_append _ _ j (by rw [hlen]; exact List.mem_range.mp hj) (by omega)

/-- A slot so laid out passes its own check. -/
theorem checkHolds_packChecked : checkHolds (packChecked fs) = true := by
  rw [checkHolds, firstBytes_packChecked hlen, packChecked, fieldOf_packFields _ _ (by decide),
    List.getD_append_right _ _ _ _ (by omega), hlen]
  exact beq_self_eq_true _

end

/-! ### Header copies (R69 to R71) -/

section
variable (j g ep slots : W32) (st : HdrState)

theorem fieldOf_headerBytes (i : Nat) (hi : i < 6) :
    fieldOf (headerBytes j g st ep slots) i = [Config.jmagic, j, g, st.code, ep, slots].getD i 0 :=
  fieldOf_packChecked rfl i hi

theorem headerValid_headerBytes (slots' : W32) :
    headerValid slots' (headerBytes j g st ep slots) = true ↔ slots' = slots := by
  have hmagic : fieldOf (headerBytes j g st ep slots) 0 = Config.jmagic :=
    fieldOf_headerBytes j g ep slots st 0 (by decide)
  have hslots : fieldOf (headerBytes j g st ep slots) 5 = slots :=
    fieldOf_headerBytes j g ep slots st 5 (by decide)
  have hcheck : checkHolds (headerBytes j g st ep slots) = true := checkHolds_packChecked rfl
  rw [headerValid, hmagic, hslots, hcheck, beq_self_eq_true, Bool.true_and, Bool.true_and, beq_iff_eq, eq_comm]

theorem readHdrState_headerBytes : readHdrState (headerBytes j g st ep slots) = st := by
  rw [readHdrState, fieldOf_headerBytes _ _ _ _ _ 3 (by decide)]
  cases st <;> rfl

theorem hdrGeneration_headerBytes : hdrGeneration (headerBytes j g st ep slots) = g :=
  fieldOf_headerBytes _ _ _ _ _ 2 (by decide)

end

/-- Settles O6: the fields of a laid-out slot read back, and its check value covers them. -/
theorem headerReadsBack : Obligations.HeaderReadsBack := fun j g ep slots slots' st =>
  ⟨headerValid_headerBytes j g ep slots st slots', fieldOf_headerBytes _ _ _ _ _ 1 (by decide),
    hdrGeneration_headerBytes j g ep slots st, readHdrState_headerBytes j g ep slots st,
    fieldOf_headerBytes _ _ _ _ _ 4 (by decide), fieldOf_headerBytes _ _ _ _ _ 0 (by decide), packChecked_high rfl⟩

/-- R71: the distance from the older to the next generation is 1, and back it is 2^32 - 1, wrapped or not. -/
theorem higherCopy_next (g : W32) : higherCopy g (g + 1) = .b ∧ higherCopy (g + 1) g = .a := by
  constructor <;> simp [higherCopy]

/-- Settles O8, by the validity of each copy and the distance of the two generations. -/
theorem nextGenerationIsCurrent : Obligations.NextGenerationIsCurrent := by
  intro j g e1 e2 slots s1 s2 other
  have hold : headerValid slots (headerBytes j g s1 e1 slots) = true :=
    (headerValid_headerBytes _ _ _ _ _ _).mpr rfl
  have hnew : headerValid slots (headerBytes j (g + 1) s2 e2 slots) = true :=
    (headerValid_headerBytes _ _ _ _ _ _).mpr rfl
  obtain ⟨hb, ha⟩ := higherCopy_next g
  refine ⟨?_, ?_, fun ho => ⟨?_, ?_, ?_⟩⟩
  · simp only [currentHeader, hold, hnew, hdrGeneration_headerBytes, hb]
  · simp only [currentHeader, hold, hnew, hdrGeneration_headerBytes, ha]
  · simp only [currentHeader, hold, ho]
  · simp only [currentHeader, hold, ho]
  · simp only [currentHeader, ho]

/-! ### Records (R72, R73) -/

section
variable (j ep seq : W32) (cell : CellIx) (data : CellData)

theorem fieldOf_recordHeaderBytes (i : Nat) (hi : i < 6) : fieldOf (recordHeaderBytes j ep seq cell data) i =
    [Config.rmagic, j, ep, seq, cell.setWidth 32, checkValue (firstBytes data 64)].getD i 0 :=
  fieldOf_packChecked rfl i hi

theorem recordCell_recordHeaderBytes : recordCell (recordHeaderBytes j ep seq cell data) = cell := by
  rw [recordCell, fieldOf_recordHeaderBytes _ _ _ _ _ 4 (by decide)]
  refine BitVec.eq_of_getLsbD_eq fun b hb => ?_
  simp [hb]
  omega

end

/-- Settles O7: every field of a laid-out record reads back, so the tests of R73 compare what was laid out. -/
theorem recordReadsBack : Obligations.RecordReadsBack := by
  intro j ep seq j' ep' k cell data found
  have hf := fieldOf_recordHeaderBytes j ep seq cell data
  refine ⟨?_, recordCell_recordHeaderBytes j ep seq cell data, hf 0 (by decide), packChecked_high rfl⟩
  rw [recordValid, hf 0 (by decide), hf 1 (by decide), hf 2 (by decide), hf 3 (by decide), hf 5 (by decide),
    show checkHolds (recordHeaderBytes j ep seq cell data) = true from checkHolds_packChecked rfl]
  simp [and_assoc]

end Sys2Proof.Machine
end

