-- ==== Sys2Proof/Proofs/Classes.lean ====
section
/-! The class of a cell (R2, R3, R6). -/

namespace Sys2Proof.Machine

/-- R2, as arithmetic on the geometry. -/
theorem inJournalArea_iff (c : Settings) (cell : CellIx) : inJournalArea c cell = true ↔
    4 ≤ c.jslots.toNat ∧ c.jslots.toNat ≤ 1048576 ∧ c.jbaseCell.toNat + c.jslots.toNat ≤ 1073741824 ∧
      c.jbaseCell.toNat ≤ cell.toNat ∧ cell.toNat < c.jbaseCell.toNat + c.jslots.toNat := by
  simp only [inJournalArea, geometryOk, Bool.and_eq_true, decide_eq_true_eq, and_assoc]
  exact Iff.rfl

/-- The entry takes part and covers the cell (R3). -/
theorem decides_iff (g : GuardEntry) (cell : CellIx) : (g.takesPart && g.covers cell) = true ↔
    g.valid = true ∧ 1 ≤ g.count.toNat ∧ g.base.toNat + g.count.toNat ≤ 1073741824 ∧ g.mode ≠ 3#2 ∧
      g.base.toNat ≤ cell.toNat ∧ cell.toNat < g.base.toNat + g.count.toNat := by
  simp only [GuardEntry.takesPart, GuardEntry.covers, Bool.and_eq_true, GuardEntry.formed_iff, decide_eq_true_eq,
    and_assoc]

/-- The lowest-numbered of sixteen entries with a property is the one a search finds. -/
theorem find?_toList_of_lowest {α : Type} {v : Vector α 16} {p : α → Bool} {n : Fin 16} (hn : p v[n] = true)
    (hlow : ∀ m : Fin 16, m < n → p v[m] = false) : v.toList.find? p = some v[n] := by
  rw [List.find?_eq_some_iff_getElem]
  refine ⟨hn, n.val, by simp, by simp, fun j hj => ?_⟩
  have := hlow ⟨j, hj.trans n.isLt⟩ hj
  simpa using this

theorem find?_toList_eq_none {α : Type} {v : Vector α 16} {p : α → Bool} (h : ∀ n : Fin 16, p v[n] = false) :
    v.toList.find? p = none := by
  refine List.find?_eq_none.mpr fun x hx => ?_
  obtain ⟨i, hi, rfl⟩ := Vector.mem_iff_getElem.mp (Vector.mem_toList_iff.mp hx)
  simpa using h ⟨i, hi⟩

theorem classify_of_decides {c : Settings} {g : Vector GuardEntry 16} {cell : CellIx}
    (ha : inJournalArea c cell = false) {n : Fin 16} (hn : (g[n].takesPart && g[n].covers cell) = true)
    (hlow : ∀ m : Fin 16, m < n → (g[m].takesPart && g[m].covers cell) = false) :
    classify c g cell = (modeClass g[n].mode).getD .unguarded := by
  have hfind : g.toList.find? (fun g => g.takesPart && g.covers cell) = some g[n] :=
    find?_toList_of_lowest hn hlow
  rw [classify, ha, hfind]
  rfl

/-- Settles O9: the area first, else the search of R6 over the entries that decide. -/
theorem classOfACell : Obligations.ClassOfACell := by
  intro c g cell
  refine ⟨fun ha => if_pos ((inJournalArea_iff c cell).mpr ha), fun ha n hn hlow => ?entry, fun ha hnone => ?none⟩
  case entry =>
    have hclass := classify_of_decides (Bool.eq_false_iff.mpr (mt (inJournalArea_iff c cell).mp ha))
      ((decides_iff _ cell).mpr hn)
      (fun m hm => Bool.eq_false_iff.mpr (mt (decides_iff _ cell).mp (hlow m hm)))
    exact ⟨fun hm => by rw [hclass, hm]; rfl, fun hm => by rw [hclass, hm]; rfl,
      fun hm => by rw [hclass, hm]; rfl⟩
  case none =>
    have hfind : g.toList.find? (fun g => g.takesPart && g.covers cell) = none :=
      find?_toList_eq_none fun n => Bool.eq_false_iff.mpr (mt (decides_iff _ cell).mp (hnone n))
    rw [classify, if_neg (mt (inJournalArea_iff c cell).mp ha), hfind]

end Sys2Proof.Machine
end

