-- ==== Sys2Proof/Proofs/Evaluation.lean ====
section
/-! The evaluation of a write by its rules and the merge of what they ask for (R115, R119 to R121, R125). -/

namespace Sys2Proof.Machine

/-! ### The merged content of a cell (R115) -/

/-- Bit i of the mask: its byte is enabled. -/
theorem strobeMask_getLsbD (st : Strobes) (i : Nat) (hi : i < 512) :
    (strobeMask st).getLsbD i = st.getLsbD (i / 8) := by
  have hbyte (j : Nat) : (0xFF#512 <<< (8 * j)).getLsbD i = decide (j = i / 8) := by
    rw [BitVec.getLsbD_shiftLeft, BitVec.getLsbD_ofNat, show 0xFF = 2 ^ 8 - 1 from rfl, Nat.testBit_two_pow_sub_one]
    by_cases h : j = i / 8
    · simp [h, hi]; omega
    · simp [h]; omega
  have hfold (l : List Nat) (m : CellData) : (l.foldl (fun m j =>
      if st.getLsbD j then m ||| (0xFF#512 <<< (8 * j)) else m) m).getLsbD i =
        (m.getLsbD i || (decide (i / 8 ∈ l) && st.getLsbD (i / 8))) := by
    induction l generalizing m with
    | nil => simp
    | cons j l ih =>
      rw [List.foldl_cons, ih]
      by_cases hj : j = i / 8
      · subst hj
        cases hs : st.getLsbD (i / 8) <;> simp [hbyte]
      · have hne : ¬ i / 8 = j := fun h => hj h.symm
        cases hs : st.getLsbD j <;> simp [hbyte, hj, hne]
  rw [strobeMask, hfold]
  have : i / 8 < 64 := by omega
  simp [this]

theorem mergeCell_byte (old new : CellData) (st : Strobes) (j : Fin 64) :
    (mergeCell old new st).extractLsb' (8 * j.val) 8 =
      if st.getLsbD j.val then new.extractLsb' (8 * j.val) 8 else old.extractLsb' (8 * j.val) 8 := by
  refine BitVec.eq_of_getLsbD_eq fun b hb => ?_
  have hlt : 8 * j.val + b < 512 := by omega
  have hdiv : (8 * j.val + b) / 8 = j.val := by omega
  rw [mergeCell, BitVec.getLsbD_extractLsb', BitVec.getLsbD_or, BitVec.getLsbD_and, BitVec.getLsbD_and,
    BitVec.getLsbD_not, strobeMask_getLsbD st _ hlt, hdiv]
  cases st.getLsbD j.val <;> simp [hb, hlt]

/-! ### Evaluation (R119 to R121) -/

/-- The actions gathered before a rule is evaluated are kept in front. -/
theorem evalRule_gathered (e : Entry) (old : CellData) (s : State) (asked : List Asked) (n : RuleNo) :
    evalRule e old (s, asked) n = ((evalRule e old (s, []) n).1, asked ++ (evalRule e old (s, []) n).2) := by
  unfold evalRule
  dsimp only
  split
  · split
    · simp
    · split <;> simp
  · simp

theorem evalRules_gathered (e : Entry) (old : CellData) (l : List RuleNo) (s : State) (asked : List Asked) :
    l.foldl (evalRule e old) (s, asked) =
      ((l.foldl (evalRule e old) (s, [])).1, asked ++ (l.foldl (evalRule e old) (s, [])).2) := by
  induction l generalizing s asked with
  | nil => simp
  | cons n l ih =>
    rw [List.foldl_cons, List.foldl_cons, evalRule_gathered,
      ih, ih (evalRule e old (s, []) n).1 (evalRule e old (s, []) n).2, List.append_assoc]

/-- Evaluation reads the write's cell, tag, enables and data alone. -/
theorem evalRule_watched (e : Entry) (w : List RuleNo) (old : CellData) :
    evalRule { e with watched := w } old = evalRule e old := rfl

theorem evaluate_cons {e : Entry} {n : RuleNo} {rest : List RuleNo} (hw : e.watched = n :: rest)
    (old : CellData) (s : State) : evaluate e old s =
      ((evaluate { e with watched := rest } old (evaluate { e with watched := [n] } old s).1).1,
        (evaluate { e with watched := [n] } old s).2 ++
          (evaluate { e with watched := rest } old (evaluate { e with watched := [n] } old s).1).2) := by
  simp only [evaluate, hw, List.foldl_cons, List.foldl_nil, evalRule_watched]
  exact evalRules_gathered e old rest (evalRule e old (s, []) n).1 (evalRule e old (s, []) n).2

/-- R114: the write touches the rule's word. -/
theorem touchedBy_iff (r : WatchRule) (cell : CellIx) (st : Strobes) : r.touchedBy cell st = true ↔
    r.waddr.extractLsb' 3 30 = cell ∧
      ∃ j : Fin 8, st.getLsbD (8 * (r.waddr.extractLsb' 0 3).toNat + j.val) = true := by
  have hbyte : st.extractLsb' (8 * r.word) 8 ≠ 0#8 ↔
      ∃ j : Fin 8, st.getLsbD (8 * r.word + j.val) = true := by
    rw [← not_iff_not, not_not, not_exists]
    constructor
    · intro h j
      have := congrArg (·.getLsbD j.val) h
      simpa [BitVec.getLsbD_extractLsb'] using this
    · intro h
      refine BitVec.eq_of_getLsbD_eq fun b hb => ?_
      simpa [BitVec.getLsbD_extractLsb', hb] using h ⟨b, hb⟩
  rw [WatchRule.touchedBy, Bool.and_eq_true, beq_iff_eq, bne_iff_ne, hbyte]
  rfl

section
variable {e : Entry} {old : CellData} {s : State} {n : RuleNo}

/-- A rule that takes no part in the evaluation of this write leaves all as it is. -/
theorem evalRule_passes (h : ¬ (s.rules[n].enable && s.rules[n].touchedBy e.cell e.strobes) = true ∨
      s.rules[n].compare (wordOf old s.rules[n].word)
        (wordOf (mergeCell old e.data e.strobes) s.rules[n].word) = .noMatch ∨
      s.rules[n].state = .disarmed) : evalRule e old (s, []) n = (s, []) := by
  unfold evalRule
  dsimp only
  split
  next ht =>
    rcases h with h | h | h
    · exact absurd ht h
    · rw [h]
    · rw [h]
      split <;> rfl
  next => rfl

variable {bit : Option (Fin 64)}
  (ht : (s.rules[n].enable && s.rules[n].touchedBy e.cell e.strobes) = true)
  (hm : s.rules[n].compare (wordOf old s.rules[n].word)
    (wordOf (mergeCell old e.data e.strobes) s.rules[n].word) = .matched bit)
include ht hm

/-- R120. -/
theorem evalRule_armed (ha : s.rules[n].state = .armed) : evalRule e old (s, []) n =
    (fireRule n e.tag (wordOf old s.rules[n].word) (wordOf (mergeCell old e.data e.strobes) s.rules[n].word) bit s,
      [(s.rules[n].action, n)]) := by
  simp only [evalRule, ht, if_true, hm, ha, List.nil_append]

/-- R121. -/
theorem evalRule_fired (hf : s.rules[n].state = .fired) :
    evalRule e old (s, []) n = (overrunRule n e.tag s, []) := by
  simp only [evalRule, ht, if_true, hm, hf]

end

theorem overrunRule_first {s : State} {n : RuleNo} (tag : Tag) (ho : s.rules[n].overrun = false) :
    overrunRule n tag s = report .watch (.watchOverrun n s.rules[n].addr tag)
      (putRule n { s.rules[n] with hits := countHit s.rules[n].hits, overrun := true } s) :=
  if_neg (by rw [ho]; exact Bool.false_ne_true)

theorem overrunRule_again {s : State} {n : RuleNo} (tag : Tag) (ho : s.rules[n].overrun = true) :
    overrunRule n tag s = putRule n { s.rules[n] with hits := countHit s.rules[n].hits } s := by
  rw [overrunRule, if_pos ho, ← ho]

/-- Settles O56: the evaluation is a fold over WATCHED, and each rule acts by its match and its state. -/
theorem watchRuleFires : Obligations.WatchRuleFires := by
  refine ⟨mergeCell_byte, fun s e old => ⟨fun hw => ?_, fun n rest hw => evaluate_cons hw old s⟩, ?_⟩
  · rw [evaluate, hw]; rfl
  · intro s e n old hw r before after addr hits touched
    have heval : evaluate e old s = evalRule e old (s, []) n := by rw [evaluate, hw]; rfl
    have htouch : touched ↔ (r.enable && r.touchedBy e.cell e.strobes) = true := by
      rw [Bool.and_eq_true, touchedBy_iff]
    rw [heval]
    refine ⟨fun bit ht hm ha => ?fires, fun bit ht hm hf ho => ?overruns, fun bit ht hm hf ho => ?counts,
      fun h => evalRule_passes (h.imp_left (mt htouch.mpr))⟩
    case fires =>
      rw [evalRule_armed (htouch.mp ht) hm ha]
      rfl
    case overruns =>
      rw [evalRule_fired (htouch.mp ht) hm hf, overrunRule_first e.tag ho]
      rfl
    case counts =>
      rw [evalRule_fired (htouch.mp ht) hm hf, overrunRule_again e.tag ho]
      rfl

/-! ### The merge (R125) -/

theorem askedFor_eq_none {code : BitVec 3} {asked : List Asked} (h : ¬ ∃ r, (code, r) ∈ asked) :
    askedFor code asked = none := by
  rw [askedFor, List.find?_eq_none.mpr]
  · rfl
  · rintro ⟨c, r⟩ hm hc
    rw [beq_iff_eq] at hc
    exact h ⟨r, by rw [← hc]; exact hm⟩

theorem askedFor_isSome {code : BitVec 3} {asked : List Asked} (h : ∃ r, (code, r) ∈ asked) :
    ∃ r, askedFor code asked = some r := by
  obtain ⟨r, hr⟩ := h
  have : (asked.find? (fun a => a.1 == code)).isSome :=
    List.find?_isSome.mpr ⟨(code, r), hr, beq_self_eq_true _⟩
  obtain ⟨a, ha⟩ := Option.isSome_iff_exists.mp this
  exact ⟨a.2, by rw [askedFor, ha]; rfl⟩

/-- In ascending rule number, the first that asked for a code is the lowest. -/
theorem askedFor_lowest {code : BitVec 3} {asked : List Asked} (ho : asked.Pairwise (fun a b => a.2 < b.2))
    {r : RuleNo} (hr : (code, r) ∈ asked) (hlow : ∀ x, (code, x) ∈ asked → r ≤ x) :
    askedFor code asked = some r := by
  obtain ⟨before, after, rfl⟩ := List.append_of_mem hr
  rw [askedFor, List.find?_append, List.find?_eq_none.mpr]
  · simp
  · rintro ⟨c, x⟩ hx hc
    rw [beq_iff_eq] at hc
    have hlt : x < r := (List.pairwise_append.mp ho).2.2 (c, x) hx (code, r) List.mem_cons_self
    exact absurd (hlow x (by rw [← hc]; exact List.mem_append_left _ hx)) (not_le.mpr hlt)

/-- Settles O57: `merge` asks for the four codes in the order of R125. -/
theorem mergeTakesTheStrongest : Obligations.MergeTakesTheStrongest := by
  intro asked ho
  refine ⟨fun h1 => ?_, fun r h1 hl => ?_, fun r h1 h4 hl => ?_, fun r h1 h4 h3 hl => ?_, fun h1 h4 h3 h2 => ?_⟩
  · obtain ⟨r, hr⟩ := askedFor_isSome h1
    rw [merge, hr]
  · rw [merge, askedFor_eq_none h1, askedFor_lowest ho hl.1 hl.2]
  · rw [merge, askedFor_eq_none h1, askedFor_eq_none h4, askedFor_lowest ho hl.1 hl.2]
  · rw [merge, askedFor_eq_none h1, askedFor_eq_none h4, askedFor_eq_none h3, askedFor_lowest ho hl.1 hl.2]
  · rw [merge, askedFor_eq_none h1, askedFor_eq_none h4, askedFor_eq_none h3, askedFor_eq_none h2]

end Sys2Proof.Machine
end

