-- ==== Sys2Proof/Proofs/Window.lean ====
section
/-! What the register window shows (R184 to R192): registers are made of fields, each read back from its own bits;
the posting of notices, NOTICE_POP and the head record, and the registers that read back what was written. -/

namespace Sys2Proof.Machine

/-! ### Fields of a register -/

theorem field_getLsbD (p w n i : Nat) (hi : i < 32) :
    (field p w n).getLsbD i = (decide (p ≤ i) && decide (i < p + w) && n.testBit (i - p)) := by
  rw [field, BitVec.getLsbD_shiftLeft, BitVec.getLsbD_setWidth, BitVec.getLsbD_ofNat]
  by_cases h1 : p ≤ i <;> by_cases h2 : i < p + w
  · have h3 : i - p < w := by omega
    have h4 : i - p < 32 := by omega
    simp [hi, h1, h2, h3, h4, Nat.not_lt.mpr h1]
  · have h3 : ¬ i - p < w := by omega
    simp [h2, h3]
  · simp [Nat.lt_of_not_le h1, h1]
  · simp [Nat.lt_of_not_le h1, h1]

/-- A field reads back from its own bits. -/
theorem field_extract_self (p w n : Nat) (h : p + w ≤ 32) : (field p w n).extractLsb' p w = BitVec.ofNat w n := by
  refine BitVec.eq_of_getLsbD_eq fun i hi => ?_
  rw [BitVec.getLsbD_extractLsb', field_getLsbD _ _ _ _ (by omega), BitVec.getLsbD_ofNat]
  simp [hi]

/-- In the bits of another field it reads 0. -/
theorem field_extract_other (p w n q v : Nat) (h : q + v ≤ p ∨ p + w ≤ q) (hq : q + v ≤ 32) :
    (field p w n).extractLsb' q v = 0#v := by
  refine BitVec.eq_of_getLsbD_eq fun i hi => ?_
  rw [BitVec.getLsbD_extractLsb', field_getLsbD _ _ _ _ (by omega)]
  have : ¬ (p ≤ q + i ∧ q + i < p + w) := by omega
  rw [← Bool.decide_and, decide_eq_false this, Bool.false_and, Bool.and_false, BitVec.getLsbD_zero]

theorem bit1_eq_field (b : Bool) : bit1 b = field 0 1 b.toNat := by cases b <;> rfl

theorem bit1_shiftLeft_eq_field (b : Bool) (p : Nat) : bit1 b <<< p = field p 1 b.toNat := by
  cases b <;> simp [bit1, field]

theorem setWidth_eq_field {w : Nat} (x : BitVec w) : x.setWidth 32 = field 0 w x.toNat := by simp [field]

theorem setWidth_shiftLeft_eq_field {w : Nat} (x : BitVec w) (p : Nat) :
    x.setWidth 32 <<< p = field p w x.toNat := by simp [field]

/-- The bit at the place of a one-bit field. -/
theorem field_bit_self (p : Nat) (b : Bool) (h : p < 32) : (field p 1 b.toNat).getLsbD p = b := by
  rw [field_getLsbD _ _ _ _ h]
  cases b <;> simp

theorem field_bit_other (p w n i : Nat) (h : i < p ∨ p + w ≤ i) (hi : i < 32) :
    (field p w n).getLsbD i = false := by
  rw [field_getLsbD _ _ _ _ hi]
  have : ¬ (p ≤ i ∧ i < p + w) := by omega
  rw [← Bool.decide_and, decide_eq_false this, Bool.false_and]

/-- The low n bits of a value written to a register. -/
theorem lowBits_eq_and (v : W32) (n : Nat) :
    (v.extractLsb' 0 n).setWidth 32 = v &&& BitVec.ofNat 32 (2 ^ n - 1) := by
  refine BitVec.eq_of_getLsbD_eq fun i hi => ?_
  rw [BitVec.getLsbD_setWidth, BitVec.getLsbD_extractLsb', BitVec.getLsbD_and, BitVec.getLsbD_ofNat,
    Nat.testBit_two_pow_sub_one, Nat.zero_add, Bool.and_comm (v.getLsbD i)]
  simp [hi]

/-! ### Posting (R174, R175, R179, R180) -/

/-- The classes in the order of R174 have the flags from bit 0 up (R191). -/
theorem EvClass.bit_of_order (k : Fin 11) : (#v[EvClass.fault, .stall, .power, .deadline, .journalFull, .holdExpired,
    .noticeLost, .watch, .protect, .bare, .epochDone][k]).bit = k.val := by
  revert k; decide

theorem post_of_room {s : State} (h : s.ev.notices.length < 16) (b : NoticeBody) :
    post b s = { s with ev := { s.ev with notices := s.ev.notices ++ [posted b s] } } := if_pos h

theorem post_of_full {s : State} (h : 16 ≤ s.ev.notices.length) (b : NoticeBody) :
    post b s = setClass .noticeLost s := if_neg (Nat.not_lt.mpr h)

/-- Settles O58, by whether the notice queue has room. -/
theorem noticesJoinOrAreLost : Obligations.NoticesJoinOrAreLost := by
  intro s b c k order hc n flag lost
  have hbit : c.bit = k.val := hc ▸ EvClass.bit_of_order k
  have hflag : flag = 1#11 <<< c.bit := by rw [hbit]
  refine ⟨by rw [classPending, hbit], fun hr => readReg_running hr 0x058, fun hroom => ?room, fun hfull => ?full⟩
  case room =>
    have hpost := post_of_room hroom b
    exact ⟨hpost, by rw [report, hpost, hflag]; rfl⟩
  case full =>
    have hpost := post_of_full hfull b
    exact ⟨hpost, by rw [report, hpost, hflag]; rfl⟩

/-! ### The head record (R179, R181, R192) -/

/-- The fields the window shows of a notice are those the table of R179 gives its kind. -/
theorem noticeView_fields (b : NoticeBody) : (noticeView b).kind = b.kindCode ∧ (noticeView b).addr = b.address? ∧
    (noticeView b).tag = b.tag? ∧ (noticeView b).rule = b.rule? ∧ (noticeView b).values = b.values? ∧
    (noticeView b).bit = b.bit? ∧ (noticeView b).index = b.index? ∧ (noticeView b).reason = b.reason? := by
  refine ⟨?_, ?_, ?_, ?_, ?_, ?_, ?_, ?_⟩
  all_goals cases b
  case refine_8.walkStall a k kind phase cause => cases kind <;> cases phase <;> cases cause <;> rfl
  case refine_8.actionDropped r a t why => rcases why with st | _ <;> (try cases st) <;> rfl
  all_goals first | rfl | (rename_i why; cases why <;> rfl)

/-- NH0 as its fields. -/
theorem noticeWord0_eq_fields (b : NoticeBody) (dsel : BitVec 2) : noticeWord0 b ||| dsel.setWidth 32 <<< 25 =
    field 0 5 b.kindCode ||| field 5 1 b.address?.isSome.toNat ||| field 6 1 b.tag?.isSome.toNat |||
      field 7 1 b.rule?.isSome.toNat ||| field 8 1 b.values?.isSome.toNat ||| field 9 1 b.bit?.isSome.toNat |||
      field 10 1 b.index?.isSome.toNat ||| field 11 1 b.reason?.isSome.toNat |||
      field 12 4 ((b.tag?.map Fin.val).getD 0) ||| field 16 3 ((b.rule?.map Fin.val).getD 0) |||
      field 19 6 ((b.bit?.map Fin.val).getD 0) ||| field 25 2 dsel.toNat := by
  simp only [noticeWord0, bit1_shiftLeft_eq_field, setWidth_shiftLeft_eq_field]

/-- NH4 as its fields. -/
theorem noticeWord4_eq_fields (b : NoticeBody) : noticeWord4 b =
    field 0 4 ((b.address?.getD 0).extractLsb' 32 4).toNat ||| field 4 6 (b.reason?.getD 0) |||
      field 10 20 (b.index?.getD 0) := by
  rw [noticeWord4, setWidth_eq_field]

theorem ofNat_map_val_getD {w n : Nat} [NeZero n] (o : Option (Fin n)) (h : n ≤ 2 ^ w) :
    (BitVec.ofNat w ((o.map Fin.val).getD 0)).toNat = (o.getD 0).val := by
  rw [BitVec.toNat_ofNat]
  cases o with
  | none => rfl
  | some x => exact Nat.mod_eq_of_lt (x.isLt.trans_le h)

/-- Every code of REASON fits its six bits. -/
theorem reason_lt (b : NoticeBody) : b.reason?.getD 0 < 64 := by
  have hstate (st : EngState) : st.code < 64 := by cases st <;> decide
  cases b with
  | walkStall a k kind phase cause =>
    have : walkReasonCode kind phase cause < 64 := by cases kind <;> cases phase <;> cases cause <;> decide
    exact this
  | actionDropped r a t why =>
    cases why with
    | inState st => exact hstate st
    | exhausted => exact Nat.lt_of_sub_eq_succ rfl
  | powerChange asserted => cases asserted <;> decide
  | recoveryResult why => cases why <;> exact Nat.lt_of_sub_eq_succ rfl
  | epochEvent why => cases why <;> exact Nat.lt_of_sub_eq_succ rfl
  | denied a t why => cases why <;> exact Nat.lt_of_sub_eq_succ rfl
  | holdExpired a t why => cases why <;> exact Nat.lt_of_sub_eq_succ rfl
  | forwardFault a t why => cases why <;> exact Nat.lt_of_sub_eq_succ rfl
  | journalFault a t k why => cases why <;> exact Nat.lt_of_sub_eq_succ rfl
  | headerFault a why => cases why <;> exact Nat.lt_of_sub_eq_succ rfl
  | deadlineExpired why => cases why <;> decide
  | protocol a t why => cases why <;> exact Nat.lt_of_sub_eq_succ rfl
  | _ => exact Nat.lt_of_sub_eq_succ rfl

/-- A 36-bit address in its two parts. -/
theorem addr_split (a : Addr) : a.extractLsb' 32 4 ++ a.extractLsb' 0 32 = a := by
  refine BitVec.eq_of_getLsbD_eq fun i hi => ?_
  rw [BitVec.getLsbD_append]
  by_cases h : i < 32
  · simp [h]
  · have h4 : i - 32 < 4 := by omega
    have h32 : 32 + (i - 32) = i := by omega
    simp [h, h4, h32]

/-- The quarter of OLD and NEW that DSEL chooses (R192). -/
theorem noticeWord5_of_values {b : NoticeBody} {old new : W64} (h : b.values? = some (old, new)) (dsel : BitVec 2) :
    noticeWord5 dsel b = (new ++ old).extractLsb' (32 * dsel.toNat) 32 := by
  have hlt := dsel.isLt
  rw [noticeWord5, h]
  refine BitVec.eq_of_getLsbD_eq fun i hi => ?_
  rw [BitVec.getLsbD_extractLsb', BitVec.getLsbD_append]
  dsimp only
  split
  next h0 => rw [h0]; simp [hi]; omega
  next h1 => rw [h1]; simp [hi]; omega
  next h2 =>
    have h64 : ¬ 64 + i < 64 := by omega
    rw [h2]; simp [hi]
  next h0 h1 h2 =>
    have h3 : dsel.toNat = 3 := by
      have : dsel.toNat ≠ 0 := h0
      have : dsel.toNat ≠ 1 := h1
      have : dsel.toNat ≠ 2 := h2
      omega
    have h64 : ¬ 96 + i < 64 := by omega
    have h96 : 96 + i - 64 = 32 + i := by omega
    rw [h3]; simp [hi, h96, h64]

section
variable {s : State} (hr : Running s) {n : Notice} {rest : List Notice} (hq : s.ev.notices = n :: rest)
include hr

/-- The registers of the head record while the queue holds one. -/
theorem readReg_notice_cons (hq : s.ev.notices = n :: rest) :
    readReg s 0x070 = noticeWord0 n.body ||| s.port.dsel.setWidth 32 <<< 25 ∧ readReg s 0x074 = n.time ∧
      readReg s 0x078 = n.epoch ∧ readReg s 0x07C = (n.body.address?.getD 0).extractLsb' 0 32 ∧
      readReg s 0x080 = noticeWord4 n.body ∧ readReg s 0x084 = noticeWord5 s.port.dsel n.body := by
  have hk (off : BitVec 10) (k : Nat) (h : readWindow s off = readNotice s k) : readReg s off = readNotice s k :=
    (readReg_running hr off).trans h
  refine ⟨(hk 0x070 0 rfl).trans ?_, (hk 0x074 1 rfl).trans ?_, (hk 0x078 2 rfl).trans ?_,
    (hk 0x07C 3 rfl).trans ?_, (hk 0x080 4 rfl).trans ?_, (hk 0x084 5 rfl).trans ?_⟩
  all_goals simp only [readNotice, hq]

/-- They read 0 while it is empty, DSEL apart. -/
theorem readReg_notice_nil (hq : s.ev.notices = []) :
    readReg s 0x070 = field 25 2 s.port.dsel.toNat ∧ readReg s 0x074 = 0 ∧ readReg s 0x078 = 0 ∧
      readReg s 0x07C = 0 ∧ readReg s 0x080 = 0 ∧ readReg s 0x084 = 0 := by
  have hk (off : BitVec 10) (k : Nat) (h : readWindow s off = readNotice s k) : readReg s off = readNotice s k :=
    (readReg_running hr off).trans h
  refine ⟨(hk 0x070 0 rfl).trans ?_, (hk 0x074 1 rfl).trans ?_, (hk 0x078 2 rfl).trans ?_,
    (hk 0x07C 3 rfl).trans ?_, (hk 0x080 4 rfl).trans ?_, (hk 0x084 5 rfl).trans ?_⟩
  all_goals simp only [readNotice, hq]
  · exact setWidth_shiftLeft_eq_field _ _
  all_goals rfl

end

/-- Settles O25: NH0 and NH4 are disjoint fields, each read back from its own bits. -/
theorem noticePop : Obligations.NoticePop := by
  intro s hr
  refine ⟨fun n rest hq => ⟨?pop, ?head⟩, fun hq => ⟨?none, ?count, ?empty⟩⟩
  case pop =>
    rw [exec, execNoticePop, unlessHeld_running hr, hq]
    rfl
  case none =>
    rw [exec, execNoticePop, unlessHeld_running hr, hq]
    rfl
  case count =>
    have hread : readReg s 0x060 = field 0 5 s.ev.notices.length := readReg_running hr 0x060
    rw [hread, hq]
    rfl
  case empty =>
    obtain ⟨h0, hrest⟩ := readReg_notice_nil hr hq
    rw [h0]
    exact ⟨field_extract_other _ _ _ _ _ (by decide) (by decide), hrest⟩
  case head =>
    obtain ⟨h0, h1, h2, h3, h4, h5⟩ := readReg_notice_cons hr hq
    obtain ⟨vk, va, vt, vr, vv, vb, vi, vw⟩ := noticeView_fields n.body
    rw [noticeWord0_eq_fields] at h0
    rw [noticeWord4_eq_fields] at h4
    simp only [h0, h1, h2, h3, h4, h5, vk, va, vt, vr, vv, vb, vi, vw, BitVec.extractLsb'_or, BitVec.getLsbD_or]
    simp (disch := decide) only [field_extract_self, field_extract_other, field_bit_self, field_bit_other,
      BitVec.or_zero, BitVec.zero_or, Bool.or_false, Bool.false_or, BitVec.ofNat_toNat, BitVec.setWidth_eq,
      ofNat_map_val_getD, addr_split, true_and]
    exact ⟨rfl, Nat.mod_eq_of_lt (reason_lt n.body), rfl, fun hv => by rw [noticeWord5, hv],
      fun _ _ hv => noticeWord5_of_values hv _⟩

end Sys2Proof.Machine
end

