-- ==== Sys2Proof/Proofs/ReadBack.lean ====
section
/-! The registers read back (R184 to R192): the configuration registers what was written to them, the others the
values they stand for. -/

namespace Sys2Proof.Machine

/-! ### Offsets of the guard and watch registers (R184) -/

theorem readWindow_high (s : State) {off : BitVec 10} (h : 0x100 ≤ off.toNat) : readWindow s off =
    if 0x200 ≤ off.toNat then
      readWatch s.rules[Fin.ofNat 8 ((off.toNat - 0x200) / 0x40)] ((off.toNat - 0x200) % 0x40)
    else if 0x100 ≤ off.toNat ∧ off.toNat < 0x180 ∧ off.toNat % 8 = 0 then
      readGuardA s.guards[Fin.ofNat 16 ((off.toNat - 0x100) / 8)]
    else if 0x100 ≤ off.toNat ∧ off.toNat < 0x180 ∧ off.toNat % 8 = 4 then
      readGuardB s.guards[Fin.ofNat 16 ((off.toNat - 0x100) / 8)]
    else 0 := by
  unfold readWindow
  dsimp only
  split
  on_goal -1 => rfl
  all_goals omega

theorem readWindow_guardA (s : State) {off : BitVec 10} {n : Fin 16} (ho : off.toNat = 0x100 + 8 * n.val) :
    readWindow s off = readGuardA s.guards[n] := by
  have hn : Fin.ofNat 16 ((off.toNat - 0x100) / 8) = n := by ext; simp [ho]
  rw [readWindow_high s (by omega), if_neg (by omega), if_pos (by omega)]
  exact congrArg (fun m : Fin 16 => readGuardA s.guards[m]) hn

theorem readWindow_guardB (s : State) {off : BitVec 10} {n : Fin 16} (ho : off.toNat = 0x104 + 8 * n.val) :
    readWindow s off = readGuardB s.guards[n] := by
  have hn : Fin.ofNat 16 ((off.toNat - 0x100) / 8) = n := by ext; simp [ho]; omega
  rw [readWindow_high s (by omega), if_neg (by omega), if_neg (by omega), if_pos (by omega)]
  exact congrArg (fun m : Fin 16 => readGuardB s.guards[m]) hn

/-- Register k of the sixteen words of a rule. -/
theorem readWindow_rule (s : State) {off : BitVec 10} {n : RuleNo} {k : Nat} (hk : k < 64)
    (ho : off.toNat = 0x200 + 64 * n.val + k) : readWindow s off = readWatch s.rules[n] k := by
  have hn : Fin.ofNat 8 ((off.toNat - 0x200) / 0x40) = n := by
    ext
    simp only [Fin.ofNat_eq_cast, Fin.val_natCast]
    omega
  have hm : (off.toNat - 0x200) % 0x40 = k := by omega
  rw [readWindow_high s (by omega), if_pos (by omega), hm]
  exact congrArg (fun m : RuleNo => readWatch s.rules[m] k) hn

/-- An offset of the window is its number. -/
theorem toNat_offset {m : Nat} (h : m < 1024) : (BitVec.ofNat 10 m).toNat = m := by
  rw [BitVec.toNat_ofNat]
  exact Nat.mod_eq_of_lt h

/-! ### Values written and read back -/

/-- CONFIG0 defines bits 12:0 (R187). -/
theorem readConfig0_config0Store (v : W32) (c : Settings) : readConfig0 (config0Store v c) = v &&& 0x1FFF#32 := by
  have hbare : bit1 ((config0Store v c).barePolicy == .deny) = bit1 (v.getLsbD 8) := by
    simp only [config0Store, config0Bare]; cases v.getLsbD 8 <;> rfl
  have hfull : bit1 ((config0Store v c).fullPolicy == .deny) = bit1 (v.getLsbD 9) := by
    simp only [config0Store, config0Full]; cases v.getLsbD 9 <;> rfl
  rw [readConfig0, hbare, hfull]
  simp only [bit1_shiftLeft_eq_field, setWidth_shiftLeft_eq_field, config0Store, config0Tickdiv, config0Action,
    config0Enable]
  rw [setWidth_eq_field]
  have hbit (b : Bool) : decide (b.toNat % 2 = 1) = b := by cases b <;> rfl
  refine BitVec.eq_of_getLsbD_eq fun i hi => ?_
  rw [BitVec.getLsbD_and, BitVec.getLsbD_ofNat, show 0x1FFF = 2 ^ 13 - 1 from rfl, Nat.testBit_two_pow_sub_one]
  simp only [BitVec.getLsbD_or, field_getLsbD _ _ _ _ hi, BitVec.testBit_toNat, BitVec.getLsbD_extractLsb']
  interval_cases i <;> simp [hbit]

theorem extractLsb'_low {m n : Nat} (hi : BitVec m) (lo : BitVec n) : (hi ++ lo).extractLsb' 0 n = lo := by
  refine BitVec.eq_of_getLsbD_eq fun i h => ?_
  simp [BitVec.getLsbD_append, h]

theorem extractLsb'_high {m n : Nat} (hi : BitVec m) (lo : BitVec n) : (hi ++ lo).extractLsb' n m = hi := by
  refine BitVec.eq_of_getLsbD_eq fun i h => ?_
  simp [BitVec.getLsbD_append, h]

/-- The upper bits over k zeros are the value with its low k bits cleared. -/
theorem highBits_append {k n : Nat} (v : W32) (hk : k + n = 32) (m : W32)
    (hm : ∀ i, i < 32 → m.getLsbD i = decide (k ≤ i)) :
    ((v.extractLsb' k n ++ 0#k).setWidth 32 : W32) = v &&& m := by
  refine BitVec.eq_of_getLsbD_eq fun i h => ?_
  simp only [BitVec.getLsbD_setWidth, BitVec.getLsbD_append, BitVec.getLsbD_and, hm i h,
    BitVec.getLsbD_extractLsb', BitVec.getLsbD_zero]
  by_cases hi : i < k
  · simp [hi]
  · have hik : k + (i - k) = i := by omega
    have hn : i - k < n := by omega
    simp [hi, h, hn, hik, Nat.le_of_not_lt hi]

theorem waddrLo_readBack (v : W32) : (v.extractLsb' 3 29 ++ 0#3 : W32) = v &&& 0xFFFFFFF8#32 := by
  rw [← highBits_append v (k := 3) (n := 29) rfl _ (by decide), BitVec.setWidth_eq]

theorem jbaseLo_readBack (v : W32) : (v.extractLsb' 6 26 ++ 0#6 : W32) = v &&& 0xFFFFFFC0#32 := by
  rw [← highBits_append v (k := 6) (n := 26) rfl _ (by decide), BitVec.setWidth_eq]

theorem guardA_readBack (v : W32) : guardMode v ++ guardBase v = v := by
  refine BitVec.eq_of_getLsbD_eq fun i h => ?_
  simp only [guardMode, guardBase, BitVec.getLsbD_append, BitVec.getLsbD_extractLsb']
  by_cases hi : i < 30
  · simp [hi]
  · have h2 : i - 30 < 2 := by omega
    have h3 : 30 + (i - 30) = i := by omega
    simp [hi, h2, h3]

theorem guardB_readBack (v : W32) : BitVec.ofBool (v.getLsbD 31) ++ v.extractLsb' 0 31 = v := by
  refine BitVec.eq_of_getLsbD_eq fun i h => ?_
  simp only [BitVec.getLsbD_append, BitVec.getLsbD_extractLsb', BitVec.getLsbD_ofBool]
  by_cases hi : i < 31
  · simp [hi]
  · have h2 : i = 31 := by omega
    simp [h2]

/-- Register k of the conditions shows the word written to it. -/
theorem condsWith_extract (k : Fin 6) (v : W32) (stored : BitVec 192) :
    (condsWith k v stored).extractLsb' (32 * k.val) 32 = v := by
  refine BitVec.eq_of_getLsbD_eq fun i h => ?_
  have h1 : 32 * k.val ≤ 32 * k.val + i ∧ 32 * k.val + i < 32 * k.val + 32 := by omega
  rw [BitVec.getLsbD_extractLsb', condsWith_getLsbD, if_pos h1, Nat.add_sub_cancel_left]
  simp [h]

theorem readWatch_conds (r : WatchRule) (k : Fin 6) :
    readWatch r (8 + 4 * k.val) = r.conds.extractLsb' (32 * k.val) 32 := by
  match k with
  | 0 | 1 | 2 | 3 | 4 | 5 => rfl

/-! ### The writes that are not plain stores -/

section
variable {s : State} (hr : Running s) (v : W32)
include hr

theorem config0Write_untouched : ∃ t, exec (.config0Write v) s = .next t ∧ t.untouched =
    (raiseConfigError (config0Action v == 3#2) (restartPrescale (setCfg (config0Store v) s))).untouched := by
  have h : exec (.config0Write v) s = _ := unlessHeld_running hr _
  rw [h]
  split
  · exact ⟨_, rfl, (settle_untouched _).trans (untouched_of_table (visit_tableOnly _ _))⟩
  · exact ⟨_, rfl, rfl⟩

theorem holdLimitWrite_untouched : ∃ t, exec (.holdLimitWrite v) s = .next t ∧ t.untouched =
    (setCfg (fun c => { c with holdLimit := v.extractLsb' 0 16 }) s).untouched :=
  ⟨_, unlessHeld_running hr _,
    (settle_untouched _).trans (untouched_of_table (foldl_tableOnly _ expireIfDue_tableOnly _ _))⟩

theorem exec_geometryWrite_unrecovered (reg : GeoReg) (hs : s.eng.state = .unrecovered)
    (hb : geometryBlocked s.mport = false) : exec (.geometryWrite reg v) s =
      .next (raiseConfigError (geometryLowBits reg v) (setCfg (geometryStore reg v) s)) := by
  have h : exec (.geometryWrite reg v) s = _ := unlessHeld_running hr _
  rw [h]
  simp only [hb, hs, Bool.false_eq_true, if_false]

end

/-! ### STATUS, WCTL, CMD_RESULT and OCCUPANCY as fields (R186, R189, R191) -/

theorem readStatus_eq_fields (s : State) : readStatus s =
    field 0 4 s.eng.state.code ||| field 4 2 (walkKindCode s.eng.walk.kind) |||
      field 6 2 (walkPhaseCode s.eng.walk.phase) ||| field 8 3 (stallCode s.eng.walk.stall) |||
      field 16 1 s.port.configError.toNat ||| field 17 1 s.host.pfw.toNat |||
      field 18 1 (geometryOk s.cfg).toNat ||| field 19 1 (s.eng.nextCopy == .b).toNat := by
  simp only [readStatus, bit1_shiftLeft_eq_field]

theorem readWctl_eq_fields (r : WatchRule) : readWctl r =
    field 0 1 r.enable.toNat ||| field 1 2 r.mode.toNat ||| field 3 3 r.action.toNat |||
      field 6 1 r.rearmAuto.toNat ||| field 8 2 r.state.code ||| field 10 1 r.overrun.toNat |||
      field 16 16 r.hits.toNat := by
  simp only [readWctl, bit1_shiftLeft_eq_field, setWidth_shiftLeft_eq_field]
  rw [bit1_eq_field]

theorem code_bounds (s : State) : s.eng.state.code < 2 ^ 4 ∧ walkKindCode s.eng.walk.kind < 2 ^ 2 ∧
    walkPhaseCode s.eng.walk.phase < 2 ^ 2 ∧ stallCode s.eng.walk.stall < 2 ^ 3 := by
  refine ⟨?_, ?_, ?_, ?_⟩
  · cases s.eng.state <;> decide
  · rcases s.eng.walk.kind with _ | k <;> (try cases k) <;> decide
  · rcases s.eng.walk.phase with _ | k <;> (try cases k) <;> decide
  · rcases s.eng.walk.stall with _ | k <;> (try cases k) <;> decide

theorem presentCount_eq (o : Option Nat) : presentCount o = match o with
    | none => 0
    | some n => 1#1 ++ 0#11 ++ BitVec.ofNat 20 n := by
  cases o with
  | none => rfl
  | some n =>
    refine BitVec.eq_of_getLsbD_eq fun i hi => ?_
    simp only [presentCount, bit1_shiftLeft_eq_field, BitVec.getLsbD_or, field_getLsbD _ _ _ _ hi,
      BitVec.getLsbD_append, BitVec.getLsbD_setWidth, BitVec.getLsbD_ofNat]
    interval_cases i <;> simp

theorem setWidth_eq_zeros_append {m n : Nat} (h : n + m = 32) (x : BitVec m) :
    (x.setWidth 32 : W32) = (0#n ++ x).cast h := by
  refine BitVec.eq_of_getLsbD_eq fun i hi => ?_
  rw [BitVec.getLsbD_setWidth, BitVec.getLsbD_cast, BitVec.getLsbD_append]
  by_cases hm : i < m
  · simp [hm, hi]
  · simp [hm, BitVec.getLsbD_of_ge _ _ (Nat.le_of_not_lt hm)]

theorem readOccupancy_eq (s : State) : readOccupancy s = 0#4 ++ BitVec.ofNat 4 s.pres.queue.length ++ 0#3 ++
    BitVec.ofNat 5 s.table.length ++ 0#4 ++ BitVec.ofNat 12 s.pres.filter.length := by
  refine BitVec.eq_of_getLsbD_eq fun i hi => ?_
  simp only [readOccupancy, BitVec.getLsbD_or, field_getLsbD _ _ _ _ hi, BitVec.getLsbD_append, BitVec.getLsbD_ofNat]
  interval_cases i <;> simp

/-- CMD_RESULT: the code below the outcome and the reason (R186). -/
theorem readCmdResult_parts (r : CmdResult) :
    (readCmdResult r).extractLsb' 0 4 = (if r.outcome = .noneTaken then 0 else r.code) ∧
      ((readCmdResult r).extractLsb' 4 28).toNat = (match r.outcome with
        | .noneTaken => 0
        | .accepted => 1
        | .refused .busy => 2 + 4
        | .refused .state => 2 + 8
        | .refused .unconfigured => 2 + 12
        | .empty => 3) := by
  obtain ⟨code, outcome⟩ := r
  rcases outcome with _ | _ | why | _
  case refused => cases why <;> (revert code; decide)
  all_goals revert code; decide

theorem geometryOk_iff (c : Settings) : geometryOk c = true ↔ 4 ≤ c.jslots.toNat ∧ c.jslots.toNat ≤ 1048576 ∧
    c.jbaseCell.toNat + c.jslots.toNat ≤ 1073741824 := by
  have h1 : Config.minSlots = 4 := rfl
  have h2 : Config.maxSlots = 1048576 := rfl
  have h3 : Config.cellCount = 1073741824 := rfl
  simp only [geometryOk, Bool.and_eq_true, decide_eq_true_eq, h1, h2, h3, and_assoc]

section
variable {s : State} (hr : Running s)
include hr

theorem readReg_status : let status := readReg s 0x020
    (status.extractLsb' 0 4).toNat = s.eng.state.code ∧
      (status.extractLsb' 4 2).toNat = walkKindCode s.eng.walk.kind ∧
      (status.extractLsb' 6 2).toNat = walkPhaseCode s.eng.walk.phase ∧
      (status.extractLsb' 8 3).toNat = stallCode s.eng.walk.stall ∧
      status.extractLsb' 11 5 = 0 ∧ status.getLsbD 16 = s.port.configError ∧ status.getLsbD 17 = s.host.pfw ∧
      status.getLsbD 18 = geometryOk s.cfg ∧ status.getLsbD 19 = (s.eng.nextCopy == .b) ∧
      status.extractLsb' 20 12 = 0 := by
  intro status
  have hs : status = readStatus s := readReg_running hr _
  obtain ⟨h1, h2, h3, h4⟩ := code_bounds s
  rw [hs, readStatus_eq_fields]
  refine ⟨?_, ?_, ?_, ?_, ?_, ?_, ?_, ?_, ?_, ?_⟩
  all_goals
    simp (disch := decide) only [BitVec.extractLsb'_or, BitVec.getLsbD_or, field_extract_self, field_extract_other,
      field_bit_self, field_bit_other, BitVec.or_zero, BitVec.zero_or, Bool.or_false, Bool.false_or,
      BitVec.toNat_ofNat, Nat.mod_eq_of_lt h1, Nat.mod_eq_of_lt h2, Nat.mod_eq_of_lt h3, Nat.mod_eq_of_lt h4]
  all_goals rfl

theorem readReg_dsel : (readReg s 0x070).extractLsb' 25 2 = s.port.dsel := by
  have hself : (field 25 2 s.port.dsel.toNat).extractLsb' 25 2 = s.port.dsel := by
    rw [field_extract_self _ _ _ (by decide), BitVec.ofNat_toNat, BitVec.setWidth_eq]
  match hq : s.ev.notices with
  | [] => rw [(readReg_notice_nil hr hq).1, hself]
  | n :: rest =>
    rw [(readReg_notice_cons hr hq).1, noticeWord0_eq_fields]
    simp (disch := decide) only [BitVec.extractLsb'_or, field_extract_other, hself, BitVec.or_zero, BitVec.zero_or]

theorem readReg_wctl (n : RuleNo) :
    readReg s (BitVec.ofNat 10 (0x220 + 64 * n.val)) = readWctl s.rules[n] := by
  rw [readReg_running hr, readWindow_rule s (n := n) (k := 0x20) (by decide)]
  · rfl
  · rw [toNat_offset (by omega)]; omega

end

theorem readWctl_parts (r : WatchRule) : let wctl := readWctl r
    wctl.getLsbD 0 = r.enable ∧ wctl.extractLsb' 1 2 = r.mode ∧ wctl.extractLsb' 3 3 = r.action ∧
      wctl.getLsbD 6 = r.rearmAuto ∧ wctl.getLsbD 7 = false ∧ (wctl.extractLsb' 8 2).toNat = r.state.code ∧
      wctl.getLsbD 10 = r.overrun ∧ wctl.extractLsb' 11 5 = 0 ∧ wctl.extractLsb' 16 16 = r.hits := by
  intro wctl
  have hc : r.state.code < 2 ^ 2 := by cases r.state <;> decide
  simp (disch := decide) only [wctl, readWctl_eq_fields, BitVec.extractLsb'_or, BitVec.getLsbD_or, field_extract_self,
    field_extract_other, field_bit_self, field_bit_other, BitVec.or_zero, BitVec.zero_or, Bool.or_false, Bool.false_or,
    BitVec.toNat_ofNat, Nat.mod_eq_of_lt hc, BitVec.ofNat_toNat, BitVec.setWidth_eq]
  simp

/-- The low seven bits of WCTL are its control fields. -/
theorem readWctl_control (r : WatchRule) (v : W32) (he : r.enable = v.getLsbD 0) (hm : r.mode = v.extractLsb' 1 2)
    (ha : r.action = v.extractLsb' 3 3) (hx : r.rearmAuto = v.getLsbD 6) :
    (readWctl r).extractLsb' 0 7 = v.extractLsb' 0 7 := by
  refine BitVec.eq_of_getLsbD_eq fun i hi => ?_
  have h32 : 0 + i < 32 := by omega
  have hbit (b : Bool) : decide (b.toNat % 2 = 1) = b := by cases b <;> rfl
  simp only [readWctl_eq_fields, BitVec.getLsbD_extractLsb', BitVec.getLsbD_or, field_getLsbD _ _ _ _ h32, he, hm, ha, hx,
    BitVec.testBit_toNat]
  interval_cases i <;> simp [hbit]

section
variable {s : State} (hr : Running s) (v : W32)
include hr

theorem wctlWrite_reads (n : RuleNo) (he : s.rules[n].enable = false) : ∃ t, exec (.wctlWrite n v) s = .next t ∧
    let wctl := readReg t (BitVec.ofNat 10 (0x220 + 64 * n.val))
    wctl.extractLsb' 0 7 = v.extractLsb' 0 7 := by
  refine ⟨_, exec_wctlWrite hr n v, ?_⟩
  have hr' : Running (raiseConfigError (wctlError s.rules[n] v)
    (putRule n (wctlEnableStore (wctlStore s.rules[n] v) (wctlEnable v)) s)) := hr
  have hst := wctlStore_of_disabled v he
  have hd : (wctlStore s.rules[n] v).enable = false := by rw [hst]; exact he
  dsimp only
  rw [readReg_wctl hr', wctlEnableStore_of_disabled hd, hst]
  apply readWctl_control
  all_goals
    simp only [raiseConfigError_rules, putRule_rules, Fin.getElem_fin, Vector.getElem_set_self]
    cases h : wctlEnable v <;> simp_all [wctlEnable]

end

/-- A register write whose next state shows this value at this offset. -/
def Reads (s : State) (c : Instr) (off : BitVec 10) (want : W32) : Prop :=
  ∃ t, exec c s = .next t ∧ readReg t off = want

theorem Reads.of_next {s t : State} {c : Instr} {off : BitVec 10} {want : W32} (h : exec c s = .next t) (hr : Running t)
    (hw : readWindow t off = want) : Reads s c off want := ⟨t, h, by rw [readReg_running hr, hw]⟩

section
variable {s : State} (hr : Running s) (v : W32)
include hr

theorem config0_reads : Reads s (.config0Write v) 0x004 (v &&& 0x1FFF#32) := by
  obtain ⟨t, h, hu⟩ := config0Write_untouched hr v
  have hcfg : t.cfg = config0Store v s.cfg := congrArg Untouched.cfg hu
  refine .of_next h ((congrArg Untouched.resetHeld hu).trans hr) ?_
  rw [← readConfig0_config0Store v s.cfg, ← hcfg]
  rfl

theorem holdLimit_reads : Reads s (.holdLimitWrite v) 0x00C (v &&& 0xFFFF#32) := by
  obtain ⟨t, h, hu⟩ := holdLimitWrite_untouched hr v
  have hcfg : t.cfg = { s.cfg with holdLimit := v.extractLsb' 0 16 } := congrArg Untouched.cfg hu
  refine .of_next h ((congrArg Untouched.resetHeld hu).trans hr) ?_
  refine Eq.trans ?_ (lowBits_eq_and v 16)
  rw [show readWindow t 0x00C = t.cfg.holdLimit.setWidth 32 from rfl, hcfg]

theorem geometry_reads (hs : s.eng.state = .unrecovered) (hb : geometryBlocked s.mport = false) :
    Reads s (.geometryWrite .jbaseLo v) 0x014 (v &&& 0xFFFFFFC0#32) ∧
      Reads s (.geometryWrite .jbaseHi v) 0x018 (v &&& 0xF#32) ∧ Reads s (.geometryWrite .jslots v) 0x01C v := by
  refine ⟨.of_next (exec_geometryWrite_unrecovered hr v _ hs hb) hr ?_,
    .of_next (exec_geometryWrite_unrecovered hr v _ hs hb) hr ?_,
    .of_next (exec_geometryWrite_unrecovered hr v _ hs hb) hr rfl⟩
  · rw [← jbaseLo_readBack]
    exact congrArg (fun x => x ++ 0#6) (extractLsb'_low (s.cfg.jbaseCell.extractLsb' 26 4) (v.extractLsb' 6 26))
  · refine Eq.trans ?_ (lowBits_eq_and v 4)
    exact congrArg (fun x => x.setWidth 32) (extractLsb'_high (v.extractLsb' 0 4) (s.cfg.jbaseCell.extractLsb' 0 26))

theorem guard_reads (n : Fin 16) (hv : s.guards[n].valid = false) :
    Reads s (.guardAWrite n v) (BitVec.ofNat 10 (0x100 + 8 * n.val)) v ∧
      Reads s (.guardBWrite n v) (BitVec.ofNat 10 (0x104 + 8 * n.val)) v := by
  refine ⟨.of_next (exec_guardAWrite hr n v) hr ?_, .of_next (exec_guardBWrite hr n v) hr ?_⟩
  · rw [readWindow_guardA _ (n := n) (toNat_offset (by omega)), guardAfterA_of_invalid v hv]
    simp only [raiseConfigError_guards, putGuard_guards, Fin.getElem_fin, Vector.getElem_set_self]
    exact guardA_readBack v
  · rw [readWindow_guardB _ (n := n) (toNat_offset (by omega)), guardAfterB_of_invalid v hv]
    simp only [raiseConfigError_guards, putGuard_guards, Fin.getElem_fin, Vector.getElem_set_self]
    exact guardB_readBack v

theorem watch_reads (n : RuleNo) (k : Fin 6) (he : s.rules[n].enable = false) :
    Reads s (.waddrWrite n .lo v) (BitVec.ofNat 10 (0x200 + 64 * n.val)) (v &&& 0xFFFFFFF8#32) ∧
      Reads s (.waddrWrite n .hi v) (BitVec.ofNat 10 (0x204 + 64 * n.val)) (v &&& 0xF#32) ∧
      Reads s (.condWrite n k v) (BitVec.ofNat 10 (0x208 + 64 * n.val + 4 * k.val)) v := by
  refine ⟨.of_next (exec_waddrWrite_disabled hr n v .lo he) hr ?_,
    .of_next (exec_waddrWrite_disabled hr n v .hi he) hr ?_, .of_next (exec_condWrite_disabled hr n v k he) hr ?_⟩
  · rw [readWindow_rule _ (n := n) (k := 0) (by decide) (by rw [toNat_offset (by omega), Nat.add_zero]), ← waddrLo_readBack]
    simp only [raiseConfigError_rules, putRule_rules, Fin.getElem_fin, Vector.getElem_set_self]
    exact congrArg (fun x => x ++ 0#3) (extractLsb'_low (s.rules[n].waddr.extractLsb' 29 4) (v.extractLsb' 3 29))
  · rw [readWindow_rule _ (n := n) (k := 4) (by decide) (by rw [toNat_offset (by omega)]; omega)]
    refine Eq.trans ?_ (lowBits_eq_and v 4)
    simp only [raiseConfigError_rules, putRule_rules, Fin.getElem_fin, Vector.getElem_set_self]
    exact congrArg (fun x => x.setWidth 32) (extractLsb'_high (v.extractLsb' 0 4) (s.rules[n].waddr.extractLsb' 0 29))
  · rw [readWindow_rule _ (n := n) (k := 8 + 4 * k.val) (by omega) (by rw [toNat_offset (by omega)]; omega),
      readWatch_conds]
    simp only [raiseConfigError_rules, putRule_rules, Fin.getElem_fin, Vector.getElem_set_self]
    exact condsWith_extract k v _

end

/-- Settles O60, register by register. -/
theorem registersReadBack : Obligations.RegistersReadBack := by
  intro v s hr reads shows status occupancy result
  obtain ⟨h1, h2, h3, h4, h5, h6, h7, h8, h9, h10⟩ := readReg_status hr
  have hresult : result = readCmdResult s.port.cmdResult := readReg_running hr _
  have hdeadline : readReg s 0x04C = readDeadlineLeft s.eng := readReg_running hr _
  refine ⟨config0_reads hr v, Reads.of_next (unlessHeld_running hr _) hr (lowBits_eq_and v 16), holdLimit_reads hr v,
    Reads.of_next (unlessHeld_running hr _) hr (lowBits_eq_and v 24), Reads.of_next (unlessHeld_running hr _) hr rfl,
    ⟨_, unlessHeld_running hr _, ?dsel⟩, Reads.of_next (unlessHeld_running hr _) hr (lowBits_eq_and v 22),
    fun hs hb => geometry_reads hr v hs hb, fun n hv => guard_reads hr v n hv,
    fun n k he => watch_reads hr v n k he, fun n he => wctlWrite_reads hr v n he, fun n => ?wctl,
    ?state, ?kind, ?phase, ?stall, h5, h6, h7, ?geometry, ?copy, h10,
    (readReg_running hr _).trans (presentCount_eq _), (readReg_running hr _).trans (presentCount_eq _),
    hresult ▸ (readCmdResult_parts _).1, hresult ▸ (readCmdResult_parts _).2,
    readReg_running hr _, readReg_running hr _, readReg_running hr _,
    (readReg_running hr _).trans (setWidth_eq_zeros_append (n := 12) rfl _),
    (readReg_running hr _).trans (setWidth_eq_zeros_append (n := 12) rfl _), ?left,
    (readReg_running hr _).trans (readOccupancy_eq s), ?notices, readReg_running hr _, readReg_running hr _,
    readReg_running hr _⟩
  case dsel =>
    exact readReg_dsel (s := { s with port := { s.port with dsel := v.extractLsb' 25 2 } }) hr
  case wctl =>
    obtain ⟨g1, g2, g3, g4, g5, g6, g7, g8, g9⟩ := readWctl_parts s.rules[n]
    dsimp only
    rw [readReg_wctl hr]
    refine ⟨g1, g2, g3, g4, g5, g6.trans ?_, g7, g8, g9⟩
    cases s.rules[n].state <;> rfl
  case state => rw [h1]; cases s.eng.state <;> rfl
  case kind => rw [h2]; rcases s.eng.walk.kind with _ | k <;> (try cases k) <;> rfl
  case phase => rw [h3]; rcases s.eng.walk.phase with _ | k <;> (try cases k) <;> rfl
  case stall => rw [h4]; rcases s.eng.walk.stall with _ | k <;> (try cases k) <;> rfl
  case geometry => rw [h8, geometryOk_iff]
  case copy => rw [h9, beq_iff_eq]
  case left =>
    rw [hdeadline, readDeadlineLeft]
    split
    · exact setWidth_eq_zeros_append (n := 8) rfl _
    · rfl
  case notices =>
    have hn : readReg s 0x060 = field 0 5 s.ev.notices.length := readReg_running hr _
    rw [hn, field]
    exact (congrArg (fun x : W32 => x <<< 0) (setWidth_eq_zeros_append (n := 27) rfl _)).trans (BitVec.shiftLeft_zero _)

end Sys2Proof.Machine
end

