-- ==== Sys2Proof/Proofs/Frames.lean ====
section
/-! What host traffic, a geometry write and a soft reset leave alone (O13, O26, O36). -/

namespace Sys2Proof.Machine

/-! ### Host traffic -/

/-- A settled event that started from an untouched state. -/
theorem settle_untouched_of {s t : State} (h : t.untouched = s.untouched) : (settle t).untouched = s.untouched :=
  (settle_untouched t).trans h

/-- The next state, if the outcome has one, leaves the same things alone. -/
def KeepsRest (s : State) (o : Host.Outcome State Fault Refusal) : Prop := ∀ t, o = .next t → t.untouched = s.untouched

theorem KeepsRest.next {s t : State} (h : t.untouched = s.untouched) : KeepsRest s (.next t) := by
  rintro _ ⟨⟩; exact h

theorem KeepsRest.unlessHeld {s : State} {o : Host.Outcome State Fault Refusal} (h : KeepsRest s o) :
    KeepsRest s (unlessHeld s o) := by
  unfold Machine.unlessHeld
  split
  · exact .next rfl
  · exact h

theorem hostRequest_keepsRest (r : HostRequest) (s : State) : KeepsRest s (exec (.hostRequest r) s) := by
  refine KeepsRest.unlessHeld ?_
  split
  · exact .next (settle_untouched_of (untouched_of_table (takeRequest_tableOnly r s)))
  · exact .next (settle_untouched_of rfl)

theorem holdExpiry_keepsRest (tag : Tag) (s : State) : KeepsRest s (exec (.holdExpiry tag) s) := by
  refine KeepsRest.unlessHeld ?_
  split
  · exact .next (settle_untouched_of (untouched_of_table (expireHold_tableOnly _ _ s)))
  · exact .next rfl

theorem recordSlotWritesRequest_keepsRest (k : Nat) (s : State) :
    KeepsRest s (exec (.recordSlotWritesRequest k) s) := by
  refine KeepsRest.unlessHeld ?_
  split
  · exact .next (settle_untouched_of (requestIfClear_untouched s _))
  · exact .next rfl

/-- Settles O36, command by command: each is an operation with the frame of settling, then settling. -/
theorem trafficLeavesTheRestAlone : Obligations.TrafficLeavesTheRestAlone := by
  intro c s t hc
  rcases hc with ⟨r, rfl⟩ | ⟨tag, rfl⟩ | rfl | rfl | rfl | ⟨k, rfl⟩ | rfl
  · exact hostRequest_keepsRest r s t
  · exact holdExpiry_keepsRest tag s t
  · exact KeepsRest.unlessHeld (.next (settle_untouched_of (grantOne_untouched s))) t
  · exact KeepsRest.unlessHeld (.next (settle_untouched_of (drainStep_untouched s))) t
  · exact KeepsRest.unlessHeld (.next (settle_untouched_of (headerStep_untouched s))) t
  · exact recordSlotWritesRequest_keepsRest k s t
  · exact KeepsRest.unlessHeld (.next (settle_untouched_of (restoreStep_untouched s))) t

/-! ### Rest after a change of the engine -/

/-- Without an operation in progress the engine is settled once no record may ask for its slot writes. -/
theorem engineSettled_of_none {s : State} (ho : s.eng.op = .none) (hq : s.pres.queue.any (mayRequest s.pres) = false) :
    engineSettled s = true := by
  rw [engineSettled, ho, hq]; rfl

theorem settle_of_engine {s : State} (h : engineSettled s = true) (hq : s.mport.queue = []) (hl : s.host.link = [])
    (hr : Running s) : settle s = s := settle_of_atRest (atRest_of_engine h hq hl hr)

/-- At rest no record may ask for its slot writes. -/
theorem atRest_records {s : State} (h : AtRest s) : s.pres.queue.any (mayRequest s.pres) = false := by
  have he := atRest_engine h
  simp only [engineSettled, Bool.and_eq_true, Bool.not_eq_true'] at he
  exact he.2

/-! ### SOFT_RESET -/

theorem softResetRule_eq (r : WatchRule) :
    softResetRule r = { r with state := if r.enable then .armed else .disarmed, overrun := false } := by
  unfold softResetRule
  cases r.enable <;> rfl

/-- Settles O26: a soft reset leaves nothing to happen at once. -/
theorem softResetEndsEverything : Obligations.SoftResetEndsEverything := by
  intro s hr hl
  have hset : settle (softReset (recordResult 12 .accepted s)) = softReset (recordResult 12 .accepted s) :=
    settle_of_engine (engineSettled_of_none rfl rfl) rfl hl hr
  refine ⟨softReset (recordResult 12 .accepted s), ?_, rfl, rfl, rfl, rfl, fun n => ?rules, fun i => ?slots, rfl, rfl,
    rfl, rfl, rfl, rfl, rfl, rfl⟩
  · exact (unlessHeld_running hr _).trans (congrArg Host.Outcome.next hset)
  case rules =>
    have h : (softReset (recordResult 12 .accepted s)).rules[n] = softResetRule s.rules[n] := by
      simp [softReset, abortTable]
    rw [h, softResetRule_eq]
  case slots =>
    have h : (softReset (recordResult 12 .accepted s)).mport.slots[i] = staleSlot s.mport.slots[i] :=
      mapSlots_get _ _ _
    rw [h]
    cases s.mport.slots[i] <;> rfl

/-! ### A geometry write -/

theorem blocksGeometry_iff (op : MemOp) : op.blocksGeometry = true ↔
    (∃ k h d, op = .slotWrite k h d) ∨ (∃ c d, op = .headerWrite c d) ∨ ∃ c d, op = .restoreWrite c d := by
  cases op <;> simp [MemOp.blocksGeometry]

theorem geometryBlocked_iff (m : MPort) : geometryBlocked m = true ↔
    ∃ i : LinkNo, ∃ r, m.slots[i].record? = some r ∧ r.op.blocksGeometry = true := by
  rw [geometryBlocked, List.any_eq_true]
  constructor
  · rintro ⟨l, hl, hb⟩
    obtain ⟨i, hi, rfl⟩ := Vector.mem_iff_getElem.mp (Vector.mem_toList_iff.mp hl)
    refine ⟨⟨i, hi⟩, ?_⟩
    cases hr : m.slots[i].record? with
    | none => rw [hr] at hb; cases hb
    | some r => rw [hr] at hb; exact ⟨r, rfl, hb⟩
  · rintro ⟨i, r, hr, hb⟩
    exact ⟨m.slots[i], Vector.mem_toList_iff.mpr (Vector.getElem_mem _), by rw [hr]; exact hb⟩

theorem geometryLowBits_eq (reg : GeoReg) (v : W32) :
    geometryLowBits reg v = decide (reg = .jbaseLo ∧ v.extractLsb' 0 6 ≠ 0#6) := by
  cases reg <;> simp [geometryLowBits, bne, Bool.beq_eq_decide_eq]

theorem geometryStore_taken (reg : GeoReg) (v : W32) (s : State) :
    raiseConfigError (geometryLowBits reg v) (setCfg (geometryStore reg v) s) = { s with
      cfg := match reg with
        | .jbaseLo => { s.cfg with jbaseCell := s.cfg.jbaseCell.extractLsb' 26 4 ++ v.extractLsb' 6 26 }
        | .jbaseHi => { s.cfg with jbaseCell := v.extractLsb' 0 4 ++ s.cfg.jbaseCell.extractLsb' 0 26 }
        | .jslots => { s.cfg with jslots := v }
      port := { s.port with
        configError := s.port.configError || decide (reg = .jbaseLo ∧ v.extractLsb' 0 6 ≠ 0#6) } } := by
  rw [geometryLowBits_eq]
  cases reg <;> rfl

/-- Settles O13, by what blocks the write and by the engine's state. -/
theorem geometryWrite : Obligations.GeometryWrite := by
  intro reg v s hr blocked u ignored
  have hb : blocked ↔ geometryBlocked s.mport = true := by
    simp only [blocked, geometryBlocked_iff, blocksGeometry_iff]
  have hu : raiseConfigError (geometryLowBits reg v) (setCfg (geometryStore reg v) s) = u := geometryStore_taken reg v s
  have hi : raiseConfigError true s = ignored := by simp [raiseConfigError, ignored]
  have he : exec (.geometryWrite reg v) s = if geometryBlocked s.mport then .next ignored else
      match s.eng.state with
      | .unrecovered => .next u
      | .idle => .next (settle (enterState .unrecovered u))
      | _ => .next ignored := by
    rw [← hu, ← hi]
    exact unlessHeld_running hr _
  rw [he]
  refine ⟨fun h hs => ?_, fun h hs => ?_, fun h => ?_⟩
  · rw [if_neg (mt hb.mpr h), hs]
  · rw [if_neg (mt hb.mpr h), hs]
    have hunt := (settle_untouched (enterState .unrecovered u)).trans (enterState_untouched .unrecovered u)
    refine ⟨_, rfl, congrArg (fun x : Untouched => x.engine.state) hunt, hunt, fun hrest hun => ?_⟩
    have hmove : enterState .unrecovered u = { u with eng := { s.eng with state := .unrecovered } } :=
      enterState_of_unmoved (s := u) (by rw [show u.eng.state = .idle from hs]; exact hun)
    have hset : engineSettled { u with eng := { s.eng with state := .unrecovered } } = true := atRest_engine hrest
    rw [hmove, settle_of_engine hset hrest.2.1 hrest.2.2.1 hr]
  · by_cases hg : geometryBlocked s.mport = true
    · rw [if_pos hg]
    · rw [if_neg hg]
      obtain ⟨h1, h2⟩ := h.resolve_left (mt hb.mp hg)
      split
      · exact absurd ‹_› h1
      · exact absurd ‹_› h2
      · rfl

end Sys2Proof.Machine
end

