-- ==== Sys2Proof/Proofs/Time.lean ====
section
/-! The step on an empty queue (R28, R39, R100, R102, R166, R167, R172): the events of one moment are merged in an
order drawn, none lost and none added (O2). -/

namespace Sys2Proof.Machine

/-! ### Merging the events of one moment -/

theorem flatten_filter_nonempty {α : Type} (gs : List (List α)) :
    (gs.filter (fun g => !g.isEmpty)).flatten = gs.flatten := by
  induction gs with
  | nil => rfl
  | cons g gs ih => cases g <;> simp [ih]

theorem flatten_set_perm {α : Type} {gs : List (List α)} {i : Nat} {e : α} {rest : List α}
    (h : gs[i]? = some (e :: rest)) : gs.flatten.Perm (e :: (gs.set i rest).flatten) := by
  induction gs generalizing i with
  | nil => cases h
  | cons g gs ih =>
    cases i with
    | zero =>
      cases h
      exact .refl _
    | succ i =>
      simp only [List.set_cons_succ, List.flatten_cons]
      exact ((ih h).append_left g).trans List.perm_middle

/-- Merging keeps every event, given fuel for all of them. -/
theorem interleave_perm (n : Nat) (gs : List (List Instr)) (s : State) (hn : gs.flatten.length = n) :
    (interleave n gs s).1.Perm gs.flatten := by
  induction n generalizing gs s with
  | zero => rw [List.length_eq_zero_iff.mp hn]; exact .refl _
  | succ n ih =>
    rw [← flatten_filter_nonempty] at hn ⊢
    unfold interleave
    dsimp only
    generalize hl : gs.filter (fun g => !g.isEmpty) = live at hn ⊢
    have hne : ∀ g ∈ live, g ≠ [] := fun g hg => by
      rw [← hl, List.mem_filter] at hg
      rintro rfl
      exact Bool.false_ne_true hg.2
    have hpos : 0 < live.length := List.length_pos_iff.mpr (by rintro rfl; cases hn)
    have hlt := pick_lt hpos s
    have hget := List.getElem?_eq_getElem hlt
    match hg : live[(pick live.length s).1]? with
    | none => rw [hg] at hget; cases hget
    | some [] => exact absurd rfl (hne _ (List.mem_of_getElem? hg))
    | some (e :: rest) =>
      have hp := flatten_set_perm hg
      refine ((ih _ _ ?_).cons e).trans hp.symm
      have := hp.length_eq
      rw [List.length_cons] at this
      omega

theorem flatten_map_singleton {α : Type} (l : List α) : (l.map (fun e => [e])).flatten = l := by
  induction l with
  | nil => rfl
  | cons e l ih => simp [ih]

/-! ### The three clauses of an idle step -/

theorem idleStep_delivers {s : State} (hr : Running s) (hp : s.pending = []) (hd : deliveries s ≠ []) :
    idleStep s = { s with pending := (idleStep s).pending, choices := (idleStep s).choices } ∧
      (idleStep s).pending.Perm (deliveries s) := by
  obtain ⟨cs, hi⟩ := interleave_state (deliveries s).length ((deliveries s).map (fun e => [e])) s
  have hperm := interleave_perm (deliveries s).length ((deliveries s).map (fun e => [e])) s
    (by rw [flatten_map_singleton])
  have h : idleStep s = { s with
      pending := (interleave (deliveries s).length ((deliveries s).map (fun e => [e])) s).1, choices := cs } := by
    unfold idleStep
    rw [if_neg (by rw [hr]; exact Bool.false_ne_true), if_neg hd]
    dsimp only
    rw [hi, hp, List.nil_append]
  rw [h]
  rw [flatten_map_singleton] at hperm
  exact ⟨rfl, hperm⟩

theorem idleStep_ticks {s : State} (hr : Running s) (hd : deliveries s = []) : idleStep s = tick s := by
  unfold idleStep
  rw [if_neg (by rw [hr]; exact Bool.false_ne_true), if_pos hd]

theorem advance_eq (s : State) : advance s = { s with
    clock := { timebase := s.clock.timebase + 1, prescale := 0 }
    eng := { s.eng with
      deadlineLeft := if s.eng.deadlineRunning = true ∧ s.eng.deadlineLeft ≠ 0 then s.eng.deadlineLeft - 1
        else s.eng.deadlineLeft } } := by
  unfold advance
  dsimp only
  split <;> rfl

/-- The expiries of a moment, each once and no other. -/
theorem raiseExpiries_perm (s : State) (hp : s.pending = []) :
    (raiseExpiries s).pending.Perm (dueHolds s ++ dueDeadline s ++ dueLinks s) := by
  have hf : ([dueHolds s, dueDeadline s] ++ (dueLinks s).map (fun e => [e])).flatten =
      dueHolds s ++ dueDeadline s ++ dueLinks s := by
    rw [List.flatten_append, flatten_map_singleton]
    simp
  have h := interleave_perm _ ([dueHolds s, dueDeadline s] ++ (dueLinks s).map (fun e => [e])) s List.length_flatten
  rw [hf] at h
  unfold raiseExpiries
  dsimp only
  rwa [hp, List.nil_append]

/-- The whole of the last period of a TICKDIV. -/
theorem tick_advances {s : State} (ht : s.cfg.tickdiv ≠ 0) (hp : s.cfg.tickdiv.toNat ≤ s.clock.prescale.toNat + 1)
    (hq : s.pending = []) : tick s = { advance s with pending := (tick s).pending, choices := (tick s).choices } ∧
      (tick s).pending.Perm (dueHolds (advance s) ++ dueDeadline (advance s) ++ dueLinks (advance s)) := by
  obtain ⟨q, cs, hr⟩ := raiseExpiries_eq (advance s)
  have h : tick s = raiseExpiries (advance s) := by
    unfold tick
    rw [if_neg ht, if_neg (Nat.not_lt.mpr hp)]
  have hpend : (advance s).pending = [] := by rw [advance_eq]; exact hq
  refine ⟨by rw [h, hr], ?_⟩
  rw [h]
  exact raiseExpiries_perm _ hpend

/-! ### What is due -/

theorem mem_dueHolds {s : State} (ht : s.cfg.tickdiv ≠ 0) (c : Instr) : c ∈ dueHolds s ↔ ∃ e ∈ s.table,
    (match e.stage with
      | .held _ since => decide (s.cfg.holdLimit ≠ 0 ∧ s.cfg.holdLimit.toNat ≤ (s.clock.timebase - since).toNat)
      | _ => false) = true ∧ c = .holdExpiry e.tag := by
  have hrun : timersRun s = true := bne_iff_ne.mpr ht
  have hdue (e : Entry) : (expiredHold s e).isSome = match e.stage with
      | .held _ since => decide (s.cfg.holdLimit ≠ 0 ∧ s.cfg.holdLimit.toNat ≤ (s.clock.timebase - since).toNat)
      | _ => false := by
    unfold expiredHold
    cases e.stage with
    | held c since =>
      simp only [hrun, elapsed, true_and, decide_eq_true_eq]
      split <;> simp_all
    | _ => rfl
  simp only [dueHolds, List.mem_map, List.mem_filter, hdue, and_assoc, eq_comm (a := c)]

theorem mem_dueDeadline {s : State} (ht : s.cfg.tickdiv ≠ 0) (c : Instr) : c ∈ dueDeadline s ↔
    c = .deadlineExpiry ∧ s.eng.state = .opened ∧ s.eng.deadlineRunning = true ∧ s.eng.deadlineLeft = 0 := by
  have hrun : timersRun s = true := bne_iff_ne.mpr ht
  have hdue : deadlineDue s = true ↔
      s.eng.state = .opened ∧ s.eng.deadlineRunning = true ∧ s.eng.deadlineLeft = 0 := by
    simp [deadlineDue, hrun, and_assoc]
  unfold dueDeadline
  split
  · simp [hdue.mp ‹_›]
  · rename_i h
    exact ⟨fun hc => absurd hc List.not_mem_nil, fun hc => absurd (hdue.mpr hc.2) h⟩

/-- Whether the timer of a link slot has ended: the response timer of a BUSY one, the quarantine of a STALE one. -/
def linkTimer (now : W32) : LinkSlot → Option Bool
  | .free => none
  | .busy r => if r.limit.toNat ≤ (now - r.issued).toNat then some false else none
  | .stale r => if 2 * r.limit.toNat ≤ (now - r.issued).toNat then some true else none

theorem mem_dueLinks {s : State} (ht : s.cfg.tickdiv ≠ 0) (c : Instr) : c ∈ dueLinks s ↔ ∃ i : LinkNo,
    (linkTimer s.clock.timebase s.mport.slots[i] = some false ∧ c = .responseTimeout i) ∨
      (linkTimer s.clock.timebase s.mport.slots[i] = some true ∧ c = .quarantineEnd i) := by
  have hrun : timersRun s = true := bne_iff_ne.mpr ht
  have hone (i : LinkNo) : (if (responseDue s s.mport.slots[i]).isSome then some (Instr.responseTimeout i)
      else if (quarantineDue s s.mport.slots[i]).isSome then some (.quarantineEnd i) else none) = some c ↔
      (linkTimer s.clock.timebase s.mport.slots[i] = some false ∧ c = .responseTimeout i) ∨
        (linkTimer s.clock.timebase s.mport.slots[i] = some true ∧ c = .quarantineEnd i) := by
    cases s.mport.slots[i] with
    | free => simp [responseDue, quarantineDue, linkTimer]
    | busy r =>
      by_cases h : r.limit.toNat ≤ (s.clock.timebase - r.issued).toNat
      · have hd : responseDue s (.busy r) = some r := if_pos (by simp only [hrun, elapsed, h, decide_true]; rfl)
        have hl : linkTimer s.clock.timebase (.busy r) = some false := if_pos h
        simp [hd, hl, eq_comm (b := c)]
      · have hd : responseDue s (.busy r) = none := if_neg (by simp only [elapsed, h, decide_false, Bool.and_false]; simp)
        have hl : linkTimer s.clock.timebase (.busy r) = none := if_neg h
        simp [hd, hl, quarantineDue]
    | stale r =>
      by_cases h : 2 * r.limit.toNat ≤ (s.clock.timebase - r.issued).toNat
      · have hd : quarantineDue s (.stale r) = some r := if_pos (by simp only [hrun, elapsed, h, decide_true]; rfl)
        have hl : linkTimer s.clock.timebase (.stale r) = some true := if_pos h
        simp [hd, hl, responseDue, eq_comm (b := c)]
      · have hd : quarantineDue s (.stale r) = none :=
          if_neg (by simp only [elapsed, h, decide_false, Bool.and_false]; simp)
        have hl : linkTimer s.clock.timebase (.stale r) = none := if_neg h
        simp [hd, hl, responseDue]
  simp only [dueLinks, List.mem_filterMap, List.mem_finRange, true_and, hone]

/-- Settles O2, by whether a write is FINISHING and by what the period brings. -/
theorem idleStepPassesTime : Obligations.IdleStepPassesTime := by
  intro s hr hp now left holdDue deadlineDue linkDue
  have hstep : step s = .next (idleStep s) := by rw [step, hp]
  have hlink : linkDue = linkTimer now := by
    funext l
    cases l <;> rfl
  have hdeliv : deliveries s = [] ↔ ∀ e ∈ s.table, e.stage ≠ .finishing := by
    simp [deliveries, List.filter_eq_nil_iff]
  refine ⟨fun ⟨e, he, hf⟩ => ?finishing, fun hnone => ?period⟩
  case finishing =>
    have hd : deliveries s ≠ [] := fun h => hdeliv.mp h e he hf
    exact ⟨_, hstep, (idleStep_delivers hr hp hd).1, (idleStep_delivers hr hp hd).2⟩
  case period =>
    rw [hstep, idleStep_ticks hr (hdeliv.mpr hnone)]
    refine ⟨fun ht => ?stands, fun hlt => ?counted, fun ht hle => ?advances⟩
    case stands => rw [tick, if_pos ht]
    case counted =>
      have ht : s.cfg.tickdiv ≠ 0 := by rintro h; rw [h] at hlt; exact absurd hlt (Nat.not_lt_zero _)
      rw [tick, if_neg ht, if_pos hlt]
    case advances =>
      obtain ⟨hstate, hperm⟩ := tick_advances ht hle hp
      have hadv : advance s = { s with
          clock := { timebase := now, prescale := 0 }, eng := { s.eng with deadlineLeft := left } } := advance_eq s
      have hdiv : (advance s).cfg.tickdiv ≠ 0 := by rw [hadv]; exact ht
      have hmem (c : Instr) : c ∈ (tick s).pending ↔ (∃ e ∈ s.table, holdDue e = true ∧ c = .holdExpiry e.tag) ∨
          (c = .deadlineExpiry ∧ deadlineDue) ∨ ∃ i : LinkNo,
            (linkDue s.mport.slots[i] = some false ∧ c = .responseTimeout i) ∨
              (linkDue s.mport.slots[i] = some true ∧ c = .quarantineEnd i) := by
        rewrite [hperm.mem_iff, List.mem_append, List.mem_append, mem_dueHolds hdiv, mem_dueDeadline hdiv, mem_dueLinks hdiv,
          or_assoc, hadv, hlink]
        exact Iff.rfl
      refine ⟨tick s, rfl, ?_, fun c hc => (hmem c).mp hc, fun e he hd => (hmem _).mpr (.inl ⟨e, he, hd, rfl⟩),
        fun hd => (hmem _).mpr (.inr (.inl ⟨rfl, hd⟩)),
        fun i => ⟨fun h => (hmem _).mpr (.inr (.inr ⟨i, .inl ⟨h, rfl⟩⟩)),
          fun h => (hmem _).mpr (.inr (.inr ⟨i, .inr ⟨h, rfl⟩⟩))⟩⟩
      rw [hadv] at hstate
      exact hstate

end Sys2Proof.Machine
end

