-- ==== Sys2Proof/Proofs/Settling.lean ====
section
/-! What an event that asks for one or two transactions comes to: the engine's own steps, then the grants, as many as
there are link slots FREE (R47, R78, R90, R139, R164). -/

namespace Sys2Proof.Machine

/-! ### The engine's own steps -/

/-- What the engine and the record queue do for themselves in one round. -/
def selfSteps (s : State) : State := restoreStep (recordStep (headerStep (drainStep s)))

theorem selfSteps_of_engineSettled {s : State} (h : engineSettled s = true) : selfSteps s = s := by
  rw [selfSteps, drainStep_engineSettled h, headerStep_engineSettled h, recordStep_engineSettled h,
    restoreStep_engineSettled h]

/-- No record of the queue has slot writes to request (R47). -/
abbrev RecordsQuiet (s : State) : Prop := s.pres.queue.any (mayRequest s.pres) = false

theorem recordStep_of_quiet {s : State} (h : RecordsQuiet s) : recordStep s = s :=
  have hs : engineSettled { s with eng := { s.eng with op := .none } } = true := engineSettled_of_none rfl h
  have hfold : ∀ l : List RecElem, (∀ r ∈ l, mayRequest s.pres r = false) → l.foldl requestIfClear s = s := by
    intro l hl
    induction l with
    | nil => rfl
    | cons r l ih =>
      rw [List.foldl_cons, requestIfClear, hl r List.mem_cons_self]
      exact ih fun x hx => hl x (List.mem_cons_of_mem _ hx)
  hfold _ fun r hr => Bool.eq_false_iff.mpr (List.any_eq_false.mp h r hr)

theorem drainStep_of_op {s : State} (h : s.eng.op ≠ .draining) : drainStep s = s := by
  unfold drainStep
  split
  · exact absurd ‹_› h
  · rfl

theorem restoreStep_of_op {s : State} (h : ∀ cell bytes, s.eng.op ≠ .restoreWait cell bytes) : restoreStep s = s := by
  unfold restoreStep
  split
  · exact absurd ‹_› (h _ _)
  · rfl

theorem recordStep_eng (s : State) : (recordStep s).eng = s.eng := by
  unfold recordStep
  generalize s.pres.queue = l
  induction l generalizing s with
  | nil => rfl
  | cons r l ih =>
    rw [List.foldl_cons, ih, requestIfClear]
    split
    · simp [requestSlots]
    · rfl

/-! ### Grants -/

/-- A transaction that the engine does not count. -/
def MemOp.plain : MemOp → Bool
  | .headerWrite _ _ => false
  | .restoreWrite _ _ => false
  | _ => true

theorem countIssued_of_plain {op : MemOp} (h : op.plain = true) (s : State) : countIssued op s = s := by
  cases op <;> first | rfl | cases h

theorem waitsAtGrant_of_plain {op : MemOp} (h : op.plain = true) (s : State) : waitsAtGrant s op = none := by
  cases op <;> first | rfl | cases h

theorem grantOne_of_noFree {s : State} (h : freeSlots s.mport = []) : grantOne s = s := by
  unfold grantOne
  rw [h]
  cases s.mport.queue <;> rfl

theorem grants_of_noFree {s : State} (h : freeSlots s.mport = []) (n : Nat) : grants n s = s := by
  induction n with
  | zero => rfl
  | succ n ih => rw [grants, grantOne_of_noFree h, ih]

/-- What the grant of the oldest request leaves. -/
def issuedLeaving (s : State) (r : MemRequest) (rest : List MemRequest) (i : LinkNo) (cs : Choices) : State :=
  countIssued r.op { s with
    choices := cs
    mport :=
      { slots := s.mport.slots.set i (.busy (granted s r.op r.addr)), queue := rest,
        out := s.mport.out ++ [{ slot := i, op := r.op, addr := r.addr }] } }

theorem grantOne_issues {s : State} {r : MemRequest} {rest : List MemRequest} (hq : s.mport.queue = r :: rest)
    (hf : freeSlots s.mport ≠ []) (hd : deniedAtGrant s.cfg r.op = none) (hw : waitsAtGrant s r.op = none) :
    ∃ i cs, s.mport.slots[i] = .free ∧ grantOne s = issuedLeaving s r rest i cs := by
  obtain ⟨f, fs, hfs⟩ := List.exists_cons_of_ne_nil hf
  obtain ⟨cs, hcs⟩ := pick_state (f :: fs).length { s with mport := { s.mport with queue := rest } }
  have hlt := pick_lt (n := (f :: fs).length) (by simp) { s with mport := { s.mport with queue := rest } }
  refine ⟨(f :: fs).getD (pick (f :: fs).length { s with mport := { s.mport with queue := rest } }).1 f, cs, ?_, ?_⟩
  · refine mem_freeSlots.mp ?_
    rw [List.getD_eq_getElem _ _ hlt, hfs]
    exact List.getElem_mem _
  · unfold grantOne
    rw [hq, hfs]
    dsimp only
    rw [hd, hw]
    dsimp only
    rw [hcs]
    rfl

theorem countIssued_frame (op : MemOp) (s : State) : countIssued op s = { s with eng := (countIssued op s).eng } := by
  cases op <;> rfl

theorem issuedLeaving_frame (s : State) (r : MemRequest) (rest : List MemRequest) (i : LinkNo) (cs : Choices) :
    issuedLeaving s r rest i cs = { s with
      eng := (countIssued r.op s).eng
      mport := (issuedLeaving s r rest i cs).mport, choices := (issuedLeaving s r rest i cs).choices } := by
  unfold issuedLeaving
  cases r.op <;> rfl

theorem issuedLeaving_mport (s : State) (r : MemRequest) (rest : List MemRequest) (i : LinkNo) (cs : Choices) :
    (issuedLeaving s r rest i cs).mport =
      { slots := s.mport.slots.set i (.busy (granted s r.op r.addr)), queue := rest,
        out := s.mport.out ++ [{ slot := i, op := r.op, addr := r.addr }] } := by
  unfold issuedLeaving
  cases r.op <;> rfl

theorem engineSettled_issuedLeaving {s : State} (h : engineSettled s = true) {r : MemRequest} {rest : List MemRequest}
    {i : LinkNo} {cs : Choices} (hi : s.mport.slots[i] = .free) : engineSettled (issuedLeaving s r rest i cs) = true := by
  have hs := engineSettled_issued h (op := r.op) (addr := r.addr) (cs := cs) hi
  have he : issuedLeaving s r rest i cs = { issuedState s r.op r.addr i cs with
      mport := { (issuedState s r.op r.addr i cs).mport with queue := rest } } := by
    unfold issuedLeaving issuedState
    cases r.op <;> rfl
  rw [he]
  exact hs

/-- One FREE link slot fewer. -/
theorem freeSlots_issued {m : MPort} {i : LinkNo} (hi : m.slots[i] = .free) (r : LinkRec) (q : List MemRequest)
    (out : List MemIssue) :
    (freeSlots { slots := m.slots.set i (.busy r), queue := q, out := out }).length + 1 = (freeSlots m).length := by
  have hperm : (freeSlots m).Perm
      (i :: freeSlots { slots := m.slots.set i (.busy r), queue := q, out := out }) := by
    have hn : ∀ m : MPort, (freeSlots m).Nodup := fun m => (List.nodup_finRange 32).filter _
    refine (List.perm_ext_iff_of_nodup (hn m) (List.nodup_cons.mpr ⟨?_, hn _⟩)).mpr fun j => ?_
    · rw [mem_freeSlots]; simp
    · rw [List.mem_cons, mem_freeSlots, mem_freeSlots]
      simp only [Fin.getElem_fin, Vector.getElem_set]
      by_cases hij : i.val = j.val
      · have : j = i := Fin.ext hij.symm
        subst this
        simp only [Fin.getElem_fin] at hi
        simp [hi]
      · have : j ≠ i := fun h => hij (by rw [h])
        simp [hij, this]
  rw [hperm.length_eq, List.length_cons]

/-! ### The event as a whole -/

/-- An event whose first round's grants leave nothing to do. -/
theorem settle_of_grants {s u v : State} (hs : selfSteps s = u) (hg : grants u.mport.queue.length u = v)
    (he : engineSettled v = true) (hq : v.mport.queue = [] ∨ freeSlots v.mport = []) (hl : v.host.link = []) :
    settle s = closeEvent v := by
  have hdone : eventDone v = true := by
    rw [eventDone, he]
    rcases hq with hq | hq <;> simp [hq]
  have hsettled : settled v = true := by
    rw [settled, hdone, hl]
    rfl
  by_cases hset : settled s = true
  · have hse : engineSettled s = true := by
      rw [settled_eq] at hset
      simp only [Bool.and_eq_true] at hset
      exact hset.1.1
    have hsu : s = u := (selfSteps_of_engineSettled hse).symm.trans hs
    subst hsu
    have hqs : s.mport.queue = [] ∨ freeSlots s.mport = [] := by
      rw [settled_eq] at hset
      simp only [Bool.and_eq_true, Bool.or_eq_true, List.isEmpty_iff] at hset
      exact hset.1.2
    have hv : v = s := by
      rcases hqs with h | h
      · rw [h] at hg; exact hg.symm
      · rw [grants_of_noFree h] at hg; exact hg.symm
    rw [settle_of_settled hset, hv]
  · have hround : settleRound s = v := by
      unfold settleRound
      dsimp only
      rw [show restoreStep (recordStep (headerStep (drainStep s))) = u from hs, hg, if_pos hdone, intakeStep, hl]
    have hstay : ∀ n, settleRounds n v = v := fun n => by
      cases n with
      | zero => rfl
      | succ n => rw [settleRounds, if_pos hsettled]
    have hb : settleBound s = settleBound s - 1 + 1 := by unfold settleBound; omega
    rw [settle, hb, settleRounds, if_neg hset, hround, hstay]

/-- An event that comes to one request. -/
theorem settle_one {s u b : State} {op : MemOp} {addr : Addr} {f : Bool} (hs : selfSteps s = u)
    (hm : u.mport = { b.mport with queue := [{ op := op, addr := addr, fresh := f }] }) (hc : u.clock = b.clock)
    (hg : u.cfg = b.cfg) (he : engineSettled u = true) (hl : u.host.link = [])
    (hd : deniedAtGrant b.cfg op = none) (hw : waitsAtGrant u op = none) :
    RequestsOne b (settle s) op addr ∧
      settle s = { u with eng := (settle s).eng, mport := (settle s).mport, choices := (settle s).choices } ∧
      (settle s).eng = if freeSlots b.mport = [] then u.eng else (countIssued op u).eng := by
  have hfree : freeSlots u.mport = freeSlots b.mport := by rw [hm]; rfl
  have hq : u.mport.queue = [{ op := op, addr := addr, fresh := f }] := by rw [hm]
  by_cases hf : freeSlots b.mport = []
  · have hg1 : grants u.mport.queue.length u = u := grants_of_noFree (hfree.trans hf) _
    have hset : settle s = closeEvent u := settle_of_grants hs hg1 he (.inr (hfree.trans hf)) hl
    rw [hset, if_pos hf]
    refine ⟨⟨fun _ => ?_, fun h => absurd hf h⟩, rfl, rfl⟩
    rw [closeEvent_mport, hm]
    rfl
  · obtain ⟨i, cs, hi, hone⟩ := grantOne_issues hq (hfree ▸ hf) (hg ▸ hd) hw
    have hg1 : grants u.mport.queue.length u = issuedLeaving u { op := op, addr := addr, fresh := f } [] i cs := by
      rw [hq]; exact hone
    have hset := settle_of_grants hs hg1 (engineSettled_issuedLeaving he hi)
      (.inl (by rw [issuedLeaving_mport])) (by rw [issuedLeaving_frame]; exact hl)
    rw [closeEvent_of_nil (by rw [issuedLeaving_mport])] at hset
    have hib : b.mport.slots[i] = .free := by rw [hm] at hi; exact hi
    rw [hset, if_neg hf]
    refine ⟨⟨fun h => absurd h hf, fun _ => ⟨i, hib, ?_⟩⟩, ?_, ?_⟩
    · rw [issuedLeaving_mport, hm]
      simp only [granted, hc, hg]
    · exact (issuedLeaving_frame u _ [] i cs).trans (by rw [issuedLeaving_frame])
    · rw [issuedLeaving_frame]

theorem issuedLeaving_of_plain {s : State} {r : MemRequest} (h : r.op.plain = true) (rest : List MemRequest)
    (i : LinkNo) (cs : Choices) : issuedLeaving s r rest i cs = { s with
      choices := cs
      mport :=
        { slots := s.mport.slots.set i (.busy (granted s r.op r.addr)), queue := rest,
          out := s.mport.out ++ [{ slot := i, op := r.op, addr := r.addr }] } } :=
  countIssued_of_plain h _

/-- An event that comes to two requests, in this order. -/
theorem settle_two {s u b : State} {p q : MemOp × Addr} {f f' : Bool} (hs : selfSteps s = u)
    (hm : u.mport = { b.mport with
      queue := [{ op := p.1, addr := p.2, fresh := f }, { op := q.1, addr := q.2, fresh := f' }] })
    (hc : u.clock = b.clock) (hg : u.cfg = b.cfg) (he : engineSettled u = true) (hl : u.host.link = [])
    (hdp : deniedAtGrant b.cfg p.1 = none) (hdq : deniedAtGrant b.cfg q.1 = none) (hp : p.1.plain = true)
    (hq : q.1.plain = true) :
    TakesInOrder b (settle s) p q ∧
      settle s = { u with mport := (settle s).mport, choices := (settle s).choices } := by
  have hfree : freeSlots u.mport = freeSlots b.mport := by rw [hm]; rfl
  have hqu : u.mport.queue = [{ op := p.1, addr := p.2, fresh := f }, { op := q.1, addr := q.2, fresh := f' }] := by
    rw [hm]
  by_cases hf : freeSlots b.mport = []
  · have hset : settle s = closeEvent u :=
      settle_of_grants hs (grants_of_noFree (hfree.trans hf) _) he (.inr (hfree.trans hf)) hl
    rw [hset]
    refine ⟨⟨fun _ => ?_, fun h => ?_, fun h => ?_⟩, rfl⟩
    · rw [closeEvent_mport, hm]
      rfl
    all_goals rw [hf] at h; exact absurd h (by decide)
  obtain ⟨i, cs, hi, hone⟩ := grantOne_issues hqu (hfree ▸ hf) (hg ▸ hdp) (waitsAtGrant_of_plain hp u)
  rw [issuedLeaving_of_plain hp] at hone
  have hib : b.mport.slots[i] = .free := by rw [hm] at hi; exact hi
  have hlen := freeSlots_issued hi (granted u p.1 p.2) [{ op := q.1, addr := q.2, fresh := f' }]
    (u.mport.out ++ [{ slot := i, op := p.1, addr := p.2 }])
  rw [hfree] at hlen
  generalize hw : ({ u with
      choices := cs
      mport :=
        { slots := u.mport.slots.set i (.busy (granted u p.1 p.2)), queue := [{ op := q.1, addr := q.2, fresh := f' }],
          out := u.mport.out ++ [{ slot := i, op := p.1, addr := p.2 }] } } : State) = w at hone
  have hwm : w.mport =
      { slots := b.mport.slots.set i (.busy (granted b p.1 p.2)), queue := [{ op := q.1, addr := q.2, fresh := f' }],
        out := b.mport.out ++ [{ slot := i, op := p.1, addr := p.2 }] } := by
    rw [← hw, hm]
    simp only [granted, hc, hg]
  have hwe : engineSettled w = true := by
    rw [← hw, ← issuedLeaving_of_plain (r := { op := p.1, addr := p.2, fresh := f }) hp]
    exact engineSettled_issuedLeaving he hi
  have hwlen : (freeSlots w.mport).length + 1 = (freeSlots b.mport).length := by rw [← hw]; exact hlen
  have hwu : w = { u with mport := w.mport, choices := w.choices } := by rw [← hw]
  have hwl : w.host.link = [] := by rw [← hw]; exact hl
  have hgr (v : State) (hv : grantOne w = v) : grants u.mport.queue.length u = v := by
    rw [hqu, ← hv, ← hone]
    rfl
  have hqw : w.mport.queue = [{ op := q.1, addr := q.2, fresh := f' }] := by rw [hwm]
  by_cases hfw : freeSlots w.mport = []
  · have hset : settle s = closeEvent w := settle_of_grants hs (hgr w (grantOne_of_noFree hfw)) hwe (.inr hfw) hwl
    rw [hfw] at hwlen
    rw [hset]
    refine ⟨⟨fun h => ?_, fun _ => ⟨i, hib, ?_⟩, fun h => ?_⟩, ?_⟩
    · exact absurd (h.symm.trans hwlen.symm) (by decide)
    · rw [closeEvent_mport, hwm]
      rfl
    · rw [← hwlen] at h
      exact absurd h (by decide)
    · rw [← hw]
      rfl
  · obtain ⟨j, cs', hj, htwo⟩ := grantOne_issues hqw hfw (by rw [← hw]; exact hg ▸ hdq) (waitsAtGrant_of_plain hq w)
    rw [issuedLeaving_of_plain hq] at htwo
    have hset := settle_of_grants hs (hgr _ htwo) (by
      rw [← issuedLeaving_of_plain (r := { op := q.1, addr := q.2, fresh := f' }) hq]
      exact engineSettled_issuedLeaving hwe hj) (.inl rfl) hwl
    rw [closeEvent_of_nil rfl] at hset
    have hij : i ≠ j := by
      rintro rfl
      rw [hwm] at hj
      simp at hj
    have hjb : b.mport.slots[j] = .free := by
      rw [hwm] at hj
      simpa [Vector.getElem_set, Fin.val_ne_of_ne hij] using hj
    have hpos := List.length_pos_iff.mpr hfw
    rw [hset]
    refine ⟨⟨fun h => ?_, fun h => ?_, fun _ => ⟨i, j, hij, hib, hjb, ?_⟩⟩, ?_⟩
    · omega
    · omega
    · have hgr : granted w q.1 q.2 = granted b q.1 q.2 := by rw [← hw]; simp only [granted, hc, hg]
      rw [hgr, hwm]
      simp
    · rw [← hw]

/-- Two requests of one event stand in the queue in either order. -/
theorem enqueue_two {s : State} (hq : s.mport.queue = []) (p q : MemOp × Addr) :
    ∃ cs, ∃ x y : MemOp × Addr, (x = p ∧ y = q ∨ x = q ∧ y = p) ∧
      enqueue q.1 q.2 (enqueue p.1 p.2 s) = { s with
        choices := cs
        mport := { s.mport with
          queue := [{ op := x.1, addr := x.2, fresh := true }, { op := y.1, addr := y.2, fresh := true }] } } := by
  rw [enqueue_nil p.1 p.2 s hq]
  obtain ⟨cs, before, after, hsplit, -, he⟩ := enqueue_cases q.1 q.2 { s with mport := { s.mport with
    queue := [{ op := p.1, addr := p.2, fresh := true }] } }
  have hsplit' : before ++ after = [{ op := p.1, addr := p.2, fresh := true }] := hsplit.symm
  rcases List.append_eq_singleton_iff.mp hsplit' with ⟨rfl, rfl⟩ | ⟨rfl, rfl⟩
  · exact ⟨cs, q, p, .inr ⟨rfl, rfl⟩, he⟩
  · exact ⟨cs, p, q, .inl ⟨rfl, rfl⟩, he⟩

/-- An event that comes to a pair of requests. -/
theorem settle_pair {s x b : State} {p q : MemOp × Addr} (hs : selfSteps s = enqueue q.1 q.2 (enqueue p.1 p.2 x))
    (hm : x.mport = b.mport) (hb : b.mport.queue = []) (hc : x.clock = b.clock) (hg : x.cfg = b.cfg)
    (he : engineSettled x = true) (hl : x.host.link = []) (hdp : deniedAtGrant b.cfg p.1 = none)
    (hdq : deniedAtGrant b.cfg q.1 = none) (hp : p.1.plain = true) (hq : q.1.plain = true) :
    RequestsPair b (settle s) p q ∧
      settle s = { x with mport := (settle s).mport, choices := (settle s).choices } := by
  obtain ⟨cs, y, z, hyz, hen⟩ := enqueue_two (hm ▸ hb) p q
  rw [hen] at hs
  rcases hyz with ⟨rfl, rfl⟩ | ⟨rfl, rfl⟩
  · obtain ⟨h1, h2⟩ := settle_two hs (by rw [hm]) hc hg he hl hdp hdq hp hq
    exact ⟨.inl h1, h2⟩
  · obtain ⟨h1, h2⟩ := settle_two hs (by rw [hm]) hc hg he hl hdq hdp hq hp
    exact ⟨.inr h1, h2⟩

/-! ### A header write -/

theorem headerFor_eq (why : HdrPurpose) (s : State) : nextHeader why s = headerFor why s.eng s.cfg.jslots := by
  cases why <;> rfl

theorem headerAddr_eq (c : Settings) (copy : Copy) : slotAddr c (copySlot copy) = headerAddr c copy := by
  cases copy <;> rfl

theorem headerStep_sends {s : State} {why : HdrPurpose} (ho : s.eng.op = .headerWrite why false)
    (h : s.eng.hdrOut s.eng.nextCopy = 0) : headerStep s =
      enqueue (.headerWrite s.eng.nextCopy (headerFor why s.eng s.cfg.jslots)) (headerAddr s.cfg s.eng.nextCopy)
        (setEng (fun g => { g with op := .headerWrite why true }) s) := by
  unfold headerStep
  rw [ho]
  dsimp only
  rw [if_pos h, headerFor_eq, headerAddr_eq]

theorem headerStep_waits {s : State} {why : HdrPurpose} (ho : s.eng.op = .headerWrite why false)
    (h : s.eng.hdrOut s.eng.nextCopy ≠ 0) : headerStep s = s := by
  unfold headerStep
  rw [ho]
  dsimp only
  rw [if_neg h]

theorem engineSettled_of_headerWrite {s : State} {why : HdrPurpose} {asked : Bool} (ho : s.eng.op = .headerWrite why asked)
    (h : asked = false → s.eng.hdrOut s.eng.nextCopy ≠ 0) (hq : RecordsQuiet s) : engineSettled s = true := by
  rw [engineSettled, ho, hq]
  cases asked with
  | true => rfl
  | false => simp [h rfl]

section
variable {s x b : State} {why : HdrPurpose} (hs : selfSteps s = selfSteps x) (ho : x.eng.op = .headerWrite why false)
  (hr : RecordsQuiet x) (hm : x.mport = b.mport) (hb : b.mport.queue = []) (hc : x.clock = b.clock)
  (hg : x.cfg = b.cfg) (hl : x.host.link = [])
include hs ho hr hm hb hc hg hl

omit hc hg in
theorem settle_header_waits (hw : x.eng.hdrOut x.eng.nextCopy ≠ 0) : settle s = x := by
  have he : engineSettled x = true := engineSettled_of_headerWrite ho (fun _ => hw) hr
  rw [selfSteps_of_engineSettled he] at hs
  have hq : x.mport.queue = [] := hm ▸ hb
  rw [settle_of_grants hs (by rw [hq]; rfl) he (.inl hq) hl, closeEvent_of_nil hq]

theorem settle_header_requested (hz : x.eng.hdrOut x.eng.nextCopy = 0) :
    RequestsOne b (settle s) (.headerWrite x.eng.nextCopy (headerFor why x.eng b.cfg.jslots))
        (headerAddr b.cfg x.eng.nextCopy) ∧
      settle s = { x with eng := (settle s).eng, mport := (settle s).mport, choices := (settle s).choices } ∧
      (settle s).eng = if freeSlots b.mport = [] then { x.eng with op := .headerWrite why true }
        else Engine.mapHdrOut (· + 1) x.eng.nextCopy { x.eng with op := .headerWrite why true } := by
  have hq : x.mport.queue = [] := hm ▸ hb
  have hself : selfSteps x = headerStep x := by
    rw [selfSteps, drainStep_of_op (by rw [ho]; exact EngineOp.noConfusion), recordStep_of_quiet, restoreStep_of_op]
    · rw [headerStep_sends ho hz, enqueue_eng]
      exact fun _ _ => EngineOp.noConfusion
    · rw [headerStep_sends ho hz, RecordsQuiet, enqueue_pres]
      exact hr
  rw [hself, headerStep_sends ho hz, hg, enqueue_nil _ _ (setEng _ x) hq] at hs
  obtain ⟨h1, h2, h3⟩ := settle_one hs (b := b) (by rw [← hm]; rfl) hc hg
    (engineSettled_of_headerWrite (why := why) (asked := true) rfl Bool.noConfusion hr) hl rfl rfl
  exact ⟨h1, h2, h3⟩

/-- An event that comes to a header write (R76 to R78). -/
theorem settle_header : SendsHeader b (settle s) why x.eng ∧
    settle s = { x with eng := (settle s).eng, mport := (settle s).mport, choices := (settle s).choices } ∧
    (settle s).eng.steady = x.eng.steady ∧ (settle s).eng.walk = x.eng.walk := by
  by_cases hz : x.eng.hdrOut x.eng.nextCopy = 0
  · obtain ⟨h1, h2, h3⟩ := settle_header_requested hs ho hr hm hb hc hg hl hz
    have hop : (settle s).eng.op = .headerWrite why true ∧ (settle s).eng.steady = x.eng.steady ∧
        (settle s).eng.walk = x.eng.walk := by
      rw [h3]
      split
      · exact ⟨rfl, rfl, rfl⟩
      · cases x.eng.nextCopy <;> exact ⟨rfl, rfl, rfl⟩
    exact ⟨⟨by rw [WritesHeader, hop.1, decide_eq_true hz], fun _ => h1, fun h => absurd hz h⟩, h2, hop.2⟩
  · have h := settle_header_waits hs ho hr hm hb hl hz
    rw [h]
    exact ⟨⟨by rw [WritesHeader, ho, decide_eq_false hz], fun h => absurd h hz, fun _ => hm⟩, rfl, rfl, rfl⟩

end

/-! ### One request, and the two reads of a record -/

theorem engineSettled_enqueue (op : MemOp) (addr : Addr) (s : State) :
    engineSettled (enqueue op addr s) = engineSettled s := by
  obtain ⟨cs, before, after, -, -, h⟩ := enqueue_cases op addr s
  rw [h]
  rfl

section
variable {s x b : State} (hm : x.mport = b.mport) (hb : b.mport.queue = []) (hc : x.clock = b.clock)
  (hg : x.cfg = b.cfg) (hl : x.host.link = []) (he : engineSettled x = true)
include hm hb hc hg hl he

/-- An event that comes to one request the engine does not count. -/
theorem settle_request {op : MemOp} {addr : Addr} (hs : selfSteps s = enqueue op addr x)
    (hd : deniedAtGrant b.cfg op = none) (hp : op.plain = true) :
    RequestsOne b (settle s) op addr ∧
      settle s = { x with mport := (settle s).mport, choices := (settle s).choices } := by
  rw [enqueue_nil op addr x (hm ▸ hb)] at hs
  obtain ⟨h1, h2, h3⟩ := settle_one hs (b := b) (by rw [← hm]) hc hg he hl hd (waitsAtGrant_of_plain hp _)
  rw [countIssued_of_plain hp, ite_self] at h3
  refine ⟨h1, ?_⟩
  rw [h3] at h2
  exact h2

/-- An event whose last act is such a request. -/
theorem settle_enqueued {op : MemOp} {addr : Addr} (hd : deniedAtGrant b.cfg op = none) (hp : op.plain = true) :
    RequestsOne b (settle (enqueue op addr x)) op addr ∧ settle (enqueue op addr x) =
      { x with mport := (settle (enqueue op addr x)).mport, choices := (settle (enqueue op addr x)).choices } :=
  settle_request hm hb hc hg hl he (selfSteps_of_engineSettled (by rw [engineSettled_enqueue]; exact he)) hd hp

end

theorem engineSettled_of_recordReads {s : State} {h d : Option CellData} (ho : s.eng.op = .recordReads h d)
    (hq : RecordsQuiet s) : engineSettled s = true := by
  rw [engineSettled, ho, hq]
  rfl

/-- The two reads of a record are asked for in one event. -/
def readsOf (kind : RecHalf → MemOp) (k : Nat) (s : State) : State :=
  enqueue (kind .data) (slotAddr s.cfg (recordSlot k .data))
    (enqueue (kind .header) (slotAddr s.cfg (recordSlot k .header)) s)

theorem beginRestore_eq (k : Nat) (s : State) : beginRestore k s = readsOf (.restoreRead k) k (setEng (fun g =>
    { g with walk := { g.walk with phase := some .restore, index := some k }, op := .recordReads none none }) s) := rfl

theorem beginScan_eq (k : Nat) (s : State) : beginScan k s = readsOf (.scanRead k) k (setEng (fun g =>
    { g with walk := { g.walk with phase := some .scan, index := some k }, op := .recordReads none none }) s) := rfl

theorem readsOf_eng (kind : RecHalf → MemOp) (k : Nat) (s : State) : (readsOf kind k s).eng = s.eng := by
  simp [readsOf]

theorem engineSettled_readsOf (kind : RecHalf → MemOp) (k : Nat) (s : State) :
    engineSettled (readsOf kind k s) = engineSettled s := by
  rw [readsOf, engineSettled_enqueue, engineSettled_enqueue]

/-- An event that comes to the two reads of a record (R138, R151). -/
theorem settle_reads {s x b : State} {kind : RecHalf → MemOp} {k : Nat} {h d : Option CellData}
    (hs : selfSteps s = selfSteps (readsOf kind k x)) (ho : x.eng.op = .recordReads h d) (hr : RecordsQuiet x)
    (hm : x.mport = b.mport) (hb : b.mport.queue = []) (hc : x.clock = b.clock) (hg : x.cfg = b.cfg)
    (hl : x.host.link = []) (hk : kind = .scanRead k ∨ kind = .restoreRead k) :
    ReadsRecord b (settle s) kind k ∧
      settle s = { x with mport := (settle s).mport, choices := (settle s).choices } := by
  have he := engineSettled_of_recordReads ho hr
  rw [selfSteps_of_engineSettled ((engineSettled_readsOf kind k x).trans he), readsOf, hg] at hs
  rcases hk with rfl | rfl <;>
    exact settle_pair (p := (_, _)) (q := (_, _)) hs hm hb hc hg he hl rfl rfl rfl rfl

/-! ### The reads of the two header copies -/

/-- A header read that waits and may be issued (R78). -/
abbrev MayRead (r : HdrRead) (out : Nat) : Prop := r = .waiting ∧ out = 0

/-- The read of a copy once it has been asked for where it may be. -/
def readAsked (r : HdrRead) (out : Nat) : HdrRead := if MayRead r out then .requested else r

theorem readAsked_not_mayRead (r : HdrRead) (out : Nat) : ¬ MayRead (readAsked r out) out := by
  unfold readAsked
  split
  · exact fun h => HdrRead.noConfusion h.1
  · assumption

theorem engineSettled_of_headerReads {s : State} {why : HdrReader} {a b : HdrRead} (ho : s.eng.op = .headerReads why a b)
    (ha : ¬ MayRead a s.eng.hdrOutA) (hb : ¬ MayRead b s.eng.hdrOutB) (hq : RecordsQuiet s) :
    engineSettled s = true := by
  have h1 : (a == .waiting && s.eng.hdrOutA == 0) = false := by
    rw [Bool.eq_false_iff, Ne, Bool.and_eq_true, beq_iff_eq, beq_iff_eq]; exact ha
  have h2 : (b == .waiting && s.eng.hdrOutB == 0) = false := by
    rw [Bool.eq_false_iff, Ne, Bool.and_eq_true, beq_iff_eq, beq_iff_eq]; exact hb
  rw [engineSettled, ho, hq]
  dsimp only
  rw [h1, h2]
  rfl

theorem headerStep_reads {s : State} {why : HdrReader} {a b : HdrRead} (ho : s.eng.op = .headerReads why a b) :
    headerStep s =
      (let s1 := setEng (fun g => { g with
        op := .headerReads why (readAsked a s.eng.hdrOutA) (readAsked b s.eng.hdrOutB) }) s
      let s2 := if MayRead a s.eng.hdrOutA then enqueue (.headerRead .a) (headerAddr s.cfg .a) s1 else s1
      if MayRead b s.eng.hdrOutB then enqueue (.headerRead .b) (headerAddr s.cfg .b) s2 else s2) := by
  have hreq (c : Copy) {t : State} (ht : t.cfg = s.cfg) :
      requestHeaderRead c t = enqueue (.headerRead c) (headerAddr s.cfg c) t := by
    rw [requestHeaderRead, ht, headerAddr_eq]
  unfold headerStep
  rw [ho]
  dsimp only
  rw [hreq .a (setEng_cfg _ _), hreq .b]
  · rfl
  · split
    · rw [enqueue_cfg, setEng_cfg]
    · rfl

section
variable {s x b : State} {why : HdrReader} {ra rb : HdrRead} (hs : selfSteps s = selfSteps x)
  (ho : x.eng.op = .headerReads why ra rb) (hr : RecordsQuiet x) (hm : x.mport = b.mport) (hb : b.mport.queue = [])
  (hc : x.clock = b.clock) (hg : x.cfg = b.cfg) (hl : x.host.link = [])
include hs ho hr hm hb hc hg hl

/-- An event that comes to the header reads that may be issued (R78, R149, R158). -/
theorem settle_headerReads :
    (MayRead ra x.eng.hdrOutA → MayRead rb x.eng.hdrOutB →
      RequestsPair b (settle s) (.headerRead .a, headerAddr b.cfg .a) (.headerRead .b, headerAddr b.cfg .b)) ∧
    (MayRead ra x.eng.hdrOutA → ¬ MayRead rb x.eng.hdrOutB →
      RequestsOne b (settle s) (.headerRead .a) (headerAddr b.cfg .a)) ∧
    (¬ MayRead ra x.eng.hdrOutA → MayRead rb x.eng.hdrOutB →
      RequestsOne b (settle s) (.headerRead .b) (headerAddr b.cfg .b)) ∧
    (¬ MayRead ra x.eng.hdrOutA → ¬ MayRead rb x.eng.hdrOutB → (settle s).mport = b.mport) ∧
    settle s = { x with
      eng := { x.eng with op := .headerReads why (readAsked ra x.eng.hdrOutA) (readAsked rb x.eng.hdrOutB) }
      mport := (settle s).mport, choices := (settle s).choices } := by
  generalize hy : setEng (fun g => { g with
    op := .headerReads why (readAsked ra x.eng.hdrOutA) (readAsked rb x.eng.hdrOutB) }) x = y
  have hye : y = { x with eng := { x.eng with
    op := .headerReads why (readAsked ra x.eng.hdrOutA) (readAsked rb x.eng.hdrOutB) } } := hy.symm
  have hyo : y.eng.op = .headerReads why (readAsked ra x.eng.hdrOutA) (readAsked rb x.eng.hdrOutB) := by rw [hye]
  have hym : y.mport = b.mport := by rw [hye]; exact hm
  have hyc : y.clock = b.clock := by rw [hye]; exact hc
  have hyg : y.cfg = b.cfg := by rw [hye]; exact hg
  have hyl : y.host.link = [] := by rw [hye]; exact hl
  have hyset : engineSettled y = true :=
    engineSettled_of_headerReads hyo (by rw [hye]; exact readAsked_not_mayRead _ _)
      (by rw [hye]; exact readAsked_not_mayRead _ _) (by rw [hye]; exact hr)
  have hstep := headerStep_reads ho
  rw [hy, hg] at hstep
  dsimp only at hstep
  have hself : selfSteps x = restoreStep (recordStep (headerStep x)) := by
    rw [selfSteps, drainStep_of_op (by rw [ho]; exact EngineOp.noConfusion)]
  have hrest (z : State) (hz : engineSettled z = true) (h : headerStep x = z) : selfSteps s = z := by
    rw [hs, hself, h, recordStep_engineSettled hz, restoreStep_engineSettled hz]
  have hback (h : settle s = { y with mport := (settle s).mport, choices := (settle s).choices }) :
      settle s = { x with
        eng := { x.eng with op := .headerReads why (readAsked ra x.eng.hdrOutA) (readAsked rb x.eng.hdrOutB) }
        mport := (settle s).mport, choices := (settle s).choices } := by
    rw [hye] at h
    exact h
  by_cases ha : MayRead ra x.eng.hdrOutA <;> by_cases hb' : MayRead rb x.eng.hdrOutB
  · rw [if_pos ha, if_pos hb'] at hstep
    obtain ⟨h1, h2⟩ := settle_pair (p := (.headerRead .a, headerAddr b.cfg .a))
      (q := (.headerRead .b, headerAddr b.cfg .b))
      (hrest _ (by rw [engineSettled_enqueue, engineSettled_enqueue]; exact hyset) hstep) hym hb hyc hyg hyset hyl
      rfl rfl rfl rfl
    exact ⟨fun _ _ => h1, fun _ h => absurd hb' h, fun h => absurd ha h, fun h => absurd ha h, hback h2⟩
  · rw [if_pos ha, if_neg hb'] at hstep
    obtain ⟨h1, h2⟩ := settle_request hym hb hyc hyg hyl hyset
      (hrest _ (by rw [engineSettled_enqueue]; exact hyset) hstep) rfl rfl
    exact ⟨fun _ h => absurd h hb', fun _ _ => h1, fun h => absurd ha h, fun h => absurd ha h, hback h2⟩
  · rw [if_neg ha, if_pos hb'] at hstep
    obtain ⟨h1, h2⟩ := settle_request hym hb hyc hyg hyl hyset
      (hrest _ (by rw [engineSettled_enqueue]; exact hyset) hstep) rfl rfl
    exact ⟨fun h => absurd h ha, fun h => absurd h ha, fun _ _ => h1, fun _ h => absurd hb' h, hback h2⟩
  · rw [if_neg ha, if_neg hb'] at hstep
    have hq : y.mport.queue = [] := hym ▸ hb
    have hset := settle_of_grants (hrest _ hyset hstep) (by rw [hq]; rfl) hyset (.inl hq) hyl
    rw [closeEvent_of_nil hq] at hset
    exact ⟨fun h => absurd h ha, fun h => absurd h ha, fun _ h => absurd h hb', fun _ _ => by rw [hset]; exact hym,
      hback (by rw [hset])⟩

end

/-! ### A restoration write (R139) -/

theorem restoreStep_asks {s : State} {cell : CellIx} {bytes : CellData} (ho : s.eng.op = .restoreWait cell bytes)
    (hz : s.eng.restoreOut = 0) (hst : staleForwardTo s.mport cell = false) : restoreStep s =
      enqueue (.restoreWrite cell bytes) (cellAddr cell)
        (setEng (fun g => { g with op := .restoreIssued cell }) s) := by
  unfold restoreStep
  rw [ho]
  exact if_pos ⟨hz, hst⟩

theorem engineSettled_of_restoreWait {s : State} {cell : CellIx} {bytes : CellData}
    (ho : s.eng.op = .restoreWait cell bytes) (h : s.eng.restoreOut ≠ 0 ∨ staleForwardTo s.mport cell = true)
    (hq : RecordsQuiet s) : engineSettled s = true := by
  rw [engineSettled, ho, hq]
  rcases h with h | h <;> simp [h]

theorem engineSettled_of_restoreIssued {s : State} {cell : CellIx} (ho : s.eng.op = .restoreIssued cell)
    (hq : RecordsQuiet s) : engineSettled s = true := by
  rw [engineSettled, ho, hq]
  rfl

/-- An event that comes to a restoration write that may be issued. -/
theorem settle_restoration {s x b : State} {cell : CellIx} {bytes : CellData} (hs : selfSteps s = selfSteps x)
    (ho : x.eng.op = .restoreWait cell bytes) (hz : x.eng.restoreOut = 0) (hst : staleForwardTo x.mport cell = false)
    (hr : RecordsQuiet x) (hm : x.mport = b.mport) (hb : b.mport.queue = []) (hc : x.clock = b.clock)
    (hg : x.cfg = b.cfg) (hl : x.host.link = []) :
    RequestsOne b (settle s) (.restoreWrite cell bytes) (cellAddr cell) ∧
      settle s = { x with eng := (settle s).eng, mport := (settle s).mport, choices := (settle s).choices } ∧
      (settle s).eng = if freeSlots b.mport = [] then { x.eng with op := .restoreIssued cell }
        else { x.eng with op := .restoreIssued cell, restoreOut := x.eng.restoreOut + 1 } := by
  have hq : x.mport.queue = [] := hm ▸ hb
  have hself : selfSteps x = restoreStep x := by
    rw [selfSteps, drainStep_of_op (by rw [ho]; exact EngineOp.noConfusion)]
    have hh : headerStep x = x := by unfold headerStep; rw [ho]
    rw [hh, recordStep_of_quiet hr]
  rw [hself, restoreStep_asks ho hz hst, enqueue_nil _ _ (setEng _ x) hq] at hs
  exact settle_one hs (b := b) (by rw [← hm]; rfl) hc hg (engineSettled_of_restoreIssued (cell := cell) rfl hr) hl rfl
    (if_pos ⟨hz, hst⟩)

/-! ### A drain that ends (R90) -/

theorem drained_iff (s : State) : Drained s ↔ drainDone s = true := by
  have hone (e : Entry) : e.inDrain s.eng.epoch = true ↔ DrainWaitsFor s e := by
    simp [Entry.inDrain, DrainWaitsFor, and_assoc, or_assoc]
  simp only [Drained, drainDone, Bool.not_eq_true', List.any_eq_false, hone]

theorem engineSettled_of_draining {s : State} (ho : s.eng.op = .draining) (h : ¬ Drained s) (hq : RecordsQuiet s) :
    engineSettled s = true := by
  rw [drained_iff, Bool.not_eq_true] at h
  rw [engineSettled, ho, hq, h]
  rfl

/-- The header that ends an epoch, by CLOSE_KIND. -/
theorem drainStep_closing {s : State} (ho : s.eng.op = .draining) (h : Drained s) (hs : s.eng.state = .closing) :
    drainStep s = needHeader (closePurpose (s.eng.closeKind.getD .commit)) s := by
  unfold drainStep
  rw [ho]
  dsimp only
  rw [if_pos ((drained_iff s).mp h), if_pos hs]

theorem drainStep_walks {s : State} (ho : s.eng.op = .draining) (h : Drained s) (hs : s.eng.state ≠ .closing) :
    drainStep s = walkBelow (walkTotal s.eng) s := by
  unfold drainStep
  rw [ho]
  dsimp only
  rw [if_pos ((drained_iff s).mp h), if_neg hs]
  rfl

theorem selfSteps_drainStep {s : State} (h : (drainStep s).eng.op ≠ .draining) :
    selfSteps (drainStep s) = selfSteps s := by
  rw [selfSteps, drainStep_of_op h]
  rfl

end Sys2Proof.Machine
end

