-- ==== Sys2Proof/Proofs/Persistence.lean ====
section
/-! What every part of settling keeps, settling keeps: the engine's operation once it rests, its walk, and the notices,
classes and responses, which only grow (R19, R175, R180). -/

namespace Sys2Proof.Machine

/-- Every part of settling keeps the predicate. -/
structure SettleClosed (P : State → Prop) : Prop where
  self : ∀ s, P s → P (selfSteps s)
  grant : ∀ s, P s → P (grantOne s)
  intake : ∀ s, P s → P (intakeStep s)
  close : ∀ s, P s → P (closeEvent s)

theorem SettleClosed.grants {P : State → Prop} (h : SettleClosed P) (n : Nat) {s : State} (hs : P s) :
    P (grants n s) := by
  induction n generalizing s with
  | zero => exact hs
  | succ n ih => exact ih (h.grant s hs)

theorem SettleClosed.round {P : State → Prop} (h : SettleClosed P) {s : State} (hs : P (selfSteps s)) :
    P (settleRound s) := by
  unfold settleRound
  dsimp only
  split
  · exact h.intake _ (h.grants _ hs)
  · exact h.grants _ hs

theorem SettleClosed.rounds {P : State → Prop} (h : SettleClosed P) (n : Nat) {s : State} (hs : P s) :
    P (settleRounds n s) := by
  induction n generalizing s with
  | zero => exact hs
  | succ n ih =>
    unfold settleRounds
    split
    · exact hs
    · exact ih (h.round (h.self s hs))

/-- It is enough that the predicate holds after the engine's first own steps. -/
theorem SettleClosed.settle {P : State → Prop} (h : SettleClosed P) {s : State} (hs : P (selfSteps s)) :
    P (settle s) := by
  refine h.close _ ?_
  by_cases hset : settled s = true
  · have he : engineSettled s = true := by
      rw [settled_eq] at hset
      simp only [Bool.and_eq_true] at hset
      exact hset.1.1
    rw [selfSteps_of_engineSettled he] at hs
    exact h.rounds _ hs
  · have hb : settleBound s = settleBound s - 1 + 1 := by unfold settleBound; omega
    rw [hb, settleRounds, if_neg hset]
    exact h.rounds _ (h.round hs)

/-! ### The engine's operation -/

/-- The operation waits for an answer, or for a header write to leave: no step of the engine's own changes it. -/
def opRests (g : Engine) : Prop :=
  match g.op with
  | .none => True
  | .headerWrite _ asked => asked = false → g.hdrOut g.nextCopy ≠ 0
  | .headerReads _ a b => ¬ MayRead a g.hdrOutA ∧ ¬ MayRead b g.hdrOutB
  | .recordReads _ _ => True
  | _ => False

theorem selfSteps_eng_of_rests {s : State} (h : opRests s.eng) : (selfSteps s).eng = s.eng := by
  have hd : drainStep s = s := drainStep_of_op fun ho => by rw [opRests, ho] at h; exact h
  have hh : (headerStep s).eng = s.eng := by
    unfold opRests at h
    split at h
    · rw [headerStep]; simp only [*]
    · rename_i why asked ho
      cases asked with
      | true => rw [headerStep]; simp only [*]
      | false => rw [headerStep_waits ho (h rfl)]
    · rename_i why a b ho
      rw [headerStep_reads ho, readAsked, readAsked, if_neg h.1, if_neg h.2]
      rw [if_neg h.1, if_neg h.2]
      cases hg : s.eng
      simp_all
    · rw [headerStep]; simp only [*]
    · exact h.elim
  rw [selfSteps, hd, restoreStep_of_op, recordStep_eng, hh]
  intro cell bytes ho
  rw [recordStep_eng, hh] at ho
  rw [opRests, ho] at h
  exact h

/-- What a grant may do to the engine. -/
theorem grantOne_eng (s : State) : (grantOne s).eng = s.eng ∨ (∃ op, (grantOne s).eng = (countIssued op s).eng) ∨
    ∃ op x, waitsAtGrant s op = some x ∧ (grantOne s).eng = { s.eng with op := x } := by
  unfold grantOne
  match s.mport.queue, freeSlots s.mport with
  | [], _ => exact .inl rfl
  | _ :: _, [] => exact .inl rfl
  | r :: rest, f :: fs =>
    dsimp only
    match deniedAtGrant s.cfg r.op, hw : waitsAtGrant s r.op with
    | some tag, _ => exact .inl (denyAtGrant_tableOnly _ _).eng
    | none, some x => exact .inr (.inr ⟨r.op, x, hw, rfl⟩)
    | none, none =>
      refine .inr (.inl ⟨r.op, ?_⟩)
      obtain ⟨cs, hp⟩ := pick_state (f :: fs).length { s with mport := { s.mport with queue := rest } }
      dsimp only
      rw [hp]
      unfold issueIn
      cases r.op <;> rfl

theorem countIssued_keepsOp (op : MemOp) (s : State) : (countIssued op s).eng.op = s.eng.op ∧
    (countIssued op s).eng.walk = s.eng.walk ∧ (opRests s.eng → opRests (countIssued op s).eng) := by
  unfold countIssued
  split
  · rename_i c _
    refine ⟨by cases c <;> rfl, by cases c <;> rfl, fun h => ?_⟩
    unfold opRests at h ⊢
    cases ho : s.eng.op <;> rw [ho] at h <;> cases c <;> cases hn : s.eng.nextCopy <;>
      simp_all [Engine.mapHdrOut, Engine.hdrOut]
  · exact ⟨rfl, rfl, id⟩
  · exact ⟨rfl, rfl, id⟩

theorem intakeStep_eng (s : State) : (intakeStep s).eng = s.eng := by
  unfold intakeStep
  split
  · rfl
  · split
    · exact (takeRequest_tableOnly _ _).eng
    · rfl

/-- The engine is at this operation, which rests, with this walk. -/
def RestsAt (o : EngineOp) (w : Walk) (s : State) : Prop := s.eng.op = o ∧ s.eng.walk = w ∧ opRests s.eng

theorem restsAt_closed (o : EngineOp) (w : Walk) : SettleClosed (RestsAt o w) where
  self s h := by
    rw [RestsAt, selfSteps_eng_of_rests h.2.2]
    exact h
  grant s h := by
    rcases grantOne_eng s with he | ⟨op, he⟩ | ⟨op, x, hw, -⟩
    · rw [RestsAt, he]; exact h
    · obtain ⟨h1, h2, h3⟩ := countIssued_keepsOp op s
      rw [RestsAt, he, h1, h2]
      exact ⟨h.1, h.2.1, h3 h.2.2⟩
    · unfold waitsAtGrant at hw
      split at hw
      · rename_i ho
        have := h.2.2
        rw [opRests, ho] at this
        exact this.elim
      · cases hw
  intake s h := by rw [RestsAt, intakeStep_eng]; exact h
  close s h := h

/-- Settling keeps an operation that rests. -/
theorem settle_restsAt {s : State} (h : opRests s.eng) : (settle s).eng.op = s.eng.op ∧ (settle s).eng.walk = s.eng.walk := by
  have hr : RestsAt s.eng.op s.eng.walk (settle s) := by
    refine (restsAt_closed s.eng.op s.eng.walk).settle ?_
    rw [RestsAt, selfSteps_eng_of_rests h]
    exact ⟨rfl, rfl, h⟩
  exact ⟨hr.1, hr.2.1⟩

theorem settle_op_recordReads {s : State} {h d : Option CellData} (ho : s.eng.op = .recordReads h d) :
    (settle s).eng.op = .recordReads h d ∧ (settle s).eng.walk = s.eng.walk := by
  rw [← ho]
  exact settle_restsAt (by rw [opRests, ho]; trivial)

theorem settle_op_none {s : State} (ho : s.eng.op = .none) :
    (settle s).eng.op = .none ∧ (settle s).eng.walk = s.eng.walk := by
  rw [← ho]
  exact settle_restsAt (by rw [opRests, ho]; trivial)

theorem selfSteps_of_header {s : State} {o : EngineOp} {w : Walk} (hd : s.eng.op ≠ .draining)
    (hh : RestsAt o w (headerStep s)) : RestsAt o w (selfSteps s) := by
  have he : (selfSteps s).eng = (headerStep s).eng := by
    rw [selfSteps, drainStep_of_op hd, restoreStep_of_op, recordStep_eng]
    intro cell bytes ho
    rw [recordStep_eng] at ho
    have := hh.2.2
    rw [opRests, ho] at this
    exact this
  rw [RestsAt, he]
  exact hh

/-- Settling asks for the header write, or waits for an earlier write to its copy to leave (R78). -/
theorem settle_op_headerWrite {s : State} {why : HdrPurpose} (ho : s.eng.op = .headerWrite why false) :
    WritesHeader (settle s) why s.eng ∧ (settle s).eng.walk = s.eng.walk := by
  by_cases hz : s.eng.hdrOut s.eng.nextCopy = 0
  · have hr : RestsAt (.headerWrite why true) s.eng.walk (settle s) := by
      refine (restsAt_closed _ _).settle (selfSteps_of_header (by rw [ho]; exact EngineOp.noConfusion) ?_)
      rw [headerStep_sends ho hz, RestsAt, enqueue_eng]
      exact ⟨rfl, rfl, fun h => Bool.noConfusion h⟩
    exact ⟨by rw [WritesHeader, hr.1, decide_eq_true hz], hr.2.1⟩
  · obtain ⟨h1, h2⟩ := settle_restsAt (s := s) (by rw [opRests, ho]; exact fun _ => hz)
    exact ⟨by rw [WritesHeader, h1, ho, decide_eq_false hz], h2⟩

/-- Settling asks for the header reads that may be issued (R78). -/
theorem settle_op_headerReads {s : State} {why : HdrReader} {a b : HdrRead} (ho : s.eng.op = .headerReads why a b) :
    (settle s).eng.op = .headerReads why (readAsked a s.eng.hdrOutA) (readAsked b s.eng.hdrOutB) ∧
      (settle s).eng.walk = s.eng.walk := by
  have hr : RestsAt (.headerReads why (readAsked a s.eng.hdrOutA) (readAsked b s.eng.hdrOutB)) s.eng.walk
      (settle s) := by
    refine (restsAt_closed _ _).settle (selfSteps_of_header (by rw [ho]; exact EngineOp.noConfusion) ?_)
    have he : (headerStep s).eng = { s.eng with
        op := .headerReads why (readAsked a s.eng.hdrOutA) (readAsked b s.eng.hdrOutB) } := by
      rw [headerStep_reads ho]
      dsimp only
      split <;> split <;> simp only [enqueue_eng, setEng_eng]
    rw [RestsAt, he]
    exact ⟨rfl, rfl, readAsked_not_mayRead _ _, readAsked_not_mayRead _ _⟩
  exact ⟨hr.1, hr.2.1⟩

/-! ### What only grows -/

/-- From s to t no class is cleared, no notice is taken, and no response is called back. -/
structure Grows (s t : State) : Prop where
  flags : ∀ i, s.ev.flags.getLsbD i = true → t.ev.flags.getLsbD i = true
  notices : s.ev.notices <+: t.ev.notices
  out : s.host.out <+: t.host.out

theorem Grows.of_same {s t : State} (he : t.ev = s.ev) (ho : t.host.out = s.host.out) : Grows s t :=
  ⟨fun _ h => he ▸ h, he ▸ List.prefix_rfl, ho ▸ List.prefix_rfl⟩

theorem Grows.refl (s : State) : Grows s s := .of_same rfl rfl

theorem Grows.trans {s t u : State} (h : Grows s t) (k : Grows t u) : Grows s u :=
  ⟨fun i hi => k.flags i (h.flags i hi), h.notices.trans k.notices, h.out.trans k.out⟩

/-- Growth from a state that has the same events and responses. -/
theorem Grows.of_frame {s x t : State} (h : Grows x t) (he : x.ev = s.ev)
    (ho : x.host.out = s.host.out) : Grows s t := (Grows.of_same he ho).trans h

theorem setClass_grows (c : EvClass) (s : State) : Grows s (setClass c s) :=
  ⟨fun i hi => by simp [hi], List.prefix_rfl, List.prefix_rfl⟩

theorem post_grows (b : NoticeBody) (s : State) : Grows s (post b s) := by
  rcases post_cases b s with ⟨-, h⟩ | ⟨-, h⟩
  · rw [h]; exact ⟨fun _ hi => hi, List.prefix_append _ _, List.prefix_rfl⟩
  · rw [h]; exact setClass_grows _ s

theorem report_grows (c : EvClass) (b : NoticeBody) (s : State) : Grows s (report c b s) :=
  (post_grows b s).trans (setClass_grows c _)

theorem endEntry_grows (e : Entry) (r : HostResult) (s : State) : Grows s (endEntry e r s) :=
  ⟨fun _ h => h, List.prefix_rfl, List.prefix_append _ _⟩

theorem denyEntry_grows (e : Entry) (why : DenyReason) (s : State) : Grows s (denyEntry e why s) :=
  (endEntry_grows _ _ s).trans (report_grows _ _ _)

theorem enqueue_grows (op : MemOp) (addr : Addr) (s : State) : Grows s (enqueue op addr s) :=
  .of_same (enqueue_ev op addr s) (by rw [enqueue_host])

theorem reportFull_grows (e : Entry) (s : State) : Grows s (reportFull e s) := by
  unfold reportFull
  split
  · exact .refl s
  · exact (report_grows _ _ { s with pres := { s.pres with fullReported := true } }).of_frame rfl rfl

theorem noteBare_grows (e : Entry) (s : State) : Grows s (noteBare e s) := by
  unfold noteBare
  split
  · dsimp only
    split
    · exact setClass_grows _ s
    · exact (setClass_grows _ s).trans (post_grows _ _)
  · exact .refl s

theorem putEntry_grows (e : Entry) (s : State) : Grows s (putEntry e s) := .of_same rfl rfl

theorem forward_grows (e : Entry) (s : State) : Grows s (forward e s) :=
  (putEntry_grows _ s).trans (enqueue_grows _ _ _)

theorem fetchOld_grows (e : Entry) (s : State) : Grows s (fetchOld e s) :=
  (putEntry_grows _ s).trans (enqueue_grows _ _ _)

theorem startWrite_grows (e : Entry) (s : State) : Grows s (startWrite e s) := by
  unfold startWrite
  split
  · exact forward_grows e s
  · exact fetchOld_grows e s

theorem applyVerdict_grows (e : Entry) (v : Verdict) (s : State) : Grows s (applyVerdict e v s) := by
  cases v with
  | hold c =>
    unfold applyVerdict
    dsimp only
    split
    · exact (reportFull_grows e s).trans (putEntry_grows _ _)
    · exact putEntry_grows _ s
  | issueRead => exact (putEntry_grows _ s).trans (enqueue_grows _ _ _)
  | refuse why =>
    unfold applyVerdict
    dsimp only
    split
    · exact (reportFull_grows e s).trans (denyEntry_grows _ _ _)
    · exact denyEntry_grows _ _ s
  | bare => exact (noteBare_grows _ s).trans (startWrite_grows _ _)
  | filterHit => exact startWrite_grows _ s
  | preserve =>
    exact (fetchOld_grows _ { s with pres := { s.pres with claims := s.pres.claims + 1 } }).of_frame rfl rfl
  | atTurn => exact putEntry_grows _ s

theorem turns_grows (n : Nat) (c : CellIx) (s : State) : Grows s (turns n c s) := by
  induction n generalizing s with
  | zero => exact .refl s
  | succ n ih =>
    unfold turns
    split
    · exact .refl s
    · exact (applyVerdict_grows _ _ s).trans (ih _)

theorem giveTurn_grows (c : CellIx) (s : State) : Grows s (giveTurn c s) := turns_grows _ c s

theorem foldl_grows {α : Type} (f : State → α → State) (h : ∀ s a, Grows s (f s a)) (l : List α) (s : State) :
    Grows s (l.foldl f s) := by
  induction l generalizing s with
  | nil => exact .refl s
  | cons a l ih => exact (h s a).trans (ih _)

theorem visit_grows (p : State → Entry → Bool) (s : State) : Grows s (visit p s) := by
  refine foldl_grows _ (fun s tag => ?_) _ s
  unfold visitOne
  split
  · exact .refl s
  · split
    · split
      · exact (applyVerdict_grows _ _ s).trans (giveTurn_grows _ _)
      · exact giveTurn_grows _ s
    · exact .refl s

theorem enterState_grows (n : EngState) (s : State) : Grows s (enterState n s) :=
  (visit_grows _ { s with eng := { s.eng with state := n } }).of_frame rfl rfl

theorem takeRequest_grows (r : HostRequest) (s : State) : Grows s (takeRequest r s) := by
  have hrefuse (why : ProtocolReason) : Grows s (refuseRequest r why s) :=
    Grows.trans (t := respond r.tag .denied s) ⟨fun _ h => h, List.prefix_rfl, List.prefix_append _ _⟩
      (report_grows _ _ _)
  unfold takeRequest
  split
  · exact hrefuse _
  · split
    · exact hrefuse _
    · exact (giveTurn_grows _ { s with table := s.table ++ [newEntry r s] }).of_frame rfl rfl

theorem expireHold_grows (e : Entry) (c : HoldCause) (s : State) : Grows s (expireHold e c s) :=
  ((endEntry_grows _ _ s).trans (report_grows _ _ _)).trans (giveTurn_grows _ _)

/-! ### What settling only lets grow -/

theorem walkBelow_grows (n : Nat) (s : State) : Grows s (walkBelow n s) := by
  cases n with
  | zero => exact .of_same rfl rfl
  | succ k =>
    rw [walkBelow, beginRestore_eq, readsOf]
    exact ((enqueue_grows _ _ (setEng _ s)).trans (enqueue_grows _ _ _)).of_frame rfl rfl

theorem drainStep_grows (s : State) : Grows s (drainStep s) := by
  unfold drainStep
  split
  · split
    · split
      · exact .of_same rfl rfl
      · exact walkBelow_grows _ s
    · exact .refl s
  · exact .refl s

theorem headerStep_grows (s : State) : Grows s (headerStep s) := by
  cases ho : s.eng.op with
  | headerWrite why asked =>
    cases asked with
    | true => rw [headerStep, ho]; exact .refl s
    | false =>
      by_cases hz : s.eng.hdrOut s.eng.nextCopy = 0
      · rw [headerStep_sends ho hz]
        exact (enqueue_grows _ _ (setEng _ s)).of_frame rfl rfl
      · rw [headerStep_waits ho hz]; exact .refl s
  | headerReads why a b =>
    rw [headerStep_reads ho]
    dsimp only
    have hset (f : Engine → Engine) : Grows s (setEng f s) := .of_same rfl rfl
    split <;> split
    · exact (hset _).trans ((enqueue_grows _ _ _).trans (enqueue_grows _ _ _))
    · exact (hset _).trans (enqueue_grows _ _ _)
    · exact (hset _).trans (enqueue_grows _ _ _)
    · exact hset _
  | _ => rw [headerStep, ho]; exact .refl s

theorem requestIfClear_grows (s : State) (r : RecElem) : Grows s (requestIfClear s r) := by
  unfold requestIfClear requestSlots
  split
  · exact ((enqueue_grows _ _ _).trans (enqueue_grows _ _ _)).of_frame rfl rfl
  · exact .refl s

theorem restoreStep_grows (s : State) : Grows s (restoreStep s) := by
  unfold restoreStep
  split
  · split
    · exact (enqueue_grows _ _ (setEng _ s)).of_frame rfl rfl
    · exact .refl s
  · exact .refl s

theorem selfSteps_grows (s : State) : Grows s (selfSteps s) :=
  (drainStep_grows s).trans ((headerStep_grows _).trans
    ((foldl_grows _ requestIfClear_grows _ _).trans (restoreStep_grows _)))

theorem denyAtGrant_grows (tag : Tag) (s : State) : Grows s (denyAtGrant tag s) := by
  unfold denyAtGrant
  split
  · split
    · exact (denyEntry_grows _ _ s).trans (giveTurn_grows _ _)
    · exact .refl s
  · exact .refl s

theorem grantOne_grows (s : State) : Grows s (grantOne s) := by
  unfold grantOne
  match s.mport.queue, freeSlots s.mport with
  | [], _ => exact .refl s
  | _ :: _, [] => exact .refl s
  | r :: rest, f :: fs =>
    dsimp only
    match deniedAtGrant s.cfg r.op, waitsAtGrant s r.op with
    | some tag, _ =>
      exact (denyAtGrant_grows tag { s with mport := { s.mport with queue := rest } }).of_frame rfl rfl
    | none, some x => exact .of_same rfl rfl
    | none, none =>
      obtain ⟨cs, hp⟩ := pick_state (f :: fs).length { s with mport := { s.mport with queue := rest } }
      dsimp only
      rw [hp, issueIn, countIssued_frame]
      exact .of_same rfl rfl

theorem intakeStep_grows (s : State) : Grows s (intakeStep s) := by
  unfold intakeStep
  split
  · exact .refl s
  · split
    · exact (takeRequest_grows _ _).of_frame rfl rfl
    · exact .refl s

/-- Settling clears no class, takes no notice and calls back no response. -/
theorem settle_grows (s : State) : Grows s (settle s) := by
  have hc : SettleClosed (Grows s) :=
    { self := fun t h => h.trans (selfSteps_grows t)
      grant := fun t h => h.trans (grantOne_grows t)
      intake := fun t h => h.trans (intakeStep_grows t)
      close := fun t h => h.trans (.of_same rfl rfl) }
  exact hc.settle (selfSteps_grows s)

/-- What was reported is pending, and stands among the notices where the queue had room. -/
theorem Grows.tells {x t : State} {c : EvClass} {b : NoticeBody} (h : Grows (report c b x) t) :
    classPending c t.ev = true ∧ (x.ev.notices.length < 16 → ∃ more, t.ev.notices = x.ev.notices ++ more ∧
      ∃ n ∈ more, n.body = b) := by
  refine ⟨h.flags _ ?_, fun hroom => ?_⟩
  · have hb : c.bit < 11 := by cases c <;> decide
    simp [report, hb]
  · have hpost : (report c b x).ev.notices = x.ev.notices ++ [posted b x] := by
      rw [report, post_of_room hroom]
      rfl
    obtain ⟨more, hm⟩ := h.notices
    rw [hpost, List.append_assoc] at hm
    exact ⟨_, hm.symm, posted b x, by simp, rfl⟩

end Sys2Proof.Machine
end

