-- ==== Sys2Proof/Proofs/Admission.lean ====
section
/-! The entry of an admitted request, and requests that are refused or wait (R16 to R18, R20, R114; O28, O29). -/

namespace Sys2Proof.Machine

/-! ### The entry of a request -/

theorem requestStrobes_getLsbD (r : HostRequest) (j : Fin 64) (hfit : requestFits r = true) :
    (requestStrobes r).getLsbD j.val =
      (decide (8 * requestFirst r ≤ j.val ∧ j.val < 8 * (requestFirst r + r.count)) &&
        r.enables.getLsbD (j.val - 8 * requestFirst r)) := by
  have hf : requestFirst r + r.count ≤ 8 := of_decide_eq_true hfit
  rw [requestStrobes, BitVec.getLsbD_shiftLeft, BitVec.getLsbD_and, BitVec.getLsbD_ushiftRight, BitVec.getLsbD_allOnes]
  have hj := j.isLt
  by_cases h1 : 8 * requestFirst r ≤ j.val
  · by_cases h2 : j.val < 8 * (requestFirst r + r.count)
    · have h3 : 64 - 8 * r.count + (j.val - 8 * requestFirst r) < 64 := by omega
      simp [h1, h2, h3, Nat.not_lt.mpr h1]
    · have h3 : ¬ 64 - 8 * r.count + (j.val - 8 * requestFirst r) < 64 := by omega
      simp [h2, h3]
  · simp [h1, Nat.lt_of_not_le h1]

theorem requestData_word (r : HostRequest) (w : Nat) (hw : requestFirst r + w < 8) :
    wordOf (requestData r) (requestFirst r + w) = wordOf r.data w := by
  refine BitVec.eq_of_getLsbD_eq fun i hi => ?_
  have h1 : 64 * (requestFirst r + w) + i < 512 := by omega
  have h2 : ¬ 64 * (requestFirst r + w) + i < 64 * requestFirst r := by omega
  have h3 : 64 * (requestFirst r + w) + i - 64 * requestFirst r = 64 * w + i := by omega
  rw [wordOf, wordOf, requestData, BitVec.getLsbD_extractLsb', BitVec.getLsbD_extractLsb', BitVec.getLsbD_shiftLeft, h3]
  simp only [hi, h1, h2, decide_true, decide_false, Bool.not_false, Bool.true_and]

theorem addr_parts (a : Addr) :
    a = a.extractLsb' 6 30 ++ BitVec.ofNat 3 (a.extractLsb' 3 3).toNat ++ a.extractLsb' 0 3 := by
  rw [BitVec.ofNat_toNat, BitVec.setWidth_eq]
  refine BitVec.eq_of_getLsbD_eq fun i hi => ?_
  simp only [BitVec.getLsbD_append, BitVec.getLsbD_extractLsb']
  by_cases h1 : i < 3
  · simp [h1]
  · by_cases h2 : i - 3 < 3
    · simp [h1, h2, Nat.add_sub_cancel' (Nat.le_of_not_lt h1)]
    · have h3 : i - 3 - 3 < 30 := by omega
      have h4 : 6 + (i - 3 - 3) = i := by omega
      simp [h1, h2, h3, h4]

/-- R114: the WATCHED set of a write. -/
theorem mem_watchedSet (rules : Vector WatchRule 8) (cell : CellIx) (st : Strobes) (n : RuleNo) :
    n ∈ watchedSet rules cell st ↔ rules[n].enable = true ∧ rules[n].waddr.extractLsb' 3 30 = cell ∧
      ∃ j : Fin 8, st.getLsbD (8 * (rules[n].waddr.extractLsb' 0 3).toNat + j.val) = true := by
  rw [watchedSet, List.mem_filter, Bool.and_eq_true, touchedBy_iff]
  exact ⟨fun h => h.2, fun h => ⟨List.mem_finRange n, h⟩⟩

theorem watchedSet_ascending (rules : Vector WatchRule 8) (cell : CellIx) (st : Strobes) :
    (watchedSet rules cell st).Pairwise (· < ·) := List.Pairwise.filter _ (List.pairwise_lt_finRange 8)

/-- Settles O28, field by field; a read has no byte enabled and watches nothing. -/
theorem entryOfARequest : Obligations.EntryOfARequest := by
  intro r s hfit e
  have hfirst : e.first < 8 := (r.addr.extractLsb' 3 3).isLt
  have hf : requestFirst r + r.count ≤ 8 := of_decide_eq_true hfit
  refine ⟨rfl, rfl, rfl, rfl, addr_parts r.addr, hfirst, rfl, fun j => ?strobes, fun hk w hw => ?data, fun n => ?watched,
    ?ascending, rfl, rfl, rfl, rfl, rfl⟩
  case strobes =>
    cases hk : r.kind with
    | read => simp [e, newEntry, hk]
    | write =>
      have hst : e.strobes = requestStrobes r := if_pos hk
      rw [hst, requestStrobes_getLsbD r j hfit]
      rfl
  case data =>
    have hd : e.data = requestData r := if_pos hk
    have hlt : w < r.count := hw
    rw [hd]
    exact requestData_word r w (by omega)
  case watched =>
    cases hk : r.kind with
    | read => simp [e, newEntry, hk]
    | write =>
      have hw : e.watched = watchedSet s.rules e.cell e.strobes := if_pos hk
      rw [hw, mem_watchedSet]
      exact ⟨fun h => ⟨rfl, h⟩, fun h => h.2⟩
  case ascending =>
    cases hk : r.kind with
    | read => simp [e, newEntry, hk]
    | write =>
      have hw : e.watched = watchedSet s.rules e.cell e.strobes := if_pos hk
      rw [hw]
      exact watchedSet_ascending _ _ _

/-! ### Requests refused, and requests that wait on the link -/

/-- A state at rest in which only what the table moves has changed, its entries apart, is at rest. -/
theorem atRest_of_tableOnly {s t : State} (h : AtRest s) (ho : TableOnly s t) (ht : t.table = s.table)
    (hq : t.mport.queue = []) : AtRest t := by
  refine atRest_of_engine (engineSettled_of (atRest_engine h) ho.eng ho.slots ho.queue ho.orphans fun _ hd => ?_) hq
    (ho.link.trans h.2.2.1) (ho.held.trans h.2.2.2)
  simpa only [drainDone, ht, ho.eng] using hd

theorem refuseRequest_atRest {s : State} (h : AtRest s) (r : HostRequest) (why : ProtocolReason) :
    settle (refuseRequest r why s) = refuseRequest r why s :=
  settle_of_atRest (atRest_of_tableOnly h (refuseRequest_tableOnly r why s) (by simp [refuseRequest])
    (by simp [refuseRequest, h.2.1]))

/-- Settles O29: the tag comes ahead of the shape, and a full table ahead of both. -/
theorem requestRefusedOrWaiting : Obligations.RequestRefusedOrWaiting := by
  intro r s
  refine ⟨fun h hlen hex => ?tag, fun h hlen hfree hshape => ?shape, fun hr hset hq hfull => ?full⟩
  case tag =>
    have hsome : (entryOf s r.tag).isSome = true := by
      obtain ⟨e, he, ht⟩ := hex
      exact List.find?_isSome.mpr ⟨e, he, beq_iff_eq.mpr ht⟩
    rw [exec_hostRequest hlen h.2.2.1 h.2.2.2, takeRequest, if_pos hsome, refuseRequest_atRest h]
    rfl
  case shape =>
    have hnone : ¬ (entryOf s r.tag).isSome = true := by
      rw [entryOf, List.find?_isSome]
      rintro ⟨e, he, ht⟩
      exact hfree e he (beq_iff_eq.mp ht)
    have hfit : (!requestFits r) = true := by
      rw [requestFits, requestFirst, decide_eq_false (Nat.not_le.mpr hshape), Bool.not_false]
    rw [exec_hostRequest hlen h.2.2.1 h.2.2.2, takeRequest, if_neg hnone, if_pos hfit, refuseRequest_atRest h]
    rfl
  case full =>
    have hexec : exec (.hostRequest r) s = .next (settle { s with host := { s.host with link := s.host.link ++ [r] } }) := by
      refine (unlessHeld_running hr _).trans (if_neg fun hc => ?_)
      exact absurd hc.1 (Nat.not_lt.mpr hfull)
    have hset' : settled { s with host := { s.host with link := s.host.link ++ [r] } } = true := by
      have hfull' : decide (s.table.length < Config.tableSize) = false := decide_eq_false (Nat.not_lt.mpr hfull)
      rw [settled_eq, Bool.and_eq_true] at hset ⊢
      exact ⟨hset.1, by rw [hfull']; simp⟩
    rw [hexec, settle_of_settled hset']
    exact congrArg Host.Outcome.next
      (closeEvent_of_nil (s := { s with host := { s.host with link := s.host.link ++ [r] } }) hq)

end Sys2Proof.Machine
end

