-- ==== Sys2Proof/Proofs/FirstTurn.lean ====
section
/-! The first turn of a request that is alone in its cell: issued, decided, refused or held (R22, R23, R30 to R36, R55,
R56; O30 to O35). -/

namespace Sys2Proof.Machine

/-- The request has joined the table as this entry. -/
def joined (e : Entry) (s : State) : State := { s with table := s.table ++ [e] }

theorem verdict_joined (e e' : Entry) (s : State) : verdict (joined e s) e' = verdict s e' := rfl

/-- The request has joined the table, and these are the classes and notices. -/
def joinedWith (e : Entry) (ev : EventUnit) (s : State) : State := { joined e s with ev := ev }

theorem putEntry_joined {s : State} {e x : Entry} (hfresh : ∀ y ∈ s.table, y.tag ≠ x.tag) (ht : e.tag = x.tag) :
    putEntry e (joined x s) = joined e s :=
  congrArg (fun tbl => ({ s with table := tbl } : State)) (putIn_append hfresh ht)

theorem freeEntry_joined {s : State} {x : Entry} (hfresh : ∀ y ∈ s.table, y.tag ≠ x.tag) :
    freeEntry x.tag (joined x s) = s :=
  congrArg (fun tbl => ({ s with table := tbl } : State)) (without_append hfresh)

theorem post_joined (b : NoticeBody) (e : Entry) (s : State) : post b (joined e s) = joined e (post b s) := by
  by_cases hc : s.ev.notices.length < 16
  · rw [post_of_room hc, post_of_room (s := joined e s) hc]
    rfl
  · rw [post_of_full (Nat.le_of_not_lt hc), post_of_full (s := joined e s) (Nat.le_of_not_lt hc)]
    rfl

theorem post_frame (b : NoticeBody) (s : State) : post b s = { s with ev := (post b s).ev } := by
  rcases post_cases b s with ⟨-, h⟩ | ⟨-, h⟩
  · rw [h]
  · rw [h]
    rfl

theorem report_frame (c : EvClass) (b : NoticeBody) (s : State) : report c b s = { s with ev := (report c b s).ev } := by
  rw [report, post_frame]
  rfl

theorem report_joined (c : EvClass) (b : NoticeBody) (e : Entry) (s : State) :
    report c b (joined e s) = joined e (report c b s) := congrArg (setClass c) (post_joined b e s)

theorem reportFull_of_reported {s : State} (h : s.pres.fullReported = true) (e : Entry) : reportFull e s = s :=
  if_pos h

theorem reportFull_first {s : State} (h : ¬ s.pres.fullReported = true) (e : Entry) :
    reportFull e s = report .journalFull (.journalFull e.addr e.tag (capacity s.cfg))
      { s with pres := { s.pres with fullReported := true } } := if_neg h

theorem reportFull_joined (e x : Entry) (s : State) : reportFull e (joined x s) = joined x (reportFull e s) := by
  by_cases hf : s.pres.fullReported = true
  · rw [reportFull_of_reported hf, reportFull_of_reported (s := joined x s) hf]
  · rw [reportFull_first hf, reportFull_first (s := joined x s) hf]
    exact report_joined _ _ x { s with pres := { s.pres with fullReported := true } }

@[simp] theorem reportFull_mport (e : Entry) (s : State) : (reportFull e s).mport = s.mport := by
  unfold reportFull
  split <;> simp

section
variable {r : HostRequest} {s : State} (hA : Admissible r s)
include hA

theorem newEntry_tag_fresh : ∀ e ∈ s.table, e.tag ≠ (newEntry r s).tag := hA.2.1

/-- Once the entry has met its verdict its cell has no further turn to give. -/
theorem turnOf_examined : turnOf (examine (newEntry r s) (joined (newEntry r s) s)) (requestCell r) = none := by
  rcases examine_cases (newEntry r s) (joined (newEntry r s) s) with ⟨st, d, ep, ht, hst, -, -⟩ | ⟨ht, -⟩
  · refine turnOf_past (e := { newEntry r s with stage := st, decision := d, epoch := ep }) ?_ rfl (by
      simpa [Entry.pastWaiting] using hst)
    have hput := putIn_append (s := s) (e := newEntry r s)
      (e' := { newEntry r s with stage := st, decision := d, epoch := ep }) (newEntry_tag_fresh hA) rfl
    exact (ht.trans hput) ▸ List.mem_append_right _ (List.mem_singleton_self _)
  · refine turnOf_none_in fun x hx => ?_
    rw [ht, joined, without_append (newEntry_tag_fresh hA)] at hx
    exact hA.2.2.2.1 x hx

/-- The request meets the verdict of its first turn, and the event settles. -/
theorem exec_admissible (h : AtRest s) {v : Verdict} (hv : verdict s (newEntry r s) = v) :
    exec (.hostRequest r) s = .next (settle (applyVerdict (newEntry r s) v (joined (newEntry r s) s))) := by
  have htake : takeRequest r s = examine (newEntry r s) (joined (newEntry r s) s) := take_eq hA (turnOf_examined hA)
  rw [exec_hostRequest hA.1 h.2.2.1 h.2.2.2, htake, examine_eq, verdict_joined, hv]

end

/-! ### What the event then leaves -/

/-- A state at rest in which only what the table moves has changed, with entries more, is at rest. -/
theorem settle_joining {s t : State} (h : AtRest s) (ho : TableOnly s t) {es : List Entry} (ht : t.table = s.table ++ es)
    (hq : t.mport.queue = []) : settle t = t :=
  settle_of_engine (engineSettled_append h ht ho.eng ho.slots ho.queue ho.orphans) hq (ho.link.trans h.2.2.1)
    (ho.held.trans h.2.2.2)

theorem joined_tableOnly (e : Entry) (s : State) : TableOnly s (joined e s) := by
  constructor <;> first | rfl | exact id

theorem settle_joined {s : State} (h : AtRest s) (e : Entry) : settle (joined e s) = joined e s :=
  settle_joining h (joined_tableOnly e s) rfl h.2.1

/-- A state at rest with an entry more and with other events, that asks for one transaction: it is issued, and nothing
else happens. -/
theorem settle_issues {s x : State} (h : Calm s) {es : List Entry} {ev : EventUnit} {n : Nat}
    (hx : x = { s with table := s.table ++ es, ev := ev, pres := { s.pres with claims := n } }) {op : MemOp}
    {addr : Addr} (hp : op.plain = true) (hd : deniedAtGrant s.cfg op = none) :
    Issues s (settle (enqueue op addr x)) op addr ∧
      settle (enqueue op addr x) =
        { x with mport := (settle (enqueue op addr x)).mport, choices := (settle (enqueue op addr x)).choices } := by
  have he : engineSettled x = true := by
    rw [hx]
    exact engineSettled_append h.1 rfl rfl rfl rfl rfl
  have hl : x.host.link = [] := by
    rw [hx]
    exact h.1.2.2.1
  obtain ⟨hone, hframe⟩ := settle_enqueued (b := s) (x := x) (by rw [hx]) h.1.2.1 (by rw [hx]) (by rw [hx]) hl he hd hp
  exact ⟨hone.2 h.2, hframe⟩

/-- A write that is not to the journal area is not denied at its grant. -/
theorem deniedAtGrant_forwardWrite {r : HostRequest} {s : State} (hc : (newEntry r s).cls ≠ .journalArea) (tag : Tag)
    (st : Strobes) (d : CellData) : deniedAtGrant s.cfg (.forwardWrite tag (requestCell r) st d) = none := by
  have ha : inJournalArea s.cfg (requestCell r) = false := by
    by_contra h
    exact hc (if_pos ((Bool.not_eq_false _).mp h))
  simp [deniedAtGrant, ha]

/-- R36: a write whose rules watch nothing is forwarded, any other reads its old content first. -/
theorem startWrite_issues {r : HostRequest} {s x : State} (h : Calm s) (hA : Admissible r s)
    (hc : (newEntry r s).cls ≠ .journalArea) {e : Entry} {d : Option Decision} {ep : Option W32}
    (he : e = { newEntry r s with decision := d, epoch := ep }) {ev : EventUnit}
    (hx : x = joinedWith (newEntry r s) ev s) :
    let t := settle (startWrite e x)
    t = { s with
      table := s.table ++ [{ e with stage := if e.watched = [] then .issued else .fetchingOld }]
      ev := ev, mport := t.mport, choices := t.choices } ∧
      (e.watched = [] → Issues s t (.forwardWrite e.tag e.cell e.strobes e.data) (cellAddr e.cell)) ∧
      (e.watched ≠ [] → Issues s t (.oldRead e.tag e.cell) (cellAddr e.cell)) := by
  subst he hx
  intro t
  have hput (st : Stage) : putEntry { newEntry r s with decision := d, epoch := ep, stage := st }
      (joinedWith (newEntry r s) ev s) = joinedWith { newEntry r s with decision := d, epoch := ep, stage := st } ev s :=
    congrArg (fun t : State => { t with ev := ev }) (putEntry_joined (newEntry_tag_fresh hA)
      (e := { newEntry r s with decision := d, epoch := ep, stage := st }) rfl)
  by_cases hw : (newEntry r s).watched = []
  · obtain ⟨hi, hf⟩ := settle_issues h
      (x := joinedWith { newEntry r s with decision := d, epoch := ep, stage := .issued } ev s) rfl
      (op := .forwardWrite r.tag (requestCell r) (newEntry r s).strobes (newEntry r s).data) (addr := cellAddr (requestCell r)) rfl
      (deniedAtGrant_forwardWrite hc _ _ _)
    have ht : t = settle (enqueue _ _ (joinedWith _ ev s)) :=
      congrArg settle ((if_pos hw).trans (congrArg (enqueue _ _) (hput .issued)))
    rw [ht, if_pos hw]
    exact ⟨hf, fun _ => hi, fun hn => absurd hw hn⟩
  · obtain ⟨hi, hf⟩ := settle_issues h
      (x := joinedWith { newEntry r s with decision := d, epoch := ep, stage := .fetchingOld } ev s) rfl (op := .oldRead r.tag (requestCell r))
      (addr := cellAddr (requestCell r)) rfl rfl
    have ht : t = settle (enqueue _ _ (joinedWith _ ev s)) :=
      congrArg settle ((if_neg hw).trans (congrArg (enqueue _ _) (hput .fetchingOld)))
    rw [ht, if_neg hw]
    exact ⟨hf, fun hn => absurd hn hw, fun _ => hi⟩

/-! ### Verdicts -/

section
variable {e : Entry} {s : State}

/-- A write that nothing holds meets its decision. -/
theorem verdict_of_write (hk : e.kind = .write) (hh : holdCause s e = none) : verdict s e = decision s e := by
  rw [verdict, hh, hk]

theorem verdict_of_held {c : HoldCause} (hh : holdCause s e = some c) : verdict s e = .hold c := by
  rw [verdict, hh]

theorem holdCause_of_other_class (hk : e.kind = .write) (hp : s.host.pfw = false) (hc : e.cls ≠ .journal) :
    holdCause s e = none := by
  simp [holdCause, hk, hp, hc]

theorem holdCause_of_journal (hk : e.kind = .write) (hp : s.host.pfw = false) (hc : e.cls = .journal) :
    holdCause s e = if walkState s.eng.state then some .walk else if transitionState s.eng.state then some .transition
      else if meetsFull s e ∧ s.cfg.fullPolicy = .hold then some .journalFull else none := by
  simp [holdCause, hk, hp, hc]

/-- Outside OPEN, and where nothing walks and nothing is in transition, nothing holds a JOURNAL-class write. -/
theorem holdCause_of_still (hk : e.kind = .write) (hp : s.host.pfw = false) (hc : e.cls = .journal)
    (hs : s.eng.state = .unrecovered ∨ s.eng.state = .idle) : holdCause s e = none := by
  rw [holdCause_of_journal hk hp hc]
  rcases hs with hs | hs <;> simp [meetsFull, walkState, transitionState, hs]

theorem holdCause_of_opened (hk : e.kind = .write) (hp : s.host.pfw = false) (hc : e.cls = .journal)
    (hs : s.eng.state = .opened) :
    holdCause s e = if meetsFull s e ∧ s.cfg.fullPolicy = .hold then some .journalFull else none := by
  rw [holdCause_of_journal hk hp hc]
  simp [walkState, transitionState, hs]

theorem decision_of_opened (hc : e.cls = .journal) (hs : s.eng.state = .opened) :
    decision s e = if filterHolds s.pres e.cell then .filterHit else if journalFull s then .refuse .journalFull
      else if placeFree s.pres then .preserve else .atTurn := by
  simp only [decision, hc, hs]

theorem filterHolds_iff (p : Preservation) (cell : CellIx) : filterHolds p cell = true ↔ ∃ f ∈ p.filter, f.cell = cell := by
  simp [filterHolds]

end

theorem walkState_iff (st : EngState) : walkState st = true ↔ st = .rolling ∨ st = .recovering ∨ st = .stalled := by
  cases st <;> decide

theorem transitionState_iff (st : EngState) :
    transitionState st = true ↔ st = .opening ∨ st = .closing ∨ st = .faulted := by cases st <;> decide

/-! ### O30 to O35 -/

/-- Settles O30. -/
theorem readIsIssued : Obligations.ReadIsIssued := by
  intro r s h hA hk hfree
  have hhold : holdCause s (newEntry r s) = none := by
    have hn : ¬ ((newEntry r s).cls = .journal ∧ walkState s.eng.state = true) := by rwa [walkState_iff]
    have hkind : (newEntry r s).kind = .read := hk
    rw [holdCause, hkind]
    exact if_neg hn
  have hv : verdict s (newEntry r s) = .issueRead := by
    have hkind : (newEntry r s).kind = .read := hk
    rw [verdict, hhold, hkind]
  have hput : putEntry { newEntry r s with stage := .issued } (joined (newEntry r s) s) =
      joined { newEntry r s with stage := .issued } s := putEntry_joined (newEntry_tag_fresh hA) rfl
  obtain ⟨hi, hf⟩ := settle_issues h (x := joined { newEntry r s with stage := .issued } s) rfl
    (op := .forwardRead r.tag (requestCell r) (requestFirst r) r.count) (addr := (newEntry r s).addr) rfl rfl
  refine ⟨_, (exec_admissible hA h.1 hv).trans ?_, hi, hf⟩
  rw [applyVerdict, hput]
  rfl

theorem noteBare_joined (e x : Entry) (s : State) :
    noteBare e (joined x s) = joinedWith x (if e.cls = .journal then
          if classPending .bare s.ev then (setClass .bare s).ev
          else (post (.bareWrite e.addr e.tag) (setClass .bare s)).ev
        else s.ev) s := by
  have hset : setClass .bare (joined x s) = joined x (setClass .bare s) := rfl
  unfold noteBare
  by_cases hc : e.cls = .journal
  · rw [if_pos hc, if_pos hc]
    dsimp only
    by_cases hp : classPending .bare s.ev = true
    · rw [if_pos hp, if_pos (show classPending .bare (joined x s).ev = true from hp)]
      rfl
    · rw [if_neg hp, if_neg (show ¬ classPending .bare (joined x s).ev = true from hp), hset, post_joined,
        post_frame]
      rfl
  · rw [if_neg hc, if_neg hc]
    rfl

/-- Settles O31. -/
theorem bareWriteGoesOn : Obligations.BareWriteGoesOn := by
  intro r s h hA hk hp e hcls
  have hkind : e.kind = .write := hk
  have hv : verdict s e = .bare := by
    rcases hcls with hc | hc | ⟨hc, hs, hpass⟩
    · rw [verdict_of_write hkind (holdCause_of_other_class hkind hp (by simp [hc])), decision, hc]
    · rw [verdict_of_write hkind (holdCause_of_other_class hkind hp (by simp [hc])), decision, hc]
    · rw [verdict_of_write hkind (holdCause_of_still hkind hp hc (.inr hs)), decision, hc, hs, hpass]
  have harea : e.cls ≠ .journalArea := by rcases hcls with hc | hc | ⟨hc, -⟩ <;> simp [hc]
  refine ⟨_, exec_admissible hA h.1 hv, ?_⟩
  rw [applyVerdict, noteBare_joined]
  exact startWrite_issues h hA harea rfl rfl

/-- Settles O32: the filter first, then the room in the journal, then a place. -/
theorem writeInAnOpenEpoch : Obligations.WriteInAnOpenEpoch := by
  intro r s h hA hk hp hs e room hit hc
  have hkind : e.kind = .write := hk
  have harea : e.cls ≠ .journalArea := by simp [hc]
  have hfilter : filterHolds s.pres e.cell = true ↔ hit := filterHolds_iff _ _
  have hfull : journalFull s = true ↔ ¬ room := by
    simp only [journalFull, Bool.not_eq_true', decide_eq_false_iff_not]
    exact Iff.rfl
  have hgo (hn : hit ∨ room) : verdict s e = decision s e := by
    refine verdict_of_write hkind ((holdCause_of_opened hkind hp hc hs).trans (if_neg ?_))
    rintro ⟨hm, -⟩
    simp only [meetsFull, Bool.and_eq_true, Bool.not_eq_true'] at hm
    rcases hn with hn | hn
    · rw [hfilter.mpr hn] at hm
      exact Bool.noConfusion hm.1.2
    · exact hfull.mp hm.2 hn
  have hnhit (hn : ¬ hit) : ¬ filterHolds s.pres e.cell = true := fun hf => hn (hfilter.mp hf)
  have hnfull (hr : room) : ¬ journalFull s = true := fun hf => hfull.mp hf hr
  refine ⟨settle (applyVerdict e (verdict s e) (joined e s)), exec_admissible hA h.1 rfl, fun hh => ?hit,
    fun hn hr hplace => ?preserve, fun hn hr hplace => ?atTurn⟩
  case hit =>
    have hv : verdict s e = .filterHit := by rw [hgo (.inl hh), decision_of_opened hc hs, if_pos (hfilter.mpr hh)]
    rw [hv]
    exact startWrite_issues h hA harea rfl rfl
  case preserve =>
    have hv : verdict s e = .preserve := by
      rw [hgo (.inr hr), decision_of_opened hc hs, if_neg (hnhit hn), if_neg (hnfull hr),
        if_pos (show placeFree s.pres = true from decide_eq_true hplace)]
    have hput := congrArg (fun t : State => { t with pres := { s.pres with claims := s.pres.claims + 1 } })
      (putEntry_joined (newEntry_tag_fresh hA)
        (e := { e with decision := some .preserve, epoch := some s.eng.epoch, stage := .fetchingOld }) rfl)
    obtain ⟨hi, hf⟩ := settle_issues h (x := { s with
        table := s.table ++ [{ e with decision := some .preserve, epoch := some s.eng.epoch, stage := .fetchingOld }]
        pres := { s.pres with claims := s.pres.claims + 1 } }) rfl (op := .oldRead e.tag e.cell)
      (addr := cellAddr e.cell) rfl rfl
    have happly : applyVerdict e .preserve (joined e s) = enqueue (.oldRead e.tag e.cell) (cellAddr e.cell) { s with
        table := s.table ++ [{ e with decision := some .preserve, epoch := some s.eng.epoch, stage := .fetchingOld }]
        pres := { s.pres with claims := s.pres.claims + 1 } } := congrArg (enqueue _ _) hput
    rw [hv, happly]
    exact ⟨hf, hi⟩
  case atTurn =>
    have hv : verdict s e = .atTurn := by
      rw [hgo (.inr hr), decision_of_opened hc hs, if_neg (hnhit hn), if_neg (hnfull hr),
        if_neg (fun hf : placeFree s.pres = true => Nat.not_lt.mpr hplace (of_decide_eq_true hf))]
    have hput : applyVerdict e .atTurn (joined e s) = joined { e with stage := .atTurn } s := putEntry_joined (newEntry_tag_fresh hA) rfl
    rw [hv, hput, settle_joined h.1]
    rfl

/-- An entry refused at its decision leaves the table, with its notice and class. -/
theorem denyEntry_joined {s : State} {e : Entry} (hfresh : ∀ y ∈ s.table, y.tag ≠ e.tag) (why : DenyReason) :
    denyEntry e why (joined e s) = report .protect (.denied e.addr e.tag why) (respond e.tag .denied s) :=
  congrArg (report .protect (.denied e.addr e.tag why)) (freeEntry_joined (s := respond e.tag .denied s) hfresh)

theorem settle_refused {s t : State} (h : AtRest s) (ho : TableOnly s t) (ht : t.table = s.table)
    (hm : t.mport = s.mport) (tag : Tag) (c : EvClass) (b : NoticeBody) :
    settle (report c b (respond tag .denied t)) = report c b (respond tag .denied t) := by
  refine settle_joining h (ho.trans ((respond_tableOnly _ _ _).trans (report_tableOnly _ _ _))) (es := []) ?_ ?_
  · simp [ht]
  · simp [hm, h.2.1]

/-- Settles O33. -/
theorem writeMeetsAFullJournal : Obligations.WriteMeetsAFullJournal := by
  intro r s h hA hk hp hs e cap told hc hmiss hfullj
  have hkind : e.kind = .write := hk
  have hnfilter : filterHolds s.pres e.cell = false := by
    rw [Bool.eq_false_iff]
    exact fun hf => (filterHolds_iff _ _).mp hf |>.elim fun f hf => hmiss f hf.1 hf.2
  have hfull : journalFull s = true := by
    have hno : ¬ s.eng.nextIndex + s.pres.claims < capacity s.cfg := Nat.not_lt.mpr hfullj
    rw [journalFull, decide_eq_false hno, Bool.not_false]
  have hmeets : meetsFull s e = true := by simp [meetsFull, hs, hnfilter, hfull]
  have htold : told = reportFull e s := rfl
  have hfresh : ∀ y ∈ told.table, y.tag ≠ e.tag := by
    rw [htold, reportFull_table]
    exact newEntry_tag_fresh hA
  have hhold := holdCause_of_opened hkind hp hc hs
  refine ⟨fun hpol => ?held, fun hpol => ?refused⟩
  case held =>
    have hv : verdict s e = .hold .journalFull := verdict_of_held (hhold.trans (if_pos ⟨hmeets, hpol⟩))
    have htab : told.table = s.table := by rw [htold, reportFull_table]
    have happly : applyVerdict e (.hold .journalFull) (joined e s) =
        joined { e with stage := .held .journalFull s.clock.timebase } told :=
      (congrArg (putEntry _) (reportFull_joined e e s)).trans (putEntry_joined hfresh rfl)
    have hrest : settle (joined { e with stage := .held .journalFull s.clock.timebase } told) =
        joined { e with stage := .held .journalFull s.clock.timebase } told :=
      settle_joining h ((reportFull_tableOnly e s).trans (joined_tableOnly _ _)) (congrArg (· ++ _) htab)
        ((congrArg MPort.queue (reportFull_mport e s)).trans h.2.1)
    rw [exec_admissible hA h hv, happly, hrest, joined, htab]
  case refused =>
    have hnone : holdCause s e = none := hhold.trans (if_neg (by simp [hpol]))
    have hv : verdict s e = .refuse .journalFull := by
      rw [verdict_of_write hkind hnone, decision_of_opened hc hs, hnfilter, hfull]
      rfl
    have happly : applyVerdict e (.refuse .journalFull) (joined e s) =
        report .protect (.denied e.addr e.tag .journalFull) (respond e.tag .denied told) :=
      (congrArg (denyEntry e .journalFull) (reportFull_joined e e s)).trans (denyEntry_joined hfresh _)
    rw [exec_admissible hA h hv, happly, settle_refused (t := told) h (reportFull_tableOnly e s)
      (reportFull_table e s) (reportFull_mport e s)]

/-- Settles O34. -/
theorem writeIsDenied : Obligations.WriteIsDenied := by
  intro r s why h hA hk hp e hcases
  have hkind : e.kind = .write := hk
  have hv : verdict s e = .refuse why ∧ why ≠ .journalFull := by
    rcases hcases with ⟨hc, rfl⟩ | ⟨hc, rfl⟩ | ⟨hc, hs, rfl⟩ | ⟨hc, hs, hpol, rfl⟩
    · rw [verdict_of_write hkind (holdCause_of_other_class hkind hp (by simp [hc])), decision, hc]
      exact ⟨rfl, nofun⟩
    · rw [verdict_of_write hkind (holdCause_of_other_class hkind hp (by simp [hc])), decision, hc]
      exact ⟨rfl, nofun⟩
    · rw [verdict_of_write hkind (holdCause_of_still hkind hp hc (.inl hs)), decision, hc, hs]
      exact ⟨rfl, nofun⟩
    · rw [verdict_of_write hkind (holdCause_of_still hkind hp hc (.inr hs)), decision, hc, hs, hpol]
      exact ⟨rfl, nofun⟩
  have happly : applyVerdict e (.refuse why) (joined e s) =
      report .protect (.denied e.addr e.tag why) (respond e.tag .denied s) :=
    (congrArg (denyEntry e why) (if_neg hv.2)).trans (denyEntry_joined (newEntry_tag_fresh hA) _)
  rw [exec_admissible hA h hv.1, happly, settle_refused h (.refl s) rfl rfl]

/-- A request whose cell gives no turn joins the table and waits. -/
theorem exec_waits {r : HostRequest} {s : State} (h : AtRest s) (hlen : s.table.length < 16)
    (htag : ∀ e ∈ s.table, e.tag ≠ r.tag) (hfit : requestFits r = true)
    (hturn : turnOf (joined (newEntry r s) s) (requestCell r) = none) :
    exec (.hostRequest r) s = .next (joined (newEntry r s) s) := by
  have hnone : ¬ (entryOf s r.tag).isSome = true := by
    rw [entryOf, List.find?_isSome]
    rintro ⟨e, he, ht⟩
    exact htag e he (beq_iff_eq.mp ht)
  have hno : ¬ (!requestFits r) = true := by simp [hfit]
  rw [exec_hostRequest hlen h.2.2.1 h.2.2.2, takeRequest, if_neg hnone, if_neg hno]
  have hgive : giveTurn (requestCell r) (joined (newEntry r s) s) = joined (newEntry r s) s := turns_stop _ _ _ hturn
  exact congrArg Host.Outcome.next ((congrArg settle hgive).trans (settle_joined h _))

/-- Settles O35. -/
theorem requestIsHeldOrWaits : Obligations.RequestIsHeldOrWaits := by
  intro r s h hlen htag hfit e free walks turns heldFor
  have held {c : HoldCause} (hfree : free) (hcause : holdCause s e = some c) (hn : c ≠ .journalFull) : heldFor c := by
    have hA : Admissible r s := ⟨hlen, htag, hfit, hfree.1, hfree.2⟩
    have happly : applyVerdict e (.hold c) (joined e s) = joined { e with stage := .held c s.clock.timebase } s :=
      (congrArg (putEntry _) (if_neg hn)).trans (putEntry_joined (newEntry_tag_fresh hA) rfl)
    show exec (.hostRequest r) s = _
    rw [exec_admissible hA h (verdict_of_held hcause), happly, settle_joined h]
    rfl
  refine ⟨fun hf hk hp => held hf ?power nofun, fun hf hk hp hc hw => held hf ?walk nofun,
    fun hf hk hp hc ht => held hf ?transition nofun, fun hf hk hc hw => held hf ?read nofun, fun hbusy => ?waits⟩
  case power =>
    have hkind : e.kind = .write := hk
    rw [holdCause, hkind]
    exact if_pos hp
  case walk =>
    rw [holdCause_of_journal (show e.kind = .write from hk) hp hc]
    exact if_pos ((walkState_iff _).mpr hw)
  case transition =>
    have hnw : ¬ walkState s.eng.state = true := by rcases ht with ht | ht | ht <;> rw [ht] <;> decide
    rw [holdCause_of_journal (show e.kind = .write from hk) hp hc, if_neg hnw]
    exact if_pos ((transitionState_iff _).mpr ht)
  case read =>
    have hkind : e.kind = .read := hk
    rw [holdCause, hkind]
    exact if_pos ⟨hc, (walkState_iff _).mpr hw⟩
  case waits =>
    refine exec_waits h hlen htag hfit ?_
    rcases hbusy with ⟨x, hx, hcell, hst⟩ | hstale
    · exact turnOf_past (List.mem_append_left _ hx) hcell (by simpa [Entry.pastWaiting] using hst)
    · rw [turnOf, if_pos]
      rw [show (joined (newEntry r s) s).mport = s.mport from rfl, hstale, Bool.or_true]

end Sys2Proof.Machine
end

