-- ==== Sys2Proof/Proofs/EngineSteps.lean ====
section
/-! What an event comes to that leaves the engine with a header to write, a drain, or reads to make, over a state at rest;
and the commands that begin openings, closings, rollbacks and recoveries (O19, O20, O22, O23). -/

namespace Sys2Proof.Machine

/-- x differs from the resting state b in nothing that the M-port's grants or the record queue look at. -/
structure Over (b x : State) : Prop where
  quiet : RecordsQuiet x
  mport : x.mport = b.mport
  idle : b.mport.queue = []
  clock : x.clock = b.clock
  cfg : x.cfg = b.cfg
  link : x.host.link = []

theorem Over.of_atRest {b x : State} (h : AtRest b) (hq : x.pres.queue = b.pres.queue)
    (ho : x.pres.orphans = b.pres.orphans) (hm : x.mport = b.mport) (hc : x.clock = b.clock) (hg : x.cfg = b.cfg)
    (hl : x.host.link = b.host.link) : Over b x where
  quiet := by
    have hr := atRest_records h
    rw [RecordsQuiet, hq]
    have hmay : mayRequest x.pres = mayRequest b.pres := by
      funext r
      simp only [mayRequest, slotsClear, ho]
    rw [hmay]
    exact hr
  mport := hm
  idle := h.2.1
  clock := hc
  cfg := hg
  link := hl.trans h.2.2.1

section
variable {b x : State} (h : Over b x)
include h

/-- The event comes to a header write. -/
theorem Over.header {why : HdrPurpose} (ho : x.eng.op = .headerWrite why false) :
    SendsHeader b (settle x) why x.eng ∧
      settle x = { x with eng := (settle x).eng, mport := (settle x).mport, choices := (settle x).choices } ∧
      (settle x).eng.steady = x.eng.steady ∧ (settle x).eng.walk = x.eng.walk :=
  settle_header rfl ho h.quiet h.mport h.idle h.clock h.cfg h.link

/-- Where the engine has nothing to do, nothing happens. -/
theorem Over.settled (he : engineSettled x = true) : settle x = x := by
  have hq : x.mport.queue = [] := by rw [h.mport]; exact h.idle
  rw [settle_of_grants (selfSteps_of_engineSettled he) (by rw [hq]; rfl) he (.inl hq) h.link, closeEvent_of_nil hq]

theorem Over.draining (ho : x.eng.op = .draining) (hd : ¬ Drained x) : settle x = x :=
  h.settled (engineSettled_of_draining ho hd h.quiet)

/-- The event comes to the end of an epoch (R90, R92, R93). -/
theorem Over.closes {k : CloseKind} (ho : x.eng.op = .draining) (hst : x.eng.state = .closing)
    (hk : x.eng.closeKind = some k) (hd : Drained x) :
    SendsHeader b (settle x) (closePurpose k) x.eng ∧
      settle x = { x with eng := (settle x).eng, mport := (settle x).mport, choices := (settle x).choices } ∧
      (settle x).eng.steady = x.eng.steady ∧ (settle x).eng.walk = x.eng.walk := by
  have hstep := drainStep_closing ho hd hst
  rw [hk, Option.getD_some] at hstep
  have hself : selfSteps x = selfSteps (needHeader (closePurpose k) x) := by
    rw [← hstep]
    exact (selfSteps_drainStep (by rw [hstep]; exact EngineOp.noConfusion)).symm
  exact settle_header (x := needHeader (closePurpose k) x) hself rfl h.quiet h.mport h.idle h.clock h.cfg h.link

/-- The event comes to the restorations of a rollback whose drain is complete (R135, R138, R141). -/
theorem Over.rollsBack (ho : x.eng.op = .draining) (hst : x.eng.state = .rolling) (hw : x.eng.walk = rollbackWalk)
    (hd : Drained x) :
    (x.eng.durableCount = 0 →
      SendsHeader b (settle x) .walkFinal x.eng ∧ (settle x).eng.walk = { rollbackWalk with phase := some .final }) ∧
    (∀ k, x.eng.durableCount = k + 1 →
      (settle x).eng.op = .recordReads none none ∧ (settle x).eng.walk = { rollbackWalk with index := some k } ∧
        ReadsRecord b (settle x) (.restoreRead k) k) := by
  have hstep := drainStep_walks ho hd (by rw [hst]; exact EngState.noConfusion)
  have htotal : walkTotal x.eng = x.eng.durableCount := by
    rw [walkTotal, hw]
    rfl
  rw [htotal] at hstep
  have hself (hn : (drainStep x).eng.op ≠ .draining) : selfSteps x = selfSteps (drainStep x) :=
    (selfSteps_drainStep hn).symm
  refine ⟨fun hz => ?final, fun k hk => ?reads⟩
  case final =>
    rw [hz] at hstep
    rw [hstep] at hself
    obtain ⟨hsend, -, -, hwalk⟩ := settle_header (x := beginFinal x) (hself EngineOp.noConfusion) rfl h.quiet h.mport
      h.idle h.clock h.cfg h.link
    refine ⟨hsend, hwalk.trans ?_⟩
    show { x.eng.walk with phase := some .final, index := none } = _
    rw [hw]
    rfl
  case reads =>
    rw [hk] at hstep
    have hreads : drainStep x = readsOf (.restoreRead k) k _ := hstep.trans (beginRestore_eq k x)
    rw [hreads] at hself
    obtain ⟨hread, hframe⟩ := settle_reads (hself (by rw [readsOf_eng]; exact EngineOp.noConfusion)) rfl h.quiet h.mport
      h.idle h.clock h.cfg h.link (.inr rfl)
    rw [hframe]
    refine ⟨rfl, ?_, hread⟩
    show { x.eng.walk with phase := some .restore, index := some k } = _
    rw [hw]
    rfl

/-- The event comes to the reads of the two header copies (R78, R149, R158). -/
theorem Over.readsHeaders {why : HdrReader} (ho : x.eng.op = .headerReads why .waiting .waiting)
    (ha : x.eng.hdrOutA = b.eng.hdrOutA) (hb : x.eng.hdrOutB = b.eng.hdrOutB) : ReadsHeaders b (settle x) := by
  obtain ⟨h1, h2, h3, h4, -⟩ := settle_headerReads (s := x) rfl ho h.quiet h.mport h.idle h.clock h.cfg h.link
  rw [ha, hb] at h1 h2 h3 h4
  exact ⟨fun p q => h1 ⟨rfl, p⟩ ⟨rfl, q⟩, fun p q => h2 ⟨rfl, p⟩ fun m => q m.2, fun p q => h3 (fun m => p m.2) ⟨rfl, q⟩,
    fun p q => h4 (fun m => p m.2) fun m => q m.2⟩

/-- The event comes to the two reads of a record. -/
theorem Over.readsRecord {kind : RecHalf → MemOp} {k : Nat} (ho : x.eng.op = .recordReads none none)
    (hk : kind = .scanRead k ∨ kind = .restoreRead k) :
    ReadsRecord b (settle (readsOf kind k x)) kind k ∧
      settle (readsOf kind k x) = { x with
        mport := (settle (readsOf kind k x)).mport, choices := (settle (readsOf kind k x)).choices } :=
  settle_reads rfl ho h.quiet h.mport h.idle h.clock h.cfg h.link hk

end

/-! ### Entering a state with new values -/

/-- The engine takes new values and enters a state. -/
def entering (n : EngState) (f : Engine → Engine) (s : State) : State := enterState n (setEng f s)

theorem entering_eng (n : EngState) (f : Engine → Engine) (s : State) :
    (entering n f s).eng = { f s.eng with state := n } := enterState_eng n (setEng f s)

theorem entering_untouched (n : EngState) (f : Engine → Engine) (s : State) :
    (settle (entering n f s)).untouched = { s.untouched with engine := { (f s.eng).steady with state := n } } :=
  (settle_untouched _).trans (enterState_untouched n (setEng f s))

/-- Where no entry is re-examined, only the engine changes. -/
theorem entering_unmoved {n : EngState} {f : Engine → Engine} {s : State} (hf : (f s.eng).state = s.eng.state)
    (h : Unmoved s s.eng.state n) : entering n f s = { s with eng := { f s.eng with state := n } } := by
  refine enterState_of_unmoved (s := setEng f s) ?_
  show Unmoved s (f s.eng).state n
  rw [hf]
  exact h

/-- The engine with new values in a state that was at rest. -/
theorem Over.entered {b s : State} (h : AtRest b) (hs : s = { b with port := s.port, ev := s.ev }) (g : Engine) :
    Over b { s with eng := g } :=
  .of_atRest h (by rw [hs]) (by rw [hs]) (by rw [hs]) (by rw [hs]) (by rw [hs]) (by rw [hs])

section
variable {s : State} {n : EngState} {f : Engine → Engine} (c : BitVec 4)

/-- A command that leaves the engine with a header to write. -/
theorem takeCmd_header {why : HdrPurpose} (ho : (f s.eng).op = .headerWrite why false) :
    let t := takeCmd c (entering n f) s
    WritesHeader t why (f s.eng) ∧ t.eng.walk = (f s.eng).walk ∧
      ((f s.eng).state = s.eng.state → AtRest s → Unmoved s s.eng.state n → SendsHeader s t why (f s.eng)) := by
  have heng := entering_eng n f (recordResult c .accepted s)
  obtain ⟨h1, h2⟩ := settle_op_headerWrite (s := entering n f (recordResult c .accepted s)) (by rw [heng]; exact ho)
  rw [heng] at h1 h2
  refine ⟨h1, h2, fun hf h hu => ?_⟩
  have hx : entering n f (recordResult c .accepted s) = _ := entering_unmoved hf hu
  have hover := Over.entered (s := recordResult c .accepted s) h rfl { f s.eng with state := n }
  rw [takeCmd, hx]
  exact (hover.header ho).1

/-- A command that leaves the engine with the end of an epoch to come to. -/
theorem takeCmd_closes {k : CloseKind} (ho : (f s.eng).op = .draining) (hk : (f s.eng).closeKind = some k)
    (hf : (f s.eng).state = s.eng.state) (he : (f s.eng).epoch = s.eng.epoch) (h : AtRest s)
    (hu : Unmoved s s.eng.state .closing) :
    EndsEpoch s (takeCmd c (entering .closing f) s) (closePurpose k) (f s.eng) := by
  have hx : entering .closing f (recordResult c .accepted s) = _ := entering_unmoved hf hu
  have hover := Over.entered (s := recordResult c .accepted s) h rfl { f s.eng with state := .closing }
  have hdrained : Drained { recordResult c .accepted s with eng := { f s.eng with state := .closing } } ↔ Drained s := by
    simp only [Drained, DrainWaitsFor, he, recordResult]
  rw [takeCmd, hx]
  refine ⟨fun hd => ?_, fun hd => (hover.closes ho rfl hk (hdrained.mpr hd)).1⟩
  have hrest := hover.draining ho (mt hdrained.mp hd)
  exact ⟨(congrArg (fun t : State => t.eng.op) hrest).trans ho, (congrArg (fun t : State => t.mport) hrest).trans rfl⟩

end

/-! ### O19 -/

/-- R84: the next number is taken. -/
theorem fixOpenNumber_of {s : State} {k : W32} (h : s.eng.nextEpoch = some k) :
    fixOpenNumber s = setEng (fun g => { g with openNumber := some k, nextEpoch := nextAfter k }) s := by
  rw [fixOpenNumber, setEng, h]
  rfl

theorem takeOpen_eq {s : State} {k : W32} (h : s.eng.nextEpoch = some k) : takeOpen s = entering .opening (fun g =>
    { g with openNumber := some k, nextEpoch := nextAfter k, op := .headerWrite .opening false }) s := by
  rw [takeOpen, fixOpenNumber_of h]
  rfl

theorem takeClose_commit (s : State) : takeClose .commit s = entering .closing (fun g =>
    { g with deadlineLeft := 0, deadlineRunning := false, closeKind := some .commit, op := .draining }) s := rfl

theorem takeClose_commitOpen {s : State} {k : W32} (h : s.eng.nextEpoch = some k) :
    takeClose .commitOpen s = entering .closing (fun g =>
      { g with
        openNumber := some k, nextEpoch := nextAfter k, deadlineLeft := 0, deadlineRunning := false,
        closeKind := some .commitOpen, op := .draining }) s := by
  rw [takeClose, closingNumber, fixOpenNumber_of h]
  rfl

theorem retryClose_commit (s : State) : retryClose .commit s = entering .closing (fun g =>
    { g with closeKind := some .commit, op := .headerWrite .closeCommit false }) s := rfl

theorem retryClose_commitOpen {s : State} {k : W32} (h : s.eng.nextEpoch = some k) :
    retryClose .commitOpen s = entering .closing (fun g =>
      { g with
        openNumber := some k, nextEpoch := nextAfter k, closeKind := some .commitOpen,
        op := .headerWrite .closeCommitOpen false }) s := by
  rw [retryClose, closingNumber, fixOpenNumber_of h]
  rfl

theorem takeCmd_congr {e e' : State → State} {s : State} {c : BitVec 4}
    (h : e (recordResult c .accepted s) = e' (recordResult c .accepted s)) : takeCmd c e s = takeCmd c e' s :=
  congrArg settle h

theorem takeCmd_untouched {n : EngState} {f : Engine → Engine} {s : State} {c : BitVec 4} :
    (takeCmd c (entering n f) s).untouched = { s.untouched with
      engine := { (f s.eng).steady with state := n }
      port := { s.port with cmdResult := { code := c, outcome := .accepted } } } :=
  entering_untouched n f (recordResult c .accepted s)

/-- Settles O19. -/
theorem openAndCommitTaken : Obligations.OpenAndCommitTaken := by
  intro s hr done
  refine ⟨fun n hs hn => ?openTaken, fun hs => ?commit, fun hs => ?retry, fun n hs hn => ?commitOpen,
    fun n hs hn => ?retryOpen⟩
  case openTaken =>
    have hexec : exec .openCmd s = .next (takeCmd 1 takeOpen s) :=
      (unlessHeld_running hr _).trans (if_pos ⟨hs, by rw [hn]; rfl⟩)
    rw [hexec, takeCmd_congr (takeOpen_eq (s := recordResult 1 .accepted s) hn)]
    obtain ⟨hw, -, hsend⟩ := takeCmd_header (s := s) (n := .opening) 1 (f := fun g =>
      { g with openNumber := some n, nextEpoch := nextAfter n, op := .headerWrite .opening false }) rfl
    exact ⟨_, rfl, hw, fun h hu => hsend rfl h (hs ▸ hu), takeCmd_untouched⟩
  case commit =>
    have hexec : exec .commitCmd s = .next (takeCmd 2 (takeClose .commit) s) := by
      refine (unlessHeld_running hr _).trans ?_
      rw [hs]
    rw [hexec, takeCmd_congr (takeClose_commit (recordResult 2 .accepted s))]
    exact ⟨_, rfl, fun h hu => takeCmd_closes 2 (k := .commit) rfl rfl rfl rfl h (hs ▸ hu), takeCmd_untouched⟩
  case retry =>
    have hexec : exec .commitCmd s = .next (takeCmd 2 (retryClose .commit) s) := by
      refine (unlessHeld_running hr _).trans ?_
      rw [hs]
    rw [hexec, takeCmd_congr (retryClose_commit (recordResult 2 .accepted s))]
    obtain ⟨hw, -, hsend⟩ := takeCmd_header (s := s) (n := .closing) 2 (f := fun g =>
      { g with closeKind := some .commit, op := .headerWrite .closeCommit false }) rfl
    exact ⟨_, rfl, hw, fun h hu => hsend rfl h (hs ▸ hu), takeCmd_untouched⟩
  case commitOpen =>
    have hexec : exec .commitOpenCmd s = .next (takeCmd 3 (takeClose .commitOpen) s) := by
      refine (unlessHeld_running hr _).trans ?_
      rw [hs, hn]
    rw [hexec, takeCmd_congr (takeClose_commitOpen (s := recordResult 3 .accepted s) hn)]
    exact ⟨_, rfl, fun h hu => takeCmd_closes 3 (k := .commitOpen) rfl rfl rfl rfl h (hs ▸ hu), takeCmd_untouched⟩
  case retryOpen =>
    have hexec : exec .commitOpenCmd s = .next (takeCmd 3 (retryClose .commitOpen) s) := by
      refine (unlessHeld_running hr _).trans ?_
      rw [hs, hn]
    rw [hexec, takeCmd_congr (retryClose_commitOpen (s := recordResult 3 .accepted s) hn)]
    obtain ⟨hw, -, hsend⟩ := takeCmd_header (s := s) (n := .closing) 3 (f := fun g =>
      { g with openNumber := some n, nextEpoch := nextAfter n, closeKind := some .commitOpen,
               op := .headerWrite .closeCommitOpen false }) rfl
    exact ⟨_, rfl, hw, fun h hu => hsend rfl h (hs ▸ hu), takeCmd_untouched⟩

end Sys2Proof.Machine
end

