-- ==== Sys2Proof/Proofs/WalkCommands.lean ====
section
/-! The commands that begin a rollback or a recovery, and those that take a stalled walk on (R98, R99, R144, R145, R149,
R156 to R159; O20, O22, O23). -/

namespace Sys2Proof.Machine

/-! ### Rollbacks -/

/-- Settling keeps the kind of the walk. -/
theorem settle_walk_kind {s : State} (k : WalkKind) (h : s.eng.walk.kind = some k) :
    (settle s).eng.walk.kind = some k := by
  have hbelow (n : Nat) (t : State) : (walkBelow n t).eng.walk.kind = t.eng.walk.kind := by
    cases n with
    | zero => rfl
    | succ n => rw [walkBelow, beginRestore_eq, readsOf_eng]; rfl
  have hdrain (t : State) : (drainStep t).eng.walk.kind = t.eng.walk.kind := by
    unfold drainStep
    split
    · split
      · split
        · rfl
        · exact hbelow _ _
      · rfl
    · rfl
  have hheader (t : State) : (headerStep t).eng.walk = t.eng.walk := by
    cases ho : t.eng.op with
    | headerWrite why asked =>
      cases asked with
      | true => rw [headerStep, ho]
      | false =>
        by_cases hz : t.eng.hdrOut t.eng.nextCopy = 0
        · rw [headerStep_sends ho hz, enqueue_eng]; rfl
        · rw [headerStep_waits ho hz]
    | headerReads why a b =>
      rw [headerStep_reads ho]
      dsimp only
      split <;> split <;> simp only [enqueue_eng, setEng_eng]
    | _ => rw [headerStep, ho]
  have hrestore (t : State) : (restoreStep t).eng.walk = t.eng.walk := by
    unfold restoreStep
    split
    · split
      · rw [enqueue_eng]; rfl
      · rfl
    · rfl
  have hself (t : State) : (selfSteps t).eng.walk.kind = t.eng.walk.kind := by
    rw [selfSteps, hrestore, recordStep_eng, hheader, hdrain]
  have hclosed : SettleClosed (fun t => t.eng.walk.kind = some k) :=
    { self := fun t ht => (hself t).trans ht
      grant := fun t ht => by
        rcases grantOne_eng t with he | ⟨op, he⟩ | ⟨op, x, -, he⟩
        · rw [he]; exact ht
        · rw [he, (countIssued_keepsOp op t).2.1]; exact ht
        · rw [he]; exact ht
      intake := fun t ht => by rw [intakeStep_eng]; exact ht
      close := fun t ht => ht }
  exact hclosed.settle ((hself s).trans h)

/-- The engine begins a rollback with its drain. -/
def abortOpened (g : Engine) : Engine :=
  { g with deadlineLeft := 0, deadlineRunning := false, walk := rollbackWalk, op := .draining }

theorem takeAbort_eq (s : State) : takeAbort s = entering .rolling abortOpened s := rfl

theorem abortFaulted_eq (s : State) : abortFaulted s = entering .rolling (fun g =>
    { g with walk := rollbackWalk, op := .headerWrite .reassert false }) s := rfl

/-- What a state comes to in which the engine has just begun a rollback, over a state at rest (R99, R135). -/
theorem Over.beginsRollback {b x : State} (h : Over b x) (ho : x.eng.op = .draining) (hst : x.eng.state = .rolling)
    (hw : x.eng.walk = rollbackWalk) (hd : Drained x ↔ Drained b) (hc : x.eng.durableCount = b.eng.durableCount)
    (hg : SendsHeader b (settle x) .walkFinal x.eng → SendsHeader b (settle x) .walkFinal b.eng) :
    BeginsRollback b (settle x) := by
  refine ⟨fun hn => ?_, fun hy hz => ?_, fun hy k hk => ?_⟩
  · rw [h.draining ho (mt hd.mp hn)]
    exact ⟨ho, hw, h.mport⟩
  · obtain ⟨h1, h2⟩ := (h.rollsBack ho hst hw (hd.mpr hy)).1 (hc.trans hz)
    exact ⟨hg h1, h2⟩
  · exact (h.rollsBack ho hst hw (hd.mpr hy)).2 k (hc.trans hk)

/-- Settles O20. -/
theorem abortTaken : Obligations.AbortTaken := by
  intro s hr done
  refine ⟨fun hs => ?opened, fun hs => ?faulted⟩
  case opened =>
    have hexec : exec .abortCmd s = .next (takeCmd 4 takeAbort s) := by
      refine (unlessHeld_running hr _).trans ?_
      rw [hs]
    rw [hexec, takeCmd_congr (takeAbort_eq _)]
    refine ⟨_, rfl, settle_walk_kind _ (by rw [entering_eng]; rfl), fun h hu => ?_, takeCmd_untouched⟩
    have hx : entering .rolling abortOpened (recordResult 4 .accepted s) = _ := entering_unmoved rfl (hs ▸ hu)
    have hover := Over.entered (s := recordResult 4 .accepted s) h rfl { abortOpened s.eng with state := .rolling }
    rw [takeCmd, hx]
    exact hover.beginsRollback rfl rfl rfl Iff.rfl rfl id
  case faulted =>
    have hexec : exec .abortCmd s = .next (takeCmd 4 abortFaulted s) := by
      refine (unlessHeld_running hr _).trans ?_
      rw [hs]
    rw [hexec, takeCmd_congr (abortFaulted_eq _)]
    obtain ⟨hw, hwalk, hsend⟩ := takeCmd_header (s := s) (n := .rolling) 4 (f := fun g =>
      { g with walk := rollbackWalk, op := .headerWrite .reassert false }) rfl
    exact ⟨_, rfl, hw, fun h hu => hsend rfl h (hs ▸ hu), hwalk, takeCmd_untouched⟩

/-! ### RECOVER, DISCARD and FORMAT in UNRECOVERED -/

theorem readAsked_waiting (n : Nat) : readAsked .waiting n = if n = 0 then .requested else .waiting := by
  simp [readAsked, MayRead]

theorem beginHeaderReads_eq (why : HdrReader) (w : Walk) (s : State) : beginHeaderReads why w s =
    entering .recovering (fun g => { g with walk := w, op := .headerReads why .waiting .waiting }) s := rfl

theorem takeFormat_eq (s : State) : takeFormat s = entering .recovering (fun g => { g with
    journalId := s.port.arg, generation := 0, nextCopy := .a, epoch := 0, nextEpoch := some 1,
    walk := Walk.absent, op := .headerWrite .formatFirst false }) s := rfl

section
variable {s : State} (c : BitVec 4) (why : HdrReader) (w : Walk)

/-- A command that begins the two header reads (R149, R158). -/
theorem takeCmd_readsHeaders (hs : s.eng.state = .unrecovered) :
    let t := takeCmd c (beginHeaderReads why w) s
    t.eng.op = .headerReads why (if s.eng.hdrOutA = 0 then .requested else .waiting)
      (if s.eng.hdrOutB = 0 then .requested else .waiting) ∧
    t.eng.walk = w ∧ (AtRest s ∧ Unmoved s .unrecovered .recovering → ReadsHeaders s t) ∧
    t.untouched = { s.untouched with
      engine := { s.eng.steady with state := .recovering }
      port := { s.port with cmdResult := { code := c, outcome := .accepted } } } := by
  intro t
  have ht : t = takeCmd c (entering .recovering (fun g => { g with walk := w, op := .headerReads why .waiting .waiting }))
      s := takeCmd_congr (beginHeaderReads_eq why w _)
  rw [ht]
  have heng := entering_eng .recovering (fun g => { g with walk := w, op := .headerReads why .waiting .waiting })
    (recordResult c .accepted s)
  obtain ⟨h1, h2⟩ := settle_op_headerReads (by rw [heng])
  rw [heng, readAsked_waiting, readAsked_waiting] at h1
  rw [heng] at h2
  refine ⟨h1, h2, fun ⟨h, hu⟩ => ?_, takeCmd_untouched⟩
  have hx : entering .recovering _ (recordResult c .accepted s) = _ :=
    entering_unmoved (f := fun g => { g with walk := w, op := .headerReads why .waiting .waiting }) rfl (hs ▸ hu)
  have hover := Over.entered (s := recordResult c .accepted s) h rfl
    { s.eng with walk := w, op := .headerReads why .waiting .waiting, state := .recovering }
  rw [takeCmd, hx]
  exact hover.readsHeaders rfl rfl rfl

end

/-- Settles O22. -/
theorem recoveryCommandsTaken : Obligations.RecoveryCommandsTaken := by
  intro s hr hs hgeo done engine quiet life reads
  have hconf : configured s = true := by simp [configured, hs, hgeo]
  refine ⟨?recover, ?discard, ?format⟩
  case recover =>
    have hexec : exec .recoverCmd s = .next (takeCmd 6 (beginHeaderReads .recover recoveryWalk) s) :=
      (unlessHeld_running hr _).trans (if_pos hconf)
    obtain ⟨ho, hw, hq, hu⟩ := takeCmd_readsHeaders 6 .recover recoveryWalk hs
    exact ⟨_, hexec, ho, hq, hw, hu⟩
  case discard =>
    have hexec : exec .discardCmd s = .next (takeCmd 8 (beginHeaderReads .discard Walk.absent) s) :=
      (unlessHeld_running hr _).trans (if_pos hconf)
    obtain ⟨ho, hw, hq, hu⟩ := takeCmd_readsHeaders 8 .discard Walk.absent hs
    exact ⟨_, hexec, hw, ho, hq, hu⟩
  case format =>
    have hexec : exec .formatCmd s = .next (takeCmd 7 takeFormat s) :=
      (unlessHeld_running hr _).trans (if_pos hconf)
    rw [hexec, takeCmd_congr (takeFormat_eq (recordResult 7 .accepted s))]
    obtain ⟨hw, hwalk, hsend⟩ := takeCmd_header (s := s) (n := .recovering) 7 (f := fun g => { g with
      journalId := s.port.arg, generation := 0, nextCopy := .a, epoch := 0, nextEpoch := some 1,
      walk := Walk.absent, op := .headerWrite .formatFirst false }) rfl
    exact ⟨_, rfl, hwalk, hw, fun h => hsend rfl h.1 (hs ▸ h.2), takeCmd_untouched⟩

/-! ### A stalled walk -/

theorem walkRunState_eq (k : Option WalkKind) :
    walkRunState k = if k = some .recovery then .recovering else .rolling := by
  rcases k with _ | k
  · rfl
  · cases k <;> rfl

theorem walkTotal_eq (g : Engine) :
    walkTotal g = if g.walk.kind = some .recovery then g.walk.scanCount.getD 0 else g.durableCount := by
  unfold walkTotal
  split
  · rename_i h
    rw [if_pos h]
  · rename_i h
    rw [if_neg h]

theorem readsOf_untouched (kind : RecHalf → MemOp) (k : Nat) (s : State) : (readsOf kind k s).untouched = s.untouched :=
  (enqueue_untouched _ _ _).trans (enqueue_untouched _ _ _)

/-- The engine, running its stalled walk again, asks for the two reads of an index. -/
theorem takeCmd_rereads {s : State} {c : BitVec 4} {e : State → State} {kind : RecHalf → MemOp} {k : Nat}
    {ph : WalkPhase} {n : EngState} (hs : s.eng.state = .stalled) (hp : s.eng.walk.phase = some ph)
    (hi : s.eng.walk.index = some k) (hk : kind = .scanRead k ∨ kind = .restoreRead k)
    (he : e (recordResult c .accepted s) = readsOf kind k (setEng (fun g =>
      { g with walk := { g.walk with phase := some ph, index := some k }, op := .recordReads none none })
      (entering n (fun g => { g with walk := { g.walk with stall := none } }) (recordResult c .accepted s)))) :
    let t := takeCmd c e s
    t.eng.op = .recordReads none none ∧ t.eng.walk = { s.eng.walk with stall := none } ∧
    (AtRest s ∧ Unmoved s .stalled n → ReadsRecord s t kind k) := by
  have heng := entering_eng n (fun g => { g with walk := { g.walk with stall := none } }) (recordResult c .accepted s)
  have hwalk : ({ s.eng.walk with stall := none, phase := some ph, index := some k } : Walk) =
      { s.eng.walk with stall := none } := by rw [← hp, ← hi]
  rw [takeCmd, he]
  obtain ⟨h1, h2⟩ := settle_op_recordReads (s := readsOf kind k (setEng (fun g =>
      { g with walk := { g.walk with phase := some ph, index := some k }, op := .recordReads none none })
      (entering n (fun g => { g with walk := { g.walk with stall := none } }) (recordResult c .accepted s))))
      (by rw [readsOf_eng]; rfl)
  refine ⟨h1, h2.trans ?_, fun ⟨h, hu⟩ => ?_⟩
  · rw [readsOf_eng, setEng_eng, heng]
    exact hwalk
  · have hx : entering n _ (recordResult c .accepted s) = _ :=
      entering_unmoved (f := fun g => { g with walk := { g.walk with stall := none } }) rfl (hs ▸ hu)
    have hover := Over.entered (s := recordResult c .accepted s) h rfl { s.eng with
      walk := { s.eng.walk with stall := none, phase := some ph, index := some k }, op := .recordReads none none, state := n }
    rw [hx]
    exact (hover.readsRecord rfl hk).1

/-- The engine, running its stalled walk again. -/
def running (n : EngState) (s : State) : State :=
  entering n (fun g => { g with walk := { g.walk with stall := none } }) s

theorem resumeWalk_eq (s : State) : resumeWalk s =
    match s.eng.walk.phase with
    | some .scan => beginScan (s.eng.walk.index.getD 0) (running (walkRunState s.eng.walk.kind) s)
    | some .restore => beginRestore (s.eng.walk.index.getD 0) (running (walkRunState s.eng.walk.kind) s)
    | _ => needHeader .walkFinal (running (walkRunState s.eng.walk.kind) s) := rfl

theorem running_untouched (n : EngState) (s : State) : (running n s).untouched =
    { s.untouched with engine := { s.eng.steady with state := n } } := enterState_untouched n _

theorem beginScan_untouched (k : Nat) (s : State) : (beginScan k s).untouched = s.untouched := by
  rw [beginScan_eq, readsOf_untouched]
  rfl

theorem resumeWalk_untouched (s : State) : (settle (resumeWalk s)).untouched =
    { s.untouched with engine := { s.eng.steady with state := walkRunState s.eng.walk.kind } } := by
  rw [settle_untouched, resumeWalk_eq, ← running_untouched]
  split
  · rw [beginScan_untouched]
  · rw [beginRestore_untouched]
  · rfl

theorem discardWalk_eq (s : State) : discardWalk s = entering (walkRunState s.eng.walk.kind) (fun g => { g with
    walk := { g.walk with
      phase := some .final, index := none, stall := none
      discardCount := some (s.eng.walk.discardCount.getD (restoredSoFar s.eng)) }
    op := .headerWrite .walkFinal false }) s := rfl

/-- Settles O23. -/
theorem stalledWalkCommands : Obligations.StalledWalkCommands := by
  intro s hr hs w runs total count quiet done engine
  have hruns : walkRunState w.kind = runs := walkRunState_eq w.kind
  refine ⟨?resume, ?discard⟩
  case resume =>
    have hexec : exec .resumeCmd s = .next (takeCmd 9 resumeWalk s) := (unlessHeld_running hr _).trans (if_pos hs)
    have hun := resumeWalk_untouched (recordResult 9 .accepted s)
    simp only [recordResult_eng] at hun
    rw [hruns] at hun
    refine ⟨_, hexec, hun, fun k hp hi => ?_, fun k hp hi => ?_, fun hp => ?_⟩
    · have he : resumeWalk (recordResult 9 .accepted s) = beginScan k (running runs (recordResult 9 .accepted s)) := by
        rw [← hruns, resumeWalk_eq]
        simp only [recordResult_eng]
        rw [show s.eng.walk.phase = _ from hp, show s.eng.walk.index = _ from hi]
        rfl
      obtain ⟨h1, h2, h3⟩ := takeCmd_rereads hs hp hi (.inl rfl) (he.trans (beginScan_eq k _))
      exact ⟨h1, h2, h3⟩
    · have he : resumeWalk (recordResult 9 .accepted s) = beginRestore k (running runs (recordResult 9 .accepted s)) := by
        rw [← hruns, resumeWalk_eq]
        simp only [recordResult_eng]
        rw [show s.eng.walk.phase = _ from hp, show s.eng.walk.index = _ from hi]
        rfl
      obtain ⟨h1, h2, h3⟩ := takeCmd_rereads hs hp hi (.inr rfl) (he.trans (beginRestore_eq k _))
      exact ⟨h1, h2, h3⟩
    · have he : resumeWalk (recordResult 9 .accepted s) =
          needHeader .walkFinal (running runs (recordResult 9 .accepted s)) := by
        rw [← hruns, resumeWalk_eq]
        simp only [recordResult_eng]
        rw [show s.eng.walk.phase = _ from hp]
      have heng : (running runs (recordResult 9 .accepted s)).eng = _ := entering_eng _ _ _
      obtain ⟨h1, h2⟩ := settle_op_headerWrite (s := needHeader .walkFinal (running runs (recordResult 9 .accepted s))) rfl
      rw [needHeader_eng, heng] at h1 h2
      rw [takeCmd, he]
      refine ⟨h1, fun ⟨h, hu⟩ => ?_, h2⟩
      have hx : running runs (recordResult 9 .accepted s) = _ := entering_unmoved rfl (hs ▸ hu)
      have hover := Over.entered (s := recordResult 9 .accepted s) h rfl { s.eng with
        walk := { s.eng.walk with stall := none }, op := .headerWrite .walkFinal false, state := runs }
      rw [hx]
      exact (hover.header rfl).1
  case discard =>
    have hexec : exec .discardCmd s = .next (takeCmd 8 discardWalk s) := by
      refine (unlessHeld_running hr _).trans ?_
      have hn1 : ¬ configured s = true := by simp [configured, hs]
      have hn2 : ¬ unconfigured s = true := by simp [unconfigured, hs]
      rw [if_neg hn1, if_neg hn2, if_pos hs]
    have hcount : s.eng.walk.discardCount.getD (restoredSoFar s.eng) = count := by
      have htotal : walkTotal s.eng = total := walkTotal_eq s.eng
      show _ = match w.discardCount with
        | some n => n
        | none => match w.phase with
          | some .scan => 0
          | some .restore => total - 1 - w.index.getD 0
          | _ => total
      rw [← htotal]
      cases hd : s.eng.walk.discardCount with
      | some n => rfl
      | none =>
        rewrite [Option.getD_none, restoredSoFar]
        rcases s.eng.walk.phase with _ | p
        · rfl
        · cases p <;> rfl
    have heq := discardWalk_eq (recordResult 8 .accepted s)
    simp only [recordResult_eng] at heq
    rw [hruns, hcount] at heq
    rw [hexec, takeCmd_congr heq]
    obtain ⟨hw, hwalk, hsend⟩ := takeCmd_header (s := s) (n := runs) 8 (f := fun g => { g with
      walk := { g.walk with phase := some .final, index := none, stall := none, discardCount := some count }
      op := .headerWrite .walkFinal false }) rfl
    exact ⟨_, rfl, takeCmd_untouched, hw, fun h => hsend rfl h.1 (hs ▸ h.2), hwalk⟩

end Sys2Proof.Machine
end

