-- ==== Sys2Proof/Proofs/OwnSteps.lean ====
section
/-! What the engine does for itself once it may (R76, R78, R90, R135, R139, R141; O51), and the walk's next step. -/

namespace Sys2Proof.Machine

/-! ### The next step of a walk -/

/-- The walk has nothing left to restore, and writes its final header (R140, R141). -/
theorem settle_walkBelow_zero (s : State) :
    WritesHeader (settle (walkBelow 0 s)) .walkFinal s.eng ∧
      (settle (walkBelow 0 s)).eng.walk = { s.eng.walk with phase := some .final, index := none } :=
  settle_op_headerWrite (s := beginFinal s) rfl

/-- The walk goes on to the two reads of its next index (R138). -/
theorem settle_walkBelow_succ (k : Nat) (s : State) :
    (settle (walkBelow (k + 1) s)).eng.op = .recordReads none none ∧
      (settle (walkBelow (k + 1) s)).eng.walk = { s.eng.walk with phase := some .restore, index := some k } := by
  have heng : (walkBelow (k + 1) s).eng = { s.eng with
      walk := { s.eng.walk with phase := some .restore, index := some k }, op := .recordReads none none } := by
    rw [walkBelow, beginRestore_eq, readsOf_eng]
    rfl
  have h := settle_op_recordReads (s := walkBelow (k + 1) s) (by rw [heng])
  rw [heng] at h
  exact h

section
variable {b x : State} (h : Over b x)
include h

theorem Over.walkBelow_zero : SendsHeader b (settle (walkBelow 0 x)) .walkFinal x.eng :=
  (Over.header (x := beginFinal x) ⟨h.quiet, h.mport, h.idle, h.clock, h.cfg, h.link⟩ rfl).1

theorem Over.walkBelow_succ (k : Nat) : ReadsRecord b (settle (walkBelow (k + 1) x)) (.restoreRead k) k := by
  rw [walkBelow, beginRestore_eq]
  exact (Over.readsRecord (x := setEng (fun g =>
    { g with walk := { g.walk with phase := some .restore, index := some k }, op := .recordReads none none }) x)
    ⟨h.quiet, h.mport, h.idle, h.clock, h.cfg, h.link⟩ rfl (.inr rfl)).1

end

theorem Over.of_clear {s : State} (h : Clear s) : Over s s := ⟨h.2.2.2.2, rfl, h.2.1, rfl, rfl, h.2.2.1⟩

/-! ### Steps that are taken ahead of the settling -/

theorem selfSteps_headerStep {s : State} (hd : s.eng.op ≠ .draining) (he : engineSettled (headerStep s) = true) :
    selfSteps (headerStep s) = selfSteps s := by
  rw [selfSteps_of_engineSettled he, selfSteps, drainStep_of_op hd, recordStep_engineSettled he,
    restoreStep_engineSettled he]

theorem engineSettled_headerStep_write {s : State} {why : HdrPurpose} (ho : s.eng.op = .headerWrite why false)
    (hz : s.eng.hdrOut s.eng.nextCopy = 0) (hq : RecordsQuiet s) : engineSettled (headerStep s) = true := by
  rw [headerStep_sends ho hz, engineSettled_enqueue]
  exact engineSettled_of_headerWrite (s := setEng (fun g => { g with op := .headerWrite why true }) s) rfl
    Bool.noConfusion hq

theorem engineSettled_headerStep_reads {s : State} {why : HdrReader} {a b : HdrRead}
    (ho : s.eng.op = .headerReads why a b) (hq : RecordsQuiet s) : engineSettled (headerStep s) = true := by
  have he : engineSettled (setEng (fun g => { g with
      op := .headerReads why (readAsked a s.eng.hdrOutA) (readAsked b s.eng.hdrOutB) }) s) = true :=
    engineSettled_of_headerReads rfl (readAsked_not_mayRead _ _) (readAsked_not_mayRead _ _) hq
  rw [headerStep_reads ho]
  dsimp only
  split <;> split <;> simpa only [engineSettled_enqueue] using he

theorem selfSteps_restoreStep {s : State} {cell : CellIx} {bytes : CellData} (ho : s.eng.op = .restoreWait cell bytes)
    (hz : s.eng.restoreOut = 0) (hst : staleForwardTo s.mport cell = false) (hq : RecordsQuiet s) :
    selfSteps (restoreStep s) = selfSteps s := by
  have he : engineSettled (restoreStep s) = true := by
    rw [restoreStep_asks ho hz hst, engineSettled_enqueue]
    exact engineSettled_of_restoreIssued (s := setEng (fun g => { g with op := .restoreIssued cell }) s) rfl hq
  have hh : headerStep s = s := by rw [headerStep, ho]
  rw [selfSteps_of_engineSettled he, selfSteps, drainStep_of_op (by rw [ho]; exact EngineOp.noConfusion), hh,
    recordStep_of_quiet hq]

/-! ### O51 -/

section
variable {s : State} (hr : Running s)
include hr

/-- The end of a drain. -/
theorem drainComplete_goesOn (ho : s.eng.op = .draining) (hd : Drained s) :
    ∃ t, exec .drainComplete s = .next t ∧ t.untouched = s.untouched ∧
      (s.eng.state = .closing → WritesHeader t (closePurpose (s.eng.closeKind.getD .commit)) s.eng ∧
        (Clear s → SendsHeader s t (closePurpose (s.eng.closeKind.getD .commit)) s.eng)) ∧
      (s.eng.state ≠ .closing → walkTotal s.eng = 0 → WritesHeader t .walkFinal s.eng ∧
        (Clear s → SendsHeader s t .walkFinal s.eng) ∧
        t.eng.walk = { s.eng.walk with phase := some .final, index := none }) ∧
      (s.eng.state ≠ .closing → ∀ k, walkTotal s.eng = k + 1 → t.eng.op = .recordReads none none ∧
        t.eng.walk = { s.eng.walk with phase := some .restore, index := some k } ∧
        (Clear s → ReadsRecord s t (.restoreRead k) k)) := by
  refine ⟨_, unlessHeld_running hr _, (settle_untouched _).trans (drainStep_untouched s), fun hs => ?_, fun hs hz => ?_,
    fun hs k hk => ?_⟩
  · rw [drainStep_closing ho hd hs]
    exact ⟨(settle_op_headerWrite (s := needHeader _ s) rfl).1,
      fun hc => (Over.header (x := needHeader _ s) (.of_clear hc) rfl).1⟩
  · rw [drainStep_walks ho hd hs, hz]
    exact ⟨(settle_walkBelow_zero s).1, fun hc => (Over.of_clear hc).walkBelow_zero, (settle_walkBelow_zero s).2⟩
  · rw [drainStep_walks ho hd hs, hk]
    exact ⟨(settle_walkBelow_succ k s).1, (settle_walkBelow_succ k s).2, fun hc => (Over.of_clear hc).walkBelow_succ k⟩

theorem headerAccessIssue_writes {why : HdrPurpose} (ho : s.eng.op = .headerWrite why false)
    (hz : s.eng.hdrOut s.eng.nextCopy = 0) (hc : Clear s) :
    ∃ t, exec .headerAccessIssue s = .next t ∧
      Issues s t (.headerWrite s.eng.nextCopy (headerFor why s.eng s.cfg.jslots)) (headerAddr s.cfg s.eng.nextCopy) ∧
      t = { s with
        eng := Engine.mapHdrOut (· + 1) s.eng.nextCopy { s.eng with op := .headerWrite why true }
        mport := t.mport, choices := t.choices } := by
  have hself := selfSteps_headerStep (by rw [ho]; exact EngineOp.noConfusion)
    (engineSettled_headerStep_write ho hz hc.2.2.2.2)
  obtain ⟨hone, hframe, heng⟩ := settle_header_requested (b := s) hself ho hc.2.2.2.2 rfl hc.2.1 rfl rfl hc.2.2.1 hz
  rw [if_neg hc.2.2.2.1] at heng
  exact ⟨_, unlessHeld_running hr _, hone.2 hc.2.2.2.1, heng ▸ hframe⟩

theorem headerAccessIssue_reads {why : HdrReader} {a b : HdrRead} (ho : s.eng.op = .headerReads why a b) (hc : Clear s) :
    ∃ t, exec .headerAccessIssue s = .next t ∧
      (MayRead a s.eng.hdrOutA → ¬ MayRead b s.eng.hdrOutB → Issues s t (.headerRead .a) (headerAddr s.cfg .a)) ∧
      (MayRead b s.eng.hdrOutB → ¬ MayRead a s.eng.hdrOutA → Issues s t (.headerRead .b) (headerAddr s.cfg .b)) ∧
      (MayRead a s.eng.hdrOutA → MayRead b s.eng.hdrOutB →
        RequestsPair s t (.headerRead .a, headerAddr s.cfg .a) (.headerRead .b, headerAddr s.cfg .b)) ∧
      t = { s with
        eng := { s.eng with
          op := .headerReads why (readAsked a s.eng.hdrOutA) (readAsked b s.eng.hdrOutB) }
        mport := t.mport, choices := t.choices } := by
  have hself := selfSteps_headerStep (by rw [ho]; exact EngineOp.noConfusion) (engineSettled_headerStep_reads ho hc.2.2.2.2)
  obtain ⟨h1, h2, h3, -, h5⟩ := settle_headerReads (b := s) hself ho hc.2.2.2.2 rfl hc.2.1 rfl rfl hc.2.2.1
  exact ⟨_, unlessHeld_running hr _, fun p q => (h2 p q).2 hc.2.2.2.1, fun p q => (h3 q p).2 hc.2.2.2.1, h1, h5⟩

theorem restoreWriteIssue_goesOn {cell : CellIx} {bytes : CellData} (ho : s.eng.op = .restoreWait cell bytes)
    (hz : s.eng.restoreOut = 0) (hst : staleForwardTo s.mport cell = false) (hc : Clear s) :
    ∃ t, exec .restoreWriteIssue s = .next t ∧ Issues s t (.restoreWrite cell bytes) (cellAddr cell) ∧
      t = { s with
        eng := { s.eng with op := .restoreIssued cell, restoreOut := s.eng.restoreOut + 1 }
        mport := t.mport, choices := t.choices } := by
  obtain ⟨hone, hframe, heng⟩ := settle_restoration (b := s) (selfSteps_restoreStep ho hz hst hc.2.2.2.2) ho hz hst
    hc.2.2.2.2 rfl hc.2.1 rfl rfl hc.2.2.1
  rw [if_neg hc.2.2.2.1] at heng
  exact ⟨_, unlessHeld_running hr _, hone.2 hc.2.2.2.1, heng ▸ hframe⟩

theorem ownSteps_atRest (h : AtRest s) : exec .drainComplete s = .next s ∧ exec .headerAccessIssue s = .next s ∧
    exec .restoreWriteIssue s = .next s := by
  have he := atRest_engine h
  have hstep {f : State → State} (hf : f s = s) : unlessHeld s (.next (settle (f s))) = .next s := by
    rw [unlessHeld_running hr, hf, settle_of_atRest h]
  exact ⟨hstep (drainStep_engineSettled he), hstep (headerStep_engineSettled he), hstep (restoreStep_engineSettled he)⟩

end

theorem closePurpose_eq (k : Option CloseKind) : closePurpose (k.getD .commit) =
    if k = some .commitOpen then .closeCommitOpen else .closeCommit := by
  rcases k with _ | k
  · rfl
  · cases k <;> rfl

/-- Settles O51. -/
theorem engineGoesOn : Obligations.EngineGoesOn := by
  intro s hr w total closing
  refine ⟨fun ho hd => ?drain, fun why ho hz hc => headerAccessIssue_writes hr ho hz hc,
    fun why a b ho hc _ => headerAccessIssue_reads hr ho hc,
    fun cell bytes ho hz hst hc => restoreWriteIssue_goesOn hr ho hz hst hc, ownSteps_atRest hr⟩
  case drain =>
    have htotal : walkTotal s.eng = total := walkTotal_eq s.eng
    have hpurpose : closePurpose (s.eng.closeKind.getD .commit) = closing := closePurpose_eq _
    have h := drainComplete_goesOn hr ho hd
    rw [htotal, hpurpose] at h
    exact h

end Sys2Proof.Machine
end

