-- ==== Sys2Proof/Proofs/Actions.lean ====
section
/-! The deadline and the delivered watch actions: each ends or opens an epoch as the command does (R39, R89, R99, R100,
R102, R104, R128; O39, O40). -/

namespace Sys2Proof.Machine

/-! ### An end of an epoch that no command asked for -/

/-- x is the resting state b but for its engine, its table and its events. -/
theorem Over.of_fields {b x : State} (h : AtRest b) (hx : x = { b with
    eng := x.eng, table := x.table, ev := x.ev, host := { b.host with out := x.host.out } }) : Over b x :=
  .of_atRest h (by rw [hx]) (by rw [hx]) (by rw [hx]) (by rw [hx]) (by rw [hx]) (by rw [hx])

section
variable {b x : State} (h : Over b x) (hd : Drained x ↔ Drained b)
include h hd

/-- The engine has just come to the end of an epoch with these values. -/
theorem Over.endsEpoch {k : CloseKind} (ho : x.eng.op = .draining) (hs : x.eng.state = .closing)
    (hk : x.eng.closeKind = some k) : EndsEpoch b (settle x) (closePurpose k) x.eng := by
  refine ⟨fun hn => ?_, fun hy => (h.closes ho hs hk (hd.mpr hy)).1⟩
  rw [h.draining ho (mt hd.mp hn)]
  exact ⟨ho, h.mport⟩

end

/-! ### The deadline -/

theorem deadlineDue_iff (s : State) : deadlineDue s = true ↔ s.cfg.tickdiv ≠ 0 ∧ s.eng.state = .opened ∧
    s.eng.deadlineRunning = true ∧ s.eng.deadlineLeft = 0 := by
  simp [deadlineDue, timersRun, and_assoc]

theorem deadlineReason_eq (a : BitVec 2) :
    deadlineReason a = if a = 1 then .commit else if a = 2 then .abort else .event := by
  revert a
  decide

/-- A report does not see the engine's values but for the number of the epoch. -/
theorem report_setEng (c : EvClass) (b : NoticeBody) {f : Engine → Engine} {s : State}
    (hf : (f s.eng).epoch = s.eng.epoch) : report c b (setEng f s) = setEng f (report c b s) := by
  have hpost : post b (setEng f s) = setEng f (post b s) := by
    by_cases hroom : s.ev.notices.length < 16
    · rw [post_of_room hroom, post_of_room (s := setEng f s) hroom, posted, setEng_eng, hf]
      rfl
    · rw [post_of_full (Nat.le_of_not_lt hroom), post_of_full (s := setEng f s) (Nat.le_of_not_lt hroom)]
      rfl
  rw [report, hpost]
  rfl

theorem report_eng (c : EvClass) (b : NoticeBody) (s : State) : (report c b s).eng = s.eng := by rw [report_frame]

theorem report_untouched (c : EvClass) (b : NoticeBody) (s : State) : (report c b s).untouched = s.untouched :=
  untouched_of_table (report_tableOnly c b s)

/-- The timer has expired, and its action enters a state. -/
theorem settle_deadline {s : State} {n : EngState} {f : Engine → Engine} {b : NoticeBody} :
    (settle (entering n f (report .deadline b s))).untouched =
        { s.untouched with engine := { (f s.eng).steady with state := n } } ∧
      Grows (report .deadline b s) (settle (entering n f (report .deadline b s))) := by
  refine ⟨?_, Grows.trans ((enterState_grows n (setEng f (report .deadline b s))).of_frame rfl rfl) (settle_grows _)⟩
  rw [entering_untouched, report_untouched, report_eng]

theorem entering_deadline {s : State} {n : EngState} {f : Engine → Engine} {b : NoticeBody} (h : AtRest s)
    (hf : (f s.eng).state = s.eng.state) (hu : Unmoved s s.eng.state n) :
    entering n f (report .deadline b s) = { report .deadline b s with eng := { f s.eng with state := n } } ∧
      Over s { report .deadline b s with eng := { f s.eng with state := n } } := by
  have heng := report_eng .deadline b s
  have hx := entering_unmoved (n := n) (f := f) (s := report .deadline b s) (by rw [heng]; exact hf)
    (by rw [heng, Unmoved, report_table]; exact hu)
  rw [heng] at hx
  exact ⟨hx, .of_fields h (by rw [report_frame])⟩

/-- The engine ends its epoch by a COMMIT with its drain. -/
def commitOpened (g : Engine) : Engine :=
  { g with deadlineLeft := 0, deadlineRunning := false, closeKind := some .commit, op := .draining }

theorem deadlineExpires_commit {s : State} (h : s.cfg.deadlineAction = 1) : deadlineExpires s =
    entering .closing commitOpened (report .deadline (.deadlineExpired .commit) s) := by
  have hreason : deadlineReason s.cfg.deadlineAction = .commit := by rw [h]; rfl
  unfold deadlineExpires
  dsimp only
  rw [hreason]
  rfl

theorem deadlineExpires_abort {s : State} (h : s.cfg.deadlineAction = 2) : deadlineExpires s =
    entering .rolling abortOpened (report .deadline (.deadlineExpired .abort) s) := by
  have hreason : deadlineReason s.cfg.deadlineAction = .abort := by rw [h]; rfl
  unfold deadlineExpires
  dsimp only
  rw [hreason]
  rfl

theorem deadlineExpires_event {s : State} (h1 : s.cfg.deadlineAction ≠ 1) (h2 : s.cfg.deadlineAction ≠ 2) :
    deadlineExpires s = stopDeadline (report .deadline (.deadlineExpired .event) s) := by
  have hreason : deadlineReason s.cfg.deadlineAction = .event := by rw [deadlineReason_eq, if_neg h1, if_neg h2]
  unfold deadlineExpires
  dsimp only
  rw [hreason]

/-- Stopping a timer that stands at 0 wakes nothing. -/
theorem engineSettled_stopDeadline (s : State) : engineSettled (stopDeadline s) = engineSettled s := rfl

theorem settle_deadline_event {s : State} (h : AtRest s) (hleft : s.eng.deadlineLeft = 0) :
    settle (stopDeadline (report .deadline (.deadlineExpired .event) s)) =
      report .deadline (.deadlineExpired .event) { s with eng := { s.eng with deadlineRunning := false } } := by
  have hset : engineSettled (stopDeadline (report .deadline (.deadlineExpired .event) s)) = true := by
    rw [engineSettled_stopDeadline]
    refine engineSettled_of (atRest_engine h) ?_ ?_ ?_ ?_ fun _ hd => ?_
    all_goals rw [report_frame] at *
    exact hd
  have heng : stopDeadline s = { s with eng := { s.eng with deadlineRunning := false } } := by
    rw [stopDeadline, setEng, ← hleft]
  rw [settle_of_engine hset (by rw [report_frame]; exact h.2.1) (by rw [report_frame]; exact h.2.2.1)
    (by rw [report_frame]; exact h.2.2.2), ← heng]
  exact (report_setEng .deadline (.deadlineExpired .event) rfl).symm

/-- Settles O39. -/
theorem deadlineExpires_asStated : Obligations.DeadlineExpires := by
  intro s hr due
  refine ⟨fun hn => (unlessHeld_running hr _).trans (if_neg (mt (deadlineDue_iff s).mp hn)), fun hd => ?_⟩
  have hexec : exec .deadlineExpiry s = .next (settle (deadlineExpires s)) :=
    (unlessHeld_running hr _).trans (if_pos ((deadlineDue_iff s).mpr hd))
  obtain ⟨-, hs, -, hleft⟩ := hd
  by_cases h1 : s.cfg.deadlineAction = 1
  · rw [deadlineExpires_commit h1] at hexec
    obtain ⟨hun, hgrows⟩ := settle_deadline (s := s) (n := .closing) (f := commitOpened)
      (b := .deadlineExpired .commit)
    refine ⟨_, hexec, hgrows.tells.1, fun hroom => ?_, fun _ => ⟨fun h hu => ?_, hun⟩, ?_, ?_⟩
    · rw [if_pos h1]
      exact hgrows.tells.2 hroom
    · obtain ⟨hx, hover⟩ := entering_deadline (b := .deadlineExpired .commit) (f := commitOpened) h rfl (hs ▸ hu)
      rw [hx]
      exact hover.endsEpoch (by simp only [Drained, DrainWaitsFor, report_table]; exact Iff.rfl) (k := .commit) rfl rfl rfl
    · exact fun h2 => absurd (h1.symm.trans h2) (by decide)
    · rw [h1]
      exact fun h => absurd h (by decide)
  · by_cases h2 : s.cfg.deadlineAction = 2
    · rw [deadlineExpires_abort h2] at hexec
      obtain ⟨hun, hgrows⟩ := settle_deadline (s := s) (n := .rolling) (f := abortOpened)
        (b := .deadlineExpired .abort)
      refine ⟨_, hexec, hgrows.tells.1, fun hroom => ?_, fun h => absurd h h1, fun _ => ⟨fun h hu => ?_, hun, ?_⟩, ?_⟩
      · rw [if_neg h1, if_pos h2]
        exact hgrows.tells.2 hroom
      · obtain ⟨hx, hover⟩ := entering_deadline (b := .deadlineExpired .abort) (f := abortOpened) h rfl (hs ▸ hu)
        rw [hx]
        exact hover.beginsRollback rfl rfl rfl (by simp only [Drained, DrainWaitsFor, report_table]; exact Iff.rfl) rfl id
      · exact settle_walk_kind _ (by rw [entering_eng]; rfl)
      · rw [h2]
        exact fun h => absurd h (by decide)
    · rw [deadlineExpires_event h1 h2] at hexec
      have hgrows : Grows (report .deadline (.deadlineExpired .event) s)
          (settle (stopDeadline (report .deadline (.deadlineExpired .event) s))) :=
        (settle_grows _).of_frame rfl rfl
      refine ⟨_, hexec, hgrows.tells.1, fun hroom => ?_, fun h => absurd h h1, fun h => absurd h h2,
        fun _ h => settle_deadline_event h hleft⟩
      rw [if_neg h1, if_neg h2]
      exact hgrows.tells.2 hroom

end Sys2Proof.Machine
end

