-- ==== Sys2Proof/Proofs/Deliveries.lean ====
section
/-! An entry that is alone in its cell and ends, and the delivered watch actions (R39, R104, R128; O40). -/

namespace Sys2Proof.Machine

/-! ### The end of an entry that is alone in its cell -/

/-- Once the entry is gone its cell has no turn to give. -/
theorem giveTurn_alone {s t : State} {e : Entry} (ha : Alone s e) (ht : t.table = without e.tag s.table) :
    giveTurn e.cell t = t := by
  refine turns_stop _ _ _ (turnOf_none_in fun x hx hc => ?_)
  rw [ht, mem_without] at hx
  exact hx.2 (congrArg Entry.tag (ha x hx.1 hc))

/-- A state at rest that does not drain stays at rest while only what the table moves changes. -/
theorem settle_still {s t : State} (h : AtRest s) (hd : s.eng.op ≠ .draining) (ho : TableOnly s t)
    (hq : t.mport.queue = []) : settle t = t :=
  settle_of_engine (engineSettled_of (atRest_engine h) ho.eng ho.slots ho.queue ho.orphans fun hop => absurd hop hd) hq
    (ho.link.trans h.2.2.1) (ho.held.trans h.2.2.2)

/-- A drain does not wait for an entry past its write. -/
theorem drained_without {s t : State} {e : Entry} (hT : TableOk s) (he : e ∈ s.table) (hw : ¬ DrainWaitsFor s e)
    (ht : t.table = without e.tag s.table) (hep : t.eng.epoch = s.eng.epoch) : Drained t ↔ Drained s := by
  have hone (x : Entry) : DrainWaitsFor t x ↔ DrainWaitsFor s x := by rw [DrainWaitsFor, hep]
  refine ⟨fun h x hx hd => ?_, fun h x hx hd => ?_⟩
  · by_cases htag : x.tag = e.tag
    · exact hw (entry_eq_of_tag hT.2.1 hx he htag ▸ hd)
    · exact h x (by rw [ht, mem_without]; exact ⟨hx, htag⟩) ((hone x).mpr hd)
  · rw [ht, mem_without] at hx
    exact h x hx.1 ((hone x).mp hd)

/-! ### The table of actions -/

/-- What the engine does with an action, by its fate (R104). -/
inductive ActionTaken (e : Entry) (rule : RuleNo) (s : State) : ActionFate → State → Prop
  | commit (hs : s.eng.state = .opened) : ActionTaken e rule s .commit (takeClose .commit s)
  | commitOpen (n : W32) (hs : s.eng.state = .opened) (hn : s.eng.nextEpoch = some n) :
      ActionTaken e rule s (.commitOpen n) (takeClose .commitOpen s)
  | abort (hs : s.eng.state = .opened) : ActionTaken e rule s .abort (takeAbort s)
  | opening (n : W32) (hs : s.eng.state = .idle) (hn : s.eng.nextEpoch = some n) :
      ActionTaken e rule s (.opening n) (takeOpen s)
  | silent : ActionTaken e rule s .silent s
  | dropped (why : DropReason) : ActionTaken e rule s (.dropped why) (post (.actionDropped rule e.addr e.tag why) s)

theorem takeAction_taken (e : Entry) (a : EpochAction) (rule : RuleNo) (s : State) :
    ActionTaken e rule s (actionFate s.eng a) (takeAction e a rule s) := by
  unfold actionFate takeAction
  cases hs : s.eng.state with
  | opened =>
    cases a with
    | commit => exact .commit hs
    | abort => exact .abort hs
    | commitOpen =>
      cases hn : s.eng.nextEpoch with
      | none => exact .dropped _
      | some n => exact .commitOpen n hs hn
  | idle =>
    cases a with
    | commit => exact .silent
    | abort => exact .silent
    | commitOpen =>
      cases hn : s.eng.nextEpoch with
      | none => exact .dropped _
      | some n => exact .opening n hs hn
  | _ => exact .dropped _

theorem takeAction_untouched (e : Entry) (a : EpochAction) (rule : RuleNo) (s : State) :
    (takeAction e a rule s).untouched = { s.untouched with engine := ((actionFate s.eng a).engine s.eng).steady } := by
  have hent (n : EngState) (f : Engine → Engine) : (entering n f s).untouched =
      { s.untouched with engine := { (f s.eng).steady with state := n } } := enterState_untouched n _
  have htaken := takeAction_taken e a rule s
  generalize actionFate s.eng a = fate, takeAction e a rule s = t at htaken
  cases htaken with
  | commit hs => rw [takeClose_commit, hent]; rfl
  | commitOpen n hs hn => rw [takeClose_commitOpen hn, hent]; rfl
  | abort hs => rw [takeAbort_eq, hent]; rfl
  | opening n hs hn => rw [takeOpen_eq hn, hent]; rfl
  | silent => rfl
  | dropped why => exact untouched_of_table (post_tableOnly _ s)

theorem takeAction_grows (e : Entry) (a : EpochAction) (rule : RuleNo) (s : State) :
    Grows s (takeAction e a rule s) := by
  have hent (n : EngState) (f : Engine → Engine) : Grows s (entering n f s) :=
    (enterState_grows n (setEng f s)).of_frame rfl rfl
  have htaken := takeAction_taken e a rule s
  generalize actionFate s.eng a = fate, takeAction e a rule s = t at htaken
  cases htaken with
  | commit hs => rw [takeClose_commit]; exact hent _ _
  | commitOpen n hs hn => rw [takeClose_commitOpen hn]; exact hent _ _
  | abort hs => rw [takeAbort_eq]; exact hent _ _
  | opening n hs hn => rw [takeOpen_eq hn]; exact hent _ _
  | silent => exact .refl s
  | dropped why => exact post_grows _ s

/-! ### O40 -/

theorem finishWrite_tableOnly (e : Entry) (s : State) : TableOnly s (finishWrite e s) :=
  (endEntry_tableOnly e .okWrite s).trans (giveTurn_tableOnly _ _)

/-- The entry ends alone in its cell. -/
theorem finishWrite_alone {s t : State} {e : Entry} (ha : Alone s e) (ht : t.table = s.table) :
    finishWrite e t = endEntry e .okWrite t :=
  giveTurn_alone ha (by rw [endEntry, freeEntry_table, respond_table, ht])

/-- The engine, at rest, has entered a state for a delivered action, and the write has been answered. -/
theorem Over.delivered {s : State} {e : Entry} (h : AtRest s) (g : Engine) :
    Over s (endEntry e .okWrite { s with eng := g }) := .of_fields h rfl

/-- Settles O40. -/
theorem watchActionIsDelivered : Obligations.WatchActionIsDelivered := by
  intro s e a rule hr hT hent hst hact fate answered
  have hexec : exec (.watchActionDelivery e.tag) s = .next (settle (finishWrite e (takeAction e a rule s))) := by
    refine (unlessHeld_running hr _).trans ?_
    rw [hent]
    dsimp only
    rw [if_pos hst, hact]
  have hmem := (entryOf_some hent).1
  have hwait : ¬ DrainWaitsFor s e := by
    rintro ⟨-, -, h | h | h⟩ <;> exact Stage.noConfusion (hst.symm.trans h)
  have hanswer : Grows (endEntry e .okWrite (takeAction e a rule s)) (settle (finishWrite e (takeAction e a rule s))) :=
    (giveTurn_grows _ _).trans (settle_grows _)
  have htaken := takeAction_taken e a rule s
  have hentered {n : EngState} {f : Engine → Engine} (ha : Alone s e) (hf : (f s.eng).state = s.eng.state)
      (hu : Unmoved s s.eng.state n) :
      finishWrite e (entering n f s) = endEntry e .okWrite { s with eng := { f s.eng with state := n } } := by
    rw [entering_unmoved hf hu]
    exact finishWrite_alone ha rfl
  have hdrained {g : Engine} (hg : g.epoch = s.eng.epoch) :
      Drained (endEntry e .okWrite { s with eng := g }) ↔ Drained s := drained_without hT hmem hwait rfl hg
  refine ⟨_, hexec, ?rest, ?answers, fun h ha => ⟨fun n hf hu => ?opening, fun hf hu => ?commit, fun n hf hu => ?commitOpen,
    fun hf hu => ?abort⟩, fun h hd ha hf => ?silent, fun why h hd ha hf => ?dropped⟩
  case rest =>
    rw [settle_untouched, untouched_of_table (finishWrite_tableOnly e _), takeAction_untouched]
  case answers =>
    obtain ⟨before, hb⟩ := (takeAction_grows e a rule s).out
    obtain ⟨after, hafter⟩ := hanswer.out
    refine ⟨before ++ [⟨e.tag, .okWrite⟩] ++ after, ?_, by simp⟩
    rw [← hafter, List.append_assoc, ← List.append_assoc s.host.out, hb, ← List.append_assoc]
    rfl
  case opening =>
    rw [show actionFate s.eng a = _ from hf] at htaken
    generalize takeAction e a rule s = t at htaken
    cases htaken with
    | opening n hs hn =>
      rw [takeOpen_eq hn, hentered ha rfl (hs ▸ hu)]
      exact ((Over.delivered h _).header rfl).1
  case commit =>
    rw [show actionFate s.eng a = _ from hf] at htaken
    generalize takeAction e a rule s = t at htaken
    cases htaken with
    | commit hs =>
      rw [takeClose_commit, hentered ha rfl (hs ▸ hu)]
      exact (Over.delivered h { commitOpened s.eng with state := .closing }).endsEpoch (hdrained rfl) (k := .commit)
        rfl rfl rfl
  case commitOpen =>
    rw [show actionFate s.eng a = _ from hf] at htaken
    generalize takeAction e a rule s = t at htaken
    cases htaken with
    | commitOpen n hs hn =>
      rw [takeClose_commitOpen hn, hentered ha rfl (hs ▸ hu)]
      exact (Over.delivered h { commitOpenEngine n s.eng with op := .draining }).endsEpoch (hdrained rfl)
        (k := .commitOpen) rfl rfl rfl
  case abort =>
    rw [show actionFate s.eng a = _ from hf] at htaken
    generalize takeAction e a rule s = t at htaken
    cases htaken with
    | abort hs =>
      rw [takeAbort_eq, hentered (f := abortOpened) ha rfl (hs ▸ hu)]
      exact (Over.delivered h _).beginsRollback rfl rfl rfl (hdrained rfl) rfl id
  case silent =>
    rw [show actionFate s.eng a = _ from hf] at htaken
    generalize takeAction e a rule s = t at htaken
    cases htaken
    rw [finishWrite_alone ha rfl, settle_still h hd (endEntry_tableOnly _ _ _) h.2.1]
    rfl
  case dropped =>
    rw [show actionFate s.eng a = _ from hf] at htaken
    generalize takeAction e a rule s = t at htaken
    cases htaken
    rw [finishWrite_alone ha (post_table _ _),
      settle_still h hd ((post_tableOnly _ s).trans (endEntry_tableOnly _ _ _)) (by
        rw [endEntry, freeEntry_mport, respond_mport, post_mport]; exact h.2.1)]
    rfl

end Sys2Proof.Machine
end

