-- ==== Sys2Proof/Proofs/RecordTest.lean ====
section
/-! A restoration write left in the request queue for another cell can take the place of the one a tested record asks
for, so the engine need not wait for the record's own cell (R139, log entry 26; O49 is refuted). -/

namespace Sys2Proof.Machine

/-- The header slot of record 0 of the journal life and epoch the tests use: its cell is 0. -/
def soundHeader : CellData := recordHeaderBytes 5 7 0 0 0

/-- The transaction the answer belongs to. -/
def headerSlotRead : LinkRec := { op := .restoreRead 0 .header, addr := 0, issued := 0, limit := 5, wanted := true }

/-- A rollback that has read the data slot of record 0 and waits for its header slot, while the request queue holds a
restoration write for cell 1, to which a stale forward is left. -/
def crossedRestoration : State :=
  { State.reset with
    choices := { given := List.replicate 8 0, drawn := 0 }
    cfg := { Settings.reset with jbaseCell := 32, jslots := 6 }
    eng := { Engine.reset with
      state := .rolling, epoch := 7, nextEpoch := some 8, journalId := 5, op := .recordReads none (some 0)
      walk := { rollbackWalk with index := some 0 } }
    mport := { MPort.reset with
      slots := MPort.reset.slots.set 0 (.busy headerSlotRead)
        |>.set 1 (.stale { headerSlotRead with op := .forwardWrite 3 1 0 0 })
      queue := [{ op := .restoreWrite 1 0, addr := 0, fresh := false }] } }

/-- The state the answer leaves. -/
def crossedAnswer : State := memoryAnswer 0 (.ok soundHeader) crossedRestoration

theorem soundHeader_valid : recordValid 5 7 0 soundHeader 0 = true := by decide +kernel

/-- The queued restoration comes to its grant first and leaves the engine waiting for cell 1. -/
theorem crossedAnswer_op : crossedAnswer.eng.op = .restoreWait 1 0 := by decide +kernel

/-- Refutes O49: with a restoration write of another cell left in the request queue, the engine is not left waiting for
the cell of the record it has just tested. -/
theorem not_recordIsTested : ¬ Obligations.RecordIsTested := by
  unfold Obligations.RecordIsTested
  intro h
  obtain ⟨-, t, ht, -, hrestores, -⟩ := h crossedRestoration 0 headerSlotRead 0 .header none (some 0) soundHeader rfl
    (Or.inr rfl) rfl rfl rfl
  obtain ⟨-, -, hop, -⟩ := (hrestores soundHeader 0 rfl rfl (by decide)).2 soundHeader_valid
  have hanswered : t = crossedAnswer := (Host.Outcome.next.inj ht).symm
  rw [hanswered, crossedAnswer_op] at hop
  revert hop
  decide +kernel

end Sys2Proof.Machine
end

