-- ==== Sys2Proof/Proofs/Answers.lean ====
section
/-! The answer to a transaction and its leave report (R78, R139, R165), a stalled walk (R142, R155), and the answer to a
restoration write (O50). -/

namespace Sys2Proof.Machine

/-! ### The leave report -/

/-- The engine's counts once a transaction has left (R78, R139). -/
def Engine.less (op : MemOp) (g : Engine) : Engine :=
  match op with
  | .headerWrite c _ => Engine.mapHdrOut (· - 1) c g
  | .restoreWrite _ _ => { g with restoreOut := g.restoreOut - 1 }
  | _ => g

/-- Only a slot write's leave report reaches beyond the counts. -/
theorem leave_eq {op : MemOp} (h : op.slotWrite? = none) (s : State) : leave op s = setEng (Engine.less op) s := by
  cases op <;> first | rfl | cases h

theorem less_steady (op : MemOp) (g : Engine) : (g.less op).steady = g.steady := by
  cases op with
  | headerWrite c d => cases c <;> rfl
  | _ => rfl

theorem less_walk (op : MemOp) (g : Engine) : (g.less op).walk = g.walk := by
  cases op with
  | headerWrite c d => cases c <;> rfl
  | _ => rfl

theorem less_op (op : MemOp) (g : Engine) : (g.less op).op = g.op := by
  cases op with
  | headerWrite c d => cases c <;> rfl
  | _ => rfl

/-- The counts are no part of what the engine's walk and operation are set by. -/
theorem less_move (op : MemOp) (g : Engine) (w : Walk) (o : EngineOp) :
    ({ g with walk := w, op := o } : Engine).less op = { g.less op with walk := w, op := o } := by
  cases op with
  | headerWrite c d => cases c <;> rfl
  | _ => rfl

theorem less_untouched (op : MemOp) (s : State) : (setEng (Engine.less op) s).untouched = s.untouched := by
  show ({ s.untouched with engine := (s.eng.less op).steady } : Untouched) = _
  rw [less_steady]
  rfl

theorem less_grows (op : MemOp) (s : State) : Grows s (setEng (Engine.less op) s) := .of_same rfl rfl

/-! ### Requests and the engine's values -/

theorem pick_setEng (n : Nat) (f : Engine → Engine) (s : State) :
    pick n (setEng f s) = ((pick n s).1, setEng f (pick n s).2) := by
  unfold pick
  by_cases h : n ≤ 1
  · simp only [h, if_true]
  · simp only [h, if_false, setEng_choices]
    cases s.choices.given <;> rfl

/-- What the M-port is asked does not depend on the engine's values. -/
theorem enqueue_setEng (op : MemOp) (addr : Addr) (f : Engine → Engine) (s : State) :
    enqueue op addr (setEng f s) = setEng f (enqueue op addr s) := by
  simp only [enqueue, pick_setEng, setEng_mport]
  rfl

theorem readsOf_setEng (kind : RecHalf → MemOp) (k : Nat) (f : Engine → Engine) (s : State) :
    readsOf kind k (setEng f s) = setEng f (readsOf kind k s) := by
  simp only [readsOf, enqueue_setEng, setEng_cfg]

theorem setEng_setEng (f g : Engine → Engine) (s : State) : setEng f (setEng g s) = setEng (fun e => f (g e)) s := rfl

/-- A walk goes on in the same way whether the transaction before has left or not. -/
theorem walkBelow_less (op : MemOp) (n : Nat) (s : State) :
    setEng (Engine.less op) (walkBelow n s) = walkBelow n (setEng (Engine.less op) s) := by
  cases n with
  | zero =>
    simp only [walkBelow, beginFinal, needHeader, setEng_setEng, less_move, less_walk]
  | succ k =>
    simp only [walkBelow, beginRestore_eq, ← readsOf_setEng, setEng_setEng, less_move, less_walk]

/-! ### An answer -/

/-- R165: an answer frees the link slot, acts, and reports the leave. -/
theorem exec_mportAnswer {s : State} {i : LinkNo} {lr : LinkRec} (hb : s.mport.slots[i] = .busy lr)
    (hw : lr.wanted = true) (hr : Running s) (r : Answer) :
    exec (.mportAnswer i r) s =
      .next (settle (leave lr.op (deliver lr.op r { s with mport := s.mport.freed i }))) := by
  have hexec : exec (.mportAnswer i r) s = .next (memoryAnswer i r s) := unlessHeld_running hr _
  rw [hexec]
  simp only [memoryAnswer, hb, answerBusy, deliverWanted, hw, if_true]
  rfl

/-- A state over one whose link slot an answer has freed. -/
theorem Over.of_freed {b x : State} (h : AtRest b) (i : LinkNo)
    (hx : x = { b with
      mport := b.mport.freed i, eng := x.eng, table := x.table, ev := x.ev, host := { b.host with out := x.host.out } }) :
    Over { b with mport := b.mport.freed i } x where
  quiet := by
    have hq := atRest_records h
    rw [hx]
    exact hq
  mport := by rw [hx]
  idle := h.2.1
  clock := by rw [hx]
  cfg := by rw [hx]
  link := by
    rw [hx]
    exact h.2.2.1

/-! ### An operation that ends -/

/-- The engine enters a state with nothing left to do, and its last transaction has left. -/
theorem settle_entered (op : MemOp) (n : EngState) {y : State} (ho : y.eng.op = .none) :
    let t := settle (setEng (Engine.less op) (enterState n y))
    t.untouched = { y.untouched with engine := { y.eng.steady with state := n } } ∧ t.eng.walk = y.eng.walk ∧
      Grows y t := by
  have hwalk := (settle_op_none (s := setEng (Engine.less op) (enterState n y))
    (by rw [setEng_eng, less_op, enterState_eng]; exact ho)).2
  rw [setEng_eng, less_walk, enterState_eng] at hwalk
  refine ⟨?_, hwalk, ((enterState_grows n y).trans (less_grows op _)).trans (settle_grows _)⟩
  rw [settle_untouched, less_untouched, enterState_untouched]
  rfl

/-- What a stalled walk reports (R142, R155). -/
def stallNotice (cause : StallCause) (addr : Addr) (w : Walk) : NoticeBody :=
  .walkStall addr w.index (w.kind.getD .rollback) (w.phase.getD .restore) cause

/-- From the values of s the walk has stalled (R142, R155). -/
structure Stalled (s t : State) (cause : StallCause) (addr : Addr) : Prop where
  untouched : t.untouched = { s.untouched with engine := { s.eng.steady with state := .stalled } }
  walk : t.eng.walk = { s.eng.walk with stall := some cause }
  pending : classPending .stall t.ev = true
  tells : s.ev.notices.length < 16 → ∃ more, t.ev.notices = s.ev.notices ++ more ∧ ∃ n ∈ more,
    n.body = stallNotice cause addr s.eng.walk

theorem Stalled.state {s t : State} {cause : StallCause} {addr : Addr} (h : Stalled s t cause addr) :
    t.eng.state = .stalled := congrArg (fun u => u.engine.state) h.untouched

theorem settle_stallWalk (op : MemOp) (cause : StallCause) (addr : Addr) (s : State) :
    Stalled s (settle (setEng (Engine.less op) (stallWalk cause addr s))) cause addr := by
  obtain ⟨hu, hw, hg⟩ := settle_entered op .stalled (y := report .stall (stallNotice cause addr s.eng.walk) (setEng (fun g => { g with
    walk := { g.walk with stall := some cause }, op := .none }) s)) (by rw [report_eng]; rfl)
  rw [report_eng] at hu hw
  rw [report_untouched] at hu
  exact ⟨hu, hw, hg.tells.1, hg.tells.2⟩

/-- Settles O50. -/
theorem restorationIsAnswered : Obligations.RestorationIsAnswered := by
  unfold Obligations.RestorationIsAnswered
  intro s i lr k cell cell' bytes d hb hlr hw hop hk hr
  have hexec (r : Answer) : exec (.mportAnswer i r) s = .next (settle (setEng (Engine.less lr.op)
      (restoreAnswered cell (answerOk r) { s with mport := s.mport.freed i }))) := by
    rw [exec_mportAnswer hb hw hr, leave_eq (by rw [hlr]; rfl), hlr]
    rfl
  refine ⟨⟨_, hexec _, ?ok⟩, ⟨_, hexec _, ?error⟩⟩
  case ok =>
    have hgo : setEng (Engine.less lr.op) (restoreAnswered cell true { s with mport := s.mport.freed i }) =
        walkBelow k (setEng (Engine.less lr.op) { s with mport := s.mport.freed i }) := by
      rw [← walkBelow_less, restoreAnswered, hop]
      show setEng _ (walkBelow (s.eng.walk.index.getD 0) _) = _
      rw [hk, Option.getD_some]
    have hover (h : AtRest s) : Over { s with mport := s.mport.freed i }
        (setEng (Engine.less lr.op) { s with mport := s.mport.freed i }) := .of_freed h i rfl
    rw [answerOk, hgo]
    refine ⟨?_, fun m hm => ?_, fun hz => ?_⟩
    · rw [settle_untouched, walkBelow_untouched, less_untouched]
      rfl
    · subst hm
      obtain ⟨h1, h2⟩ := settle_walkBelow_succ m (setEng (Engine.less lr.op) { s with mport := s.mport.freed i })
      rw [setEng_eng, less_walk] at h2
      exact ⟨h1, h2, fun h => (hover h).walkBelow_succ m⟩
    · subst hz
      obtain ⟨h1, h2⟩ := settle_walkBelow_zero (setEng (Engine.less lr.op) { s with mport := s.mport.freed i })
      rw [setEng_eng, less_walk] at h2
      refine ⟨?_, fun h => ?_, h2⟩
      · rw [hlr] at h1 ⊢
        exact h1
      · have hsend := (hover h).walkBelow_zero
        rw [hlr] at hsend ⊢
        exact hsend
  case error =>
    have hstall : restoreAnswered cell (answerOk .error) { s with mport := s.mport.freed i } =
        stallWalk .writeFault (cellAddr cell) { s with mport := s.mport.freed i } := by
      rw [restoreAnswered, hop]
      rfl
    rw [hstall]
    have h := settle_stallWalk lr.op .writeFault (cellAddr cell) { s with mport := s.mport.freed i }
    rw [← hk]
    exact ⟨h.state, h.walk, h.pending, h.tells⟩

end Sys2Proof.Machine
end

