-- ==== Sys2Proof/Proofs/HeaderAnswers.lean ====
section
/-! A header write answered ERROR, for each purpose (R87, R92, R93, R96, R98, R142, R155, R158, R159; O47). -/

namespace Sys2Proof.Machine

/-- A header write of this purpose, answered. -/
theorem exec_headerAnswered {s : State} {i : LinkNo} {lr : LinkRec} {c : Copy} {bytes : CellData} {why : HdrPurpose}
    (hb : s.mport.slots[i] = .busy lr) (hlr : lr.op = .headerWrite c bytes) (hw : lr.wanted = true)
    (ho : s.eng.op = .headerWrite why true) (hr : Running s) (r : Answer) :
    exec (.mportAnswer i r) s = .next (settle (setEng (Engine.less lr.op) (if answerOk r = true
      then headerOk why { s with mport := s.mport.freed i }
      else headerFailed why { s with mport := s.mport.freed i }))) := by
  rw [exec_mportAnswer hb hw hr, leave_eq (by rw [hlr]; rfl), hlr]
  simp only [deliver, headerAnswered, ho]

/-- The engine is in IDLE with the values of an idle engine (R94). -/
def idleEngine (g : Engine) : Engine :=
  { g with
    state := .idle, closeKind := none, openNumber := none, nextIndex := 0, durableCount := 0
    deadlineLeft := 0, deadlineRunning := false }

theorem settle_enterIdle (op : MemOp) (s : State) :
    let t := settle (setEng (Engine.less op) (enterIdle s))
    t.untouched = { s.untouched with filter := [], engine := idleEngine s.eng.steady } ∧ Grows s t := by
  obtain ⟨hu, -, hg⟩ := settle_entered op .idle (y := idleValues s) rfl
  exact ⟨hu, hg.of_frame rfl rfl⟩

section
variable (op : MemOp) (s : State)

theorem settle_failOpening :
    let t := settle (setEng (Engine.less op) (failOpening s))
    t.untouched = { s.untouched with filter := [], engine := idleEngine { s.eng.steady with
        epoch := s.eng.openNumber.getD s.eng.epoch } } ∧
      Grows (reportHeaderFault .openHeader (setEng (fun g => { g with
        epoch := g.openNumber.getD g.epoch, openNumber := none }) s)) t := by
  obtain ⟨hu, hg⟩ := settle_enterIdle op (reportHeaderFault .openHeader (setEng (fun g => { g with
    epoch := g.openNumber.getD g.epoch, openNumber := none }) s))
  refine ⟨hu.trans ?_, hg⟩
  rw [reportHeaderFault, report_untouched, report_eng]
  rfl

theorem settle_enterFaulted (why : HeaderFaultReason) :
    let t := settle (setEng (Engine.less op) (enterFaulted why s))
    t.untouched = { s.untouched with engine := { s.eng.steady with
        state := .faulted, closeKind := none, openNumber := none } } ∧
      t.eng.walk = Walk.absent ∧
      Grows (reportHeaderFault why (setEng (fun g => { g with
        closeKind := none, openNumber := none, walk := Walk.absent, op := .none }) s)) t := by
  obtain ⟨hu, hw, hg⟩ := settle_entered op .faulted (y := reportHeaderFault why (setEng (fun g => { g with
    closeKind := none, openNumber := none, walk := Walk.absent, op := .none }) s))
    (by rw [reportHeaderFault, report_eng]; rfl)
  rw [reportHeaderFault, report_eng] at hu hw
  rw [report_untouched] at hu
  exact ⟨hu, hw, hg⟩

theorem settle_enterUnrecovered :
    let t := settle (setEng (Engine.less op) (enterUnrecovered s))
    t.untouched = { s.untouched with engine := { s.eng.steady with state := .unrecovered } } ∧
      t.eng.walk = Walk.absent ∧ Grows s t := by
  obtain ⟨hu, hw, hg⟩ := settle_entered op .unrecovered (y := setEng (fun g => { g with
    walk := Walk.absent, op := .none }) s) rfl
  exact ⟨hu, hw, hg.of_frame rfl rfl⟩

end

/-- Settles O47. -/
theorem headerFailed_asStated : Obligations.HeaderFailed := by
  unfold Obligations.HeaderFailed
  intro s i lr c bytes why hb hlr hw ho hr
  refine ⟨_, exec_headerAnswered hb hlr hw ho hr .error, fun h => ?opening, fun reason h => ?ending, fun h => ?final,
    fun reason h => ?life⟩
  case opening =>
    subst h
    obtain ⟨hu, hg⟩ := settle_failOpening lr.op { s with mport := s.mport.freed i }
    exact ⟨hg.tells, hu⟩
  case ending =>
    obtain ⟨hu, hwalk, hg⟩ := settle_enterFaulted lr.op { s with mport := s.mport.freed i } reason
    rcases h with ⟨rfl, rfl⟩ | ⟨rfl, rfl⟩ | ⟨rfl, rfl⟩ <;> exact ⟨hg.tells, hwalk, hu⟩
  case final =>
    subst h
    have h := settle_stallWalk lr.op .headerFault (slotAddr s.cfg (copySlot s.eng.nextCopy))
      { s with mport := s.mport.freed i }
    exact ⟨⟨h.pending, h.tells⟩, h.walk, h.untouched⟩
  case life =>
    obtain ⟨hu, hwalk, hg⟩ := settle_enterUnrecovered lr.op (reportHeaderFault reason { s with mport := s.mport.freed i })
    rw [reportHeaderFault, report_untouched, report_eng] at hu
    rcases h with ⟨rfl, rfl⟩ | ⟨rfl | rfl, rfl⟩ <;> exact ⟨hg.tells, hwalk, hu⟩

end Sys2Proof.Machine
end

