-- ==== Sys2Proof/Proofs/HeaderReads.lean ====
section
/-! The header reads of RECOVER and DISCARD, and what follows from them (R71, R149 to R151, R158; O48). -/

namespace Sys2Proof.Machine

section
variable {s : State} {why : HdrReader} {a b : HdrRead} (ho : s.eng.op = .headerReads why a b)
include ho

/-- An engine that has nothing left to do may not issue a header read. -/
theorem notMayRead_of_settled (h : engineSettled s = true) : ¬ MayRead a s.eng.hdrOutA ∧ ¬ MayRead b s.eng.hdrOutB := by
  rw [engineSettled, ho] at h
  simp only [Bool.and_eq_true, Bool.not_eq_true', Bool.and_eq_false_iff, beq_eq_false_iff_ne] at h
  exact ⟨fun m => h.1.2.1.elim (absurd m.1) (absurd m.2), fun m => h.1.2.2.elim (absurd m.1) (absurd m.2)⟩

section
variable (c : Copy) (d : CellData)

/-- After the first OK the other read is waited for. -/
theorem headerReadOk_first (h : (∀ x, (if c = .a then .got d else a) ≠ .got x) ∨
    ∀ x, (if c = .b then .got d else b) ≠ .got x) :
    headerReadOk c d s = setEng (fun g => { g with
      op := .headerReads why (if c = .a then .got d else a) (if c = .b then .got d else b) }) s := by
  rw [headerReadOk, ho]
  cases c with
  | a =>
    cases b with
    | got x => exact (h.elim (fun k => absurd rfl (k d)) fun k => absurd rfl (k x))
    | _ => rfl
  | b =>
    cases a with
    | got x => exact (h.elim (fun k => absurd rfl (k x)) fun k => absurd rfl (k d))
    | _ => rfl

/-- With both copies read the current header is selected. -/
theorem headerReadOk_second {x y : CellData} (hx : (if c = .a then .got d else a) = HdrRead.got x)
    (hy : (if c = .b then .got d else b) = HdrRead.got y) : headerReadOk c d s = selectHeader why x y s := by
  rw [headerReadOk, ho]
  cases c with
  | a =>
    obtain rfl := HdrRead.got.inj hx
    have hb : b = .got y := hy
    subst hb
    rfl
  | b =>
    obtain rfl := HdrRead.got.inj hy
    have ha : a = .got x := hx
    subst ha
    rfl

end
end

theorem Over.waitsForReads {r x : State} {why : HdrReader} {a b : HdrRead} (h : Over r x)
    (ho : x.eng.op = .headerReads why a b) (ha : ¬ MayRead a x.eng.hdrOutA) (hb : ¬ MayRead b x.eng.hdrOutB) :
    settle x = x := h.settled (engineSettled_of_headerReads ho ha hb h.quiet)

/-! ### The header selected -/

/-- The engine's values as the current header gives them (R150). -/
def adoptedEngine (cur : Copy) (h : CellData) (g : Engine) : Engine :=
  { g with
    journalId := hdrJournalId h, epoch := hdrEpoch h, generation := hdrGeneration h
    nextCopy := if cur = .a then .b else .a, nextEpoch := nextAfter (hdrEpoch h) }

theorem adopt_eq (cur : Copy) (h : CellData) (s : State) : adopt cur h s = setEng (adoptedEngine cur h) s := by
  cases cur <;> rfl

/-- What follows from the current header (R150, R151, R158). -/
def afterAdoption (why : HdrReader) (h : CellData) (s : State) : State :=
  match why with
  | .discard => needHeader .discard s
  | .recover =>
    match readHdrState h with
    | .clean => enterIdle (report .epochDone (.recoveryResult .clean) s)
    | .active => beginScan 0 s

theorem selectHeader_some {why : HdrReader} {x y : CellData} {s : State} {cur : Copy}
    (h : currentHeader s.cfg.jslots x y = some cur) :
    selectHeader why x y s = afterAdoption why (if cur = .a then x else y)
      (setEng (adoptedEngine cur (if cur = .a then x else y)) s) := by
  rw [selectHeader, h, ← adopt_eq]
  cases why <;> cases cur <;> rfl

/-- Settles O48. -/
theorem headersAreRead : Obligations.HeadersAreRead := by
  unfold Obligations.HeadersAreRead
  intro s i lr why c a b d hb hlr hw ho hr
  have hexec (r : Answer) : exec (.mportAnswer i r) s = .next (settle (setEng (Engine.less lr.op)
      (headerReadAnswered c r { s with mport := s.mport.freed i }))) := by
    rw [exec_mportAnswer hb hw hr, leave_eq (by rw [hlr]; rfl), hlr]
    rfl
  have hless (x : State) : setEng (Engine.less lr.op) x = x := by
    rw [hlr]
    rfl
  refine ⟨⟨_, hexec .error, ?error⟩, ⟨_, hexec (.ok d), fun h hfirst => ?first, fun x y hx hy hcur => ?none,
    fun x y hx hy cur hcur => ?some⟩⟩
  case error =>
    have hreads : headerReadAnswered c .error { s with mport := s.mport.freed i } =
        headerReadFailed c { s with mport := s.mport.freed i } := if_pos (by
      show Engine.readsHeaders s.eng = true
      rw [Engine.readsHeaders, ho])
    obtain ⟨hu, hwalk, hg⟩ := settle_entered lr.op .unrecovered (y := report .fault
      (.recoveryResult (.headerReadFault (slotAddr s.cfg (copySlot c)))) (setEng (fun g => { g with
        walk := Walk.absent, op := .none }) (disown MemOp.isHeaderRead { s with mport := s.mport.freed i })))
      (by rw [report_eng]; rfl)
    rw [report_eng] at hu hwalk
    rw [report_untouched] at hu
    rw [hreads]
    refine ⟨hu, hwalk, ?_⟩
    cases c <;> exact hg.tells
  case first =>
    obtain ⟨ha, hb'⟩ := notMayRead_of_settled ho (atRest_engine h)
    rw [hless, headerReadAnswered, headerReadOk_first (s := { s with mport := s.mport.freed i }) ho c d hfirst]
    refine (Over.of_freed h i rfl).waitsForReads rfl ?_ ?_
    · cases c with
      | a => exact fun m => HdrRead.noConfusion m.1
      | b => exact ha
    · cases c with
      | a => exact hb'
      | b => exact fun m => HdrRead.noConfusion m.1
  case none =>
    obtain ⟨hu, hwalk, hg⟩ := settle_entered lr.op .unrecovered (y := report .fault (.recoveryResult .noValidHeader)
      (setEng (fun g => { g with walk := Walk.absent, op := .none }) { s with mport := s.mport.freed i }))
      (by rw [report_eng]; rfl)
    rw [report_eng] at hu hwalk
    rw [report_untouched] at hu
    rw [headerReadAnswered, headerReadOk_second (s := { s with mport := s.mport.freed i }) ho c d hx hy, selectHeader,
      show currentHeader _ x y = none from hcur]
    exact ⟨hu, hwalk, hg.tells⟩
  case some =>
    rw [headerReadAnswered, headerReadOk_second (s := { s with mport := s.mport.freed i }) ho c d hx hy,
      selectHeader_some (s := { s with mport := s.mport.freed i }) hcur]
    generalize (if cur = .a then x else y) = h
    refine ⟨fun hwhy => ?discard, fun hwhy hclean => ?clean, fun hwhy hactive => ?active⟩
    case discard =>
      subst hwhy
      rw [hless]
      refine ⟨settle_untouched _, (settle_op_headerWrite (s := needHeader .discard _) rfl).1, fun hrest => ?_⟩
      exact (Over.header (x := needHeader .discard _) (.of_freed hrest i rfl) rfl).1
    case clean =>
      subst hwhy
      have hst : readHdrState h = .clean := if_pos hclean
      obtain ⟨hu, hg⟩ := settle_enterIdle lr.op (report .epochDone (.recoveryResult .clean)
        (setEng (adoptedEngine cur h) { s with mport := s.mport.freed i }))
      rw [report_untouched, report_eng] at hu
      rewrite [afterAdoption, hst]
      exact ⟨hu, hg.tells⟩
    case active =>
      subst hwhy
      have hst : readHdrState h = .active := if_neg hactive
      rewrite [hless, afterAdoption, hst]
      have hop := settle_op_recordReads (s := beginScan 0 (setEng (adoptedEngine cur h)
        { s with mport := s.mport.freed i })) (by rw [beginScan_eq, readsOf_eng]; rfl)
      rw [beginScan_eq, readsOf_eng] at hop
      refine ⟨(settle_untouched _).trans (beginScan_untouched _ _), hop.1, hop.2, fun hrest => ?_⟩
      exact (Over.readsRecord (.of_freed hrest i rfl) rfl (.inl rfl)).1

end Sys2Proof.Machine
end

