-- ==== Sys2Proof/Proofs/Visits.lean ====
section
/-! Visits that reach few entries (R25 to R27): an entry alone in its cell is re-examined by its verdict alone, and the
entries that are not chosen stay. -/

namespace Sys2Proof.Machine

/-- An entry that is alone in its cell has no other to give its turn to. -/
theorem reexamine_alone {s : State} {e : Entry} (he : e ∈ s.table) (ha : Alone s e) : reexamine e s = examine e s := by
  rcases examine_cases e s with ⟨st, d, ep, ht, hst, -⟩ | ⟨ht, -⟩
  · have hm : ({ e with stage := st, decision := d, epoch := ep } : Entry) ∈ (examine e s).table := by
      rw [ht]
      exact mem_putIn_self (e := { e with stage := st, decision := d, epoch := ep }) he rfl
    exact turns_stop _ _ _ (turnOf_past hm rfl (bne_iff_ne.mpr hst))
  · exact giveTurn_alone ha ht

/-- What an examination leaves of the entries of other tags. -/
theorem mem_of_examine {s : State} {e y : Entry} (hy : y ∈ (examine e s).table) (ht : y.tag ≠ e.tag) : y ∈ s.table := by
  rcases examine_cases e s with ⟨st, d, ep, h, -⟩ | ⟨h, -⟩
  · rw [h] at hy
    exact (mem_putIn hy).elim (fun hy => absurd (congrArg Entry.tag hy) ht) And.left
  · rw [h, mem_without] at hy
    exact hy.1

section
variable {p : State → Entry → Bool}

theorem visitOne_of_not {s : State} {t : Tag} (h : ∀ y, entryOf s t = some y → p s y = false) : visitOne p s t = s := by
  unfold visitOne
  split
  · rfl
  · rw [h _ ‹_›]
    rfl

theorem visitOne_of_chosen {s : State} {e : Entry} (hT : TableOk s) (he : e ∈ s.table) (hp : p s e = true)
    (hw : e.pastWaiting = true) : visitOne p s e.tag = reexamine e s := by
  rw [visitOne, entryOf_mem hT he]
  simp only [hp, hw, if_true]

/-- Tags of entries that are not chosen change nothing. -/
theorem visitAll_of_not {s : State} {tags : List Tag} (h : ∀ t ∈ tags, ∀ y, entryOf s t = some y → p s y = false) :
    tags.foldl (visitOne p) s = s := by
  induction tags with
  | nil => rfl
  | cons t tags ih =>
    rw [List.foldl_cons, visitOne_of_not (h t (List.mem_cons_self ..))]
    exact ih fun u hu => h u (List.mem_cons_of_mem _ hu)

/-- A visit that chooses one entry, alone in its cell, is its examination. -/
theorem visit_one {s : State} {e : Entry} (hT : TableOk s) (he : e ∈ s.table) (ha : Alone s e) (hp : p s e = true)
    (hw : e.pastWaiting = true) (hs : ∀ x ∈ s.table, x ≠ e → p s x = false)
    (ht : ∀ x ∈ s.table, x ≠ e → p (examine e s) x = false) : visit p s = examine e s := by
  obtain ⟨pre, post, hsplit⟩ := List.append_of_mem he
  have hnd := hT.2.1
  rw [hsplit, List.map_append, List.map_cons, List.nodup_append, List.nodup_cons] at hnd
  obtain ⟨-, ⟨hpost, -⟩, hpre⟩ := hnd
  have hother {y : Entry} (hy : y.tag ≠ e.tag) : y ≠ e := fun h => hy (congrArg Entry.tag h)
  have hfirst : (pre.map (·.tag)).foldl (visitOne p) s = s := visitAll_of_not fun t htag y hy => by
    obtain ⟨hm, rfl⟩ := entryOf_some hy
    exact hs y hm (hother (hpre _ htag _ (List.mem_cons_self ..)))
  have hlast : (post.map (·.tag)).foldl (visitOne p) (examine e s) = examine e s := visitAll_of_not fun t htag y hy => by
    obtain ⟨hm, rfl⟩ := entryOf_some hy
    have hne : y.tag ≠ e.tag := fun h => hpost (h ▸ htag)
    exact ht y (mem_of_examine hm hne) (hother hne)
  rw [visit, hsplit, List.map_append, List.map_cons, List.foldl_append, List.foldl_cons, hfirst,
    visitOne_of_chosen hT he hp hw, reexamine_alone he ha, hlast]

end

/-- At a state change that re-examines one entry, alone in its cell, that entry meets its verdict. -/
theorem enterState_one {n : EngState} {s : State} {e : Entry} (hT : TableOk s) (he : e ∈ s.table) (ha : Alone s e)
    (hc : stateChoice s.eng.state n e = true) (hw : e.pastWaiting = true)
    (ho : ∀ x ∈ s.table, x ≠ e → stateChoice s.eng.state n x = false) :
    enterState n s = examine e { s with eng := { s.eng with state := n } } :=
  visit_one (s := { s with eng := { s.eng with state := n } }) hT he ha hc hw ho ho

/-- An event that comes to one request over a base. -/
theorem Over.request {b x : State} (h : Over b x) (he : engineSettled x = true) {op : MemOp} (addr : Addr)
    (hd : deniedAtGrant b.cfg op = none) (hp : op.plain = true) :
    RequestsOne b (settle (enqueue op addr x)) op addr ∧ settle (enqueue op addr x) =
      { x with mport := (settle (enqueue op addr x)).mport, choices := (settle (enqueue op addr x)).choices } :=
  settle_enqueued h.mport h.idle h.clock h.cfg h.link he hd hp

end Sys2Proof.Machine
end

