-- ==== Sys2Proof/Proofs/HeaderLanding.lean ====
section
/-! A header write answered OK, for each purpose (R77, R87, R88, R92 to R94, R98, R141, R153, R158, R159; O46). -/

namespace Sys2Proof.Machine

/-! ### Entries into OPEN and IDLE -/

/-- What entering OPEN comes from (R88). -/
def opening (why : EpochReport) (s : State) : State := report .epochDone (.epochEvent why) (openValues s)

/-- What entering IDLE comes from (R94). -/
def idling (b : NoticeBody) (s : State) : State := idleValues (report .epochDone b s)

section
variable (s : State)

theorem opening_eng (why : EpochReport) : (opening why s).eng = (openValues s).eng := report_eng _ _ _

end

/-- The header write that leads to this report by way of IDLE. -/
def idleReport (why : HdrPurpose) (g : Engine) : Option NoticeBody :=
  match why with
  | .closeCommit => some (.epochEvent (.committed g.durableCount))
  | .walkFinal => some (walkReport g)
  | .discard => some (.recoveryResult (.discarded 0))
  | .formatSecond => some (.epochEvent .formatted)
  | _ => none

/-- The header write that leads to this report by way of OPEN. -/
def openReport (why : HdrPurpose) (g : Engine) : Option EpochReport :=
  match why with
  | .opening => some .opened
  | .closeCommitOpen => some (.commitOpened g.durableCount)
  | _ => none

theorem headerOk_idles {why : HdrPurpose} {s : State} {b : NoticeBody} (h : idleReport why s.eng = some b) :
    headerOk why s = enterState .idle (idling b (headerLanded s)) := by
  cases why <;> first | (cases h; rfl) | cases h

/-- A state over one whose link slot an answer has freed, the record queue and the orphans as they were. -/
theorem Over.of_landed {b x : State} (h : AtRest b) (i : LinkNo) (hq : x.pres.queue = b.pres.queue)
    (ho : x.pres.orphans = b.pres.orphans)
    (hx : x = { b with
      mport := b.mport.freed i, eng := x.eng, table := x.table, ev := x.ev, pres := x.pres
      host := { b.host with out := x.host.out } }) : Over { b with mport := b.mport.freed i } x where
  quiet := (Over.of_atRest (x := { x with mport := b.mport }) h hq ho rfl (by rw [hx]) (by rw [hx]) (by rw [hx])).quiet
  mport := by rw [hx]
  idle := h.2.1
  clock := by rw [hx]
  cfg := by rw [hx]
  link := by
    rw [hx]
    exact h.2.2.1

/-- What is asked is issued at once in the link slot just freed. -/
theorem issues_of_freed {s t : State} {i : LinkNo} {op : MemOp} {addr : Addr}
    (h : RequestsOne { s with mport := s.mport.freed i } t op addr) :
    Issues { s with mport := s.mport.freed i } t op addr := by
  refine h.2 (List.ne_nil_of_mem (a := i) (mem_freeSlots.mpr ?_))
  simp [MPort.freed]

/-- The state s, link slot i freed, with these values of the engine, the preservation unit and the events. -/
def landing (s : State) (i : LinkNo) (g : Engine) (p : Preservation) (ev : EventUnit) : State :=
  { s with mport := s.mport.freed i, eng := g, pres := p, ev := ev }

theorem opening_landing (s : State) (i : LinkNo) (r : EpochReport) :
    ∃ ev, opening r (headerLanded { s with mport := s.mport.freed i }) =
      landing s i (openValues (headerLanded s)).eng { s.pres with filter := [], fullReported := false } ev :=
  ⟨_, by rw [opening, report_frame]; rfl⟩

theorem idling_landing (s : State) (i : LinkNo) (b : NoticeBody) :
    ∃ ev, idling b (headerLanded { s with mport := s.mport.freed i }) =
      landing s i (idleValues (headerLanded s)).eng { s.pres with filter := [] } ev :=
  ⟨_, by rw [idling, report_frame]; rfl⟩

/-- In OPEN, with PFW deasserted, room in the journal and a place free, a write that meets no filter entry is a PRESERVE
(R31). -/
theorem verdict_of_room {s : State} {e : Entry} (hs : s.eng.state = .opened) (hk : e.kind = .write) (hj : e.cls = .journal)
    (hp : s.host.pfw = false) (hf : ∀ f ∈ s.pres.filter, f.cell ≠ e.cell) (hq : s.pres.queue.length + s.pres.claims < 8)
    (hn : s.eng.nextIndex + s.pres.claims < (s.cfg.jslots.toNat - 2) / 2) : verdict s e = .preserve := by
  have hfull : journalFull s = false := by
    rw [journalFull, Bool.not_eq_false', decide_eq_true_eq]
    exact hn
  have hmiss : filterHolds s.pres e.cell = false := by
    rw [Bool.eq_false_iff, Ne, filterHolds_iff]
    rintro ⟨f, hm, hc⟩
    exact hf f hm hc
  have hplace : placeFree s.pres = true := decide_eq_true hq
  have hmeets : meetsFull s e = false := by rw [meetsFull, hfull, Bool.and_false]
  have hheld : holdCause s e = none := by
    rw [holdCause_of_opened hk hp hj hs, hmeets]
    simp
  rw [verdict_of_write hk hheld, decision_of_opened hj hs, hmiss, hfull, hplace]
  rfl

/-- The first JOURNAL-class write of an epoch finds the journal and the record queue empty (R31). -/
theorem verdict_of_empty {s : State} {e : Entry} (hs : s.eng.state = .opened) (hk : e.kind = .write)
    (hj : e.cls = .journal) (hp : s.host.pfw = false) (hf : s.pres.filter = []) (hq : s.pres.queue = [])
    (hcl : s.pres.claims = 0) (hn : s.eng.nextIndex = 0) (hcap : 4 ≤ s.cfg.jslots.toNat) :
    verdict s e = .preserve := by
  refine verdict_of_room hs hk hj hp (by simp [hf]) (by simp [hq, hcl]) ?_
  rw [hn, hcl]
  omega

theorem verdict_of_idle_write {s : State} {e : Entry} (hs : s.eng.state = .idle) (hk : e.kind = .write)
    (hj : e.cls = .journal) (hp : s.host.pfw = false) (hd : s.cfg.barePolicy = .deny) : verdict s e = .refuse .bare := by
  rw [verdict_of_write hk (holdCause_of_still hk hp hj (.inr hs))]
  simp only [decision, hj, hs, hd]

theorem verdict_of_idle_read {s : State} {e : Entry} (hs : s.eng.state = .idle) (hk : e.kind = .read) :
    verdict s e = .issueRead := by
  have hheld : holdCause s e = none := by
    simp [holdCause, hk, hs, walkState]
  simp only [verdict, hheld, hk]

section
variable {s : State} {i : LinkNo} {e : Entry} (op : MemOp) (h : AtRest s) (hT : TableOk s) (he : e ∈ s.table)
  (ha : Alone s e) (hw : e.pastWaiting = true) {g : Engine} (hg : g.state = s.eng.state) (ho : g.op = .none)
  {p : Preservation} (hq : p.queue = s.pres.queue) (hr : p.orphans = s.pres.orphans) (ev : EventUnit) {n : EngState}
  (hc : stateChoice s.eng.state n e = true) (hothers : ∀ x ∈ s.table, x ≠ e → stateChoice s.eng.state n x = false)
include h hT he ha hw hg ho hq hr hc hothers

/-- The entry that is re-examined where the engine enters a state, and what its verdict has the M-port asked. -/
theorem settle_landing_asks {t : MemOp} (hd : deniedAtGrant s.cfg t = none) (hpl : t.plain = true) {addr : Addr}
    {v : Verdict} (hv : verdict (landing s i { g with state := n } p ev) e = v) {e' : Entry} {cl : Nat}
    (happ : applyVerdict e v (landing s i { g with state := n } p ev) =
      enqueue t addr (putEntry e' (landing s i { g with state := n } { p with claims := cl } ev))) :
    let u := settle (setEng (Engine.less op) (enterState n (landing s i g p ev)))
    u.pres = { p with claims := cl } ∧ u.table = putIn e' s.table ∧ u.host = s.host ∧
      Issues { s with mport := s.mport.freed i } u t addr := by
  have hone : enterState n (landing s i g p ev) = examine e (landing s i { g with state := n } p ev) :=
    enterState_one (s := landing s i g p ev) hT he ha (by rw [← hg] at hc; exact hc) hw (by rw [← hg] at hothers; exact hothers)
  rw [hone, examine_eq, hv, happ, ← enqueue_setEng]
  have hover : Over { s with mport := s.mport.freed i } (setEng (Engine.less op)
      (putEntry e' (landing s i { g with state := n } { p with claims := cl } ev))) := .of_landed h i hq hr rfl
  obtain ⟨hreq, hfr⟩ := hover.request (engineSettled_of_none (by rw [setEng_eng, less_op]; exact ho) hover.quiet) addr hd hpl
  refine ⟨?_, ?_, ?_, issues_of_freed hreq⟩ <;> rw [hfr] <;> rfl

/-- The entry that is re-examined where the engine enters a state, and is refused. -/
theorem settle_landing_refused {why : DenyReason} (hf : why ≠ .journalFull)
    (hv : verdict (landing s i { g with state := n } p ev) e = .refuse why) :
    let u := settle (setEng (Engine.less op) (enterState n (landing s i g p ev)))
    u.table = without e.tag s.table ∧ u.mport = s.mport.freed i ∧
      u.host = { s.host with out := s.host.out ++ [⟨e.tag, .denied⟩] } ∧ classPending .protect u.ev = true := by
  have hone : enterState n (landing s i g p ev) = examine e (landing s i { g with state := n } p ev) :=
    enterState_one (s := landing s i g p ev) hT he ha (by rw [← hg] at hc; exact hc) hw (by rw [← hg] at hothers; exact hothers)
  rw [hone, examine_eq, hv, applyVerdict, if_neg hf, denyEntry]
  have hover : Over { s with mport := s.mport.freed i } (setEng (Engine.less op) (report .protect
      (.denied e.addr e.tag why) (endEntry e .denied (landing s i { g with state := n } p ev)))) := by
    rw [report_frame]
    exact .of_landed h i hq hr rfl
  have hgrow := Grows.tells ((less_grows op (report .protect (.denied e.addr e.tag why) (endEntry e .denied
    (landing s i { g with state := n } p ev)))).trans (settle_grows _))
  refine ⟨?_, ?_, ?_, hgrow.1⟩ <;>
    rw [hover.settled (engineSettled_of_none (by rw [setEng_eng, less_op, report_eng]; exact ho) hover.quiet), report_frame] <;>
    rfl

end

/-! ### O46 -/

/-- What a walk's final header reports (R141, R145, R153, R157). -/
theorem walkReport_eq (g : Engine) :
    walkReport g = match decide (g.walk.kind = some .recovery), g.walk.discardCount with
      | true, none => .recoveryResult (.rolledBack (walkTotal g))
      | true, some n => .recoveryResult (.discarded n)
      | false, none => .epochEvent (.rolledBack (walkTotal g))
      | false, some n => .epochEvent (.discarded n) := by
  rw [walkReport]
  rcases g.walk.kind with _ | _ | _ <;> cases g.walk.discardCount <;> rfl

/-- The engine's values once the header has landed and the epoch's own are cleared. -/
def landedEngine (g : Engine) : Engine :=
  { g with
    generation := g.generation + 1, nextCopy := g.nextCopy.other, nextIndex := 0, durableCount := 0
    closeKind := none, openNumber := none }

theorem settle_opens (op : MemOp) (r : EpochReport) (s : State) :
    let t := settle (setEng (Engine.less op) (enterState .opened (opening r (headerLanded s))))
    t.untouched = { s.untouched with
        filter := []
        engine := { landedEngine s.eng.steady with
          state := .opened, epoch := s.eng.openNumber.getD s.eng.epoch
          deadlineLeft := s.cfg.deadline, deadlineRunning := decide (s.cfg.deadline ≠ 0) } } ∧
      Grows (report .epochDone (.epochEvent r) (openValues (headerLanded s))) t := by
  obtain ⟨hu, -, hg⟩ := settle_entered op .opened (y := opening r (headerLanded s)) (by rw [opening_eng]; rfl)
  have hdead : decide (s.cfg.deadline ≠ 0) = (s.cfg.deadline != 0) := by
    rw [decide_not]
    rfl
  rw [opening_eng, opening, report_untouched] at hu
  rw [hdead]
  exact ⟨hu, hg⟩

theorem settle_idles (op : MemOp) (b : NoticeBody) (s : State) :
    let t := settle (setEng (Engine.less op) (enterState .idle (idling b (headerLanded s))))
    t.untouched = { s.untouched with
        filter := []
        engine := { landedEngine s.eng.steady with state := .idle, deadlineLeft := 0, deadlineRunning := false } } ∧
      Grows (report .epochDone b (headerLanded s)) t := by
  obtain ⟨hu, hg⟩ := settle_enterIdle op (report .epochDone b (headerLanded s))
  rw [report_untouched, report_eng] at hu
  exact ⟨hu, hg⟩

/-- An entry into OPEN that re-examines none. -/
theorem settle_opens_unmoved {s : State} (op : MemOp) (i : LinkNo) (r : EpochReport) (h : AtRest s)
    (hu : Unmoved s s.eng.state .opened) :
    (settle (setEng (Engine.less op) (enterState .opened (opening r (headerLanded
      { s with mport := s.mport.freed i }))))).pres = { s.pres with filter := [], fullReported := false } := by
  obtain ⟨ev, hl⟩ := opening_landing s i r
  have hmoved : enterState .opened (landing s i (openValues (headerLanded s)).eng _ ev) = landing s i
      { (openValues (headerLanded s)).eng with state := .opened } { s.pres with filter := [], fullReported := false } ev :=
    enterState_of_unmoved hu
  have hover : Over { s with mport := s.mport.freed i } (setEng (Engine.less op) (landing s i
      { (openValues (headerLanded s)).eng with state := .opened } { s.pres with filter := [], fullReported := false } ev)) :=
    .of_landed h i rfl rfl rfl
  rw [hl, hmoved, hover.settled (engineSettled_of_none (by rw [setEng_eng, less_op]; rfl) hover.quiet)]
  rfl

/-- Settles O46. -/
theorem headerAcknowledged : Obligations.HeaderAcknowledged := by
  unfold Obligations.HeaderAcknowledged
  intro s i lr c bytes d why hb hlr hw ho hr w total reported landed going freed opens idles only counted
  have hexec : exec (.mportAnswer i (.ok d)) s = .next (settle (setEng (Engine.less lr.op) (headerOk why freed))) :=
    exec_headerAnswered hb hlr hw ho hr (.ok d)
  have hopen (h : opens) : ∃ r, openReport why s.eng = some r ∧
      headerOk why freed = enterState .opened (opening r (headerLanded freed)) := by
    rcases h with rfl | rfl <;> exact ⟨_, rfl, rfl⟩
  have hidle (h : idles) : ∃ b, idleReport why s.eng = some b ∧
      headerOk why freed = enterState .idle (idling b (headerLanded freed)) := by
    rcases h with rfl | rfl | rfl | rfl <;> exact ⟨_, rfl, rfl⟩
  refine ⟨_, hexec, fun h => ?opensUntouched, fun h hrest hun => ?opensPres, fun h e he honly hst hk hj hp hq hcl hcap =>
    ?opensOne, fun h => ?idlesUntouched, fun h e he honly hst hk hj hp hpol => ?idlesWrite,
    fun h e he honly hst hk => ?idlesRead, fun h => ?reassert, fun h => ?format, fun b hrep => ?report⟩
  case opensUntouched =>
    obtain ⟨r, -, hgo⟩ := hopen h
    rw [hgo]
    exact (settle_opens lr.op r freed).1
  case opensPres =>
    obtain ⟨r, -, hgo⟩ := hopen h
    rw [hgo]
    exact settle_opens_unmoved lr.op i r hrest hun
  case opensOne =>
    obtain ⟨r, -, hgo⟩ := hopen h
    obtain ⟨hrest, hT, ha, hothers⟩ := honly
    obtain ⟨since, hst⟩ := hst
    obtain ⟨ev, hl⟩ := opening_landing s i r
    rw [hgo, hl]
    obtain ⟨h1, h2, -, h4⟩ := settle_landing_asks lr.op hrest hT he ha (by rw [Entry.pastWaiting, hst]; rfl)
      (g := (openValues (headerLanded s)).eng) rfl rfl (p := { s.pres with filter := [], fullReported := false }) rfl rfl ev
      (by rw [stateChoice, hst]; rfl) hothers (t := .oldRead e.tag e.cell) rfl rfl
      (verdict_of_empty rfl hk hj hp rfl hq hcl rfl hcap) (cl := s.pres.claims + 1) rfl
    rw [hcl] at h1
    exact ⟨h1, h2, h4⟩
  case idlesUntouched =>
    obtain ⟨b, -, hgo⟩ := hidle h
    rw [hgo]
    exact (settle_idles lr.op b freed).1
  case idlesWrite =>
    obtain ⟨b, -, hgo⟩ := hidle h
    obtain ⟨hrest, hT, ha, hothers⟩ := honly
    obtain ⟨since, hst⟩ := hst
    obtain ⟨ev, hl⟩ := idling_landing s i b
    rw [hgo, hl]
    obtain ⟨h1, h2, h3, h4⟩ := settle_landing_refused lr.op hrest hT he ha (by rw [Entry.pastWaiting, hst]; rfl)
      (g := (idleValues (headerLanded s)).eng) rfl rfl (p := { s.pres with filter := [] }) rfl rfl ev
      (by rw [stateChoice, hst]; rfl) hothers (why := .bare) DenyReason.noConfusion
      (verdict_of_idle_write rfl hk hj hp hpol)
    exact ⟨h1, h2, h3, h4⟩
  case idlesRead =>
    obtain ⟨b, -, hgo⟩ := hidle h
    obtain ⟨hrest, hT, ha, hothers⟩ := honly
    obtain ⟨since, hst⟩ := hst
    obtain ⟨ev, hl⟩ := idling_landing s i b
    rw [hgo, hl]
    obtain ⟨-, h2, h3, h4⟩ := settle_landing_asks lr.op hrest hT he ha (by rw [Entry.pastWaiting, hst]; rfl)
      (g := (idleValues (headerLanded s)).eng) rfl rfl (p := { s.pres with filter := [] }) rfl rfl ev
      (by rw [stateChoice, hst]; rfl) hothers (t := .forwardRead e.tag e.cell e.first e.count) rfl rfl
      (v := .issueRead) (verdict_of_idle_read rfl hk) (cl := s.pres.claims) rfl
    exact ⟨h2, h3, h4⟩
  case reassert =>
    subst h
    have hgo : setEng (Engine.less lr.op) (headerOk .reassert freed) =
        walkBelow (walkTotal s.eng) (setEng (Engine.less lr.op) (headerLanded freed)) := (walkBelow_less ..)
    have hover (hrest : AtRest s) : Over freed (setEng (Engine.less lr.op) (headerLanded freed)) := .of_freed hrest i rfl
    have heng : (setEng (Engine.less lr.op) (headerLanded freed)).eng = going := by rw [hlr]; rfl
    have hwalk : (setEng (Engine.less lr.op) (headerLanded freed)).eng.walk = w := by rw [setEng_eng, less_walk]; rfl
    have htotal : walkTotal s.eng = total := walkTotal_eq s.eng
    rw [hgo, htotal]
    refine ⟨?_, fun hz => ?_, fun k hk => ?_⟩
    · rw [settle_untouched, walkBelow_untouched, less_untouched]
      rfl
    · rw [hz]
      obtain ⟨h1, h2⟩ := settle_walkBelow_zero (setEng (Engine.less lr.op) (headerLanded freed))
      rw [hwalk] at h2
      rw [heng] at h1
      refine ⟨h1, fun hrest => ?_, h2⟩
      have hsend := (hover hrest).walkBelow_zero
      rw [heng] at hsend
      exact hsend
    · rw [hk]
      obtain ⟨h1, h2⟩ := settle_walkBelow_succ k (setEng (Engine.less lr.op) (headerLanded freed))
      rw [hwalk] at h2
      exact ⟨h1, h2, fun hrest => (hover hrest).walkBelow_succ k⟩
  case format =>
    subst h
    have hgo : setEng (Engine.less lr.op) (headerOk .formatFirst freed) =
        needHeader .formatSecond (setEng (Engine.less lr.op) (headerLanded freed)) := by rw [hlr]; cases c <;> rfl
    have heng : (setEng (Engine.less lr.op) (headerLanded freed)).eng = going := by rw [hlr]; rfl
    rw [hgo]
    refine ⟨?_, ?_, fun hrest => ?_⟩
    · rw [settle_untouched]
      exact less_untouched lr.op (headerLanded freed)
    · have h := (settle_op_headerWrite (s := needHeader .formatSecond (setEng (Engine.less lr.op) (headerLanded freed))) rfl).1
      rw [needHeader_eng, heng] at h
      exact h
    · have h := (Over.header (x := needHeader .formatSecond (setEng (Engine.less lr.op) (headerLanded freed)))
        (.of_freed hrest i rfl) rfl).1
      rw [needHeader_eng, heng] at h
      exact h
  case report =>
    by_cases h : opens
    · obtain ⟨r, hr, hgo⟩ := hopen h
      rw [hgo]
      have hb : b = .epochEvent r := by
        rcases h with rfl | rfl <;> cases hr <;> exact (Option.some.inj hrep).symm
      exact hb ▸ (settle_opens lr.op r freed).2.tells
    · have hi : idleReport why s.eng = some b := by
        cases why with
        | opening => exact absurd (.inl rfl) h
        | closeCommitOpen => exact absurd (.inr rfl) h
        | reassert => exact absurd hrep.symm (Option.some_ne_none b)
        | formatFirst => exact absurd hrep.symm (Option.some_ne_none b)
        | walkFinal => rw [idleReport, walkReport_eq, walkTotal_eq]; exact hrep
        | _ => exact hrep
      have hgo : headerOk why freed = enterState .idle (idling b (headerLanded freed)) := headerOk_idles hi
      rw [hgo]
      exact (settle_idles lr.op b freed).2.tells

end Sys2Proof.Machine
end

