-- ==== Sys2Proof/Proofs/SlotWriteRequests.lean ====
section
/-! The two slot writes of a record are requested together (R46, R47, R164; O52). -/

namespace Sys2Proof.Machine

theorem exec_recordSlotWritesRequest {s : State} (hr : Running s) {k : Nat} {r : RecElem}
    (hf : s.pres.queue.find? (fun x => x.index == k) = some r) :
    exec (.recordSlotWritesRequest k) s = .next (settle (requestIfClear s r)) := by
  have hexec : exec (.recordSlotWritesRequest k) s = execRecordSlotWritesRequest k s := rfl
  rw [hexec, execRecordSlotWritesRequest, unlessHeld_running hr]
  simp only [hf]

/-- A record whose slot writes are requested has none left to request. -/
theorem quiet_markRequested {q : List RecElem} (k : Nat) (p : Preservation)
    (h : ∀ x ∈ q, x.index ≠ k → x.requested = true) : (markRequested k q).any (mayRequest p) = false := by
  rw [markRequested, List.any_map, List.any_eq_false]
  intro x hx
  simp only [Function.comp_apply, mayRequest]
  by_cases hk : x.index = k
  · simp [hk]
  · simp [hk, h x hx hk]

/-- What the slot writes of the one record not yet requested come to, over the M-port of b (R47, R164). -/
theorem settle_requestSlots {s b : State} {r : RecElem} (hm : s.mport = b.mport) (hb : b.mport.queue = [])
    (hc : s.clock = b.clock) (hg : s.cfg = b.cfg) (hl : s.host.link = []) (ho : s.eng.op = .none)
    (hq : ∀ x ∈ s.pres.queue, x.index ≠ r.index → x.requested = true) :
    WritesRecord b (settle (requestSlots r s)) r ∧ settle (requestSlots r s) = { s with
      pres := { s.pres with queue := markRequested r.index s.pres.queue }
      mport := (settle (requestSlots r s)).mport, choices := (settle (requestSlots r s)).choices } := by
  have he : engineSettled { s with pres := { s.pres with queue := markRequested r.index s.pres.queue } } = true :=
    engineSettled_of_none ho (quiet_markRequested r.index _ hq)
  obtain ⟨hpair, hfr⟩ := settle_pair
    (p := (.slotWrite r.index .header (recordBytes r .header), slotAddr s.cfg (recordSlot r.index .header)))
    (q := (.slotWrite r.index .data (recordBytes r .data), slotAddr s.cfg (recordSlot r.index .data)))
    (selfSteps_of_engineSettled (s := requestSlots r s) (by
      rw [requestSlots, engineSettled_enqueue, engineSettled_enqueue]; exact he))
    hm hb hc hg he hl rfl rfl rfl rfl
  rw [hg] at hpair
  exact ⟨hpair, hfr⟩

/-- Settles O52. -/
theorem slotWritesAreRequested : Obligations.SlotWritesAreRequested := by
  unfold Obligations.SlotWritesAreRequested
  intro s r hr
  refine ⟨fun hq hl ho hf hreq hh hd hrest => ?asked, fun k h => ?rests⟩
  case asked =>
    have hclear : mayRequest s.pres r = true := by
      rw [mayRequest, hreq, (slotsClear_iff s.pres r.index).mpr ⟨hh, hd⟩]
      rfl
    obtain ⟨hw, hfr⟩ := settle_requestSlots (b := s) rfl hq rfl rfl hl ho hrest
    refine ⟨_, exec_recordSlotWritesRequest hr hf, ?_⟩
    rw [requestIfClear, if_pos hclear]
    exact ⟨hfr, hw⟩
  case rests =>
    cases hf : s.pres.queue.find? (fun x => x.index == k) with
    | none =>
      have hexec : exec (.recordSlotWritesRequest k) s = execRecordSlotWritesRequest k s := rfl
      rw [hexec, execRecordSlotWritesRequest, unlessHeld_running hr]
      simp only [hf]
    | some x =>
      have hmay : ¬ mayRequest s.pres x = true := List.any_eq_false.mp (atRest_records h) x (List.mem_of_find?_eq_some hf)
      rw [exec_recordSlotWritesRequest hr hf, requestIfClear, if_neg hmay, settle_of_atRest h]

end Sys2Proof.Machine
end

