-- ==== Sys2Proof/Proofs/Grants.lean ====
section
/-! The grant of the oldest request (R9, R78, R139, R163, R164, R168; O53). -/

namespace Sys2Proof.Machine

theorem quiet_of_engineSettled {s : State} (h : engineSettled s = true) : RecordsQuiet s := by
  rw [engineSettled, Bool.and_eq_true, Bool.not_eq_true'] at h
  exact h.2

/-- No rule keeps this request from its grant (R9, R139). -/
structure Grantable (s : State) (op : MemOp) : Prop where
  allowed : deniedAtGrant s.cfg op = none
  ready : waitsAtGrant s op = none

theorem Grantable.of {s : State} {op : MemOp}
    (hd : ∀ tag cell st bytes, op = .forwardWrite tag cell st bytes → ¬ inJournalArea s.cfg cell = true)
    (hw : ∀ cell bytes, op = .restoreWrite cell bytes → ¬ (s.eng.restoreOut ≠ 0 ∨ staleForwardTo s.mport cell = true)) :
    Grantable s op where
  allowed := by
    cases op with
    | forwardWrite tag cell st bytes => exact if_neg (hd tag cell st bytes rfl)
    | _ => rfl
  ready := by
    cases op with
    | restoreWrite cell bytes =>
      have h := hw cell bytes rfl
      rw [not_or, not_not, Bool.not_eq_true] at h
      unfold waitsAtGrant
      split
      · cases ‹MemOp.restoreWrite cell bytes = _›
        exact if_pos h
      · rfl
    | _ => rfl

/-- What a grant's event comes to: as many as there are link slots are issued, the rest waits (R164). -/
structure Issued (b t : State) (r : MemRequest) (rest : List MemRequest) : Prop where
  issues : IssuesLeaving b t r.op r.addr (rest.map (fun y => { y with fresh := false }))
  frame : t = { b with eng := (countIssued r.op b).eng, mport := t.mport, choices := t.choices }

theorem issued_closeEvent {b s : State} {r : MemRequest} {rest q : List MemRequest} {i : LinkNo} {cs : Choices}
    (hs : s = { b with mport := { b.mport with queue := q } }) (hi : b.mport.slots[i] = .free) :
    Issued b (closeEvent (issuedLeaving s r rest i cs)) r rest := by
  subst hs
  refine ⟨⟨i, hi, ?_⟩, ?_⟩
  · rw [closeEvent_mport, issuedLeaving_mport]
    rfl
  · rw [closeEvent, issuedLeaving_frame, countIssued_frame]
    cases r.op <;> rfl

/-- After a grant of the last request, or in the last link slot, no more is granted. -/
theorem granted_last {s : State} {r : MemRequest} {rest : List MemRequest} {i : LinkNo} {cs : Choices}
    (hi : s.mport.slots[i] = .free) (hlast : rest = [] ∨ (freeSlots s.mport).length = 1) :
    let u := issuedLeaving s r rest i cs
    (u.mport.queue = [] ∨ freeSlots u.mport = []) ∧ grants rest.length u = u := by
  intro u
  have hu := issuedLeaving_mport s r rest i cs
  rcases hlast with rfl | hone
  · exact ⟨.inl (by rw [hu]), rfl⟩
  · have hnone : freeSlots u.mport = [] := by
      have h := freeSlots_issued hi (granted s r.op r.addr) rest (s.mport.out ++ [{ slot := i, op := r.op, addr := r.addr }])
      rw [← hu, hone] at h
      exact List.length_eq_zero_iff.mp (Nat.succ.inj h)
    exact ⟨.inr hnone, grants_of_noFree hnone _⟩

/-- A grant that issues, then nothing more. -/
theorem settle_grantOne {s : State} {r : MemRequest} {rest : List MemRequest} (hq : s.mport.queue = r :: rest)
    (hf : freeSlots s.mport ≠ []) (he : engineSettled s = true) (hl : s.host.link = []) (hg : Grantable s r.op)
    (hlast : rest = [] ∨ (freeSlots s.mport).length = 1) : Issued s (settle (grantOne s)) r rest := by
  obtain ⟨i, cs, hi, hone⟩ := grantOne_issues hq hf hg.allowed hg.ready
  obtain ⟨hdone, hgrants⟩ := granted_last (r := r) (cs := cs) hi hlast
  have he' : engineSettled (issuedLeaving s r rest i cs) = true := engineSettled_issuedLeaving he hi
  have hlink : (issuedLeaving s r rest i cs).host.link = [] := by rw [issuedLeaving_frame]; exact hl
  rw [hone, settle_of_grants (selfSteps_of_engineSettled he') (by rw [issuedLeaving_mport]; exact hgrants) he' hdone hlink]
  exact issued_closeEvent rfl hi

section
variable {s : State} (hf : freeSlots s.mport ≠ []) (he : engineSettled s = true) (hl : s.host.link = [])
include hf he hl

/-- A forward that comes to its grant in the journal area, its write alone in its cell (R9). -/
theorem settle_denied {r : MemRequest} (hq : s.mport.queue = [r]) (hr : Running s) {e : Entry}
    (hd : deniedAtGrant s.cfg r.op = some e.tag) (hent : entryOf s e.tag = some e) (hst : e.stage = .issued)
    (ha : Alone s e) (hdr : s.eng.op ≠ .draining) :
    settle (grantOne s) = denyEntry e .journalArea { s with mport := { s.mport with queue := [] } } := by
  obtain ⟨f, fs, hfs⟩ := List.exists_cons_of_ne_nil hf
  have hone : grantOne s = denyEntry e .journalArea { s with mport := { s.mport with queue := [] } } := by
    have hdeny : denyAtGrant e.tag { s with mport := { s.mport with queue := [] } } =
        denyEntry e .journalArea { s with mport := { s.mport with queue := [] } } := by
      have hent' : entryOf { s with mport := { s.mport with queue := [] } } e.tag = some e := hent
      simp only [denyAtGrant, hent', hst, if_true]
      exact giveTurn_alone ha (denyEntry_table e .journalArea _)
    rw [← hdeny, grantOne, hq, hfs]
    dsimp only
    rw [hd]
  have ho := denyEntry_tableOnly e .journalArea { s with mport := { s.mport with queue := [] } }
  have hidle : (denyEntry e .journalArea { s with mport := { s.mport with queue := [] } }).mport.queue = [] := by
    rw [denyEntry, report_mport]
    rfl
  rw [hone]
  exact settle_of_engine (engineSettled_of he ho.eng ho.slots ho.queue ho.orphans fun h => absurd h hdr) hidle
    (ho.link.trans hl) (ho.held.trans hr)

/-- The engine waits with its restoration, and the rest of the queue waits on (R139). -/
def withheld (cell : CellIx) (bytes : CellData) (rest : List MemRequest) (s : State) : State :=
  { s with eng := { s.eng with op := .restoreWait cell bytes }, mport := { s.mport with queue := rest } }

section
variable {r : MemRequest} {rest : List MemRequest} {cell : CellIx} {bytes : CellData} (hq : s.mport.queue = r :: rest)
  (hr : r.op = .restoreWrite cell bytes) (ho : s.eng.op = .restoreIssued cell)
  (hw : s.eng.restoreOut ≠ 0 ∨ staleForwardTo s.mport cell = true)
include hq hr ho hw

omit he hl in
theorem grantOne_withholds : grantOne s = withheld cell bytes rest s := by
  obtain ⟨f, fs, hfs⟩ := List.exists_cons_of_ne_nil hf
  have hno : ¬ (s.eng.restoreOut = 0 ∧ staleForwardTo s.mport cell = false) := fun h =>
    hw.elim (absurd h.1) fun hst => Bool.noConfusion (h.2.symm.trans hst)
  have hwait : waitsAtGrant s r.op = some (.restoreWait cell bytes) := by
    simp only [hr, waitsAtGrant, ho, if_neg hno]
  have hd : deniedAtGrant s.cfg r.op = none := by
    rw [hr]
    rfl
  rw [grantOne, hq, hfs]
  dsimp only
  rw [hd, hwait]
  rfl

omit hf hl hq hr ho in
theorem engineSettled_withheld (q : List MemRequest) : engineSettled (withheld cell bytes q s) = true :=
  engineSettled_of_restoreWait (s := withheld cell bytes q s) rfl hw (quiet_of_engineSettled (s := s) he)

/-- A restoration that has to wait, alone in the queue. -/
theorem settle_withheld (hrest : rest = []) : settle (grantOne s) = withheld cell bytes [] s := by
  rw [grantOne_withholds hf hq hr ho hw, hrest,
    settle_of_grants (selfSteps_of_engineSettled (engineSettled_withheld he hw [])) rfl (engineSettled_withheld he hw [])
      (.inl rfl) hl]
  rfl

/-- A restoration that has to wait, and the request behind it, which takes its link slot (log entry 26). -/
theorem settle_withheld_next {x : MemRequest} {more : List MemRequest} (hrest : rest = x :: more)
    (hx : ∀ cell bytes, x.op ≠ .restoreWrite cell bytes) (hd : deniedAtGrant s.cfg x.op = none)
    (hlast : more = [] ∨ (freeSlots s.mport).length = 1) :
    Issued (withheld cell bytes [] s) (settle (grantOne s)) x more := by
  have hready : waitsAtGrant (withheld cell bytes (x :: more) s) x.op = none := by
    cases hop : x.op with
    | restoreWrite c d => exact absurd hop (hx c d)
    | _ => rfl
  obtain ⟨i, cs, hi, hone⟩ := grantOne_issues (s := withheld cell bytes (x :: more) s) rfl hf hd hready
  obtain ⟨hdone, hgrants⟩ := granted_last (r := x) (cs := cs) hi hlast
  have he' := engineSettled_withheld (bytes := bytes) he hw (x :: more)
  have hi' := engineSettled_issuedLeaving (rest := more) (r := x) (cs := cs) he' hi
  have hlink : (issuedLeaving (withheld cell bytes (x :: more) s) x more i cs).host.link = [] := by
    rw [issuedLeaving_frame]
    exact hl
  rw [grantOne_withholds hf hq hr ho hw, hrest, settle_of_grants (selfSteps_of_engineSettled he')
    (show grants more.length (grantOne _) = _ by rw [hone]; exact hgrants) hi' hdone hlink]
  exact issued_closeEvent rfl hi

end
end

/-- Settles O53. -/
theorem oldestRequestIsGranted : Obligations.OldestRequestIsGranted := by
  unfold Obligations.OldestRequestIsGranted
  intro s r rest hr hq hl hf hset inArea held grantable grants
  have hexec : exec .mportGrant s = .next (settle (grantOne s)) := unlessHeld_running hr _
  have he : engineSettled s = true := by
    rw [settled_eq, Bool.and_eq_true, Bool.and_eq_true] at hset
    exact hset.1.1
  have hcount (x : MemRequest) (b : State) : (countIssued x.op b).eng = match x.op with
      | .headerWrite c _ => Engine.mapHdrOut (· + 1) c b.eng
      | .restoreWrite _ _ => { b.eng with restoreOut := b.eng.restoreOut + 1 }
      | _ => b.eng := by
    cases x.op <;> rfl
  have hgrants {u : State} {x : MemRequest} {left : List MemRequest} (h : Issued u (settle (grantOne s)) x left) :
      grants u x left := by
    have hframe := h.frame
    rw [hcount] at hframe
    exact ⟨_, hexec, h.issues, hframe⟩
  refine ⟨fun hg hlast => hgrants (settle_grantOne hq hf he hl (.of hg.1 hg.2) hlast),
    fun e cell st bytes hop harea hnil hent hst ha hd => ?denied, fun cell bytes hop ho hheld => ⟨fun hnil => ?alone,
      fun x more hmore hx hg hlast => hgrants (settle_withheld_next hf he hl hq hop ho hheld hmore hx
        (Grantable.of hg.1 hg.2).allowed hlast)⟩⟩
  case denied =>
    rw [hexec, settle_denied hf he hl (by rw [hq, hnil]) hr (by rw [hop]; exact if_pos harea) hent hst ha hd]
    rfl
  case alone =>
    rw [hexec, settle_withheld hf he hl hq hop ho hheld hnil]
    rfl

end Sys2Proof.Machine
end

