-- ==== Sys2Proof/Proofs/Holds.lean ====
section
/-! Holds that expire, alone or at a write of HOLD_LIMIT, and holds that a change of the full policy ends (R26, R28, R29,
R35, R173, R187; O38, O12, O11). -/

namespace Sys2Proof.Machine

/-! ### One hold -/

theorem expiredHold_held {s : State} {e : Entry} {c : HoldCause} {since : W32} (hst : e.stage = .held c since) :
    expiredHold s e = if s.cfg.tickdiv ≠ 0 ∧ s.cfg.holdLimit ≠ 0 ∧
      s.cfg.holdLimit.toNat ≤ (s.clock.timebase - since).toNat then some c else none := by
  simp only [expiredHold, hst, timersRun, elapsed, bne_iff_ne, decide_eq_true_eq]

theorem expiredHold_not_held {s : State} {e : Entry} (h : ∀ c since, e.stage ≠ .held c since) : expiredHold s e = none := by
  unfold expiredHold
  split
  · exact absurd ‹_› (h _ _)
  · rfl

/-- The entry is answered FAILED and freed, with its notice and its class (R28). -/
def failHold (e : Entry) (c : HoldCause) (s : State) : State :=
  report .holdExpired (.holdExpired e.addr e.tag c) (endEntry e .failed s)

theorem failHold_tableOnly (e : Entry) (c : HoldCause) (s : State) : TableOnly s (failHold e c s) :=
  (endEntry_tableOnly e .failed s).trans (report_tableOnly _ _ _)

theorem failHold_table (e : Entry) (c : HoldCause) (s : State) : (failHold e c s).table = without e.tag s.table := by
  rw [failHold, report_table, endEntry_table]

theorem failHold_pres (e : Entry) (c : HoldCause) (s : State) : (failHold e c s).pres = s.pres := by
  rw [failHold, report_pres, endEntry_pres]

theorem failHold_mport (e : Entry) (c : HoldCause) (s : State) : (failHold e c s).mport = s.mport := by
  rw [failHold, report_mport]
  rfl

theorem expireHold_alone {s : State} {e : Entry} (ha : Alone s e) (c : HoldCause) : expireHold e c s = failHold e c s :=
  giveTurn_alone ha (failHold_table e c s)

theorem dueHold_eq {s : State} {e : Entry} (he : entryOf s e.tag = some e) :
    dueHold s e.tag = (expiredHold s e).map (fun c => (e, c)) := by
  simp only [dueHold, he]
  cases expiredHold s e <;> rfl

/-- Settles O38. -/
theorem holdExpires : Obligations.HoldExpires := by
  unfold Obligations.HoldExpires
  intro s e c since he hst due
  have hdue : dueHold s e.tag = if due then some (e, c) else none := by
    rw [dueHold_eq he, expiredHold_held hst]
    by_cases h : due
    · rw [if_pos h, if_pos h]; rfl
    · rw [if_neg h, if_neg h]; rfl
  have hexec : exec (.holdExpiry e.tag) s = execHoldExpiry e.tag s := rfl
  refine ⟨fun hd h hdr ha => ?due, fun hd => ?not⟩
  case due =>
    rw [if_pos hd] at hdue
    rw [hexec, execHoldExpiry, unlessHeld_running h.2.2.2]
    simp only [hdue, expireHold_alone ha]
    rw [settle_still h hdr (failHold_tableOnly e c s) ((congrArg MPort.queue (failHold_mport e c s)).trans h.2.1)]
    rfl
  case not =>
    rw [if_neg hd] at hdue
    rw [hexec, execHoldExpiry]
    simp only [hdue, unlessHeld, ite_self]

/-! ### A sweep that ends entries -/

/-- From u to x some of the entries chosen have ended, and nothing else the machine goes on by has changed. -/
structure Swept (chosen : Entry → Bool) (u x : State) : Prop where
  only : TableOnly u x
  pres : x.pres = u.pres
  mport : x.mport = u.mport
  within : ∀ y ∈ x.table, y ∈ u.table
  kept : ∀ y ∈ u.table, chosen y = false → y ∈ x.table

section
variable {chosen : Entry → Bool} {u : State}

theorem Swept.refl : Swept chosen u u := ⟨.refl u, rfl, rfl, fun _ h => h, fun _ h _ => h⟩

theorem Swept.remove {x t : State} (h : Swept chosen u x) (hT : TableOk u) {e : Entry} (he : e ∈ u.table)
    (hc : chosen e = true) (ho : TableOnly x t) (hp : t.pres = x.pres) (hm : t.mport = x.mport)
    (ht : t.table = without e.tag x.table) : Swept chosen u t where
  only := h.only.trans ho
  pres := hp.trans h.pres
  mport := hm.trans h.mport
  within y hy := by
    rw [ht, mem_without] at hy
    exact h.within y hy.1
  kept y hy hn := by
    rw [ht, mem_without]
    refine ⟨h.kept y hy hn, fun htag => ?_⟩
    rw [entry_eq_of_tag hT.2.1 hy he htag, hc] at hn
    cases hn

theorem Swept.entryOf {x : State} (h : Swept chosen u x) (hT : TableOk u) {e : Entry} (he : e ∈ x.table) :
    entryOf x e.tag = some e := by
  cases hx : Machine.entryOf x e.tag with
  | none => exact absurd rfl (entryOf_none hx e he)
  | some y =>
    obtain ⟨hy, htag⟩ := entryOf_some hx
    rw [entry_eq_of_tag hT.2.1 (h.within y hy) (h.within e he) htag]

theorem Swept.alone {x : State} (h : Swept chosen u x) {e : Entry} (ha : Alone u e) : Alone x e :=
  fun y hy hc => ha y (h.within y hy) hc

/-- One tag after another, in admission order: a sweep whose steps end the entries chosen. -/
theorem sweep {f : State → Tag → State} {g : State → Entry → State} (hT : TableOk u)
    (hstep : ∀ x e, Swept chosen u x → e ∈ u.table → e ∈ x.table → f x e.tag = if chosen e then g x e else x)
    (hend : ∀ x e, Swept chosen u x → e ∈ u.table → chosen e = true →
      TableOnly x (g x e) ∧ (g x e).pres = x.pres ∧ (g x e).mport = x.mport ∧ (g x e).table = without e.tag x.table) :
    (u.table.map (·.tag)).foldl f u = (u.table.filter chosen).foldl g u ∧
      Swept chosen u ((u.table.filter chosen).foldl g u) := by
  suffices h : ∀ l : List Entry, (l.map (·.tag)).Nodup → (∀ e ∈ l, e ∈ u.table) → ∀ x, Swept chosen u x →
      (∀ e ∈ l, e ∈ x.table) → (l.map (·.tag)).foldl f x = (l.filter chosen).foldl g x ∧
        Swept chosen u ((l.filter chosen).foldl g x) from
    h u.table hT.2.1 (fun _ h => h) u .refl fun _ h => h
  intro l
  induction l with
  | nil => exact fun _ _ x hx _ => ⟨rfl, hx⟩
  | cons e l ih =>
    intro hn hl x hx hmem
    rw [List.map_cons, List.nodup_cons] at hn
    have he := hl e (List.mem_cons_self ..)
    have hrest : ∀ y ∈ l, y ∈ x.table := fun y hy => hmem y (List.mem_cons_of_mem _ hy)
    have hl' : ∀ y ∈ l, y ∈ u.table := fun y hy => hl y (List.mem_cons_of_mem _ hy)
    rw [List.map_cons, List.foldl_cons, hstep x e hx he (hmem e (List.mem_cons_self ..)), List.filter_cons]
    by_cases hc : chosen e = true
    · rw [if_pos hc, if_pos hc, List.foldl_cons]
      obtain ⟨ho, hp, hm, ht⟩ := hend x e hx he hc
      refine ih hn.2 hl' _ (hx.remove hT he hc ho hp hm ht) fun y hy => ?_
      rw [ht, mem_without]
      exact ⟨hrest y hy, fun htag => hn.1 (htag ▸ List.mem_map_of_mem hy)⟩
    · rw [if_neg hc, if_neg hc]
      exact ih hn.2 hl' x hx hrest

/-- After a sweep that ends no write a drain waits for, nothing is left to happen. -/
theorem Swept.settle {x : State} (h : Swept chosen u x) (hu : AtRest u)
    (hd : ∀ e ∈ u.table, chosen e = true → ¬ DrainWaitsFor u e) : settle x = x := by
  refine settle_of_engine (engineSettled_of (atRest_engine hu) h.only.eng h.only.slots h.only.queue h.only.orphans
    fun _ hx => (drained_iff u).mp fun e he hw => ?_) ((congrArg MPort.queue h.mport).trans hu.2.1)
    (h.only.link.trans hu.2.2.1) (h.only.held.trans hu.2.2.2)
  by_cases hc : chosen e = true
  · exact hd e he hc hw
  · refine (drained_iff x).mpr hx e (h.kept e he (Bool.not_eq_true _ ▸ hc)) ?_
    rw [DrainWaitsFor, h.only.eng]
    exact hw

end

/-- A held write is none a drain waits for. -/
theorem not_drainWaitsFor_held {s : State} {e : Entry} {c : HoldCause} {since : W32} (h : e.stage = .held c since) :
    ¬ DrainWaitsFor s e := by
  rintro ⟨-, -, hst⟩
  rw [h] at hst
  rcases hst with hst | hst | hst <;> cases hst

/-! ### A new hold limit -/

/-- The turns of a cell leave an entry past WAITING as it is. -/
theorem turns_past {s : State} (h : TableOk s) {e : Entry} (he : e ∈ s.table) (hp : e.pastWaiting = true) (n : Nat)
    (c : CellIx) : TableOk (turns n c s) ∧ e ∈ (turns n c s).table := by
  induction n generalizing s with
  | zero => exact ⟨h, he⟩
  | succ n ih =>
    unfold turns
    split
    · exact ⟨h, he⟩
    · rename_i x hx
      obtain ⟨hm, hc, hw, -, hnone⟩ := turnOf_some hx
      have htag : e.tag ≠ x.tag := fun ht => by
        rw [entry_eq_of_tag h.2.1 he hm ht, Entry.pastWaiting, hw] at hp
        cases hp
      exact ih (examine_tableOk h hm (.inr fun y hy hyc => hnone y hy (hyc.trans hc))) (examine_others he htag)

/-- What stays true of a held entry while the entries before it expire. -/
structure HoldStands (u : State) (e : Entry) (x : State) : Prop where
  only : TableOnly u x
  table : TableOk x
  mem : e ∈ x.table
  grows : Grows u x

theorem HoldStands.expire {u x : State} {e : Entry} (h : HoldStands u e x) (hp : e.pastWaiting = true) {t : Tag}
    (ht : e.tag ≠ t) : HoldStands u e (expireIfDue x t) := by
  unfold expireIfDue
  split
  · exact h
  · rename_i y c hd
    obtain ⟨hy, rfl⟩ := entryOf_some (dueHold_some hd).1
    have hmem : e ∈ (failHold y c x).table := by
      rw [failHold_table, mem_without]
      exact ⟨h.mem, ht⟩
    have hok : TableOk (failHold y c x) := tableOk_sublist h.table (failHold_table y c x ▸ without_sublist _ _)
    obtain ⟨h1, h2⟩ := turns_past hok hmem hp (failHold y c x).table.length y.cell
    exact ⟨h.only.trans (expireHold_tableOnly y c x), h1, h2, h.grows.trans (expireHold_grows y c x)⟩

theorem HoldStands.expireAll {u x : State} {e : Entry} (h : HoldStands u e x) (hp : e.pastWaiting = true) {tags : List Tag}
    (ht : ∀ t ∈ tags, e.tag ≠ t) : HoldStands u e (tags.foldl expireIfDue x) := by
  induction tags generalizing x with
  | nil => exact h
  | cons t tags ih =>
    exact ih (h.expire hp (ht t (List.mem_cons_self ..))) fun y hy => ht y (List.mem_cons_of_mem _ hy)

theorem expiredHold_congr {u x : State} (h : TableOnly u x) (e : Entry) : expiredHold x e = expiredHold u e := by
  by_cases hst : ∃ c since, e.stage = .held c since
  · obtain ⟨c, since, hst⟩ := hst
    rw [expiredHold_held hst, expiredHold_held hst, h.cfg, h.clock]
  · rw [expiredHold_not_held fun c since h => hst ⟨c, since, h⟩, expiredHold_not_held fun c since h => hst ⟨c, since, h⟩]

theorem expireHold_answers (e : Entry) (c : HoldCause) (x : State) :
    x.host.out ++ [⟨e.tag, .failed⟩] <+: (expireHold e c x).host.out := by
  have h : Grows (failHold e c x) (expireHold e c x) := giveTurn_grows _ _
  have hout : (failHold e c x).host.out = x.host.out ++ [⟨e.tag, .failed⟩] := by
    rw [failHold, report_host]
    rfl
  exact hout ▸ h.out

theorem expireIfDue_grows (x : State) (t : Tag) : Grows x (expireIfDue x t) := by
  unfold expireIfDue
  split
  · exact .refl x
  · exact expireHold_grows _ _ x

/-- Every hold that has reached its limit is answered FAILED, whatever the ones before it let go on (R28). -/
theorem expireAll_answers {u : State} (hT : TableOk u) {e : Entry} {c : HoldCause} {since : W32} (he : e ∈ u.table)
    (hst : e.stage = .held c since) (hx : expiredHold u e = some c) :
    ∃ answers, ((u.table.map (·.tag)).foldl expireIfDue u).host.out = u.host.out ++ answers ∧
      { tag := e.tag, result := .failed } ∈ answers := by
  have hp : e.pastWaiting = true := by
    rw [Entry.pastWaiting, hst]
    rfl
  obtain ⟨pre, post, hsplit⟩ := List.append_of_mem he
  have hnd := hT.2.1
  rw [hsplit, List.map_append, List.map_cons, List.nodup_append] at hnd
  have h : HoldStands u e ((pre.map (·.tag)).foldl expireIfDue u) :=
    HoldStands.expireAll ⟨.refl u, hT, he, .refl u⟩ hp fun t ht h =>
      hnd.2.2 t ht e.tag (List.mem_cons_self ..) h.symm
  have hstep : expireIfDue ((pre.map (·.tag)).foldl expireIfDue u) e.tag =
      expireHold e c ((pre.map (·.tag)).foldl expireIfDue u) := by
    have hdue := dueHold_eq (entryOf_mem h.table h.mem)
    rw [expiredHold_congr h.only, hx] at hdue
    simp only [expireIfDue, hdue, Option.map_some]
  have hall : (u.table.map (·.tag)).foldl expireIfDue u = (post.map (·.tag)).foldl expireIfDue
      (expireHold e c ((pre.map (·.tag)).foldl expireIfDue u)) := by
    rw [hsplit, List.map_append, List.map_cons, List.foldl_append, List.foldl_cons, hstep]
  obtain ⟨before, hbefore⟩ := h.grows.out
  obtain ⟨after, hafter⟩ := (expireHold_answers e c _).trans
    (foldl_grows expireIfDue expireIfDue_grows (post.map (·.tag)) (expireHold e c _)).out
  rw [hall, ← hafter, ← hbefore]
  exact ⟨before ++ [⟨e.tag, .failed⟩] ++ after, by simp only [List.append_assoc], by simp⟩

/-- Settles O12. -/
theorem holdLimitWrite : Obligations.HoldLimitWrite := by
  unfold Obligations.HoldLimitWrite
  intro v s hr u due expire
  have hexec : exec (.holdLimitWrite v) s = .next (settle ((u.table.map (·.tag)).foldl expireIfDue u)) :=
    unlessHeld_running hr _
  have hdue {e : Entry} {c : HoldCause} {since : W32} (hst : e.stage = .held c since) :
      expiredHold u e = if due e = true then some c else none := by
    rw [expiredHold_held hst]
    simp only [due, hst, decide_eq_true_eq]
    rfl
  have hnot {e : Entry} (h : ∀ c since, e.stage ≠ .held c since) : due e = false := by
    cases hst : e.stage with
    | held c since => exact absurd hst (h c since)
    | _ => simp only [due, hst]
  have hheld {e : Entry} (h : due e = true) : ∃ c since, e.stage = .held c since := by
    by_contra hn
    rw [hnot fun c since hst => hn ⟨c, since, hst⟩] at h
    cases h
  have hstep (x : State) (e : Entry) (hx : TableOnly u x) (he : entryOf x e.tag = some e) (ha : due e = true → Alone x e) :
      expireIfDue x e.tag = if due e = true then expire x e else x := by
    have hq := dueHold_eq he
    rw [expiredHold_congr hx] at hq
    by_cases hd : due e = true
    · obtain ⟨c, since, hst⟩ := hheld hd
      rw [hdue hst, if_pos hd] at hq
      simp only [expireIfDue, hq, Option.map_some, expireHold_alone (ha hd), if_pos hd, expire, hst]
      rfl
    · have hnone : expiredHold u e = none := by
        by_cases hst : ∃ c since, e.stage = .held c since
        · obtain ⟨c, since, hst⟩ := hst
          rw [hdue hst, if_neg hd]
        · exact expiredHold_not_held fun c since h => hst ⟨c, since, h⟩
      rw [hnone] at hq
      simp only [expireIfDue, hq, Option.map_none, if_neg hd]
  have hend (x : State) (e : Entry) (hd : due e = true) : ∃ c, expire x e = failHold e c x := by
    obtain ⟨c, since, hst⟩ := hheld hd
    refine ⟨c, ?_⟩
    simp only [expire, hst]
    rfl
  refine ⟨_, hexec, ?untouched, fun h hnone => ?still, fun hT e he hd => ?answers, fun h hT hdr ha => ?sweep⟩
  case untouched => exact (settle_untouched _).trans (untouched_of_table (foldl_tableOnly _ expireIfDue_tableOnly _ _))
  case still =>
    have hall : (u.table.map (·.tag)).foldl expireIfDue u = u := List.foldl_fixed' (fun t => by
      cases ht : entryOf u t with
      | none => simp only [expireIfDue, dueHold, ht]
      | some e =>
        obtain ⟨he, rfl⟩ := entryOf_some ht
        have hn := hnone e he
        rw [hstep u e (.refl u) ht fun hd => Bool.noConfusion (hn.symm.trans hd), if_neg (by rw [hn]; exact Bool.false_ne_true)]) _
    rw [hall]
    exact settle_of_atRest h
  case answers =>
    obtain ⟨c, since, hst⟩ := hheld hd
    obtain ⟨answers, hout, hmem⟩ := expireAll_answers (u := u) hT he hst ((hdue hst).trans (if_pos hd))
    obtain ⟨more, hmore⟩ := (settle_grows ((u.table.map (·.tag)).foldl expireIfDue u)).out
    rw [hout] at hmore
    exact ⟨answers ++ more, by rw [← hmore, List.append_assoc], List.mem_append_left _ hmem⟩
  case sweep =>
    obtain ⟨heq, hswept⟩ := sweep (chosen := due) (f := expireIfDue) (g := expire) (u := u) hT
      (fun x e hx he hm => hstep x e hx.only (hx.entryOf hT hm) fun hd => hx.alone (ha e he hd))
      (fun x e hx he hd => by
        obtain ⟨c, hc⟩ := hend x e hd
        rw [hc]
        exact ⟨failHold_tableOnly e c x, failHold_pres e c x, failHold_mport e c x, failHold_table e c x⟩)
    rw [heq]
    refine hswept.settle h fun e he hd => ?_
    obtain ⟨c, since, hst⟩ := hheld hd
    exact not_drainWaitsFor_held hst

/-! ### A change of the full policy -/

/-- The visit of the writes held JOURNAL_FULL. -/
def visitFull (u : State) : State := visit (fun _ e => e.heldWith .journalFull) u

theorem heldWith_iff (e : Entry) (c : HoldCause) : e.heldWith c = true ↔ ∃ since, e.stage = .held c since := by
  cases hst : e.stage <;> simp [Entry.heldWith, hst]

theorem heldWith_pastWaiting {e : Entry} {c : HoldCause} (h : e.heldWith c = true) : e.pastWaiting = true := by
  obtain ⟨since, hst⟩ := (heldWith_iff e c).mp h
  rw [Entry.pastWaiting, hst]
  rfl

/-- Under DENY a full journal refuses a write it cannot record (R31). -/
theorem verdict_of_full {s : State} {e : Entry} (hs : s.eng.state = .opened) (hk : e.kind = .write) (hj : e.cls = .journal)
    (hp : s.host.pfw = false) (hd : s.cfg.fullPolicy = .deny) (hf : ∀ f ∈ s.pres.filter, f.cell ≠ e.cell)
    (hfull : (s.cfg.jslots.toNat - 2) / 2 ≤ s.eng.nextIndex + s.pres.claims) : verdict s e = .refuse .journalFull := by
  have hfilter : ¬ filterHolds s.pres e.cell = true := by
    rw [filterHolds_iff]
    exact fun ⟨f, hm, hc⟩ => hf f hm hc
  have hjf : journalFull s = true := by
    rw [journalFull, capacity, Bool.not_eq_true', decide_eq_false_iff_not]
    exact Nat.not_lt.mpr hfull
  have hheld : holdCause s e = none := by
    rw [holdCause_of_opened hk hp hj hs, if_neg fun m => ?_]
    rw [hd] at m
    cases m.2
  rw [verdict_of_write hk hheld, decision_of_opened hj hs, if_neg hfilter, if_pos hjf]

/-- Settles O11. -/
theorem config0Write : Obligations.Config0Write := by
  unfold Obligations.Config0Write
  intro v s hr cfg u deny
  have hexec : exec (.config0Write v) s =
      .next (if s.cfg.fullPolicy = .hold ∧ config0Full v = .deny then settle (visitFull u) else u) := by
    have h : exec (.config0Write v) s = _ := unlessHeld_running hr _
    rw [h]
    by_cases hc : s.cfg.fullPolicy = .hold ∧ config0Full v = .deny
    · rw [if_pos hc, if_pos hc]
      rfl
    · rw [if_neg hc, if_neg hc]
      rfl
  have hpolicy : v.getLsbD 9 = true → config0Full v = .deny := fun h => if_pos h
  refine ⟨_, hexec, ?untouched, fun h => ?still, fun hhold hbit h hT hp hst hrep hfull hwrites => ?denied⟩
  case untouched =>
    split
    · exact (settle_untouched _).trans (untouched_of_table (visit_tableOnly _ u))
    · rfl
  case still =>
    split
    · rename_i hc
      rcases h with h | h | ⟨h, hnone⟩
      · rw [h] at hc
        cases hc.1
      · rw [config0Full, h] at hc
        cases hc.2
      · rw [show visitFull u = u from visit_of_none hnone]
        exact settle_of_atRest h
    · rfl
  case denied =>
    rw [if_pos ⟨hhold, hpolicy hbit⟩]
    have hend (x : State) (e : Entry) : deny x e = denyEntry e .journalFull x := rfl
    have hdeny : u.cfg.fullPolicy = .deny := hpolicy hbit
    obtain ⟨heq, hswept⟩ := sweep (chosen := fun e => e.heldWith .journalFull) (u := u)
      (f := visitOne fun _ e => e.heldWith .journalFull) (g := deny) hT
      (fun x e hx he hm => by
        by_cases hc : e.heldWith .journalFull = true
        · obtain ⟨hk, hj, ha, hf⟩ := hwrites e he hc
          have hv : verdict x e = .refuse .journalFull := by
            refine verdict_of_full (hx.only.eng ▸ hst) hk hj (hx.only.pfw.trans hp) (hx.only.cfg ▸ hdeny) (hx.pres ▸ hf) ?_
            rw [hx.only.cfg, hx.only.eng, hx.pres]
            exact hfull
          have hexam : examine e x = deny x e := by
            rw [examine_eq, hv, hend]
            show denyEntry e .journalFull (reportFull e x) = _
            rw [reportFull_of_reported (hx.pres ▸ hrep)]
          rw [visitOne, hx.entryOf hT hm]
          simp only [hc, heldWith_pastWaiting hc, if_true]
          rw [reexamine_alone hm (hx.alone ha), hexam]
        · rw [if_neg hc, visitOne_of_not fun y hy => ?_]
          rw [hx.entryOf hT hm] at hy
          exact Option.some.inj hy ▸ Bool.not_eq_true _ ▸ hc)
      (fun x e _ _ _ => ⟨denyEntry_tableOnly e .journalFull x, denyEntry_pres e .journalFull x, by
        rw [hend, denyEntry, report_mport]; rfl, denyEntry_table e .journalFull x⟩)
    rw [visitFull, visit, heq]
    refine hswept.settle h fun e _ hc => ?_
    obtain ⟨since, hst⟩ := (heldWith_iff e .journalFull).mp hc
    exact not_drainWaitsFor_held hst

end Sys2Proof.Machine
end

