-- ==== Sys2Proof/Proofs/Confinement.lean ====
section
/-! What the settling of an event does to the table and to the requests: the engine's own steps forward no write, and a
grant ends only the write of the request it denies (R9, R164). -/

namespace Sys2Proof.Machine

/-! ### Requests for a forward -/

/-- The write that a FORWARD_WRITE forwards. -/
def MemOp.forwardTag? : MemOp → Option Tag
  | .forwardWrite tag _ _ _ => some tag
  | _ => none

theorem mem_enqueue_cases {op : MemOp} {addr : Addr} {s : State} {r : MemRequest}
    (h : r ∈ (enqueue op addr s).mport.queue) : r ∈ s.mport.queue ∨ r.op = op := by
  obtain ⟨cs, before, after, hq, -, he⟩ := enqueue_cases op addr s
  rw [he] at h
  rw [hq]
  rcases List.mem_append.mp h with h | h
  · exact .inl (List.mem_append_left _ h)
  · rcases List.mem_cons.mp h with rfl | h
    · exact .inr rfl
    · exact .inl (List.mem_append_right _ h)

/-- The table, the host side and the settings stay, and no write is forwarded anew. -/
structure OwnStep (s t : State) : Prop where
  table : t.table = s.table
  host : t.host = s.host
  cfg : t.cfg = s.cfg
  asked : ∀ r ∈ t.mport.queue, r ∈ s.mport.queue ∨ r.op.forwardTag? = none

theorem OwnStep.refl (s : State) : OwnStep s s := ⟨rfl, rfl, rfl, fun _ h => .inl h⟩

theorem OwnStep.trans {s t u : State} (h : OwnStep s t) (k : OwnStep t u) : OwnStep s u :=
  ⟨k.table.trans h.table, k.host.trans h.host, k.cfg.trans h.cfg, fun r hr => (k.asked r hr).elim (h.asked r) .inr⟩

theorem OwnStep.of_same {s t : State} (ht : t.table = s.table) (hh : t.host = s.host) (hc : t.cfg = s.cfg)
    (hm : t.mport = s.mport) : OwnStep s t := ⟨ht, hh, hc, fun _ hr => .inl (hm ▸ hr)⟩

theorem OwnStep.enqueue {s t : State} (h : OwnStep s t) {op : MemOp} (addr : Addr) (ho : op.forwardTag? = none) :
    OwnStep s (enqueue op addr t) :=
  h.trans ⟨enqueue_table op addr t, enqueue_host op addr t, enqueue_cfg op addr t, fun _ hr =>
    (mem_enqueue_cases hr).imp_right fun he => (congrArg MemOp.forwardTag? he).trans ho⟩

theorem OwnStep.setEng {s t : State} (h : OwnStep s t) (f : Engine → Engine) : OwnStep s (setEng f t) :=
  h.trans (.of_same rfl rfl rfl rfl)

theorem walkBelow_ownStep (n : Nat) (s : State) : OwnStep s (walkBelow n s) := by
  cases n with
  | zero => exact .of_same rfl rfl rfl rfl
  | succ k => exact (((OwnStep.refl s).setEng _).enqueue _ rfl).enqueue _ rfl

theorem drainStep_ownStep (s : State) : OwnStep s (drainStep s) := by
  unfold drainStep
  split
  · split
    · split
      · exact (OwnStep.refl s).setEng _
      · exact walkBelow_ownStep _ s
    · exact .refl s
  · exact .refl s

theorem headerStep_ownStep (s : State) : OwnStep s (headerStep s) := by
  unfold headerStep
  split
  · split
    · exact ((OwnStep.refl s).setEng _).enqueue _ rfl
    · exact .refl s
  · dsimp only
    split <;> split
    · exact (((OwnStep.refl s).setEng _).enqueue _ rfl).enqueue _ rfl
    · exact ((OwnStep.refl s).setEng _).enqueue _ rfl
    · exact ((OwnStep.refl s).setEng _).enqueue _ rfl
    · exact (OwnStep.refl s).setEng _
  · exact .refl s

theorem requestIfClear_ownStep (s : State) (r : RecElem) : OwnStep s (requestIfClear s r) := by
  unfold requestIfClear
  split
  · have h : OwnStep s { s with pres := { s.pres with queue := markRequested r.index s.pres.queue } } :=
      .of_same rfl rfl rfl rfl
    exact (h.enqueue (op := .slotWrite r.index .header (recordBytes r .header)) _ rfl).enqueue
      (op := .slotWrite r.index .data (recordBytes r .data)) _ rfl
  · exact .refl s

theorem foldl_ownStep {α : Type} (f : State → α → State) (h : ∀ s a, OwnStep s (f s a)) (l : List α) (s : State) :
    OwnStep s (l.foldl f s) := by
  induction l generalizing s with
  | nil => exact .refl s
  | cons a l ih => exact (h s a).trans (ih _)

theorem restoreStep_ownStep (s : State) : OwnStep s (restoreStep s) := by
  unfold restoreStep
  split
  · split
    · exact ((OwnStep.refl s).setEng _).enqueue _ rfl
    · exact .refl s
  · exact .refl s

theorem selfSteps_ownStep (s : State) : OwnStep s (selfSteps s) :=
  (drainStep_ownStep s).trans ((headerStep_ownStep _).trans
    ((foldl_ownStep _ requestIfClear_ownStep _ _).trans (restoreStep_ownStep _)))

/-! ### A grant -/

/-- What a grant does to the queue and the table. -/
inductive GrantCase (s : State) : State → Prop
  | none : GrantCase s s
  | deny (r : MemRequest) (rest : List MemRequest) (tag : Tag) (hq : s.mport.queue = r :: rest)
      (ht : r.op.forwardTag? = some tag) :
      GrantCase s (denyAtGrant tag { s with mport := { s.mport with queue := rest } })
  | leaves {t : State} (ht : t.table = s.table) (hh : t.host = s.host) (hc : t.cfg = s.cfg)
      (hq : ∀ r ∈ t.mport.queue, r ∈ s.mport.queue) : GrantCase s t

theorem deniedAtGrant_forward {c : Settings} {op : MemOp} {tag : Tag} (h : deniedAtGrant c op = some tag) :
    op.forwardTag? = some tag := by
  unfold deniedAtGrant at h
  split at h
  · split at h
    · exact h
    · cases h
  · cases h

theorem grantOne_cases (s : State) : GrantCase s (grantOne s) := by
  unfold grantOne
  cases hq : s.mport.queue with
  | nil => exact .none
  | cons r rest =>
    cases hf : freeSlots s.mport with
    | nil => exact .none
    | cons f fs =>
      dsimp only
      have hmem : ∀ x ∈ rest, x ∈ s.mport.queue := fun x hx => hq ▸ List.mem_cons_of_mem _ hx
      cases hd : deniedAtGrant s.cfg r.op with
      | some tag => exact .deny r rest tag hq (deniedAtGrant_forward hd)
      | none =>
        cases hw : waitsAtGrant s r.op with
        | some op => exact .leaves rfl rfl rfl hmem
        | none =>
          obtain ⟨cs, hp⟩ := pick_state (f :: fs).length { s with mport := { s.mport with queue := rest } }
          dsimp only
          rw [hp, issueIn, countIssued_frame]
          exact .leaves rfl rfl rfl hmem

/-! ### An examination -/

/-- An examination forwards no write but the one examined. -/
theorem applyVerdict_asks (e : Entry) (v : Verdict) (s : State) :
    ∀ r ∈ (applyVerdict e v s).mport.queue, r ∈ s.mport.queue ∨ ∀ tag, r.op.forwardTag? = some tag → tag = e.tag := by
  have hforward {e' : Entry} {t : State} (htag : e'.tag = e.tag) (hm : t.mport = s.mport) :
      ∀ r ∈ (forward e' t).mport.queue, r ∈ s.mport.queue ∨ ∀ tag, r.op.forwardTag? = some tag → tag = e.tag :=
    fun r hr => (mem_enqueue_cases hr).elim (fun h => .inl (hm ▸ h)) fun h => .inr fun tag ht => by
      rw [h] at ht
      exact (Option.some.inj ht).symm.trans htag
  have hfetch {e' : Entry} {t : State} (hm : t.mport = s.mport) :
      ∀ r ∈ (fetchOld e' t).mport.queue, r ∈ s.mport.queue ∨ ∀ tag, r.op.forwardTag? = some tag → tag = e.tag :=
    fun r hr => (mem_enqueue_cases hr).elim (fun h => .inl (hm ▸ h)) fun h => .inr fun tag ht => by
      rw [h] at ht
      cases ht
  have hstart {e' : Entry} {t : State} (htag : e'.tag = e.tag) (hm : t.mport = s.mport) :
      ∀ r ∈ (startWrite e' t).mport.queue, r ∈ s.mport.queue ∨ ∀ tag, r.op.forwardTag? = some tag → tag = e.tag := by
    unfold startWrite
    split
    · exact hforward htag hm
    · exact hfetch hm
  have hfull (c : Prop) [Decidable c] : (if c then reportFull e s else s).mport = s.mport := by
    split
    · exact reportFull_mport e s
    · rfl
  cases v with
  | hold c => exact fun r hr => .inl (hfull (c = .journalFull) ▸ hr)
  | issueRead =>
    exact fun r hr => (mem_enqueue_cases hr).imp_right fun h tag ht => by
      rw [h] at ht
      cases ht
  | refuse why =>
    intro r hr
    rw [applyVerdict, denyEntry, report_mport] at hr
    exact .inl (hfull (why = .journalFull) ▸ hr)
  | bare =>
    refine hstart rfl ?_
    unfold noteBare
    split
    · dsimp only
      split
      · rfl
      · exact post_mport _ _
    · rfl
  | filterHit => exact hstart rfl rfl
  | preserve => exact hfetch rfl
  | atTurn => exact fun r hr => .inl hr

end Sys2Proof.Machine
end

