-- ==== Sys2Proof/Proofs/PowerWarning.lean ====
section
/-! A change of the power-fail warning (R24, R25, R27, R178; O37). -/

namespace Sys2Proof.Machine

/-! ### A visit that only changes what holds an entry -/

theorem entryOf_of_nodup {s : State} (hn : (s.table.map (·.tag)).Nodup) {e : Entry} (he : e ∈ s.table) :
    entryOf s e.tag = some e := by
  cases hx : entryOf s e.tag with
  | none => exact absurd rfl (entryOf_none hx e he)
  | some y => rw [entry_eq_of_tag hn (entryOf_some hx).1 he (entryOf_some hx).2]

/-- A visit that replaces every entry chosen, and does no more. -/
theorem visit_puts {p : State → Entry → Bool} {u : State} {chosen : Entry → Bool} {h : Entry → Entry}
    (hn : (u.table.map (·.tag)).Nodup) (htag : ∀ e, (h e).tag = e.tag)
    (hstep : ∀ l e, e ∈ l → entryOf { u with table := l } e.tag = some e → e ∈ u.table →
      visitOne p { u with table := l } e.tag =
        if chosen e then putEntry (h e) { u with table := l } else { u with table := l }) :
    visit p u = { u with table := u.table.map (fun e => if chosen e then h e else e) } := by
  have hkeep : ∀ e, (if chosen e then h e else e).tag = e.tag := fun e => by split <;> [exact htag e; rfl]
  suffices hfold : ∀ post pre : List Entry, u.table = pre ++ post →
      (post.map (·.tag)).foldl (visitOne p)
        { u with table := pre.map (fun e => if chosen e then h e else e) ++ post } =
      { u with table := (pre ++ post).map (fun e => if chosen e then h e else e) } by
    exact hfold u.table [] rfl
  intro post
  induction post with
  | nil => intro pre _; simp
  | cons e post ih =>
    intro pre hsplit
    have htags : ((pre.map (fun e => if chosen e then h e else e) ++ e :: post).map (·.tag)).Nodup := by
      have heq : (pre.map (fun e => if chosen e then h e else e) ++ e :: post).map (·.tag) = u.table.map (·.tag) := by
        rw [hsplit, List.map_append, List.map_append, List.map_map]
        exact congrArg (· ++ _) (List.map_congr_left fun x _ => hkeep x)
      rw [heq]
      exact hn
    have hmem : e ∈ pre.map (fun e => if chosen e then h e else e) ++ e :: post :=
      List.mem_append_right _ (List.mem_cons_self ..)
    have hother : ∀ x, x ∈ pre.map (fun e => if chosen e then h e else e) ∨ x ∈ post → x.tag ≠ (h e).tag := by
      rw [List.map_append, List.map_cons, List.nodup_append, List.nodup_cons] at htags
      rintro x (hx | hx) heq <;> rw [htag] at heq
      · exact htags.2.2 _ (List.mem_map_of_mem hx) _ (List.mem_cons_self ..) heq
      · exact htags.2.1.1 (heq ▸ List.mem_map_of_mem hx)
    have hnext := ih (pre ++ [e]) (by rw [hsplit, List.append_assoc]; rfl)
    rw [List.map_append, List.append_assoc, List.append_assoc] at hnext
    have hput : putIn (h e) (pre.map (fun e => if chosen e then h e else e) ++ e :: post) =
        pre.map (fun e => if chosen e then h e else e) ++ h e :: post := by
      rw [putIn, List.map_append, List.map_cons, if_pos (htag e).symm]
      exact congrArg₂ _ (putIn_absent fun x hx => hother x (.inl hx))
        (congrArg _ (putIn_absent fun x hx => hother x (.inr hx)))
    rw [List.map_cons, List.foldl_cons, hstep _ e hmem
      (entryOf_of_nodup (s := { u with table := _ }) htags hmem) (hsplit ▸ List.mem_append_right _ (List.mem_cons_self ..))]
    refine Eq.trans ?_ hnext
    by_cases hc : chosen e = true
    · have hstate : putEntry (h e) { u with
          table := pre.map (fun e => if chosen e then h e else e) ++ e :: post } =
          { u with table := pre.map (fun e => if chosen e then h e else e) ++ h e :: post } := by
        rw [← hput]
        rfl
      rw [if_pos hc, hstate]
      simp [hc]
    · rw [if_neg hc]
      simp [hc]

/-- A hold that keeps the entry past WAITING gives no turn. -/
theorem reexamine_holds {s : State} {e : Entry} {c : HoldCause} (he : e ∈ s.table) (hv : verdict s e = .hold c)
    (hc : c ≠ .journalFull) : reexamine e s = putEntry { e with stage := .held c (heldSince s e) } s := by
  have hexam : examine e s = putEntry { e with stage := .held c (heldSince s e) } s := by
    rw [examine_eq, hv]
    show putEntry _ (if c = .journalFull then _ else _) = _
    rw [if_neg hc]
  rw [reexamine, hexam]
  exact turns_stop _ _ _ (turnOf_past (mem_putIn_self (e := { e with stage := .held c (heldSince s e) }) he rfl) rfl rfl)

/-- A visit that holds the entries chosen with one cause. -/
theorem visit_holds {u : State} {chosen : Entry → Bool} {h : Entry → Entry} {c : HoldCause}
    (hn : (u.table.map (·.tag)).Nodup) (htag : ∀ e, (h e).tag = e.tag) (hc : c ≠ .journalFull)
    (hchosen : ∀ e ∈ u.table, chosen e = true → e.pastWaiting = true ∧ (∀ l, verdict { u with table := l } e = .hold c) ∧
      h e = { e with stage := .held c (heldSince u e) }) :
    visit (fun _ e => chosen e) u = { u with table := u.table.map (fun e => if chosen e then h e else e) } := by
  refine visit_puts hn htag fun l e hm he hu => ?_
  rw [visitOne, he]
  by_cases hch : chosen e = true
  · obtain ⟨hp, hv, hh⟩ := hchosen e hu hch
    simp only [hch, hp, if_true]
    rw [reexamine_holds (s := { u with table := l }) hm (hv l) hc, hh]
    rfl
  · simp only [if_neg hch]

/-- Such a visit, in a state at rest, leaves nothing to happen. -/
theorem settle_relabelled {u : State} (hu : AtRest u) {H : Entry → Entry}
    (hH : ∀ e ∈ u.table, H e = e ∨ ¬ DrainWaitsFor u e) :
    settle { u with table := u.table.map H } = { u with table := u.table.map H } := by
  refine settle_of_engine (engineSettled_of (atRest_engine hu) rfl rfl rfl rfl fun _ hx =>
    (drained_iff u).mp fun e he hw => ?_) hu.2.1 hu.2.2.1 hu.2.2.2
  have hmem : H e ∈ u.table.map H := List.mem_map_of_mem he
  rcases hH e he with h | h
  · exact (drained_iff { u with table := u.table.map H }).mpr hx e (h ▸ hmem) hw
  · exact h hw

theorem report_setTable (c : EvClass) (b : NoticeBody) (l : List Entry) (s : State) :
    { report c b s with table := l } = report c b { s with table := l } := by
  have hpost : post b { s with table := l } = { post b s with table := l } := by
    by_cases hroom : s.ev.notices.length < 16
    · rewrite [post_of_room hroom, post_of_room (s := { s with table := l }) hroom]
      rfl
    · rewrite [post_of_full (Nat.le_of_not_lt hroom), post_of_full (s := { s with table := l }) (Nat.le_of_not_lt hroom)]
      rfl
  rw [report, report, hpost]
  rfl

/-! ### While PFW is deasserted nothing becomes held POWER -/

theorem holdCause_ne_power {s : State} (hp : s.host.pfw = false) (e : Entry) : holdCause s e ≠ some .power := by
  unfold holdCause
  split
  · split <;> simp
  · rw [hp]
    simp only [Bool.false_eq_true, if_false]
    repeat' split
    all_goals simp

theorem verdict_ne_power {s : State} (hp : s.host.pfw = false) (e : Entry) : verdict s e ≠ .hold .power := by
  unfold verdict
  split
  · rename_i c hc
    intro h
    rw [Verdict.hold.inj h] at hc
    exact holdCause_ne_power hp e hc
  · split
    · exact Verdict.noConfusion
    · unfold decision
      repeat' split
      all_goals exact Verdict.noConfusion

/-- A verdict other than the hold POWER leaves its entry held POWER no more. -/
theorem applyVerdict_table (e : Entry) {v : Verdict} (hv : v ≠ .hold .power) (s : State) :
    (∃ e', (applyVerdict e v s).table = putIn e' s.table ∧ e'.tag = e.tag ∧ e'.heldWith .power = false) ∨
      (applyVerdict e v s).table = without e.tag s.table := by
  have hstart (e' : Entry) (t : State) (ht : t.table = s.table) (htag : e'.tag = e.tag) :
      ∃ x, (startWrite e' t).table = putIn x s.table ∧ x.tag = e.tag ∧ x.heldWith .power = false := by
    unfold startWrite
    split
    · exact ⟨{ e' with stage := .issued }, by rw [forward_table, ht], htag, rfl⟩
    · exact ⟨{ e' with stage := .fetchingOld }, by rw [fetchOld_table, ht], htag, rfl⟩
  cases v with
  | hold c =>
    have hc : (c == .power) = false := beq_eq_false_iff_ne.mpr fun h => hv (congrArg Verdict.hold h)
    refine .inl ⟨{ e with stage := .held c (heldSince s e) }, ?_, rfl, hc⟩
    simp only [applyVerdict, putEntry_table]
    split <;> simp
  | issueRead => exact .inl ⟨{ e with stage := .issued }, by simp [applyVerdict], rfl, rfl⟩
  | refuse why =>
    refine .inr ?_
    simp only [applyVerdict, denyEntry_table]
    split <;> simp
  | bare => exact .inl (hstart _ _ (noteBare_table e s) rfl)
  | filterHit => exact .inl (hstart _ s rfl rfl)
  | preserve => exact .inl ⟨_, fetchOld_table _ _, rfl, rfl⟩
  | atTurn => exact .inl ⟨{ e with stage := .atTurn }, rfl, rfl, rfl⟩

/-- No entry is newly held POWER. -/
def PowerShrinks (s t : State) : Prop := ∀ w ∈ t.table, w.heldWith .power = true → w ∈ s.table

theorem PowerShrinks.trans {s t u : State} (h : PowerShrinks s t) (k : PowerShrinks t u) : PowerShrinks s u :=
  fun w hw hp => h w (k w hw hp) hp

theorem examine_power {s : State} (hp : s.host.pfw = false) (e : Entry) :
    ∀ w ∈ (examine e s).table, w.heldWith .power = true → w ∈ s.table ∧ w.tag ≠ e.tag := by
  intro w hw hpow
  rcases applyVerdict_table e (verdict_ne_power hp e) s with ⟨e', ht, htag, hnot⟩ | ht <;> rw [examine_eq, ht] at hw
  · rcases mem_putIn hw with rfl | ⟨hw, hne⟩
    · exact absurd hpow (hnot ▸ Bool.false_ne_true)
    · exact ⟨hw, htag ▸ hne⟩
  · exact mem_without.mp hw

theorem turns_power {s : State} (hp : s.host.pfw = false) (n : Nat) (c : CellIx) : PowerShrinks s (turns n c s) := by
  induction n generalizing s with
  | zero => exact fun w hw _ => hw
  | succ n ih =>
    unfold turns
    split
    · exact fun w hw _ => hw
    · rename_i e _
      exact PowerShrinks.trans (fun w hw hpow => (examine_power hp e w hw hpow).1)
        (ih ((examine_tableOnly e s).pfw.trans hp))

theorem turns_tableOk {s : State} (h : TableOk s) (n : Nat) (c : CellIx) : TableOk (turns n c s) := by
  induction n generalizing s with
  | zero => exact h
  | succ n ih =>
    unfold turns
    split
    · exact h
    · rename_i x hx
      obtain ⟨hm, hc, -, -, hnone⟩ := turnOf_some hx
      exact ih (examine_tableOk h hm (.inr fun y hy hyc => hnone y hy (hyc.trans hc)))

/-- A visit of the entries held POWER, PFW deasserted, leaves none of them held so. -/
theorem visit_power {s : State} (hT : TableOk s) (hp : s.host.pfw = false) :
    ∀ w ∈ (visit (fun _ e => e.heldWith .power) s).table, w.heldWith .power = false := by
  suffices h : ∀ (tags : List Tag) (x : State), TableOk x → x.host.pfw = false →
      (∀ w ∈ x.table, w.heldWith .power = true → w.tag ∈ tags) →
      ∀ w ∈ (tags.foldl (visitOne fun _ e => e.heldWith .power) x).table, w.heldWith .power = false from
    h _ s hT hp fun w hw _ => List.mem_map_of_mem hw
  intro tags
  induction tags with
  | nil => exact fun x _ _ hx w hw => Bool.eq_false_iff.mpr fun hpow => List.not_mem_nil (hx w hw hpow)
  | cons t tags ih =>
    intro x hT hp hx
    have hrest (y : State) (hs : PowerShrinks x y) (hne : ∀ w ∈ y.table, w.heldWith .power = true → w.tag ≠ t) :
        ∀ w ∈ y.table, w.heldWith .power = true → w.tag ∈ tags := fun w hw hpow =>
      (List.mem_cons.mp (hx w (hs w hw hpow) hpow)).resolve_left (hne w hw hpow)
    rw [List.foldl_cons]
    unfold visitOne
    split
    · rename_i hnone
      exact ih x hT hp (hrest x (fun w hw _ => hw) fun w hw _ => entryOf_none hnone w hw)
    · rename_i e he
      obtain ⟨hm, htag⟩ := entryOf_some he
      split
      · rename_i hc
        have hpast := heldWith_pastWaiting hc
        rw [if_pos hpast]
        have hshrink : PowerShrinks (examine e x) (reexamine e x) :=
          turns_power ((examine_tableOnly e x).pfw.trans hp) _ _
        refine ih _ (turns_tableOk (examine_tableOk hT hm (.inl hpast)) _ _) ((reexamine_tableOnly e x).pfw.trans hp)
          (hrest _ ?_ ?_)
        · exact PowerShrinks.trans (fun w hw hpow => (examine_power hp e w hw hpow).1) hshrink
        · exact fun w hw hpow => htag ▸ (examine_power hp e w (hshrink w hw hpow) hpow).2
      · rename_i hc
        refine ih x hT hp (hrest x (fun w hw _ => hw) fun w hw hpow ht => hc ?_)
        rw [← entry_eq_of_tag hT.2.1 hw hm (ht.trans htag.symm)]
        exact hpow

/-- No entry is held POWER, and PFW is deasserted. -/
structure NoPower (s : State) : Prop where
  low : s.host.pfw = false
  none : ∀ w ∈ s.table, w.heldWith .power = false

theorem NoPower.of_shrinks {s t : State} (h : NoPower s) (hp : t.host.pfw = s.host.pfw) (hs : PowerShrinks s t) :
    NoPower t where
  low := hp.trans h.low
  none w hw := Bool.eq_false_iff.mpr fun hpow => Bool.noConfusion ((h.none w (hs w hw hpow)).symm.trans hpow)

theorem NoPower.giveTurn {s : State} (h : NoPower s) (c : CellIx) : NoPower (giveTurn c s) :=
  h.of_shrinks (giveTurn_tableOnly c s).pfw (turns_power h.low _ _)

theorem NoPower.denyAtGrant {s : State} (h : NoPower s) (tag : Tag) : NoPower (denyAtGrant tag s) := by
  unfold Machine.denyAtGrant
  split
  · split
    · rename_i e _ _
      refine NoPower.giveTurn (h.of_shrinks (denyEntry_tableOnly e .journalArea s).pfw fun w hw _ => ?_) _
      rw [denyEntry_table, mem_without] at hw
      exact hw.1
    · exact h
  · exact h

theorem NoPower.takeRequest {s : State} (h : NoPower s) (r : HostRequest) : NoPower (takeRequest r s) := by
  have hrefuse (why : ProtocolReason) : NoPower (refuseRequest r why s) :=
    h.of_shrinks (refuseRequest_tableOnly r why s).pfw fun w hw _ => by
      rw [refuseRequest, report_table] at hw
      exact hw
  unfold Machine.takeRequest
  split
  · exact hrefuse _
  · split
    · exact hrefuse _
    · refine NoPower.giveTurn (s := { s with table := s.table ++ [newEntry r s] }) ⟨h.low, fun w hw => ?_⟩ _
      rcases List.mem_append.mp hw with hw | hw
      · exact h.none w hw
      · rw [List.mem_singleton.mp hw]
        rfl

theorem noPower_closed : SettleClosed NoPower where
  self s h := h.of_shrinks (congrArg HostPort.pfw (selfSteps_ownStep s).host) fun _ hw _ => (selfSteps_ownStep s).table ▸ hw
  grant s h := by
    have hcase := grantOne_cases s
    generalize grantOne s = t at hcase
    cases hcase with
    | none => exact h
    | deny r rest tag hq ht =>
      exact NoPower.denyAtGrant (s := { s with mport := { s.mport with queue := rest } }) ⟨h.low, h.none⟩ tag
    | leaves ht hh hc hq => exact h.of_shrinks (congrArg HostPort.pfw hh) fun _ hw _ => ht ▸ hw
  intake s h := by
    unfold intakeStep
    split
    · exact h
    · rename_i r rest _
      split
      · exact NoPower.takeRequest (s := closeEvent { s with host := { s.host with link := rest } }) ⟨h.low, h.none⟩ r
      · exact h
  close s h := ⟨h.low, h.none⟩

theorem NoPower.settle {s : State} (h : NoPower s) : NoPower (settle s) := noPower_closed.settle (noPower_closed.self s h)

/-! ### What the entries of one cell do leaves those of another -/

/-- The entries of the cell of e are those of s, and no write of that cell is newly asked for. -/
structure Apart (s : State) (e : Entry) (x : State) : Prop where
  link : x.host.link = []
  mem : e ∈ x.table
  descends : ∀ y ∈ x.table, ∃ z ∈ s.table, z.tag = y.tag ∧ z.cell = y.cell
  still : ∀ y ∈ x.table, y.cell = e.cell → y ∈ s.table
  forwards : ∀ r ∈ x.mport.queue, ∀ tag, r.op.forwardTag? = some tag → ∃ z ∈ s.table, z.tag = tag ∧ z.cell ≠ e.cell

section
variable {s : State} {e : Entry} (hT : TableOk s) (he : e ∈ s.table)
include hT he

theorem Apart.tag_ne {x : State} (h : Apart s e x) {y : Entry} (hy : y ∈ x.table) (hc : y.cell ≠ e.cell) :
    e.tag ≠ y.tag := fun ht => by
  obtain ⟨z, hz, hzt, hzc⟩ := h.descends y hy
  rw [entry_eq_of_tag hT.2.1 hz he (hzt.trans ht.symm)] at hzc
  exact hc hzc.symm

theorem Apart.remove {x t : State} (h : Apart s e x) {y : Entry} (hy : y ∈ x.table) (hc : y.cell ≠ e.cell)
    (hl : t.host.link = x.host.link) (ht : t.table = without y.tag x.table)
    (hq : ∀ r ∈ t.mport.queue, r ∈ x.mport.queue) : Apart s e t where
  link := hl.trans h.link
  mem := by
    rw [ht, mem_without]
    exact ⟨h.mem, h.tag_ne hT he hy hc⟩
  descends w hw := h.descends w ((without_sublist _ _).mem (ht ▸ hw))
  still w hw := h.still w ((without_sublist _ _).mem (ht ▸ hw))
  forwards r hr := h.forwards r (hq r hr)

theorem Apart.examine {x : State} (h : Apart s e x) {y : Entry} (hy : y ∈ x.table) (hc : y.cell ≠ e.cell) :
    Apart s e (examine y x) := by
  have hout (w : Entry) (hw : w ∈ (Machine.examine y x).table) : w ∈ x.table ∨ w.tag = y.tag ∧ w.cell = y.cell := by
    rcases examine_cases y x with ⟨st, d, ep, ht, -⟩ | ⟨ht, -⟩ <;> rw [ht] at hw
    · rcases mem_putIn hw with rfl | ⟨hw, -⟩
      · exact .inr ⟨rfl, rfl⟩
      · exact .inl hw
    · exact .inl (mem_without.mp hw).1
  refine ⟨(examine_tableOnly y x).link.trans h.link, examine_others h.mem (h.tag_ne hT he hy hc), fun w hw => ?_,
    fun w hw hwc => ?_, fun r hr tag ht => ?_⟩
  · rcases hout w hw with hw | ⟨h1, h2⟩
    · exact h.descends w hw
    · rw [h1, h2]
      exact h.descends y hy
  · rcases hout w hw with hw | ⟨-, h2⟩
    · exact h.still w hw hwc
    · exact absurd (h2.symm.trans hwc) hc
  · rcases applyVerdict_asks y (verdict x y) x r hr with hr | hr
    · exact h.forwards r hr tag ht
    · obtain ⟨z, hz, hzt, hzc⟩ := h.descends y hy
      exact ⟨z, hz, hzt.trans (hr tag ht).symm, hzc ▸ hc⟩

theorem Apart.giveTurn {x : State} (h : Apart s e x) {c : CellIx} (hc : c ≠ e.cell) : Apart s e (giveTurn c x) := by
  unfold Machine.giveTurn
  generalize x.table.length = n
  induction n generalizing x with
  | zero => exact h
  | succ n ih =>
    unfold turns
    split
    · exact h
    · rename_i y hy
      obtain ⟨hm, hyc, -⟩ := turnOf_some hy
      exact ih (h.examine hT he hm (hyc ▸ hc))

theorem Apart.visit {p : State → Entry → Bool} (hp : ∀ x y, p x y = true → y.pastWaiting = true)
    (hcell : ∀ x y, p x y = true → y ∈ s.table → y.cell ≠ e.cell) {x : State} (h : Apart s e x) :
    Apart s e (visit p x) := by
  refine foldl_keeps (P := Apart s e) _ (fun x t h => ?_) _ h
  unfold visitOne
  split
  · exact h
  · rename_i y hy
    split
    · rename_i hc
      have hm := (entryOf_some hy).1
      have hne : y.cell ≠ e.cell := fun heq => hcell x y hc (h.still y hm heq) heq
      rw [if_pos (hp x y hc)]
      exact (h.examine hT he hm hne).giveTurn hT he hne
    · exact h

theorem Apart.denyAtGrant {x : State} (h : Apart s e x) {tag : Tag} (htag : ∃ z ∈ s.table, z.tag = tag ∧ z.cell ≠ e.cell) :
    Apart s e (denyAtGrant tag x) := by
  unfold Machine.denyAtGrant
  split
  · rename_i y hy
    split
    · obtain ⟨hm, hyt⟩ := entryOf_some hy
      obtain ⟨z, hz, hzt, hzc⟩ := htag
      obtain ⟨z', hz', hzt', hzc'⟩ := h.descends y hm
      rw [entry_eq_of_tag hT.2.1 hz' hz (hzt'.trans (hyt.trans hzt.symm))] at hzc'
      have hne : y.cell ≠ e.cell := hzc' ▸ hzc
      refine (h.remove hT he hm hne (denyEntry_tableOnly y .journalArea x).link (denyEntry_table y .journalArea x)
        fun r hr => ?_).giveTurn hT he hne
      rw [denyEntry, report_mport] at hr
      exact hr
    · exact h
  · exact h

theorem apart_closed : SettleClosed (Apart s e) where
  self x h := by
    have ho := selfSteps_ownStep x
    refine ⟨(congrArg HostPort.link ho.host).trans h.link, ho.table ▸ h.mem, ho.table ▸ h.descends, ho.table ▸ h.still,
      fun r hr tag ht => (ho.asked r hr).elim (fun hr => h.forwards r hr tag ht) fun hn => ?_⟩
    rw [hn] at ht
    cases ht
  grant x h := by
    have hcase := grantOne_cases x
    generalize grantOne x = t at hcase
    cases hcase with
    | none => exact h
    | deny r rest tag hq ht =>
      have hrest : Apart s e { x with mport := { x.mport with queue := rest } } :=
        ⟨h.link, h.mem, h.descends, h.still, fun y hy => h.forwards y (hq ▸ List.mem_cons_of_mem _ hy)⟩
      exact hrest.denyAtGrant hT he (h.forwards r (hq ▸ List.mem_cons_self ..) tag ht)
    | leaves ht hh hc hq =>
      exact ⟨(congrArg HostPort.link hh).trans h.link, ht ▸ h.mem, ht ▸ h.descends, ht ▸ h.still,
        fun r hr => h.forwards r (hq r hr)⟩
  intake x h := by
    rw [intakeStep, h.link]
    exact h
  close x h := by
    refine ⟨h.link, h.mem, h.descends, h.still, fun r hr => ?_⟩
    obtain ⟨y, hy, rfl⟩ := List.mem_map.mp hr
    exact h.forwards y hy

end

/-! ### O37 -/

/-- PFW has just changed, and the change has been reported. -/
def pfwReported (level : Bool) (s : State) : State := report .power (.powerChange level) (setPfw level s)

section
variable (level : Bool) (s : State)

theorem pfwReported_host : (pfwReported level s).host = { s.host with pfw := level } := by
  rw [pfwReported, report_host]
  rfl

theorem pfwReported_table : (pfwReported level s).table = s.table := by
  rw [pfwReported, report_table]
  rfl

theorem pfwReported_atRest {s : State} (h : AtRest s) : AtRest (pfwReported level s) := by
  have h' : AtRest (setPfw level s) := h
  exact atRest_of_tableOnly h' (report_tableOnly _ _ _) (report_table _ _ _)
    ((congrArg MPort.queue (report_mport _ _ _)).trans h.2.1)

theorem pfwReported_clock : (pfwReported level s).clock = s.clock := by
  rw [pfwReported, report_frame]
  rfl

theorem pfwReported_eng : (pfwReported level s).eng = s.eng := report_eng _ _ _

/-- What holds of the event whatever the visit does. -/
theorem settle_pfw (p : State → Entry → Bool) :
    (settle (visit p (pfwReported level s))).untouched = { s.untouched with pfw := level } ∧
      classPending .power (settle (visit p (pfwReported level s))).ev = true := by
  refine ⟨?_, (((visit_grows p _).trans (settle_grows _)).tells).1⟩
  rw [settle_untouched, untouched_of_table (visit_tableOnly p _), pfwReported, report_untouched]
  rfl

end

/-- The cause of a hold replaced, HELD_SINCE kept. -/
def Entry.reheld (c : HoldCause) (e : Entry) : Entry :=
  match e.stage with
  | .held _ since => { e with stage := .held c since }
  | _ => e

theorem reheld_tag (c : HoldCause) (e : Entry) : (e.reheld c).tag = e.tag := by
  unfold Entry.reheld
  split <;> rfl

/-- The writes held POWER that a walk or a transition holds on keep their HELD_SINCE (R23, R27). -/
theorem settle_reheld {s : State} {c : HoldCause} (h : AtRest s) (hT : TableOk s) (hc : c ≠ .journalFull)
    (hv : ∀ e ∈ s.table, e.heldWith .power = true →
      ∀ l, verdict { pfwReported false s with table := l } e = .hold c) :
    settle (visit (fun _ e => e.heldWith .power) (pfwReported false s)) = report .power (.powerChange false) { s with
      host := { s.host with pfw := false }
      table := s.table.map (fun e => if e.heldWith .power then e.reheld c else e) } := by
  have ht := pfwReported_table false s
  have hvisit := visit_holds (u := pfwReported false s) (chosen := fun e => e.heldWith .power) (h := Entry.reheld c)
    (by rw [ht]; exact hT.2.1) (reheld_tag c) hc fun e he hpow => by
      obtain ⟨since, hst⟩ := (heldWith_iff e .power).mp hpow
      refine ⟨heldWith_pastWaiting hpow, hv e (ht ▸ he) hpow, ?_⟩
      simp only [Entry.reheld, heldSince, hst]
  rw [hvisit, settle_relabelled (pfwReported_atRest false h) fun e he => ?_, ht, pfwReported, report_setTable]
  · rfl
  · by_cases hpow : e.heldWith .power = true
    · obtain ⟨since, hst⟩ := (heldWith_iff e .power).mp hpow
      exact .inr (not_drainWaitsFor_held hst)
    · exact .inl (if_neg hpow)

/-- Every write AT_TURN becomes held POWER (R24). -/
theorem settle_asserted {s : State} (h : AtRest s) (hT : TableOk s ∨ ∀ e ∈ s.table, e.stage ≠ .atTurn)
    (hk : ∀ e ∈ s.table, e.stage = .atTurn → e.kind = .write) :
    settle (visit (fun _ e => e.stage == .atTurn) (pfwReported true s)) = report .power (.powerChange true) { s with
      host := { s.host with pfw := true }
      table := s.table.map (fun e =>
        if e.stage = .atTurn then { e with stage := .held .power s.clock.timebase } else e) } := by
  have ht := pfwReported_table true s
  have hrelabel : visit (fun _ e => e.stage == .atTurn) (pfwReported true s) = { pfwReported true s with
      table := s.table.map (fun e =>
        if e.stage = .atTurn then { e with stage := .held .power s.clock.timebase } else e) } := by
    rcases hT with hT | hnone
    · have hvisit := visit_holds (u := pfwReported true s) (chosen := fun e => e.stage == .atTurn)
        (h := fun e => { e with stage := .held .power s.clock.timebase }) (c := .power) (by rw [ht]; exact hT.2.1)
        (fun _ => rfl) HoldCause.noConfusion fun e he hat => by
          have hst : e.stage = .atTurn := beq_iff_eq.mp hat
          refine ⟨by rw [Entry.pastWaiting, hst]; rfl, fun l => verdict_of_held ?_, ?_⟩
          · have hpfw : (pfwReported true s).host.pfw = true := by rw [pfwReported_host]
            simp only [holdCause, hk e (ht ▸ he) hst, hpfw, if_true]
          · simp only [heldSince, hst, pfwReported_clock]
      simp only [beq_iff_eq] at hvisit
      rw [ht] at hvisit
      exact hvisit
    · rw [visit_of_none fun e he => beq_eq_false_iff_ne.mpr (hnone e (ht ▸ he))]
      have hid : s.table.map (fun e => if e.stage = .atTurn then { e with stage := .held .power s.clock.timebase } else e) =
          s.table := (List.map_congr_left fun e he => if_neg (hnone e he)).trans (List.map_id _)
      rw [hid, ← ht]
  rw [hrelabel, ← ht, settle_relabelled (pfwReported_atRest true h) fun e _ => ?_, ht, pfwReported, report_setTable]
  · rfl
  · by_cases hst : e.stage = .atTurn
    · refine .inr fun hw => ?_
      rcases hw.2.2 with h | h | h <;> rw [hst] at h <;> cases h
    · exact .inl (if_neg hst)

/-- Settles O37. -/
theorem pfwChanges : Obligations.PfwChanges := by
  unfold Obligations.PfwChanges
  intro s hr walks turns passes
  have hassert (hp : s.host.pfw = false) : exec .pfwAssert s =
      .next (settle (visit (fun _ e => e.stage == .atTurn) (pfwReported true s))) := by
    have hexec : exec .pfwAssert s = execPfwAssert s := rfl
    rw [hexec, execPfwAssert, if_neg (by rw [hp]; exact Bool.false_ne_true),
      if_neg (by rw [show s.host.resetHeld = false from hr]; exact Bool.false_ne_true)]
    rfl
  have hdeassert (hp : s.host.pfw = true) : exec .pfwDeassert s =
      .next (settle (visit (fun _ e => e.heldWith .power) (pfwReported false s))) := by
    have hexec : exec .pfwDeassert s = execPfwDeassert s := rfl
    rw [hexec, execPfwDeassert, if_neg (by rw [hp]; exact Bool.false_ne_true),
      if_neg (by rw [show s.host.resetHeld = false from hr]; exact Bool.false_ne_true)]
    rfl
  have ht := pfwReported_table false s
  have hlow : (pfwReported false s).host.pfw = false := by rw [pfwReported_host]
  refine ⟨fun hp => if_pos hp, fun hp => if_pos (by rw [hp]; rfl), fun hp => ?asserted, fun hp => ?deasserted⟩
  case asserted =>
    obtain ⟨hu, hc⟩ := settle_pfw true s (fun _ e => e.stage == .atTurn)
    exact ⟨_, hassert hp, hu, hc, fun h hT hk => settle_asserted h hT hk⟩
  case deasserted =>
    obtain ⟨hu, hc⟩ := settle_pfw false s (fun _ e => e.heldWith .power)
    refine ⟨_, hdeassert hp, hu, hc, fun hT => ?gone, fun h hT e he hcell => ?apart, fun h hT hwrites => ?held,
      fun h hnone => ?none⟩
    case gone =>
      have hT' : TableOk (pfwReported false s) := tableOk_of_table hT ht
      exact (NoPower.settle ⟨(visit_tableOnly _ _).pfw.trans hlow, visit_power hT' hlow⟩).none
    case apart =>
      have h0 : Apart s e (pfwReported false s) := by
        refine ⟨(congrArg HostPort.link (pfwReported_host false s)).trans h.2.2.1, ht ▸ he, fun y hy => ⟨y, ht ▸ hy, rfl, rfl⟩,
          fun y hy _ => ht ▸ hy, fun r hr => ?_⟩
        rw [pfwReported, report_mport, show (setPfw false s).mport.queue = [] from h.2.1] at hr
        cases hr
      have h1 : Apart s e (visit (fun _ e => e.heldWith .power) (pfwReported false s)) :=
        h0.visit hT he (fun _ _ => heldWith_pastWaiting) fun _ y hpow hy heq =>
          Bool.noConfusion ((hcell y hy heq).symm.trans hpow)
      exact ((apart_closed hT he).settle ((apart_closed hT he).self _ h1)).mem
    case held =>
      have hpasses (c : HoldCause) : passes c = report .power (.powerChange false) { s with
          host := { s.host with pfw := false }
          table := s.table.map (fun e => if e.heldWith .power then e.reheld c else e) } := by
        have hmap : (fun e : Entry => match e.stage with
            | .held .power since => { e with stage := .held c since }
            | _ => e) = fun e => if e.heldWith .power then e.reheld c else e := by
          funext e
          cases hst : e.stage with
          | held c' since => cases c' <;> simp [Entry.heldWith, Entry.reheld, hst]
          | _ => simp [Entry.heldWith, hst]
        rewrite [← hmap]
        rfl
      have hcause {c : HoldCause} (hst : (if walkState s.eng.state then some HoldCause.walk
          else if transitionState s.eng.state then some .transition else none) = some c) (e : Entry) (he : e ∈ s.table)
          (hpow : e.heldWith .power = true) (l : List Entry) :
          verdict { pfwReported false s with table := l } e = .hold c := by
        obtain ⟨hk, hj⟩ := hwrites e he hpow
        refine verdict_of_held ?_
        rw [holdCause_of_journal (s := { pfwReported false s with table := l }) hk hlow hj]
        rw [show ({ pfwReported false s with table := l } : State).eng = s.eng from pfwReported_eng false s]
        split at hst
        · rename_i hw
          rw [if_pos hw]
          exact hst
        · rename_i hw
          split at hst
          · rename_i htr
            rw [if_neg hw, if_pos htr]
            exact hst
          · cases hst
      refine ⟨fun hw => ?_, fun htr => ?_⟩
      · rw [hpasses]
        exact settle_reheld h hT HoldCause.noConfusion (hcause (if_pos ((walkState_iff _).mpr hw)))
      · have hnot : ¬ walkState s.eng.state = true := by
          rw [walkState_iff]
          rcases htr with htr | htr | htr <;> rw [htr] <;> simp
        rw [hpasses]
        exact settle_reheld h hT HoldCause.noConfusion
          (hcause ((if_neg hnot).trans (if_pos ((transitionState_iff _).mpr htr))))
    case none =>
      rw [visit_of_none fun e he => hnone e (ht ▸ he), settle_of_atRest (pfwReported_atRest false h)]
      rfl

end Sys2Proof.Machine
end

