-- ==== Sys2Proof/Proofs/ForwardAnswers.lean ====
section
/-! The answers to a forwarded read or write, and what they let go on (R22, R30, R38, R39, R90, R92, R93, R165; O41). -/

namespace Sys2Proof.Machine

/-! ### A BUSY link slot freed -/

section
variable {s : State} {i : LinkNo} {lr : LinkRec} (hb : s.mport.slots[i] = .busy lr)
include hb

/-- No stale link slot is freed. -/
theorem staleAny_freed (p : MemOp → Bool) :
    (s.mport.freed i).slots.toList.any (LinkSlot.isStaleWith p) = s.mport.slots.toList.any (LinkSlot.isStaleWith p) := by
  obtain ⟨pre, post, h1, h2⟩ := slots_split s.mport.slots i
  show (s.mport.slots.set i .free).toList.any _ = _
  rw [h1, h2, hb]
  simp [LinkSlot.isStaleWith]

theorem engineSettled_freed : engineSettled { s with mport := s.mport.freed i } = engineSettled s := by
  simp only [engineSettled, staleForwardTo, staleAny_freed hb]
  rfl

theorem atRest_freed (h : AtRest s) : AtRest { s with mport := s.mport.freed i } :=
  atRest_of_engine ((engineSettled_freed hb).trans (atRest_engine h)) h.2.1 h.2.2.1 h.2.2.2

end

/-! ### An entry that ends, and the one after it -/

/-- The oldest WAITING entry of the cell, a read that nothing holds, takes its turn (R22, R30). -/
theorem giveTurn_next {s x : State} {e next : Entry} (hT : TableOk s) (he : e ∈ s.table) (hst : e.pastWaiting = true)
    (hn : NextReader s e next) (hx : x.table = without e.tag s.table) (hs : x.eng.state = s.eng.state)
    (hw : staleWriteTo x.mport e.cell = staleWriteTo s.mport e.cell) :
    giveTurn e.cell x = enqueue (.forwardRead next.tag next.cell next.first next.count) next.addr
      (putEntry { next with stage := .issued } x) := by
  obtain ⟨hfind, hothers, hk, hfree, hstale⟩ := hn
  have hnext := List.mem_of_find?_eq_some hfind
  have hcell : next.cell = e.cell ∧ next.stage = .waiting := by
    have h := List.find?_some hfind
    simpa using h
  have hne : next.tag ≠ e.tag := fun ht => by
    rw [entry_eq_of_tag hT.2.1 hnext he ht, ] at hcell
    rw [Entry.pastWaiting, hcell.2] at hst
    cases hst
  have hin : next ∈ x.table := by
    rw [hx, mem_without]
    exact ⟨hnext, hne⟩
  have hwaits : ∀ y ∈ x.table, y.cell = e.cell → y.stage = .waiting := fun y hy hc => by
    rw [hx, mem_without] at hy
    exact (hothers y hy.1 hc).resolve_left fun h => hy.2 (congrArg Entry.tag h)
  have hturn : turnOf x e.cell = some next := by
    have hany : x.table.any (fun y => y.cell == e.cell && y.pastWaiting) = false := by
      rw [List.any_eq_false]
      intro y hy
      by_cases hc : y.cell = e.cell
      · simp [Entry.pastWaiting, hwaits y hy hc]
      · simp [hc]
    have hpred : x.table.find? (fun y => y.cell == e.cell) = some next := by
      rw [hx, List.find?_filter, ← hfind]
      refine List.find?_congr fun y hy => ?_
      by_cases hc : y.cell = e.cell
      · by_cases hye : y = e
        · subst hye
          have hnw : (y.stage == .waiting) = false := by
            simpa [Entry.pastWaiting] using hst
          simp [hnw]
        · have hyt : y.tag ≠ e.tag := fun ht => hye (entry_eq_of_tag hT.2.1 hy he ht)
          simp [hc, hyt, (hothers y hy hc).resolve_left hye]
      · simp [hc]
    rw [turnOf, hany, hw, hstale, hpred]
    rfl
  have hexam : examine next x = enqueue (.forwardRead next.tag next.cell next.first next.count) next.addr
      (putEntry { next with stage := .issued } x) := by
    have hheld : holdCause x next = none := by
      have hnot : ¬ (next.cls = .journal ∧ walkState x.eng.state = true) := by
        rw [walkState_iff, hs]
        exact hfree
      simp only [holdCause, hk, if_neg hnot]
    have hv : verdict x next = .issueRead := by simp only [verdict, hheld, hk]
    rw [examine_eq, hv]
    rfl
  have hlen : x.table.length = x.table.length - 1 + 1 := by
    have := List.length_pos_of_mem hin
    omega
  rw [giveTurn, hlen, turns, hturn]
  show turns _ _ (examine next x) = _
  rw [hexam]
  refine turns_stop _ _ _ (turnOf_past (e := { next with stage := .issued }) ?_ hcell.1 rfl)
  rw [enqueue_table]
  exact mem_putIn_self (e := { next with stage := .issued }) hin rfl

section
variable {s u : State} {i : LinkNo} {lr : LinkRec} {e : Entry} (h : AtRest s) (hb : s.mport.slots[i] = .busy lr)
  (hd : s.eng.op ≠ .draining) (ho : TableOnly { s with mport := s.mport.freed i } u) (hm : u.mport = s.mport.freed i)
  (ht : u.table = without e.tag s.table)
include h hb hd ho hm ht

/-- An entry that was alone in its cell has ended. -/
theorem settle_ended (ha : Alone s e) : settle (giveTurn e.cell u) = u := by
  rw [giveTurn_alone ha ht]
  exact settle_still (atRest_freed hb h) hd ho ((congrArg MPort.queue hm).trans h.2.1)

/-- An entry has ended, and the read that waited behind it is forwarded. -/
theorem settle_ended_next (he : e ∈ s.table) (hst : e.pastWaiting = true) {next : Entry} (hT : TableOk s)
    (hn : NextReader s e next) : ForwardsRead u (settle (giveTurn e.cell u)) next := by
  rw [giveTurn_next hT he hst hn ht (congrArg Engine.state ho.eng) (by
    rw [staleWriteTo, hm]
    exact staleAny_freed hb _)]
  have hsettled : engineSettled u = true :=
    engineSettled_of (atRest_engine (atRest_freed hb h)) ho.eng ho.slots ho.queue ho.orphans fun hop => absurd hop hd
  have hover : Over u (putEntry { next with stage := .issued } u) := by
    refine ⟨quiet_of_engineSettled (s := u) hsettled, rfl, (congrArg MPort.queue hm).trans h.2.1, rfl, rfl, ho.link.trans h.2.2.1⟩
  have he' : engineSettled (putEntry { next with stage := .issued } u) = true :=
    engineSettled_of hsettled rfl rfl rfl rfl fun hop => absurd (ho.eng ▸ hop) hd
  obtain ⟨hreq, hfr⟩ := hover.request he' next.addr
    (op := .forwardRead next.tag next.cell next.first next.count) rfl rfl
  refine ⟨hreq.2 (List.ne_nil_of_mem (a := i) (mem_freeSlots.mpr ?_)), hfr⟩
  rw [hm]
  simp [MPort.freed]

end

/-- The drain that ends with this event is followed by the ending header (R90, R92, R93). -/
theorem Over.endsDrain {b x : State} (h : Over b x) (ho : x.eng.op = .draining) (hst : x.eng.state = .closing)
    (hd : Drained x) :
    SendsHeader b (settle x) (closePurpose (x.eng.closeKind.getD .commit)) x.eng ∧
      settle x = { x with eng := (settle x).eng, mport := (settle x).mport, choices := (settle x).choices } ∧
      (settle x).eng.steady = x.eng.steady ∧ (settle x).eng.walk = x.eng.walk := by
  have hstep := drainStep_closing ho hd hst
  have hself : selfSteps x = selfSteps (needHeader (closePurpose (x.eng.closeKind.getD .commit)) x) := by
    rw [← hstep]
    exact (selfSteps_drainStep (by rw [hstep]; exact EngineOp.noConfusion)).symm
  exact settle_header (x := needHeader (closePurpose (x.eng.closeKind.getD .commit)) x) hself rfl h.quiet h.mport h.idle
    h.clock h.cfg h.link

section
variable {s : State} {i : LinkNo} {lr : LinkRec} {e : Entry} (hb : s.mport.slots[i] = .busy lr) (hw : lr.wanted = true)
  (hr : Running s) (he : entryOf s e.tag = some e) (hst : e.stage = .issued) (a : Answer)
include hb hw hr he hst

theorem exec_readAnswered {cell : CellIx} {f n : Nat} (hop : lr.op = .forwardRead e.tag cell f n) :
    exec (.mportAnswer i a) s = .next (settle (giveTurn e.cell (match a with
      | .ok d => endEntry e (.okRead (wordsFrom d e.count)) { s with mport := s.mport.freed i }
      | .error => failEntry e .forwardRead { s with mport := s.mport.freed i }))) := by
  have he' : entryOf { s with mport := s.mport.freed i } e.tag = some e := he
  rw [exec_mportAnswer hb hw hr, hop]
  simp only [deliver, leave, readAnswered, he', hst, if_true]
  cases a <;> rfl

theorem exec_writeAnswered {cell : CellIx} {st : Strobes} {d : CellData} (hop : lr.op = .forwardWrite e.tag cell st d) :
    exec (.mportAnswer i a) s = .next (settle (if answerOk a = true
      then if e.action.isSome = true then putEntry { e with stage := .finishing } { s with mport := s.mport.freed i }
        else giveTurn e.cell (endEntry e .okWrite { s with mport := s.mport.freed i })
      else giveTurn e.cell (failEntry e .forwardWrite { s with mport := s.mport.freed i }))) := by
  have he' : entryOf { s with mport := s.mport.freed i } e.tag = some e := he
  rw [exec_mportAnswer hb hw hr, hop]
  simp only [deliver, leave, writeAnswered, he', hst, if_true]

end

/-- Settles O41. -/
theorem forwardIsAnswered : Obligations.ForwardIsAnswered := by
  unfold Obligations.ForwardIsAnswered
  intro s i lr e d h he hst ended leaves
  have hmem := (entryOf_some he).1
  have hpast : e.pastWaiting = true := by
    rw [Entry.pastWaiting, hst]
    rfl
  have hleaves {a : Answer} {u : State} (hb : s.mport.slots[i] = .busy lr) (hd : s.eng.op ≠ .draining)
      (ho : TableOnly { s with mport := s.mport.freed i } u) (hm : u.mport = s.mport.freed i)
      (ht : u.table = without e.tag s.table) (hexec : exec (.mportAnswer i a) s = .next (settle (giveTurn e.cell u))) :
      leaves a u :=
    ⟨fun ha => hexec.trans (congrArg _ (settle_ended h hb hd ho hm ht ha)),
      fun next hT hn => ⟨_, hexec, settle_ended_next h hb hd ho hm ht hmem hpast hT hn⟩⟩
  have hfail (why : ForwardFault) : TableOnly { s with mport := s.mport.freed i }
      (failEntry e why { s with mport := s.mport.freed i }) ∧
      (failEntry e why { s with mport := s.mport.freed i }).mport = s.mport.freed i ∧
      (failEntry e why { s with mport := s.mport.freed i }).table = without e.tag s.table :=
    ⟨failEntry_tableOnly e why _, by rw [failEntry, report_mport]; rfl, failEntry_table e why _⟩
  refine ⟨fun cell f n ⟨hb, hop, hw, hd⟩ => ⟨?readOk, ?readError⟩,
    fun cell st bytes ⟨hb, hop, hw, hd⟩ => ⟨fun hact => ?writeOk, fun ha hact => ?finishes, ?writeError⟩,
    fun cell st bytes hb hop hw hdr hcl hact ha hlast => ?drained⟩
  case readOk =>
    exact hleaves hb hd (endEntry_tableOnly e _ _) rfl rfl (exec_readAnswered hb hw h.2.2.2 he hst (.ok d) hop)
  case readError =>
    obtain ⟨ho, hm, ht⟩ := hfail .forwardRead
    exact hleaves hb hd ho hm ht (exec_readAnswered hb hw h.2.2.2 he hst .error hop)
  case writeOk =>
    refine hleaves hb hd (endEntry_tableOnly e _ _) rfl rfl ((exec_writeAnswered hb hw h.2.2.2 he hst (.ok d) hop).trans ?_)
    rw [hact]
    rfl
  case finishes =>
    rw [exec_writeAnswered hb hw h.2.2.2 he hst (.ok d) hop, answerOk, if_pos rfl, if_pos (Option.isSome_iff_ne_none.mpr hact),
      settle_still (atRest_freed hb h) hd (putEntry_tableOnly _ _) h.2.1]
    rfl
  case writeError =>
    obtain ⟨ho, hm, ht⟩ := hfail .forwardWrite
    exact hleaves hb hd ho hm ht (exec_writeAnswered hb hw h.2.2.2 he hst .error hop)
  case drained =>
    have hgive : giveTurn e.cell (ended .okWrite) = ended .okWrite := giveTurn_alone ha rfl
    have hexec : exec (.mportAnswer i (.ok d)) s = .next (settle (ended .okWrite)) :=
      (exec_writeAnswered hb hw h.2.2.2 he hst (.ok d) hop).trans (by
        rw [hact]
        exact congrArg (fun x => Host.Outcome.next (settle x)) hgive)
    have hquiet := atRest_records h
    have hover : Over (ended .okWrite) (ended .okWrite) := ⟨hquiet, rfl, h.2.1, rfl, rfl, h.2.2.1⟩
    have hdone : Drained (ended .okWrite) := fun x hx hwait => by
      obtain ⟨hx, hne⟩ := mem_without.mp hx
      exact hne (hlast x hx hwait)
    have hends := hover.endsDrain hdr hcl hdone
    rw [show (ended .okWrite).eng.closeKind = s.eng.closeKind from rfl, closePurpose_eq] at hends
    exact ⟨_, hexec, hends⟩

end Sys2Proof.Machine
end

