-- ==== Sys2Proof/Proofs/OldContents.lean ====
section
/-! The answer to an old-content read: the judgement by the watch rules, the record, the forward, or the end of the
write (R36, R37, R43 to R47, R60, R119, R125; O42, O43). -/

namespace Sys2Proof.Machine

/-! ### The engine's waits, while records come and go -/

/-- In x the engine stands at the wait it had in s, where it did not drain. -/
structure SameWaits (s x : State) : Prop where
  notDraining : s.eng.op ≠ .draining
  op : x.eng.op = s.eng.op
  copy : x.eng.nextCopy = s.eng.nextCopy
  headersA : x.eng.hdrOutA = s.eng.hdrOutA
  headersB : x.eng.hdrOutB = s.eng.hdrOutB
  restores : x.eng.restoreOut = s.eng.restoreOut
  stale : ∀ cell, staleForwardTo x.mport cell = staleForwardTo s.mport cell

section
variable {s x : State} (h : SameWaits s x) (hs : engineSettled s = true)
include h hs

theorem SameWaits.still (hq : RecordsQuiet x) : engineSettled x = true := by
  have hout : ∀ c, x.eng.hdrOut c = s.eng.hdrOut c := fun c => by
    cases c with
    | a => exact h.headersA
    | b => exact h.headersB
  cases ho : s.eng.op with
  | none => exact engineSettled_of_none (h.op.trans ho) hq
  | draining => exact absurd ho h.notDraining
  | headerWrite why asked =>
    refine engineSettled_of_headerWrite (h.op.trans ho) (fun ha => ?_) hq
    subst ha
    rw [engineSettled, ho] at hs
    simp only [Bool.and_eq_true, bne_iff_ne] at hs
    rw [hout, h.copy]
    exact hs.1.2
  | headerReads why a b =>
    obtain ⟨ha, hb⟩ := notMayRead_of_settled ho hs
    exact engineSettled_of_headerReads (h.op.trans ho) (h.headersA ▸ ha) (h.headersB ▸ hb) hq
  | restoreWait cell bytes =>
    refine engineSettled_of_restoreWait (h.op.trans ho) ?_ hq
    rw [engineSettled, ho] at hs
    simp only [Bool.and_eq_true, Bool.or_eq_true, bne_iff_ne] at hs
    rw [h.restores, h.stale]
    exact hs.1.2
  | recordReads a b => exact engineSettled_of_recordReads (h.op.trans ho) hq
  | restoreIssued cell => exact engineSettled_of_restoreIssued (h.op.trans ho) hq

theorem SameWaits.header_rests : headerStep x = x := by
  have hout : ∀ c, x.eng.hdrOut c = s.eng.hdrOut c := fun c => by
    cases c with
    | a => exact h.headersA
    | b => exact h.headersB
  cases ho : s.eng.op with
  | headerWrite why asked =>
    cases asked with
    | true =>
      unfold headerStep
      rw [h.op, ho]
    | false =>
      refine headerStep_waits (h.op.trans ho) ?_
      rw [engineSettled, ho] at hs
      simp only [Bool.and_eq_true, bne_iff_ne] at hs
      rw [hout, h.copy]
      exact hs.1.2
  | headerReads why a b =>
    obtain ⟨ha, hb⟩ := notMayRead_of_settled ho hs
    have hx := h.op.trans ho
    rw [← h.headersA] at ha
    rw [← h.headersB] at hb
    rw [headerStep_reads hx]
    simp only [readAsked, if_neg ha, if_neg hb, setEng]
    rw [← hx]
  | _ =>
    unfold headerStep
    rw [h.op, ho]

/-- Such an engine leaves a round to the record queue. -/
theorem SameWaits.steps (hq : RecordsQuiet (recordStep x)) (hm : (recordStep x).mport.slots = x.mport.slots) :
    selfSteps x = recordStep x := by
  have hdrain : drainStep x = x := drainStep_of_op (h.op ▸ h.notDraining)
  have he := recordStep_eng x
  have hrec : SameWaits s (recordStep x) := by
    refine ⟨h.notDraining, ?_, ?_, ?_, ?_, ?_, fun cell => ?_⟩
    · rw [he, h.op]
    · rw [he, h.copy]
    · rw [he, h.headersA]
    · rw [he, h.headersB]
    · rw [he, h.restores]
    · rw [← h.stale cell, staleForwardTo, staleForwardTo, hm]
  rw [selfSteps, hdrain, h.header_rests hs, restoreStep_engineSettled (hrec.still hs hq)]

end

/-- A state that differs from one at rest in nothing the engine waits for, and has no record to request. -/
theorem settle_same {s t : State} (h : AtRest s) (hw : SameWaits s t) (hq : RecordsQuiet t) (hm : t.mport.queue = [])
    (hh : t.host.link = s.host.link) (hr : t.host.resetHeld = s.host.resetHeld) : settle t = t :=
  settle_of_engine (hw.still (atRest_engine h) hq) hm (hh.trans h.2.2.1) (hr.trans h.2.2.2)

theorem enqueue_slots (op : MemOp) (addr : Addr) (s : State) : (enqueue op addr s).mport.slots = s.mport.slots := by
  obtain ⟨cs, before, after, -, -, h⟩ := enqueue_cases op addr s
  rw [h]

/-! ### A record that joins the queue -/

theorem markRequested_last {q : List RecElem} {r : RecElem} (h : ∀ x ∈ q, x.index ≠ r.index) :
    markRequested r.index (q ++ [r]) = q ++ [{ r with requested := true }] := by
  have hq : markRequested r.index q = q := (List.map_congr_left fun x hx => if_neg (h x hx)).trans (List.map_id q)
  rw [markRequested, List.map_append, ← markRequested, hq]
  simp

theorem recordStep_last {x : State} {q : List RecElem} {r : RecElem} (hq : x.pres.queue = q ++ [r])
    (hn : ∀ y ∈ q, mayRequest x.pres y = false) : recordStep x = requestIfClear x r := by
  have hfold : ∀ l : List RecElem, (∀ y ∈ l, mayRequest x.pres y = false) → l.foldl requestIfClear x = x := by
    intro l hl
    induction l with
    | nil => rfl
    | cons y l ih =>
      rw [List.foldl_cons, requestIfClear, hl y List.mem_cons_self]
      exact ih fun z hz => hl z (List.mem_cons_of_mem _ hz)
  rw [recordStep, hq, List.foldl_append, hfold q hn]
  rfl

/-- No slot number of the record at index k appears in the orphan list (R47). -/
abbrev ClearOfOrphans (p : Preservation) (k : Nat) : Prop :=
  recordSlot k .header ∉ p.orphans ∧ recordSlot k .data ∉ p.orphans

/-- A record has joined the queue of b: its slot writes are requested at once, unless a slot is an orphan's
(R45 to R47). -/
theorem settle_allocated {b x : State} {r : RecElem} {n : Nat} {t : List Entry} {rs : Vector WatchRule 8}
    {ev : EventUnit} (h : AtRest b) (hd : b.eng.op ≠ .draining) (hr : r.requested = false)
    (hi : ∀ y ∈ b.pres.queue, y.index ≠ r.index)
    (hx : x = { b with
      table := t, rules := rs, ev := ev, eng := { b.eng with nextIndex := n }
      pres := { b.pres with claims := x.pres.claims, queue := b.pres.queue ++ [r] } }) :
    let r' : RecElem := { r with requested := decide (ClearOfOrphans b.pres r.index) }
    (ClearOfOrphans b.pres r.index → WritesRecord b (settle x) r') ∧
      (¬ ClearOfOrphans b.pres r.index → (settle x).mport = b.mport) ∧
      settle x = { x with
        pres := { x.pres with queue := b.pres.queue ++ [r'] }
        mport := (settle x).mport, choices := (settle x).choices } := by
  intro r'
  have hquiet := List.any_eq_false.mp (atRest_records h)
  have horph : x.pres.orphans = b.pres.orphans := by rw [hx]
  have hcfg : x.cfg = b.cfg := by rw [hx]
  have hclock : x.clock = b.clock := by rw [hx]
  have hmport : x.mport = b.mport := by rw [hx]
  have hlink : x.host.link = [] := by rw [hx]; exact h.2.2.1
  have hqueue : x.pres.queue = b.pres.queue ++ [r] := by rw [hx]
  have hmay : ∀ p : Preservation, p.orphans = b.pres.orphans → ∀ y ∈ b.pres.queue, mayRequest p y = false :=
      fun p hp y hy => by
    rw [Bool.eq_false_iff, mayRequest, slotsClear, hp]
    exact hquiet y hy
  have hwaits : ∀ y : State, y.eng = x.eng → y.mport.slots = x.mport.slots → SameWaits b y := fun y he hm => by
    refine ⟨hd, ?_, ?_, ?_, ?_, ?_, fun cell => ?_⟩
    iterate 5 rw [he, hx]
    rw [staleForwardTo, hm, hx]
    rfl
  have hstep : recordStep x = requestIfClear x r := recordStep_last hqueue (hmay _ horph)
  by_cases hc : ClearOfOrphans b.pres r.index
  · have hr' : r' = { r with requested := true } := by
      simp only [r', decide_eq_true hc]
    have hclear : mayRequest x.pres r = true := by
      rw [mayRequest, hr, (slotsClear_iff x.pres r.index).mpr (horph ▸ hc)]
      rfl
    rw [requestIfClear, if_pos hclear] at hstep
    have hmark : markRequested r.index x.pres.queue = b.pres.queue ++ [r'] := by
      rw [hqueue, markRequested_last hi, hr']
    let y : State := { x with pres := { x.pres with queue := markRequested r.index x.pres.queue } }
    have hyq : RecordsQuiet y := by
      show (markRequested r.index x.pres.queue).any (mayRequest x.pres) = false
      rw [hmark, List.any_append, List.any_eq_false.mpr fun z hz => Bool.eq_false_iff.mp (hmay _ horph z hz), hr']
      rfl
    have hye : engineSettled y = true := (hwaits y rfl rfl).still (atRest_engine h) hyq
    have hre : engineSettled (recordStep x) = true := by
      rw [hstep, requestSlots, engineSettled_enqueue, engineSettled_enqueue]
      exact hye
    have hslots : (recordStep x).mport.slots = x.mport.slots := by
      rw [hstep, requestSlots]
      rw [enqueue_slots, enqueue_slots]
    have hself := (hwaits x rfl rfl).steps (atRest_engine h) (quiet_of_engineSettled hre) hslots
    rw [hstep] at hself
    obtain ⟨hpair, hfr⟩ := settle_pair (x := y) (b := b)
      (p := (.slotWrite r.index .header (recordBytes r .header), slotAddr x.cfg (recordSlot r.index .header)))
      (q := (.slotWrite r.index .data (recordBytes r .data), slotAddr x.cfg (recordSlot r.index .data)))
      hself hmport h.2.1 hclock hcfg hye hlink rfl rfl rfl rfl
    rw [hcfg] at hpair
    refine ⟨fun _ => hpair, fun hn => absurd hc hn, hfr.trans ?_⟩
    rw [← hmark]
  · have hr' : r' = r := by
      simp only [r', decide_eq_false hc, ← hr]
    have hclear : ¬ mayRequest x.pres r = true := by
      rw [mayRequest, Bool.and_eq_true, slotsClear_iff, horph]
      exact fun hm => hc hm.2
    have hxq : RecordsQuiet x := by
      show x.pres.queue.any (mayRequest x.pres) = false
      rw [hqueue, List.any_append, List.any_eq_false.mpr fun z hz => Bool.eq_false_iff.mp (hmay _ horph z hz)]
      simp [hclear]
    have hset : settle x = x :=
      settle_same h (hwaits x rfl rfl) hxq (by rw [hx]; exact h.2.1) (by rw [hx]) (by rw [hx])
    rw [hset, hr']
    refine ⟨fun hn => absurd hn hc, fun _ => by rw [hx], ?_⟩
    rw [← hqueue]

/-! ### The judgement -/

theorem putIn_putIn {a b : Entry} (h : a.tag = b.tag) (l : List Entry) : putIn a (putIn b l) = putIn a l := by
  rw [putIn, putIn, List.map_map]
  refine List.map_congr_left fun x _ => ?_
  by_cases hx : x.tag = b.tag
  · simp [hx, h]
  · simp [hx, h]

theorem without_putIn {e : Entry} {t : Tag} (h : e.tag = t) (l : List Entry) : without t (putIn e l) = without t l := by
  subst h
  have hp : ((fun x : Entry => x.tag != e.tag) ∘ fun x => if x.tag = e.tag then e else x) = fun x => x.tag != e.tag := by
    funext x
    by_cases hx : x.tag = e.tag <;> simp [hx]
  rw [without, List.filter_map, hp]
  refine (List.map_congr_left fun x hx => if_neg ?_).trans (List.map_id _)
  exact (mem_without.mp hx).2

/-- A report sees the event unit, the time and the epoch. -/
theorem report_ev_of {c : EvClass} {b : NoticeBody} {s t : State} (he : s.ev = t.ev) (hc : s.clock = t.clock)
    (hg : s.eng.epoch = t.eng.epoch) : (report c b s).ev = (report c b t).ev := by
  by_cases h : s.ev.notices.length < Config.noticePlaces
  · rw [report, report, post, post, if_pos h, if_pos (he ▸ h)]
    simp only [setClass_ev, he, hc, hg]
  · rw [report, report, post, post, if_neg h, if_neg (he ▸ h)]
    simp only [setClass_ev, he]

/-- The state with another table and another M-port. -/
def State.at (l : List Entry) (m : MPort) (s : State) : State := { s with table := l, mport := m }

section
variable (l : List Entry) (m : MPort) (s : State)

theorem report_at (c : EvClass) (b : NoticeBody) : report c b (s.at l m) = (report c b s).at l m := by
  rw [report_frame c b (s.at l m), report_ev_of (s := s.at l m) (t := s) rfl rfl rfl, report_frame c b s]
  rfl

theorem evalRule_at (e : Entry) (d : CellData) (as : List Asked) (n : RuleNo) :
    evalRule e d (s.at l m, as) n = ((evalRule e d (s, as) n).1.at l m, (evalRule e d (s, as) n).2) := by
  have hrules : (s.at l m).rules = s.rules := rfl
  have hput : ∀ r, putRule n r (s.at l m) = (putRule n r s).at l m := fun _ => rfl
  have hfire : ∀ o w b, fireRule n e.tag o w b (s.at l m) = (fireRule n e.tag o w b s).at l m := fun o w b => by
    simp only [fireRule, hrules, hput, report_at]
  have hover : overrunRule n e.tag (s.at l m) = (overrunRule n e.tag s).at l m := by
    simp only [overrunRule, hrules, hput, report_at]
    split <;> rfl
  simp only [evalRule, hrules, hfire, hover]
  split
  · generalize s.rules[n].compare _ _ = c
    cases c with
    | noMatch => rfl
    | matched bit =>
      dsimp only
      generalize s.rules[n].state = st
      cases st <;> rfl
  · rfl

/-- The evaluation sees neither the table nor the M-port. -/
theorem evaluate_at (e : Entry) (d : CellData) :
    evaluate e d (s.at l m) = ((evaluate e d s).1.at l m, (evaluate e d s).2) := by
  have hfold : ∀ (ns : List RuleNo) (s : State) (as : List Asked),
      ns.foldl (evalRule e d) (s.at l m, as) =
        ((ns.foldl (evalRule e d) (s, as)).1.at l m, (ns.foldl (evalRule e d) (s, as)).2) := by
    intro ns
    induction ns with
    | nil => exact fun _ _ => rfl
    | cons n ns ih =>
      intro s as
      rw [List.foldl_cons, evalRule_at, ih, List.foldl_cons]
  exact hfold e.watched s []

end

theorem evaluate_frame (e : Entry) (d : CellData) (s : State) :
    (evaluate e d s).1 = { s with rules := (evaluate e d s).1.rules, ev := (evaluate e d s).1.ev } := by
  obtain ⟨rs, ev, h⟩ := (evaluate_watchOnly e d s).rest
  rw [h]

/-- The state in which the read of a judged write's old content leaves the rest: the rules and the notices are as the
evaluation leaves them, the link slot is free (R119, R165). -/
def judgedAt (read : Entry) (d : CellData) (i : LinkNo) (s : State) : State :=
  { s with rules := (evaluate read d s).1.rules, ev := (evaluate read d s).1.ev, mport := s.mport.freed i }

theorem evaluate_freed (read : Entry) (d : CellData) (i : LinkNo) (s : State) :
    evaluate read d (putEntry read { s with mport := s.mport.freed i }) =
      (putEntry read (judgedAt read d i s), (evaluate read d s).2) := by
  have h := evaluate_at (putIn read s.table) (s.mport.freed i) s read d
  rw [evaluate_frame] at h
  exact h

/-- The write goes on, with this action (R37, R125). -/
def GoesOnWith (m : Merge) (e : Entry) (action : Option (EpochAction × RuleNo)) : Prop :=
  m = .pass ∧ action = e.action ∨ ∃ a r, m = .act a r ∧ action = some (a, r)

section
variable {e : Entry} {d : CellData} {i : LinkNo} {s : State}

theorem oldArrives_refused (hm : merge (evaluate { e with old := some d } d s).2 = .refuse) :
    oldArrives e d { s with mport := s.mport.freed i } =
      let read : Entry := { e with old := some d }
      let u := putEntry read (judgedAt read d i s)
      afterEnd read u (denyEntry read .watch u) := by
  simp only [oldArrives, evaluate_freed, hm]

theorem oldArrives_goesOn {action : Option (EpochAction × RuleNo)}
    (hm : GoesOnWith (merge (evaluate { e with old := some d } d s).2) e action) :
    oldArrives e d { s with mport := s.mport.freed i } =
      let read : Entry := { e with old := some d }
      let u := putEntry read (judgedAt read d i s)
      if e.decision = some .preserve then allocate { read with action := action } d u
      else forward { read with action := action } u := by
  rcases hm with ⟨hm, rfl⟩ | ⟨a, r, hm, rfl⟩
  · simp only [oldArrives, evaluate_freed, hm]
  · simp only [oldArrives, evaluate_freed, hm]

end

/-- An event that frees entries and places re-examines none where none waits (R34, R57). -/
theorem afterFree_of_noneWaits {s t : State} (h : NoneWaits s)
    (ht : ∀ e ∈ t.table, e ∈ s.table ∨ e.undecided = false) (cells : List CellIx) (place room : Bool) :
    afterFree cells place room t = t := by
  refine visit_of_none fun e he => ?_
  rcases ht e he with hin | hu
  · obtain ⟨hw, ha, hh⟩ := h e hin
    unfold freedChoice
    unfold Entry.heldWith at hh
    split
    · exact absurd ‹_› hw
    · exact absurd ‹_› ha
    · simp_all
    · rfl
  · by_contra hc
    rw [freedChoice_undecided cells place room t e (by simpa using hc)] at hu
    cases hu

section
variable {s : State} {i : LinkNo} {lr : LinkRec} {e : Entry} {d : CellData} (h : AtRest s)
  (hb : s.mport.slots[i] = .busy lr) (hd : s.eng.op ≠ .draining)

theorem exec_oldReadAnswered {cell : CellIx} (hb : s.mport.slots[i] = .busy lr) (hop : lr.op = .oldRead e.tag cell)
    (hw : lr.wanted = true) (hr : Running s) (he : entryOf s e.tag = some e) (hst : e.stage = .fetchingOld) (a : Answer) :
    exec (.mportAnswer i a) s = .next (settle (match a with
      | .ok d => oldArrives e d { s with mport := s.mport.freed i }
      | .error => failOldRead e { s with mport := s.mport.freed i })) := by
  have he' : entryOf { s with mport := s.mport.freed i } e.tag = some e := he
  rw [exec_mportAnswer hb hw hr, hop]
  cases a with
  | ok d => simp only [deliver, leave, oldReadAnswered, he', hst, if_true]
  | error => simp only [deliver, leave, oldReadAnswered, he', hst, if_true]

include h hb hd

/-- What the evaluation, an entry's end or a claim change leaves the engine where it was (R119, R165). -/
theorem settle_unasked {t : State} (ht : t = { s with
      rules := t.rules, ev := t.ev, table := t.table, host := { s.host with out := t.host.out }
      pres := { s.pres with claims := t.pres.claims }, mport := s.mport.freed i }) :
    engineSettled t = true ∧ settle t = t := by
  have hw : SameWaits { s with mport := s.mport.freed i } t := by
    rw [ht]
    exact ⟨hd, rfl, rfl, rfl, rfl, rfl, fun _ => rfl⟩
  have hq : RecordsQuiet t := by
    have hq := atRest_records h
    rw [ht]
    exact hq
  exact ⟨hw.still (atRest_engine (atRest_freed hb h)) hq,
    settle_same (atRest_freed hb h) hw hq (by rw [ht]; exact h.2.1) (by rw [ht]) (by rw [ht])⟩

/-- The write of a judged PRESERVE becomes a record (R45 to R47). -/
theorem settle_recorded {x : Entry} (hx : x.tag = e.tag) (hi : ∀ r ∈ s.pres.queue, r.index ≠ s.eng.nextIndex) :
    let read : Entry := { e with old := some d }
    let u := judgedAt read d i s
    let k := s.eng.nextIndex
    let clear := ClearOfOrphans s.pres k
    let record : RecElem :=
      { index := k, cell := x.cell, data := d, tag := x.tag, epoch := x.epoch.getD s.eng.epoch
        journalId := s.eng.journalId, requested := decide clear, headerAck := false, dataAck := false }
    let t := settle (allocate x d (putEntry read u))
    (clear → WritesRecord u t record) ∧ (¬ clear → t.mport = u.mport) ∧
      t = { u with
        table := s.table.map (fun y => if y.tag = x.tag then { x with stage := .recording, record := some k } else y)
        eng := { s.eng with nextIndex := k + 1 }
        pres := { s.pres with claims := s.pres.claims - 1, queue := s.pres.queue ++ [record] }
        mport := t.mport, choices := t.choices } := by
  intro read u k clear record t
  have halloc : allocate x d (putEntry read u) = { u with
      table := s.table.map (fun y => if y.tag = x.tag then { x with stage := .recording, record := some k } else y)
      eng := { s.eng with nextIndex := k + 1 }
      pres := { s.pres with
        claims := s.pres.claims - 1
        queue := s.pres.queue ++ [{ record with requested := false }] } } := by
    have hput := putIn_putIn (a := { x with stage := .recording, record := some k }) (b := read) hx s.table
    simp only [putIn] at hput
    rewrite [← hput]
    rfl
  have hset := settle_allocated (x := allocate x d (putEntry read u)) (r := { record with requested := false })
    (atRest_freed hb h) hd rfl hi (by rw [halloc]; rfl)
  obtain ⟨hwr, hm, hfr⟩ := hset
  refine ⟨hwr, hm, hfr.trans ?_⟩
  show ({ allocate x d (putEntry read u) with
    pres := { (allocate x d (putEntry read u)).pres with queue := s.pres.queue ++ [record] }
    mport := t.mport, choices := t.choices } : State) = _
  rw [halloc]

/-- A write that claims nothing has ended with its read, alone in its cell. -/
theorem settle_endedBare {t b : State} {x : Entry} (hc : x.cell = e.cell) (hdec : x.decision ≠ some .preserve)
    (ha : Alone s e) (ht : t = { s with
      rules := t.rules, ev := t.ev, table := without e.tag s.table, host := { s.host with out := t.host.out }
      mport := s.mport.freed i }) : settle (afterEnd x b t) = t := by
  rw [afterEnd, if_neg hdec, hc, giveTurn_alone ha (by rw [ht])]
  refine (settle_unasked h hb hd ?_).2
  rw [ht]

/-- A PRESERVE write has ended with its read, and its claim is released, with no entry that waits for it (R44). -/
theorem settle_endedPreserve {t b : State} {x : Entry} (hdec : x.decision = some .preserve) (hn : NoneWaits s)
    (ht : t = { s with
      rules := t.rules, ev := t.ev, table := without e.tag s.table, host := { s.host with out := t.host.out }
      mport := s.mport.freed i }) :
    settle (afterEnd x b t) = { t with pres := { s.pres with claims := s.pres.claims - 1 } } := by
  have hin : ∀ y ∈ (releaseClaim t).table, y ∈ s.table ∨ y.undecided = false := fun y hy => by
    rw [releaseClaim_table, ht] at hy
    exact .inl (mem_without.mp hy).1
  rw [afterEnd, if_pos hdec, afterFree_of_noneWaits hn hin]
  have hset := (settle_unasked h hb hd (t := releaseClaim t) (by
    rw [ht]
    rfl)).2
  rw [hset, releaseClaim, ht]

/-- A judged write that claims nothing is forwarded (R38). -/
theorem settle_judgedForward {x : Entry} (hx : x.tag = e.tag) (hj : inJournalArea s.cfg x.cell = false) :
    let read : Entry := { e with old := some d }
    let u := judgedAt read d i s
    let t := settle (forward x (putEntry read u))
    Issues u t (.forwardWrite x.tag x.cell x.strobes x.data) (cellAddr x.cell) ∧
      t = { u with
        table := s.table.map (fun y => if y.tag = x.tag then { x with stage := .issued } else y)
        mport := t.mport, choices := t.choices } := by
  intro read u t
  let y : State := { u with table := s.table.map (fun y => if y.tag = x.tag then { x with stage := .issued } else y) }
  have hforward : forward x (putEntry read u) =
      enqueue (.forwardWrite x.tag x.cell x.strobes x.data) (cellAddr x.cell) y := by
    have hput := putIn_putIn (a := { x with stage := .issued }) (b := read) hx s.table
    simp only [putIn] at hput
    simp only [y]
    rewrite [← hput]
    rfl
  have he : engineSettled y = true := (settle_unasked h hb hd (t := y) rfl).1
  have hover : Over u y := ⟨quiet_of_engineSettled he, rfl, h.2.1, rfl, rfl, h.2.2.1⟩
  have hdeny : deniedAtGrant u.cfg (.forwardWrite x.tag x.cell x.strobes x.data) = none := by
    rw [deniedAtGrant]
    exact if_neg (by rw [show u.cfg = s.cfg from rfl, hj]; exact Bool.false_ne_true)
  obtain ⟨hreq, hfr⟩ := hover.request he (cellAddr x.cell) hdeny rfl
  have hfree : freeSlots u.mport ≠ [] :=
    List.ne_nil_of_mem (a := i) (mem_freeSlots.mpr (by simp [u, judgedAt, MPort.freed]))
  rw [← hforward] at hreq hfr
  exact ⟨hreq.2 hfree, hfr⟩

end

/-- What a failed read leaves (R36, R60). -/
theorem failOldRead_eq (e : Entry) (i : LinkNo) (s : State) :
    failOldRead e { s with mport := s.mport.freed i } =
      afterEnd e { s with mport := s.mport.freed i } (failEntry e .oldRead { s with mport := s.mport.freed i }) := rfl

theorem failEntry_frame (e : Entry) (why : ForwardFault) (s : State) : failEntry e why s = { s with
    ev := (failEntry e why s).ev, table := without e.tag s.table
    host := { s.host with out := (failEntry e why s).host.out } } := by
  rw [failEntry, report_frame]
  rfl

/-- A write refused by its rules, as it stands (R35, R37). -/
theorem denyEntry_judged (e : Entry) (d : CellData) (i : LinkNo) (s : State) :
    let read : Entry := { e with old := some d }
    let u := judgedAt read d i s
    denyEntry read .watch (putEntry read u) = report .protect (.denied e.addr e.tag .watch) { u with
      host := { u.host with out := u.host.out ++ [⟨e.tag, .denied⟩] }
      table := s.table.filter (fun x => x.tag != e.tag) } := by
  intro read u
  have hput := without_putIn (e := read) (t := e.tag) rfl s.table
  simp only [without] at hput
  rewrite [← hput]
  rfl

/-- Settles O43. -/
theorem watchedWriteIsJudged : Obligations.WatchedWriteIsJudged := by
  unfold Obligations.WatchedWriteIsJudged
  intro s i lr e cell d h ⟨hb, hop, hw, hd⟩ he hst ha read judged asked u refused failed passes
  have hexec (a : Answer) := exec_oldReadAnswered hb hop hw h.2.2.2 he hst a
  have hpasses {goes : Option (EpochAction × RuleNo) → Prop}
      (hg : ∀ action, GoesOnWith (merge asked) e action → goes action) :
      passes goes :=
    ⟨fun hm => hg _ (.inl ⟨hm, rfl⟩), fun a r hm => hg _ (.inr ⟨a, r, hm, rfl⟩)⟩
  clear_value passes
  have hfailed : failEntry e .oldRead { s with mport := s.mport.freed i } = failed := rfl
  have hrefused : denyEntry read .watch (putEntry read u) = refused := denyEntry_judged e d i s
  have hfail := hexec .error
  dsimp only at hfail
  rw [failOldRead_eq, hfailed] at hfail
  have hframe : failed = { s with
      rules := failed.rules, ev := failed.ev, table := without e.tag s.table, host := { s.host with out := failed.host.out }
      mport := s.mport.freed i } := by
    rw [← hfailed, failEntry_frame]
  have hrframe : refused = { s with
      rules := refused.rules, ev := refused.ev, table := without e.tag s.table
      host := { s.host with out := refused.host.out }, mport := s.mport.freed i } := by
    simp only [refused]
    rw [report_frame]
  refine ⟨fun hdec hj => ⟨fun hm => ?refuse, ?forward, ?fail⟩, fun hdec hn => ?preserves⟩
  case refuse =>
    rw [hexec]
    dsimp only
    rw [oldArrives_refused hm]
    show Host.Outcome.next (settle (afterEnd read _ (denyEntry read .watch (putEntry read u)))) = _
    rw [hrefused, settle_endedBare (e := e) (x := read) h hb hd rfl hdec ha hrframe]
  case forward =>
    refine hpasses fun action hm => ?_
    rw [hexec]
    dsimp only
    rw [oldArrives_goesOn hm]
    dsimp only
    rw [if_neg hdec]
    exact ⟨_, rfl, settle_judgedForward (x := { read with action := action }) h hb hd rfl hj⟩
  case fail =>
    rw [hfail, settle_endedBare h hb hd rfl hdec ha hframe]
  case preserves =>
  intro k clear record
  refine ⟨?failPreserve, fun hm => ?refusePreserve, fun hi => ?records⟩
  case failPreserve =>
    rw [hfail, settle_endedPreserve h hb hd hdec hn hframe]
  case refusePreserve =>
    rw [hexec]
    dsimp only
    rw [oldArrives_refused hm]
    show Host.Outcome.next (settle (afterEnd read _ (denyEntry read .watch (putEntry read u)))) = _
    rw [hrefused, settle_endedPreserve (e := e) (x := read) h hb hd hdec hn hrframe]
  case records =>
    refine hpasses fun action hm => ?_
    rw [hexec]
    dsimp only
    rw [oldArrives_goesOn hm]
    dsimp only
    rw [if_pos hdec]
    exact ⟨_, rfl, settle_recorded (x := { read with action := action }) h hb hd rfl hi⟩

/-! ### The end of a PRESERVE write, and the write AT_TURN that takes its place -/

theorem judgedAt_unwatched {e : Entry} (h : e.watched = []) (d : CellData) (i : LinkNo) (s : State) :
    judgedAt e d i s = { s with mport := s.mport.freed i } := by
  rw [judgedAt, evaluate, h]
  rfl

theorem releaseClaim_report (c : EvClass) (b : NoticeBody) (s : State) :
    releaseClaim (report c b s) = report c b (releaseClaim s) := by
  rw [report_frame c b (releaseClaim s), report_ev_of (s := releaseClaim s) (t := s) rfl rfl rfl, report_frame c b s]
  rfl

/-- A write AT_TURN while the only other entries are past their own waits has its cell to itself (R22). -/
theorem alone_atTurn {s : State} {e : Entry} (hT : TableOk s) (he : e ∈ s.table) (hp : e.pastWaiting = true)
    (ho : ∀ x ∈ s.table, x ≠ e → x.stage ≠ .waiting) : Alone s e := fun x hx hc => by
  by_contra hne
  have hxp : x.pastWaiting = true := by
    rw [Entry.pastWaiting, bne_iff_ne]
    exact ho x hx hne
  exact hne (hT.2.2 x hx e he hc hxp hp)

/-- The event that frees a place while one write AT_TURN waits for it, and nothing else waits (R34, R44). -/
theorem afterFree_atTurn {s t : State} {next : Entry} (hT : TableOk t) (hs : ∀ x ∈ t.table, x ∈ s.table)
    (hn : next ∈ t.table) (hst : next.stage = .atTurn) (hp : placeFree t.pres = true)
    (ho : ∀ x ∈ s.table, x ≠ next → x.stage ≠ .waiting ∧ x.stage ≠ .atTurn ∧ x.heldWith .journalFull = false)
    (cells : List CellIx) (room : Bool) : afterFree cells true room t = examine next t := by
  have hpast : next.pastWaiting = true := by rw [Entry.pastWaiting, hst]; rfl
  have hother (u : State) : ∀ x ∈ t.table, x ≠ next → freedChoice cells true room u x = false := by
    intro x hx hne
    obtain ⟨hw, ha, hh⟩ := ho x (hs x hx) hne
    unfold Entry.heldWith at hh
    unfold freedChoice
    split
    · exact absurd ‹_› hw
    · exact absurd ‹_› ha
    · simp_all
    · rfl
  have hchosen : freedChoice cells true room t next = true := by
    unfold freedChoice
    rw [hst]
    exact hp
  have halone : Alone t next := alone_atTurn hT hn hpast fun x hx hne => (ho x (hs x hx) hne).1
  exact visit_one hT hn halone hchosen hpast (hother t) (hother _)

/-- Settles O42. -/
theorem oldContentBecomesARecord : Obligations.OldContentBecomesARecord := by
  unfold Obligations.OldContentBecomesARecord
  intro s i lr e cell d h ⟨hb, hop, hw, hd⟩ he hst hdec k clear record freed failed
  have hexec (a : Answer) := exec_oldReadAnswered hb hop hw h.2.2.2 he hst a
  have hfailed : releaseClaim (failEntry e .oldRead freed) = failed := by
    rw [failEntry, releaseClaim_report]
    rfl
  have hframe : failEntry e .oldRead freed = { s with
      rules := (failEntry e .oldRead freed).rules, ev := (failEntry e .oldRead freed).ev
      table := without e.tag s.table, host := { s.host with out := (failEntry e .oldRead freed).host.out }
      mport := s.mport.freed i } := by
    rw [failEntry_frame]
  have hfail := hexec .error
  dsimp only at hfail
  rw [failOldRead_eq] at hfail
  refine ⟨fun hwatch hn hi => ?records, fun ha hn => ?fails,
    fun next hnext ha hT hpfw hopen hat hkind hcls hmiss ho hplace hroom => ?takes⟩
  case records =>
    have hread : ({ e with old := some d } : Entry).watched = [] := hwatch
    have hgo : GoesOnWith (merge (evaluate { e with old := some d } d s).2) e e.action :=
      .inl ⟨by rw [evaluate, hread]; rfl, rfl⟩
    have hrec := settle_recorded (e := e) (d := d) (x := { e with old := some d }) h hb hd rfl hi
    rw [hexec]
    dsimp only
    rw [oldArrives_goesOn hgo]
    dsimp only at hrec ⊢
    rw [if_pos hdec]
    rw [judgedAt_unwatched hread] at hrec ⊢
    exact ⟨_, rfl, hrec.2.2, hrec.1, hrec.2.1⟩
  case fails =>
    rewrite [hfail, settle_endedPreserve h hb hd hdec hn hframe, ← hfailed, releaseClaim, failEntry_pres]
    rfl
  case takes =>
    have htable : failed.table = without e.tag s.table := by
      rw [← hfailed, releaseClaim_table, failEntry_table]
    have hmem := (entryOf_some he).1
    have hne : next.tag ≠ e.tag := fun ht => by
      rw [entry_eq_of_tag hT.2.1 hnext hmem ht, hst] at hat
      cases hat
    have hin : next ∈ failed.table := by
      rw [htable, mem_without]
      exact ⟨hnext, hne⟩
    have hsub : failed.table.Sublist s.table := by
      rw [htable]
      exact without_sublist _ _
    have hfr : failed = { s with
        ev := failed.ev, table := failed.table, host := { s.host with out := failed.host.out }
        pres := { s.pres with claims := s.pres.claims - 1 }, mport := s.mport.freed i } := by
      simp only [failed]
      rw [report_frame]
    have hpres : failed.pres = { s.pres with claims := s.pres.claims - 1 } := by rw [hfr]
    have hplace' : placeFree failed.pres = true := by
      rw [hpres]
      exact decide_eq_true hplace
    have hverdict : verdict failed next = .preserve := by
      rw [hfr]
      exact verdict_of_room hopen hkind hcls hpfw hmiss hplace hroom
    let taken : Entry := { next with decision := some .preserve, epoch := some s.eng.epoch, stage := .fetchingOld }
    let y : State := { failed with
      table := failed.table.map (fun x => if x.tag = next.tag then taken else x)
      pres := { failed.pres with claims := s.pres.claims - 1 + 1 } }
    have hasked : examine next failed = enqueue (.oldRead next.tag next.cell) (cellAddr next.cell) y := by
      rw [examine_eq, hverdict]
      have hepoch : failed.eng.epoch = s.eng.epoch := by rw [hfr]
      have hclaims : failed.pres.claims = s.pres.claims - 1 := by rw [hpres]
      show enqueue _ _ (putEntry { next with decision := some .preserve, epoch := some failed.eng.epoch, stage := .fetchingOld }
        { failed with pres := { failed.pres with claims := failed.pres.claims + 1 } }) = _
      rw [hepoch, hclaims]
      rfl
    have hover : Over failed y ∧ engineSettled y = true := by
      have hye := (settle_unasked h hb hd (t := y) (by
        simp only [y]
        rw [hfr])).1
      refine ⟨⟨quiet_of_engineSettled hye, rfl, ?_, rfl, rfl, ?_⟩, hye⟩
      · rw [hfr]
        exact h.2.1
      · show failed.host.link = []
        rw [hfr]
        exact h.2.2.1
    obtain ⟨hreq, hres⟩ := hover.1.request hover.2 (cellAddr next.cell) (op := .oldRead next.tag next.cell) rfl rfl
    have hfree : freeSlots failed.mport ≠ [] := by
      rw [hfr]
      exact List.ne_nil_of_mem (a := i) (mem_freeSlots.mpr (by simp [MPort.freed]))
    have hafter : afterEnd e freed (failEntry e .oldRead freed) = examine next failed := by
      rw [afterEnd, if_pos hdec, hfailed]
      exact afterFree_atTurn (tableOk_sublist hT hsub) (fun x hx => hsub.subset hx) hin hat hplace' ho _ _
    rw [hafter, hasked] at hfail
    exact ⟨_, hfail, hreq.2 hfree, hres⟩

end Sys2Proof.Machine
end

