-- ==== Sys2Proof/Proofs/Durability.lean ====
section
/-! A record becomes durable with the second acknowledgement of its slot writes, and its write is forwarded
(R48, R49, R51, R52, R164; O44). -/

namespace Sys2Proof.Machine

theorem leave_slotWrite {s : State} {k : Nat} {half : RecHalf} (h : recordSlot k half ∉ s.pres.orphans)
    (bytes : CellData) :
    leave (.slotWrite k half bytes) s = s := by
  rw [leave, List.erase_of_not_mem h]

theorem map_ack {r : RecElem} {rest : List RecElem} (h : ∀ x ∈ rest, x.index ≠ r.index) (half : RecHalf) :
    (r :: rest).map (fun x => if x.index = r.index then x.ack half else x) = r.ack half :: rest := by
  rw [List.map_cons, if_pos rfl, List.map_congr_left fun x hx => if_neg (h x hx), List.map_id']

theorem slotAnswered_ok {s : State} {r : RecElem} {rest : List RecElem} (hq : s.pres.queue = r :: rest)
    (h : ∀ x ∈ rest, x.index ≠ r.index) (half : RecHalf) : slotAnswered r.index half true s =
      afterFree [] true false (durables (rest.length + 1)
        { s with pres := { s.pres with queue := r.ack half :: rest } }) := by
  have hfind : s.pres.queue.find? (fun x => x.index == r.index) = some r := by
    rw [hq]
    exact List.find?_cons_of_pos (by simp)
  have hslot : slotAnswered r.index half true s = slotAcked r.index half s := by
    rewrite [slotAnswered, hfind]
    rfl
  rw [hslot]
  simp only [slotAcked, hq, map_ack h, List.length_cons]

theorem ack_frame (half : RecHalf) (r : RecElem) : (r.ack half).index = r.index ∧ (r.ack half).cell = r.cell ∧
    (r.ack half).tag = r.tag ∧ (r.ack half).requested = r.requested := by
  cases half <;> exact ⟨rfl, rfl, rfl, rfl⟩

/-- Records stop becoming durable at the first that is not ready (R49). -/
theorem durables_of_unready {s : State} (h : ∀ x ∈ s.pres.queue, x.ready = false) (n : Nat) : durables n s = s := by
  cases n with
  | zero => rfl
  | succ n =>
    rw [durables]
    split
    · rfl
    · rename_i r rest hq
      rw [if_neg (by rw [h r (hq ▸ List.mem_cons_self)]; exact Bool.false_ne_true)]

theorem durables_of_ready {s : State} {r : RecElem} {rest : List RecElem} (hq : s.pres.queue = r :: rest)
    (hr : r.ready = true) (n : Nat) : durables (n + 1) s = durables n (makeDurable r rest s) := by
  rw [durables, hq]
  exact if_pos hr

/-- The state once the head record r, owned by e, has become durable (R49, R51, R52). -/
def durable (r : RecElem) (rest : List RecElem) (e : Entry) (s : State) : State :=
  { s with
    table := putIn { e with stage := .issued } s.table
    eng := { s.eng with durableCount := s.eng.durableCount + 1 }
    pres := { s.pres with queue := rest, filter := filterInsert r.cell r.index s.pres.filter } }

theorem makeDurable_forwards {s : State} {r : RecElem} {e : Entry} (he : entryOf s r.tag = some e)
    (hst : e.stage = .recording) (rest : List RecElem) : makeDurable r rest s =
      enqueueLast (.forwardWrite e.tag e.cell e.strobes e.data) (cellAddr e.cell) (durable r rest e s) := by
  have he' : entryOf { s with
      eng := { s.eng with durableCount := s.eng.durableCount + 1 }
      pres := { s.pres with queue := rest, filter := filterInsert r.cell r.index s.pres.filter } } r.tag = some e := he
  rw [makeDurable]
  dsimp only
  rw [he']
  exact if_pos hst

theorem putIn_two {a b : Entry} (h : a.tag ≠ b.tag) (l : List Entry) :
    putIn b (putIn a l) = l.map (fun x => if x.tag = a.tag then a else if x.tag = b.tag then b else x) := by
  rw [putIn, putIn, List.map_map]
  refine List.map_congr_left fun x _ => ?_
  by_cases hx : x.tag = a.tag
  · simp [hx, h]
  · simp [hx]

theorem entryOf_putIn_other {s : State} {e : Entry} {t : Tag} (h : e.tag ≠ t) :
    (putIn e s.table).find? (fun x => x.tag == t) = entryOf s t := by
  rw [entryOf]
  induction s.table with
  | nil => rfl
  | cons x l ih =>
    rw [putIn, List.map_cons, ← putIn]
    by_cases hx : x.tag = e.tag
    · have hxt : x.tag ≠ t := hx ▸ h
      rw [if_pos hx, List.find?_cons_of_neg (by simpa using h), List.find?_cons_of_neg (by simpa using hxt)]
      exact ih
    · rw [if_neg hx, List.find?_cons, List.find?_cons, ih]

section
variable {s x : State} {i : LinkNo} {lr : LinkRec} (h : AtRest s) (hb : s.mport.slots[i] = .busy lr)
  (hd : s.eng.op ≠ .draining)
include h hb hd

/-- Records that leave the queue, or are acknowledged, leave the engine nothing to do. -/
theorem engineSettled_durable (hx : x = { s with
      table := x.table, choices := x.choices
      eng := { s.eng with durableCount := x.eng.durableCount }
      pres := { s.pres with queue := x.pres.queue, filter := x.pres.filter }
      mport := { s.mport.freed i with queue := x.mport.queue } })
    (hq : ∀ r ∈ x.pres.queue, r ∈ s.pres.queue ∨ r.requested = true) : engineSettled x = true := by
  have hw : SameWaits { s with mport := s.mport.freed i } x := by
    rw [hx]
    exact ⟨hd, rfl, rfl, rfl, rfl, rfl, fun _ => rfl⟩
  have hquiet := List.any_eq_false.mp (atRest_records h)
  refine hw.still (atRest_engine (atRest_freed hb h)) (List.any_eq_false.mpr fun r hr => ?_)
  rcases hq r hr with hin | hreq
  · have horph : x.pres.orphans = s.pres.orphans := by rw [hx]
    rw [mayRequest, slotsClear, horph]
    exact hquiet r hin
  · rw [mayRequest, hreq]
    exact Bool.false_ne_true

end

/-- Settles O44. -/
theorem recordBecomesDurable : Obligations.RecordBecomesDurable := by
  unfold Obligations.RecordBecomesDurable
  intro s i lr r rest half bytes d h ⟨hb, hop, hw, hd⟩ hq hrest hreq hn horph acked inserted forwarded owner u
  have hacked : acked = r.ack half := by cases half <;> rfl
  obtain ⟨hindex, hcell, htag, hrequested⟩ := ack_frame half r
  rw [← hacked] at hindex hcell htag hrequested
  let first : State := { u with pres := { s.pres with queue := acked :: rest } }
  have hexec : exec (.mportAnswer i (.ok d)) s = .next (settle (leave (.slotWrite r.index half bytes)
      (afterFree [] true false (durables (rest.length + 1) first)))) := by
    rw [exec_mportAnswer hb hw h.2.2.2, hop]
    have hslot := slotAnswered_ok (s := u) hq hrest half
    rw [← hacked] at hslot
    exact congrArg (fun x => Host.Outcome.next (settle (leave (.slotWrite r.index half bytes) x))) hslot
  have hends {x : State} (hx : durables (rest.length + 1) first = x) (ho : x.pres.orphans = s.pres.orphans)
      (ht : ∀ y ∈ x.table, y ∈ s.table ∨ y.undecided = false) : exec (.mportAnswer i (.ok d)) s = .next (settle x) := by
    rw [hexec, hx, afterFree_of_noneWaits hn ht, leave_slotWrite (ho ▸ horph)]
  have hin : ∀ x ∈ acked :: rest, x ∈ s.pres.queue ∨ x.requested = true := fun x hx => by
    rcases List.mem_cons.mp hx with rfl | hx
    · exact .inr (hrequested.trans hreq)
    · exact .inl (hq ▸ List.mem_cons_of_mem _ hx)
  have hinsert (f : List FilterEntry) (x : RecElem) : filterInsert x.cell x.index f = inserted f x := rfl
  have hissued {e x : Entry} {l : List Entry} (hx : x ∈ putIn { e with stage := .issued } l)
      (hl : ∀ y ∈ l, y ∈ s.table ∨ y.undecided = false) : x ∈ s.table ∨ x.undecided = false := by
    rcases mem_putIn hx with rfl | ⟨hx, -⟩
    · exact .inr rfl
    · exact hl x hx
  refine ⟨fun hready => ?first, fun e hready hunready ⟨he, hst, hj⟩ => ?one,
    fun e next more e' hready hmore hnready hunready ⟨he, hst, hj⟩ ⟨he', hst', hj'⟩ hne => ?two⟩
  case first =>
    have hstop : durables (rest.length + 1) first = first := by
      have hhead : first.pres.queue = acked :: rest := rfl
      rw [durables, hhead]
      exact if_neg (by rw [hready]; exact Bool.false_ne_true)
    rw [hends hstop rfl fun y hy => .inl hy,
      settle_of_engine (engineSettled_durable h hb hd (x := first) rfl hin) h.2.1 h.2.2.1 h.2.2.2]
  case one =>
    let x := durable acked rest e first
    have hdur : durables (rest.length + 1) first = enqueueLast (forwarded e).1 (forwarded e).2 x := by
      rw [durables_of_ready rfl hready, makeDurable_forwards (htag ▸ he) hst]
      exact durables_of_unready hunready _
    have hsettled : engineSettled (enqueueLast (forwarded e).1 (forwarded e).2 x) = true :=
      engineSettled_durable h hb hd (x := enqueueLast (forwarded e).1 (forwarded e).2 x) rfl
        fun y hy => .inl (hq ▸ List.mem_cons_of_mem _ hy)
    have hdeny : deniedAtGrant u.cfg (forwarded e).1 = none := if_neg (by
      rw [show u.cfg = s.cfg from rfl, hj]
      exact Bool.false_ne_true)
    have hqueue : s.mport.queue = [] := h.2.1
    obtain ⟨hone, hfr, heng⟩ := settle_one (b := u) (selfSteps_of_engineSettled hsettled)
      (op := (forwarded e).1) (addr := (forwarded e).2) (f := true) (by
        simp only [enqueueLast, x, durable, first, u, MPort.freed, hqueue, List.nil_append]) rfl rfl hsettled h.2.2.1 hdeny rfl
    have hfree : freeSlots u.mport ≠ [] := List.ne_nil_of_mem (a := i) (mem_freeSlots.mpr (by simp [u, MPort.freed]))
    rw [if_neg hfree] at heng
    refine ⟨_, hends hdur rfl fun y hy => hissued hy fun z hz => .inl hz, hone.2 hfree, ?_⟩
    rw [hfr, heng, ← hinsert, ← hcell, ← hindex]
    rfl
  case two =>
    subst hmore
    let x := durable next more e' (enqueueLast (forwarded e).1 (forwarded e).2 (durable acked (next :: more) e first))
    have hother : entryOf (enqueueLast (forwarded e).1 (forwarded e).2 (durable acked (next :: more) e first))
        next.tag = some e' := by
      have hnt : next.tag = e'.tag := (entryOf_some he').2.symm
      exact (entryOf_putIn_other (e := { e with stage := .issued }) (hnt ▸ hne)).trans he'
    have hdur : durables ((next :: more).length + 1) first = enqueueLast (forwarded e').1 (forwarded e').2 x := by
      rw [durables_of_ready rfl hready, makeDurable_forwards (htag ▸ he) hst]
      rw [List.length_cons, durables_of_ready rfl hnready, makeDurable_forwards hother hst']
      exact durables_of_unready hunready _
    have hsettled : engineSettled (enqueueLast (forwarded e').1 (forwarded e').2 x) = true :=
      engineSettled_durable h hb hd (x := enqueueLast (forwarded e').1 (forwarded e').2 x) rfl
        fun y hy => .inl (hq ▸ List.mem_cons_of_mem _ (List.mem_cons_of_mem _ hy))
    have hdeny {e : Entry} (hj : inJournalArea s.cfg e.cell = false) : deniedAtGrant u.cfg (forwarded e).1 = none :=
      if_neg (by rw [show u.cfg = s.cfg from rfl, hj]; exact Bool.false_ne_true)
    have hqueue : s.mport.queue = [] := h.2.1
    obtain ⟨htwo, hfr⟩ := settle_two (b := u) (p := forwarded e) (q := forwarded e') (f := true) (f' := true)
      (selfSteps_of_engineSettled hsettled) (by
        simp only [enqueueLast, x, durable, first, u, MPort.freed, hqueue, List.nil_append, List.cons_append])
      rfl rfl hsettled h.2.2.1 (hdeny hj) (hdeny hj') rfl rfl
    refine ⟨_, hends hdur rfl fun y hy => hissued hy fun z hz => hissued hz fun w hw => .inl hw, htwo, ?_⟩
    rw [hfr, ← hinsert, ← hinsert, ← hcell, ← hindex]
    have htable := putIn_two (a := { e with stage := .issued }) (b := { e' with stage := .issued }) hne s.table
    simp only at htable
    rewrite [← htable]
    rfl

end Sys2Proof.Machine
end

