-- ==== Sys2Proof/Proofs/RecordFaults.lean ====
section
/-! A failed slot write removes its record and every younger one (R58, R61; O45). -/

namespace Sys2Proof.Machine

/-! ### The owners of the removed records -/

/-- Two records of the queue have two owners (R45). -/
theorem owners_distinct {s : State} (h : BlocksOk s) : (s.pres.queue.map (·.tag)).Nodup := by
  obtain ⟨hT, -, -, -, -, -, -, ⟨hown, -⟩, -⟩ := id h
  have hd := distinct_of_blocks h
  rw [DistinctRecords, List.nodup_map_iff_inj_on (hd.of_map _)] at hd
  refine (List.nodup_map_iff_inj_on ((distinct_of_blocks h).of_map _)).mpr fun x hx y hy hxy => hd x hx y hy ?_
  obtain ⟨e, he, hte, -, hre⟩ := hown x hx
  obtain ⟨e', he', hte', -, hre'⟩ := hown y hy
  rw [entry_eq_of_tag hT.2.1 he he' (hte.trans (hxy.trans hte'.symm)), hre'] at hre
  exact (Option.some.inj hre).symm

/-- Every owner of a removed record is answered FAILED, in index order (R58). -/
theorem failOwners_answers (gone : List RecElem) {s : State} (hn : (s.table.map (·.tag)).Nodup)
    (ho : ∀ r ∈ gone, ∃ e ∈ s.table, e.tag = r.tag ∧ e.stage = .recording) (hd : (gone.map (·.tag)).Nodup) :
    (gone.foldl failOwner s).host.out = s.host.out ++ gone.map (fun x => ⟨x.tag, .failed⟩) := by
  induction gone generalizing s with
  | nil => simp
  | cons r gone ih =>
    obtain ⟨e, he, htag, hst⟩ := ho r List.mem_cons_self
    rw [List.map_cons, List.nodup_cons] at hd
    have hent : entryOf s r.tag = some e := htag ▸ entryOf_of_nodup hn he
    have hfail : failOwner s r = endEntry e .failed s := by
      rewrite [failOwner, hent]
      exact if_pos hst
    have hrest : ∀ x ∈ gone, ∃ y ∈ (endEntry e .failed s).table, y.tag = x.tag ∧ y.stage = .recording := by
      intro x hx
      obtain ⟨y, hy, hty, hsy⟩ := ho x (List.mem_cons_of_mem _ hx)
      refine ⟨y, mem_without.mpr ⟨hy, fun heq => hd.1 ?_⟩, hty, hsy⟩
      rw [← htag, ← heq, hty]
      exact List.mem_map_of_mem hx
    rw [List.foldl_cons, hfail, ih (hn.sublist ((without_sublist e.tag s.table).map _)) hrest hd.2, List.map_cons, ← htag]
    simp [endEntry, respond, freeEntry]

/-! ### What a record fault leaves -/


theorem staleAny_disown (p q : MemOp → Bool) (s : State) :
    (disown p s).mport.slots.toList.any (LinkSlot.isStaleWith q) = s.mport.slots.toList.any (LinkSlot.isStaleWith q) := by
  rw [disown_slots, List.any_map]
  refine congrArg (fun f => s.mport.slots.toList.any f) (funext fun x => ?_)
  cases x with
  | stale r =>
    simp only [Function.comp_apply, dropSlot, LinkSlot.isStaleWith]
    split <;> rfl
  | _ => rfl

section
variable {s : State} {r : RecElem} {half : RecHalf}

/-- The state after a record fault, part by part (R58). -/
structure Removed (s t : State) (r : RecElem) (half : RecHalf) : Prop where
  pres : t.pres = { s.pres with
    queue := s.pres.queue.filter (fun x => decide (x.index < r.index))
    orphans := s.pres.orphans ++ outstandingSlots r.index s.mport }
  eng : t.eng = { s.eng with nextIndex := r.index }
  host : t.host = { s.host with
    out := s.host.out ++ (s.pres.queue.filter (fun x => decide (r.index ≤ x.index))).map (fun x => ⟨x.tag, .failed⟩) }
  table : t.table = s.table.filter (fun e =>
    !((s.pres.queue.filter (fun x => decide (r.index ≤ x.index))).any (fun x => x.tag == e.tag)))
  ev : t.ev = (report .fault (.journalFault (cellAddr r.cell) r.tag r.index half)
    { s with eng := { s.eng with nextIndex := r.index } }).ev
  mport : t.mport = (disown (MemOp.isSlotWriteFrom r.index) s).mport
  rest : t = { s with table := t.table, pres := t.pres, eng := t.eng, host := t.host, ev := t.ev, mport := t.mport }

theorem removed_of_blocks (h : BlocksOk s) (r : RecElem) (half : RecHalf) : Removed s (removeFrom r half s) r half := by
  obtain ⟨-, -, -, -, -, -, -, ⟨hown, -⟩, -⟩ := id h
  let gone := s.pres.queue.filter (fun x => decide (r.index ≤ x.index))
  let s1 : State := { s with pres := { s.pres with queue := s.pres.queue.filter (fun x => !decide (r.index ≤ x.index)) } }
  have hsub : gone.Sublist s.pres.queue := List.filter_sublist
  have howners : ∀ x ∈ gone, ∃ e ∈ s1.table, e.tag = x.tag ∧ e.stage = .recording := fun x hx => by
    obtain ⟨e, he, ht, hst, -⟩ := hown x (hsub.subset hx)
    exact ⟨e, he, ht, hst⟩
  obtain ⟨out, hspec⟩ := failOwners_spec gone (s := s1) h.1.2.1
  have hout : out = s.host.out ++ gone.map (fun x => ⟨x.tag, .failed⟩) := by
    have hans := failOwners_answers gone (s := s1) h.1.2.1 howners ((owners_distinct h).sublist (hsub.map _))
    rw [hspec] at hans
    exact hans
  have htable : s1.table.filter (fun e => !(e.stage == .recording && gone.any (fun x => x.tag == e.tag))) =
      s.table.filter (fun e => !(gone.any (fun x => x.tag == e.tag))) := by
    refine List.filter_congr fun e he => ?_
    cases hany : gone.any (fun x => x.tag == e.tag) with
    | false => simp
    | true =>
      obtain ⟨x, hx, hxt⟩ := List.any_eq_true.mp hany
      obtain ⟨y, hy, hyt, hys⟩ := howners x hx
      have hey : e = y := entry_eq_of_tag h.1.2.1 he hy ((by simpa using hxt : x.tag = e.tag).symm.trans hyt.symm)
      rw [hey, hys]
      rfl
  have hkept : s.pres.queue.filter (fun x => !decide (r.index ≤ x.index)) =
      s.pres.queue.filter (fun x => decide (x.index < r.index)) :=
    List.filter_congr fun x _ => by rw [← decide_not, decide_eq_decide, Nat.not_le]
  let base : State := { s with
    host := { s.host with out := out }, table := s.table.filter (fun e => !(gone.any (fun x => x.tag == e.tag)))
    pres := { s.pres with queue := s.pres.queue.filter (fun x => decide (x.index < r.index)) }
    eng := { s.eng with nextIndex := r.index } }
  let noted := report .fault (.journalFault (cellAddr r.cell) r.tag r.index half) base
  have hnoted : noted = { base with ev := noted.ev } := report_frame _ _ _
  have hremove : removeFrom r half s = disown (MemOp.isSlotWriteFrom r.index) { noted with
      pres := { noted.pres with orphans := noted.pres.orphans ++ outstandingSlots r.index noted.mport } } := by
    rw [htable] at hspec
    unfold removeFrom
    dsimp only
    rw [hspec]
    simp only [s1, noted, base, hkept]
  have hev : noted.ev = (report .fault (.journalFault (cellAddr r.cell) r.tag r.index half)
      { s with eng := { s.eng with nextIndex := r.index } }).ev := report_ev_of rfl rfl rfl
  subst hout
  rw [hremove, hnoted, hev]
  exact ⟨rfl, rfl, rfl, rfl, rfl, rfl, rfl⟩

end

/-- Settles O45. -/
theorem recordFaultRemovesTheTail : Obligations.RecordFaultRemovesTheTail := by
  unfold Obligations.RecordFaultRemovesTheTail
  intro s i lr r half bytes h ⟨hb, hop, hw, hd⟩ hblocks hr hn horph k gone
  let b : State := { s with mport := s.mport.freed i }
  have hrem : Removed b (removeFrom r half b) r half := removed_of_blocks (s := b) hblocks r half
  generalize hx : removeFrom r half b = x at hrem
  have hfind : b.pres.queue.find? (fun y => y.index == r.index) = some r := by
    cases hf : s.pres.queue.find? (fun y => y.index == r.index) with
    | none => exact absurd (by simp) (List.find?_eq_none.mp hf r hr)
    | some y =>
      have hy : y.index = r.index := by simpa using List.find?_some hf
      exact congrArg some (record_unique (distinct_of_blocks hblocks) (List.mem_of_find?_eq_some hf) hr hy)
  have hslot : slotAnswered r.index half false b = x := by
    have hfault : slotAnswered r.index half false b = recordFault r half b := by
      rewrite [slotAnswered, hfind]
      rfl
    rw [hfault, recordFault, hx]
    refine afterFree_of_noneWaits hn (fun e he => ?_) _ _ _
    rw [hrem.table] at he
    exact .inl (List.mem_filter.mp he).1
  have hleave : leave (.slotWrite r.index half bytes) x = x := leave_slotWrite (by rw [hrem.pres]; exact horph) bytes
  have hslots : x.mport.slots = (disown (MemOp.isSlotWriteFrom r.index) b).mport.slots := congrArg MPort.slots hrem.mport
  have hqueue : x.mport.queue = [] := by
    rw [hrem.mport, disown_queue, show b.mport.queue = [] from h.2.1, List.filter_nil]
  have hwaits : SameWaits b x := by
    refine ⟨hd, ?_, ?_, ?_, ?_, ?_, fun cell => ?_⟩
    iterate 5 rw [hrem.eng]
    rw [staleForwardTo, hslots]
    exact staleAny_disown _ _ b
  have hquiet : RecordsQuiet x := by
    refine List.any_eq_false.mpr fun y hy hmay => ?_
    rw [mayRequest, slotsClear, hrem.pres] at hmay
    rw [hrem.pres] at hy
    have hold := List.any_eq_false.mp (atRest_records h) y (List.mem_filter.mp hy).1
    simp only [mayRequest, slotsClear, List.contains_eq_mem, List.mem_append, Bool.and_eq_true, Bool.not_eq_true',
      decide_eq_false_iff_not] at hold hmay
    exact hold ⟨hmay.1, fun hm => hmay.2.1 (.inl hm), fun hm => hmay.2.2 (.inl hm)⟩
  have hset : settle x = x :=
    settle_same (atRest_freed hb h) hwaits hquiet hqueue (by rw [hrem.host]) (by rw [hrem.host])
  refine ⟨x, ?_, hrem.pres, hrem.eng, hrem.host, hrem.table, hrem.ev.trans (report_ev_of rfl rfl rfl), hqueue, ?_, ?_,
    ?_, ?_, ?_, ?_, ?_, ?_⟩
  · rw [exec_mportAnswer hb hw h.2.2.2, hop]
    show Host.Outcome.next (settle (leave _ (slotAnswered r.index half false b))) = _
    rw [hslot, hleave, hset]
  · rw [hrem.mport]
    rfl
  · have hfree : b.mport.slots[i] = .free := by simp [b, MPort.freed]
    have hget : x.mport.slots[i] = (disown (MemOp.isSlotWriteFrom r.index) b).mport.slots[i] := by rw [hslots]
    rw [hget]
    show (mapSlots _ b.mport.slots)[i] = _
    rw [mapSlots_get, hfree]
  all_goals rw [hrem.rest]

end Sys2Proof.Machine
end

