-- ==== Sys2Proof/Proofs/LinkSlotTimers.lean ====
section
/-! A release requests the slot writes of every record of the queue that may be requested, so two records with one index,
which no step of the part brings about, request four slot writes where the statement has two (R47, R167; O54 is
refuted). -/

namespace Sys2Proof.Machine

/-- A record of index 0 with no slot write requested. -/
def unrequestedRecord : RecElem :=
  { index := 0, cell := 0, data := 0, tag := 0, epoch := 0, journalId := 0, requested := false, headerAck := false,
    dataAck := false }

/-- The slot write given up, in its quarantine. -/
def staleSlotWrite : LinkRec := { op := .slotWrite 0 .header 0, addr := 0, issued := 0, limit := 5, wanted := false }

/-- The queue holds two records of index 0, whose slots the one stale slot write still keeps from them. -/
def twinRecords : State :=
  { State.reset with
    choices := { given := List.replicate 8 0, drawn := 0 }
    pres := { Preservation.reset with
      queue := [unrequestedRecord, unrequestedRecord], orphans := [recordSlot 0 .header] }
    mport := { MPort.reset with slots := MPort.reset.slots.set 0 (.stale staleSlotWrite) } }

/-- The state the late answer leaves. -/
def twinRelease : State := memoryAnswer 0 .error twinRecords

/-- Both records have their two slot writes issued. -/
theorem twinRelease_out : twinRelease.mport.out.length = 4 := by decide +kernel

/-- A pair requested with two link slots FREE is issued, and nothing else is. -/
theorem out_of_requestsPair {s t : State} {p q : MemOp × Addr} (h : RequestsPair s t p q)
    (hf : 2 ≤ (freeSlots s.mport).length) : t.mport.out.length = s.mport.out.length + 2 := by
  rcases h with ⟨-, -, h⟩ | ⟨-, -, h⟩
  · obtain ⟨i, j, -, -, -, hm⟩ := h hf
    rw [hm, List.length_append]
    rfl
  · obtain ⟨i, j, -, -, -, hm⟩ := h hf
    rw [hm, List.length_append]
    rfl

/-- Refutes O54: with two records of one index in the queue, the release that lets the record go on requests the slot
writes of both. -/
theorem not_linkSlotTimers : ¬ Obligations.LinkSlotTimers := by
  unfold Obligations.LinkSlotTimers
  intro h
  obtain ⟨-, -, -, -, hstale⟩ := h twinRecords 0 staleSlotWrite .error
  obtain ⟨-, -, hrecord, -, -⟩ := hstale rfl rfl rfl rfl EngineOp.noConfusion
  obtain ⟨t, ht, -, hwrites, -⟩ := hrecord unrequestedRecord rfl (fun x hx => absurd hx List.not_mem_nil) rfl rfl
    (by decide) (by decide) (by decide)
  have hreleased : t = twinRelease := (Host.Outcome.next.inj ht).symm
  have hout := out_of_requestsPair hwrites (by decide +kernel)
  rw [hreleased, twinRelease_out] at hout
  exact absurd hout (by decide)

end Sys2Proof.Machine
end
